-- ==== Sys2Proof/Word.lean ====
section
/-! DEFINITION. The word types of the CZ-6400 (R3): bytes, 32-bit registers, 64-bit pairs, lane masks,
memories as canonical lists of cells, and sparse register tables in the same form. -/

namespace Sys2Proof

/-- One byte of storage. -/
abbrev Byte := BitVec 8

/-- A 32-bit register of one lane, or a 32-bit scalar register (R37). -/
abbrev Word := BitVec 32

/-- A 64-bit register or pair (R38). -/
abbrev DWord := BitVec 64

/-- One bit per lane of a group, lane `l` in bit `l` (R2). -/
abbrev Mask := BitVec 32

/-- A storage space: the listed bytes by address, strictly rising, none equal to the byte 0 that an unlisted
address reads as. -/
abbrev Memory := List Host.Cell

/-- A register table in the same canonical form as a memory: an unlisted index reads as 0. -/
abbrev Tab (w : Nat) := List (Nat × BitVec w)

end Sys2Proof
end

