-- ==== Sys2Proof/Syntax.lean ====
section
/-! DEFINITION. The instructions of the CZ-6400 and the device and outside events of spec/opcode_table.json, one
constructor of `Instr` per row. Operand fields are those of 19_encoding.md; what an event needs to be told (which
group, which team, which data) is an argument of its constructor. -/

namespace Sys2Proof

/-- A guard (R262): `pred = 7` is always true; `neg` negates. -/
structure Guard where
  pred : Fin 8
  neg  : Bool
  deriving DecidableEq, Repr

/-- A source operand (Table 19-8). -/
inductive Src where
  | v (n : Fin 384)
  | c (k : Fin 16)      -- age c(k+1)
  | b (n : Fin 64)
  | s (n : Fin 16)
  | g (n : Fin 16)
  | imm
  | zero
  | lane
  deriving DecidableEq, Repr

/-- A destination operand (R39, R46). `none nw`: no register is named; with `nw` the field NW is set ("_"). -/
inductive Dst where
  | v (n : Fin 384)
  | b (n : Fin 64)
  | s (n : Fin 16)
  | none (nw : Bool)
  deriving DecidableEq, Repr

/-- The integer and bit types of Table 19-9, in code order. -/
inductive IntTy where
  | i32 | n32 | i64 | n64 | i16x2 | n16x2 | i8x4 | n8x4 | b32 | b64 | b128
  deriving DecidableEq, Repr

/-- The floating-point types of Table 19-9, in code order. -/
inductive FpTy where
  | f32 | f64 | f16 | bf16 | f16x2 | bf16x2 | f32x2 | p8x4 | e4m3x4 | e5m2x4 | e3m2x4 | e2m3x4 | e2m1x8 | e8m0x4
  deriving DecidableEq, Repr

/-- The load and store types of Table 19-9, in code order. -/
inductive LdTy where
  | i8 | n8 | i16 | n16 | b32 | b64 | b128 | bf16 | f16
  deriving DecidableEq, Repr

/-- A type read from the integer table or from the floating-point table. -/
inductive AnyTy where
  | i (t : IntTy)
  | f (t : FpTy)
  deriving DecidableEq, Repr

/-- The matrix input types of Table 12-2. -/
inductive MatTy where
  | f32 | f64 | f16 | bf16 | p8 | e4m3 | e5m2 | e3m2 | e2m3 | e2m1 | i8 | n8
  deriving DecidableEq, Repr

/-- The accumulator types of Table 12-2. -/
inductive AccTy where
  | f32 | f64 | i32
  deriving DecidableEq, Repr

/-- Rounding modes (Table 10-2). -/
inductive Rnd where
  | rn | rz | rd | ru | rna
  deriving DecidableEq, Repr

/-- Comparisons of setp and fsetp (Table 19-11, Table 22-4); `uo` and `ord` only for fsetp. -/
inductive Cmp where
  | eq | ne | lt | le | gt | ge | uo | ord
  deriving DecidableEq, Repr

/-- How a comparison combines with predicate C (Table 19-11). -/
inductive Comb where
  | none
  | and (p : Fin 8)
  | or (p : Fin 8)
  | xor (p : Fin 8)
  deriving DecidableEq, Repr

/-- Ordering codes (Table 7-4). -/
inductive Ord where
  | weak | rlx | acqrel | sc
  deriving DecidableEq, Repr

/-- Scopes (Table 7-3). -/
inductive Scope where
  | group | team | cluster | die | device | system
  deriving DecidableEq, Repr

/-- Atomic operations (Table 8-1), SUB 0 to 11. -/
inductive AtomOp where
  | add | min | max | and | or | xor | xchg | inc | dec | fadd | fmin | fmax
  deriving DecidableEq, Repr

/-- Operations of redux (Table 23-4), SUB 0 to 8. -/
inductive ReduxOp where
  | add | min | max | and | or | xor | fadd | fmin | fmax
  deriving DecidableEq, Repr

/-- Modes of shfl (Table 19-11). -/
inductive ShflMode where
  | idx | up | down | xor
  deriving DecidableEq, Repr

/-- Where a vote goes (R373): all, any and eq write a predicate, ballot a register. -/
inductive VoteForm where
  | all (p : Fin 8)
  | any (p : Fin 8)
  | eq (p : Fin 8)
  | ballot (d : Dst)
  deriving DecidableEq, Repr

/-- Fence kinds (Table 19-11). -/
inductive FenceKind where
  | acqrel | acq | rel | sc
  deriving DecidableEq, Repr

/-- Comparisons of waitv (R115). -/
inductive WaitCmp where
  | eq | ne | ge | lt
  deriving DecidableEq, Repr

/-- Copy kinds (Table 21-3), SUB 0 to 7. -/
inductive CopyKind where
  | linear | strided2 | strided3 | gather | scatter | fill | combine | metaq
  deriving DecidableEq, Repr

/-- The part every format V instruction shares: guard, scalar issue (SC, R243) and the immediate field. -/
structure Hdr where
  guard : Guard
  uni   : Bool
  imm   : BitVec 32
  deriving DecidableEq, Repr

/-- The address part of format M (R61, R245): selector form or linkage form. `sel 0` is pointer mode. -/
inductive MAddr where
  | sel (g : Fin 16) (off : BitVec 24)
  | link (slot : BitVec 16) (off : BitVec 12)
  deriving DecidableEq, Repr

/-- The part every format M instruction shares. `a` is the per-lane offset or the pointer pair; absent when the
field holds 511. -/
structure MHdr where
  guard : Guard
  addr  : MAddr
  a     : Option Src
  ord   : Ord
  scope : Scope
  evp   : Fin 8
  deriving DecidableEq, Repr

/-- The fields of a matrix instruction (Table 12-3). `low` is the format byte, or the B scale register of mmx. -/
structure MatF where
  guard : Guard
  tya   : MatTy
  tyc   : AccTy
  ru    : Bool
  acc   : Bool
  sat   : Bool
  a     : Fin 512
  b     : BitVec 18
  c     : BitVec 18
  n     : Fin 8
  low   : BitVec 8
  deriving DecidableEq, Repr

/-- A group place (TRAPWHO.PLACE, R186). -/
structure Place where
  die  : Nat
  core : Nat
  part : Nat
  slot : Nat
  deriving DecidableEq, Repr

/-- Who writes a hub register (R64, R174, R218, R235): a general core, on which Mihus runs, the host driver, or a
management controller. -/
inductive Agent where
  | general (core : Nat)
  | host
  | manager
  deriving DecidableEq, Repr

/-- What an outside agent asks of memory: read `n` bytes, write bytes, or a read-modify-write of R108 on a word; or to read
the management register at a hub offset (R235) or a host window (R230). -/
inductive OutAccess where
  | read (n : Nat)
  | write (bytes : List (BitVec 8))
  | atom (op : AtomOp) (ty : AnyTy) (b : Nat)
  | hub
  | window (k : Nat)
  deriving DecidableEq, Repr

/-- What a copy engine reads for an element (Table 21-3): its entry of the index list, its source, or its destination. -/
inductive CopyPart where
  | index
  | source
  | dest
  deriving DecidableEq, Repr

/-- Which failure a copy engine meets (R299): uncorrectable data or an error of the host or a peer at a byte of one of its
reads, or a write that cannot be performed (R220). -/
inductive EngineErr where
  | data (part : CopyPart) (byte : Nat)
  | hostOrPeer (part : CopyPart) (byte : Nat)
  | write
  deriving DecidableEq, Repr

/-- A correctable error (R231): none, of a DRAM line, or of SRAM, in a core or elsewhere. -/
inductive Corrected where
  | clean
  | dram
  | sram (core : Option (Nat × Nat))
  deriving DecidableEq, Repr

/-- A recorded operation of a capturing task (R233): context, task, team index, group index, its number among the group's
operations, lane. -/
structure CapRec where
  ctx   : Nat
  task  : Nat
  team  : Nat
  group : Nat
  op    : Nat
  lane  : Nat
  deriving DecidableEq, Repr

/-- What is recorded at a CAPTURE_RECORD (R233): an ordered operation of a group, or a copy engine's snapshot of an input
segment of a task. -/
inductive CapWhat where
  | op (id : Nat)
  | snapshot (task ptr n : Nat)
  deriving DecidableEq, Repr

/-- What the host asks of a half of a line (R217): ownership or a shared copy; `err` says that the device cannot read it
(R220). -/
structure OwnAsk where
  own : Bool
  err : Bool
  deriving DecidableEq, Repr

/-- What a cold reset meets outside the device (R214, R223, R228): the step at which power is lost, whether the link partner
trains with CXL, and the failing channels, by stack and number, that step 6 replaces where it is done another way. -/
structure BootEnv where
  powerLost : Option Nat
  cxl       : Bool
  channels  : List (Nat × Nat)
  deriving DecidableEq, Repr

/-- An answer of the SPDM responder (R226, R227). -/
inductive Spdm where
  | notReady
  | version (versions : List Nat)
  | capabilities (requests : List Nat)
  | algorithms (curve hash : Nat)
  | digests (d : BitVec 384)
  | certificate (chain : List (BitVec 8))
  | challenge (sig : List (BitVec 8))
  | measurements (block : Nat) (reg : BitVec 512) (sig : Option (List (BitVec 8)))
  | invalidRequest
  deriving DecidableEq, Repr

/-- One flash slot (R224). -/
structure FlashSlot where
  version : Nat
  digests : List (BitVec 512)
  pubkey  : List (BitVec 8)
  sig     : List (BitVec 8)
  header  : List (BitVec 8)
  images  : List (List (BitVec 8))
  deriving DecidableEq, Repr

/-- A hub register without behaviour of its own (HUB_REGISTER_WRITE): by hub offset and writer; a field of the hub's
context table, for which the spec gives no offset; a boot step byte or a measurement register that Mihus reports
(R223, R225); the fused rollback counter (R230); a flash slot (R229); room in a context's capture area (R233); the record
that a launch replays (R234). -/
inductive HubReg where
  | offset (o : Nat) (by_ : Agent)
  | stepByte (k : Nat)
  | measure (k : Nat) (d : List (BitVec 8))
  | rollback
  | flash (slot : Nat) (x : FlashSlot)
  | captureFree (ctx n : Nat)
  | replayLoad (task : Nat) (recs : List CapRec)
  | ctxRoot (ctx : Nat)
  | ctxResident (ctx : Nat)
  | ctxHandlers (ctx : Nat)
  | ctxBtBase (ctx : Nat)
  | ctxSegTable (ctx : Nat)
  | ctxNameRules (ctx : Nat)
  | ctxCapture (ctx : Nat)
  | ctxSave (ctx : Nat)
  deriving DecidableEq, Repr

/-- One instruction of a program, or one event of the device or of an outside agent: one constructor per row of
spec/opcode_table.json, in the table's order. -/
inductive Instr where
  -- control (format B)
  | nop (seven : Bool)
  | bra (gd : Guard) (rcv : BitVec 18) (off : BitVec 32)
  | brx (gd : Guard) (a : Fin 384) (rcv : BitVec 18)
  | call (gd : Guard) (fb : BitVec 6) (off : BitVec 32)
  | calli (gd : Guard) (fb : BitVec 6) (a : Src)
  | ret (gd : Guard) (n : Fin 9)
  | unwind (gd : Guard) (a : Src) (off : BitVec 32)
  | regang
  | exit (gd : Guard)
  | yield (gd : Guard) (rcv : BitVec 18) (th : BitVec 30)
  | trap (gd : Guard) (code : BitVec 32)
  | assert (gd : Guard) (t : Fin 8) (m : Fin 16)
  | brk (gd : Guard) (code : BitVec 32)
  -- integer and bit instructions
  | add (h : Hdr) (ty : IntTy) (sat : Bool) (d : Dst) (a b : Src)
  | sub (h : Hdr) (ty : IntTy) (sat : Bool) (d : Dst) (a b : Src)
  | mul (h : Hdr) (ty : IntTy) (sat : Bool) (d : Dst) (a b : Src)
  | mulhi (h : Hdr) (ty : IntTy) (d : Dst) (a b : Src)
  | mad (h : Hdr) (ty : IntTy) (sat : Bool) (d : Dst) (a b c : Src)
  | mulwide (h : Hdr) (ty : IntTy) (d : Dst) (a b : Src)
  | min (h : Hdr) (ty : IntTy) (d : Dst) (a b : Src)
  | max (h : Hdr) (ty : IntTy) (d : Dst) (a b : Src)
  | abs (h : Hdr) (ty : IntTy) (sat : Bool) (d : Dst) (a : Src)
  | neg (h : Hdr) (ty : IntTy) (sat : Bool) (d : Dst) (a : Src)
  | and (h : Hdr) (ty : IntTy) (d : Dst) (a b : Src)
  | or (h : Hdr) (ty : IntTy) (d : Dst) (a b : Src)
  | xor (h : Hdr) (ty : IntTy) (d : Dst) (a b : Src)
  | not (h : Hdr) (ty : IntTy) (d : Dst) (a : Src)
  | lop3 (h : Hdr) (ty : IntTy) (d : Dst) (a b c : Src)
  | shl (h : Hdr) (ty : IntTy) (d : Dst) (a b : Src)
  | shr (h : Hdr) (ar : Bool) (ty : IntTy) (d : Dst) (a b : Src)
  | fsh (h : Hdr) (right : Bool) (d : Dst) (a b c : Src)
  | popc (h : Hdr) (ty : IntTy) (d : Dst) (a : Src)
  | clz (h : Hdr) (ty : IntTy) (d : Dst) (a : Src)
  | brev (h : Hdr) (ty : IntTy) (d : Dst) (a : Src)
  | bfe (h : Hdr) (ty : IntTy) (d : Dst) (a b c : Src)
  | bfi (h : Hdr) (ty : IntTy) (d : Dst) (a b c : Src)
  | setp (h : Hdr) (cmp : Cmp) (comb : Comb) (ty : IntTy) (p : Fin 8) (a b : Src)
  | sel (h : Hdr) (ty : IntTy) (d : Dst) (a b : Src) (p : Fin 8)
  | leaPtr (h : Hdr) (ty : IntTy) (d : Dst) (a b : Src)
  | leaAdd (h : Hdr) (ty : IntTy) (d : Dst) (a b : Src)
  | leaSeg (h : Hdr) (g : Fin 16) (a : Src)
  | leaChk (h : Hdr) (p : Fin 8) (a b : Src)
  | mov (h : Hdr) (ty : IntTy) (d : Dst) (a : Src)
  | smovRead (gd : Guard) (wide : Bool) (d : Dst) (reg : Fin 19)
  | smovWriteCrew (gd : Guard) (a : Src)
  | prmt (h : Hdr) (d : Dst) (a b c : Src)
  -- floating point
  | fadd (h : Hdr) (ty : FpTy) (rm : Rnd) (sat : Bool) (d : Dst) (a b : Src)
  | fsub (h : Hdr) (ty : FpTy) (rm : Rnd) (sat : Bool) (d : Dst) (a b : Src)
  | fmul (h : Hdr) (ty : FpTy) (rm : Rnd) (sat : Bool) (d : Dst) (a b : Src)
  | fma (h : Hdr) (ty : FpTy) (rm : Rnd) (sat : Bool) (d : Dst) (a b c : Src)
  | fmin (h : Hdr) (ty : FpTy) (d : Dst) (a b : Src)
  | fmax (h : Hdr) (ty : FpTy) (d : Dst) (a b : Src)
  | fsetp (h : Hdr) (cmp : Cmp) (comb : Comb) (ty : FpTy) (p : Fin 8) (a b : Src)
  | frcp (h : Hdr) (ty : FpTy) (rm : Rnd) (sat : Bool) (d : Dst) (a : Src)
  | frsq (h : Hdr) (ty : FpTy) (rm : Rnd) (sat : Bool) (d : Dst) (a : Src)
  | fsqrt (h : Hdr) (ty : FpTy) (rm : Rnd) (sat : Bool) (d : Dst) (a : Src)
  | fdiv (h : Hdr) (ty : FpTy) (rm : Rnd) (sat : Bool) (d : Dst) (a b : Src)
  | fex2 (h : Hdr) (ty : FpTy) (rm : Rnd) (sat : Bool) (d : Dst) (a : Src)
  | flg2 (h : Hdr) (ty : FpTy) (rm : Rnd) (sat : Bool) (d : Dst) (a : Src)
  | fsin (h : Hdr) (ty : FpTy) (rm : Rnd) (sat : Bool) (d : Dst) (a : Src)
  | fcos (h : Hdr) (ty : FpTy) (rm : Rnd) (sat : Bool) (d : Dst) (a : Src)
  | fscale (h : Hdr) (ty : FpTy) (rm : Rnd) (sat : Bool) (d : Dst) (a b : Src)
  | fclass (h : Hdr) (ty : FpTy) (d : Dst) (a : Src)
  | fdot2 (h : Hdr) (ty : FpTy) (rm : Rnd) (sat : Bool) (d : Dst) (a b c : Src)
  | frnd (h : Hdr) (ty : FpTy) (rm : Rnd) (d : Dst) (a : Src)
  | cvt (h : Hdr) (src dst : AnyTy) (rm : Rnd) (sat : Bool) (d : Dst) (a : Src)
  -- lane exchange
  | shfl (h : Hdr) (mode : ShflMode) (ty : IntTy) (d : Dst) (a b : Src) (p : Fin 8)
  | vote (h : Hdr) (form : VoteForm) (wide : Bool) (a : Src)
  | redux (h : Hdr) (op : ReduxOp) (ty : AnyTy) (sat : Bool) (d : Dst) (a : Src)
  | scan (h : Hdr) (excl : Bool) (ty : IntTy) (sat : Bool) (d : Dst) (a : Src)
  -- memory (format M)
  | ld (m : MHdr) (ty : LdTy) (d : Fin 384)
  | st (m : MHdr) (ty : LdTy) (b : Src)
  | pf (m : MHdr)
  | touch (m : MHdr) (b : Src)
  | fence (gd : Guard) (kind : FenceKind) (scope : Scope)
  | cctlWb (m : MHdr)
  | cctlInv (m : MHdr)
  | cctlWbinv (m : MHdr)
  | cctlUnhold (m : MHdr)
  | sts (m : MHdr) (wide : Bool) (p : Fin 8) (b : Src)
  | retract (m : MHdr) (wide : Bool) (p : Fin 8)
  | settle (m : MHdr) (wide : Bool)
  | atom (m : MHdr) (op : AtomOp) (ty : AnyTy) (d : Fin 384) (b : Src)
  | red (m : MHdr) (op : AtomOp) (ty : AnyTy) (b : Src)
  | cas (m : MHdr) (ty : IntTy) (d : Fin 384) (b c : Src)
  | cpadd (m : MHdr) (wide : Bool) (d : Option (Fin 384)) (b : Src)
  | waitv (m : MHdr) (cmp : WaitCmp) (wide : Bool) (b : Src)
  | spred (m : MHdr) (b c : Src)
  -- matrix (format X)
  | mma (f : MatF)
  | mmas (f : MatF) (q : Fin 4)
  | mmx (f : MatF) (sa : Fin 512)
  | tld (gd : Guard) (a : Fin 512) (b : BitVec 18) (n : Fin 8)
  | tst (gd : Guard) (a : Fin 512) (b : BitVec 18) (n : Fin 8)
  | tzero (gd : Guard) (b : BitVec 18) (len : BitVec 18)
  | tcvt (gd : Guard) (dst : MatTy) (src : AccTy) (sat : Bool) (c : BitVec 18) (n : Fin 8) (fmt : BitVec 8)
  -- copies, waiting, barriers, queues, frames
  | copyLinear (gd : Guard) (a b c : Src)
  | copyStrided2 (gd : Guard) (a b c : Src)
  | copyStrided3 (gd : Guard) (a b c : Src)
  | copyGather (gd : Guard) (a b c : Src)
  | copyScatter (gd : Guard) (a b c : Src)
  | copyFill (gd : Guard) (a b c : Src)
  | copyCombine (gd : Guard) (a b c : Src)
  | copyMeta (gd : Guard) (a b c : Src)
  | copyYield (gd : Guard) (kind : CopyKind) (th : BitVec 30) (a b c : Src)
  | waitc (gd : Guard) (th : BitVec 30)
  | barInit (h : Hdr) (counted : Bool) (a b : Src)
  | barArrive (gd : Guard) (d : Dst) (a : Src)
  | barWait (h : Hdr) (a b : Src)
  | barArrwait (gd : Guard) (d : Dst) (a : Src)
  | barDrop (gd : Guard) (a : Src)
  | qpush (gd : Guard) (p : Fin 8) (a b : Fin 384)
  | qpushTask (gd : Guard) (p : Fin 8) (a b : Fin 384)
  | qpop (gd : Guard) (d a : Fin 384)
  | fgive (h : Hdr) (a : Src)
  | fclaim (h : Hdr) (a : Src)
  -- system instructions (single-lane mode)
  | sret (gd : Guard)
  | srd (gd : Guard) (d : Dst) (reg : BitVec 8)
  | swr (gd : Guard) (a : Src) (reg : BitVec 8)
  | bindClaim (gd : Guard) (p : Fin 8) (a : Src)
  | bindSet (gd : Guard) (p : Fin 8) (a b : Src)
  | bindFail (gd : Guard) (p : Fin 8) (a : Src)
  | bindUnbind (gd : Guard) (p : Fin 8) (a : Src)
  | bindRead (gd : Guard) (d : Fin 4) (a : Src)
  | blbiEntry (h : Hdr) (a : Src)
  | blbiModule (h : Hdr) (a : Src)
  | blbiContext (gd : Guard)
  | tlbiPage (h : Hdr) (a : Src)
  | tlbiContext (gd : Guard)
  | tlbiAll (gd : Guard)
  | sdciEntry (h : Hdr) (a : Src)
  | sdciContext (gd : Guard)
  | ldphys (m : MHdr) (ty : LdTy) (d : Fin 384)
  | stphys (m : MHdr) (ty : LdTy) (b : Src)
  | hatchSpill (h : Hdr) (p : Fin 8) (a : Src)
  | hatchFill (h : Hdr) (p : Fin 8) (a : Src)
  | hatchStatus (h : Hdr) (d : Fin 16) (a : Src)
  -- events of the device
  | handlerFrameGrant (die core part : Nat)
  | contextResume (ctx : Nat)
  | pushPortGo (port : Nat)
  | validateTaskRecord (die prio : Nat)
  | taskEligible (task : Nat)
  | placeTeam (die : Nat)
  | dieReservation (die : Nat)
  | groupSlotRelease (p : Place)
  | teamRetire (team : Nat)
  | gridRetire (task : Nat)
  | gridFail (task : Nat)
  | issueSelect (die core part dt : Nat)
  | activeSetRefill (die core part : Nat)
  | waitRecordRetest (p : Place)
  | lineDecodeCheck (p : Place) (transit : BitVec 512 × BitVec 512)
  | operationComplete (p : Place) (op : Nat) (lanes : List Nat) (err : Bool)
  | pageWalkComplete (die core ctx linear : Nat) (write : Bool)
  | frameGrant (die core part : Nat)
  | hatchAct (die core part : Nat)
  | hatchWaitTimeout (die core part : Nat)
  | hatchRefill (p : Place)
  | waitvReevaluate (p : Place)
  | waitvPeriodicCheck (p : Place)
  | contentionDecay (idx : Nat)
  | wordRegistration (die core addr : Nat)
  | registrationRevoke (addr : Nat)
  | forwardedRead (die core addr : Nat)
  | lineRecall (line : Nat)
  | exclusiveEvict (die line : Nat)
  | postingReplay (p : Place)
  | spredMerge (p : Place) (op : Nat) (lane : Nat)
  | mergeEntryFlush (k : Nat)
  | crewBroken (crew : Nat)
  | metadataUnderrun (crew : Nat)
  | matrixPassGrant (die cluster : Nat)
  | matrixPassError (die cluster : Nat)
  | copyEngineStart (die engine units : Nat)
  | copyFault (die engine : Nat) (err : EngineErr)
  | preemptTeam (team : Nat)
  | drainTimeout (team : Nat)
  | restoreTeam (save die : Nat)
  | contextSwitch (ctx : Nat)
  | killTeam (team : Nat)
  | coreFence (die core : Nat) (lost : List Nat)
  | spareRemap (die : Nat) (channel : Bool) (unit : Nat)
  | dramScrub (line : Nat) (err : Corrected)
  | clusterGate (die cluster : Nat)
  | clusterWake (die cluster : Nat)
  | powerLimit (mhz : Nat)
  | biasFlipToHost (ask : Nat × Bool)
  | biasFlipToDevice (page : Nat) (clear : Bool)
  | hostMemRead (addr n : Nat) (err : Bool)
  | hostMemWrite (addr : Nat) (bytes : List (BitVec 8))
  | hostOwnershipRequest (half : Nat) (ask : OwnAsk)
  | backInvalidateResponse (line : Nat) (dirty : List (Nat × BitVec 8))
  | hostSnoop (half : Nat)
  | poisonReceived (p : Place) (op : Nat)
  | formatWindowEnable (die win : Nat) (val : BitVec 64)
  | formatWindowDisable (die win : Nat) (val : BitVec 64)
  | aliasLineFill (line : Nat)
  | aliasWriteBack (line : Nat × Bool)
  | smcarveWrite (val : BitVec 64)
  | smwinWrite (ctx : Nat) (val : BitVec 64)
  | watchdogWrite
  | watchdogExpiry
  | hostWindowWrite (win base size : Nat)
  | hubRegisterWrite (reg : HubReg) (val : BitVec 64)
  | coldResetBoot (fails : List Nat) (env : BootEnv)
  | getVersion
  | getCapabilities
  | negotiateAlgorithms
  | getDigests
  | getCertificate (slot : Nat)
  | challenge (slot : Nat) (nonce : BitVec 256)
  | getMeasurements (block : Nat) (sign : Bool) (nonce : BitVec 256)
  | captureRecord (p : Place) (what : CapWhat)
  | replayRelease (p : Place) (op : Nat)
  | generalCoreMemoryAccess (core addr : Nat) (acc : OutAccess)
  | peerLinkRequest (peer addr : Nat) (acc : OutAccess)
  | peerLinkFailure (peer : Nat)
  deriving DecidableEq, Repr

end Sys2Proof
end

