-- ==== Sys2Proof/Config.lean ====
section
/-! DEFINITION. What the manual leaves to the part: constants without a body, so that no proof can see their values.
A claim that mentions one holds for every value of it. -/

namespace Sys2Proof.Config

open Sys2Proof

/-- The device's choice number `n` where a rule allows more than one outcome (R42, R68, R76, R194, R206, R298). Read at
the counter `State.fresh`, only where the allowed outcomes differ. -/
opaque choice : Nat → Nat

/-- The home slice of a physical line within its home die (R210: a hash that the device fixes and does not publish). -/
opaque homeSlice : Nat → Nat

/-- The bits of a transcendental function that the exact arithmetic of Machine/Math.lean cannot decide: the code for
function `f`, format `w`, mode and operand. -/
opaque transcendental : Nat → Nat → Nat → Nat → Nat

/-- SHAKE256, first `n` bytes (FIPS 202; R224, R225). -/
opaque shake256 : List Byte → Nat → List Byte

/-- Verification of an SLH-DSA-SHAKE-256s signature: key, message, signature (FIPS 205; R224). -/
opaque slhDsaVerify : List Byte → List Byte → List Byte → Bool

/-- SHA-384 (R226, R227). -/
opaque sha384 : List Byte → BitVec 384

/-- An ECDSA P-384 signature with a private key (R226, R227). -/
opaque ecdsaSign : BitVec 512 → List Byte → List Byte

/-- The public half of a key (R227). -/
opaque publicKey : BitVec 512 → List Byte

/-- The device identity key, derived from the device secret (R227). -/
opaque identityKey : BitVec 256 → BitVec 512

/-- The attestation key, derived from the device secret and measurement register 1 (R227). -/
opaque attestationKey : BitVec 256 → BitVec 512 → BitVec 512

/-- The Ozyanen root certificate and the manufacturing certificate, written at test (R227). -/
opaque factoryCertificates : List Byte

/-- The attestation certificate: identity key, attestation public key, registers 0 and 1 (R227). -/
opaque attestationCertificate : BitVec 512 → List Byte → BitVec 512 → BitVec 512 → List Byte

/-- The header of a flash slot's image set: version, image digests and public key (R224). -/
opaque slotHeader : Nat → List (BitVec 512) → List Byte → List Byte

/-- The SPDM transcript that a signed response covers: the requests since reset, by code, parameter and nonce, the responses
before it, and its own body (R227). -/
opaque spdmTranscript : List (Nat × Nat × BitVec 256) → List Spdm → List Byte → List Byte

/-- The number of records that the capture area named for a context holds (R233): Mihus names the area, and the spec
states no field for its size. -/
opaque captureCapacity : BitVec 64 → Nat

/-- Where in module memory a record of a capture area goes, or the image of a save area, that the register names (R201, R233):
the spec gives no layout. -/
opaque capturePlace : BitVec 64 → Nat → Nat

/-- The input segments of a task record, of which copy engines take snapshots before placement (R233): pointer and length.
The record has no field that names them. -/
opaque captureInputs : BitVec 512 → List (Nat × Nat)

end Sys2Proof.Config
end

