-- ==== Sys2Proof/Machine/State.lean ====
section
/-! DEFINITION. The state of the CZ-6400 as plain data, the reasons a step can stop, and the state after reset.
Everything a rule gives the device a place for stands here; what acts on it stands in the other files of Machine/. -/

namespace Sys2Proof.Machine

open Sys2Proof

/-- A program counter: code segment and instruction index (R238). -/
structure Pc where
  seg : Nat
  idx : Nat
  deriving DecidableEq, Repr

/-- One entry of a slice's divergence stack (R24, R290). `merged` collects the masks of the paths that have arrived,
`started` says that the deferred path is running, `linked` that the entry above it was pushed by the same brx. -/
structure DivEntry where
  rcv     : Nat
  pc      : Pc
  mask    : BitVec 4
  merged  : BitVec 4
  before  : BitVec 4
  started : Bool
  linked  : Bool
  deriving DecidableEq, Repr

/-- One slice (R2, R24, R27, R30). `held` is the depth of the call record that suspends the slice. -/
structure Slice where
  pc      : Pc
  run     : BitVec 4
  stack   : List DivEntry
  arrived : Bool
  held    : Option Nat
  deriving DecidableEq, Repr

/-- The join record of a parted group (R27). -/
structure Join where
  pc    : Pc
  count : Nat
  deriving DecidableEq, Repr

/-- One casement age of a slice (R44): validity and the words of its four lanes, lane `k` in bits 32k+31:32k. -/
structure Age where
  valid : Bool
  data  : BitVec 128
  deriving DecidableEq, Repr

/-- A frame (R48): one mark per block, true for a block of the emergency reserve (R55), and the registers, register
`vK` of lane `l` at index 32K + l. `spilled` says that the hatch holds the blocks (R58). -/
structure Frame where
  blocks  : List Bool
  regs    : Tab 32
  spilled : Bool
  deriving DecidableEq, Repr

/-- A call record (R50, R292, R30), the newest first in a group's list: return point, the caller's frame, ages 9 to 16
of every slice, the executing slices, the divergence depth of every slice and the active mask. -/
structure CallRec where
  ret     : Pc
  frame   : Frame
  ages    : List (List Age)
  exec    : BitVec 8
  depths  : List Nat
  mask    : Mask
  spilled : Bool
  deriving DecidableEq, Repr

/-- The five counter classes (Table 7-5). -/
inductive Cls where
  | ld | st | copy | mat | task
  deriving DecidableEq, Repr

/-- Where a byte of an access lies: physical memory, a team's team memory, package slice memory, a team's tile store. -/
inductive Loc where
  | phys (a : Nat)
  | tmem (team off : Nat)
  | smem (a : Nat)
  | tile (team off : Nat)
  deriving DecidableEq, Repr

/-- One single-copy atomic access of an operation (R98, R102): the lane, the byte offset of this unit within the
lane's value, the place, the size in bytes, the data to store or the data read, the expected value of cas, whether it
has been performed, whether it lies in the posting overflow (R113), and the segmented pointer it was made through. -/
structure Acc where
  lane  : Nat
  off   : Nat
  loc   : Loc
  size  : Nat
  val   : Nat
  exp   : Nat
  done  : Bool
  posted : Bool
  ptr   : Nat
  deriving DecidableEq, Repr

/-- What an outstanding operation does when it is performed. `stream` marks a load of retention 0 (R89). -/
inductive OpBody where
  | load (ty : LdTy) (d : Nat) (stream : Bool)
  | store
  | atom (op : AtomOp) (ty : AnyTy) (d : Option Nat)
  | cas (d : Nat) (words : Nat)
  | cpadd (wide : Bool) (d : Option Nat)
  | sts (p : Nat)
  | retract (p : Nat)
  | settle
  | touch
  | cctl (sub : Nat) (scope : Scope)
  | spred (op ty : Nat)
  | tld (d n : Nat)
  | tst
  | tzero (off len : Nat)
  | tcvt (dst : MatTy) (src : AccTy) (sat : Bool) (off n : Nat) (fmt : Nat)
  | copy
  | mat
  | qpush (p : Nat) (head : Nat) (esz cap ring : Nat)
  | qpushTask (p die prio : Nat)
  | qpop (d : Nat) (head : Nat) (esz cap ring : Nat)
  deriving DecidableEq, Repr

/-- A failure of an operation, kept for the waitc that covers it (R183, R299): the cause, TRAPADDR, TRAPINFO. -/
structure OpFail where
  cause : Nat
  addr  : BitVec 64
  info  : BitVec 64
  deriving DecidableEq, Repr

/-- An outstanding operation (R103, R104, R107): its name, class and position in the class, what it does, its accesses,
ordering, the instruction that issued it and the depth of the frame that it writes. `done` says it has completed and
awaits older ones of its class. -/
structure Op where
  id    : Nat
  cls   : Cls
  seq   : Nat
  depth : Nat
  body  : OpBody
  accs  : List Acc
  ord   : Ord
  scope : Scope
  pc    : Pc
  done  : Bool
  fail  : Option OpFail
  deriving DecidableEq, Repr

/-- A destination that no waitc has covered yet (R106, R8): class, position in the class, the depth of the frame it lies
in, first register and count of registers, or a predicate. -/
structure Unw where
  cls  : Cls
  seq  : Nat
  depth : Nat
  lo   : Nat
  n    : Nat
  pred : Bool
  deriving DecidableEq, Repr

/-- How many operations of each class have issued (R103). -/
structure Counts where
  ld   : Nat
  st   : Nat
  copy : Nat
  mat  : Nat
  task : Nat
  deriving DecidableEq, Repr

/-- The registers that an instruction stream names (Table 4-1): those of a group, or of its handler (R185). -/
structure RegCtx where
  frame  : Frame
  sreg   : Tab 64
  greg   : Tab 20
  pred   : Tab 32
  cas    : List (List Age)
  unw    : List Unw
  ops    : List Op
  issued : Counts
  failed : List (Cls × Nat × OpFail)
  deriving DecidableEq, Repr

/-- A lane that waits for a word (R115), with its segmented pointer; for a pointer taken from a link slot, the binding entry
and the generation of the lookup (R76, R81). -/
structure WaitLane where
  lane : Nat
  ptr  : Nat
  loc  : Loc
  val  : Nat
  sat  : Bool
  link : Option (Nat × Nat) := none
  deriving DecidableEq, Repr

/-- What a waiting group does when its wait record is satisfied (Table 3-2). -/
inductive Cont where
  | counters (th : BitVec 30) (yields : Bool)
  | word (lanes : List WaitLane) (size : Nat) (cmp : WaitCmp) (ord : Ord) (scope : Scope)
  | barrier (loc : Loc) (phase : Nat)
  | bind (loc : Loc)
  | call (demand : Nat) (target : Pc) (args : List (List Age))
  | claim (n : Nat)
  | ret (n : Nat)
  | latch (crew : Nat)
  | handler
  | refill
  deriving DecidableEq, Repr

/-- A wait record (Table 14-3) with its continuation, the slices of the fragment that waits, the clock at which the wait
began, the signal of a barrier phase change made by bar (R117) and, for a broken wait, the cause that the waiter
takes. -/
structure Wait where
  kind   : Nat
  cmp    : Nat
  object : BitVec 64
  value  : BitVec 64
  since  : Nat
  slices : BitVec 8
  cont   : Cont
  signal : Bool
  broken : Option Nat
  deriving DecidableEq, Repr

/-- The trap registers TRAPCAUSE to TRAPWHO (Table 15-2). -/
structure TrapRegs where
  cause : BitVec 64
  pc    : BitVec 64
  lanes : BitVec 64
  addr  : BitVec 64
  info  : BitVec 64
  who   : BitVec 64
  deriving DecidableEq, Repr

/-- A handler in single-lane mode (R185, R186). -/
structure Handler where
  ctx    : RegCtx
  pc     : Pc
  frzsel : BitVec 64
  resume : BitVec 64
  deriving DecidableEq, Repr

/-- A failure of an operation that a yield has waited for, to be delivered when its fragment issues next (R376): the slices
of the fragment, the position in the copy class, and the failure. -/
structure Due where
  slices : BitVec 8
  seq    : Nat
  fail   : OpFail
  deriving DecidableEq, Repr

/-- A resident group (R2, R20). `hatched` says that its current frame is spilled; when nothing but that frame keeps it
from running, its wait record is of the frame kind and `under` holds the one before (R58, R180). `spillBlk` counts frame
blocks in its hatch area; `trapSlices` are the slices of the fragment that trapped; `lastIssue` is one more than the
clock of its last issue (0 before the first); `walked` is how many pages of a touch its walks have gone past, for the
fragment of some slices (R370); `turn` lists the slices, the least recently issued first (R29); `stalled` holds the
slices of the fragments whose next instruction has stalled at issue with nothing having happened since (R29, R105,
R181). -/
structure Group where
  place    : Place
  team     : Nat
  index    : Nat
  role     : Nat
  slices   : List Slice
  join     : Option Join
  main     : RegCtx
  calls    : List CallRec
  crew     : BitVec 64
  trap     : TrapRegs
  trapSlices : BitVec 8
  handler  : Option Handler
  wait     : Option Wait
  active   : Bool
  placedAt : Nat
  readyAt  : Nat
  lastIssue : Nat
  claim    : Option Nat
  hatched  : Bool
  under    : Option Wait
  due      : List Due
  spillBlk : Nat
  nextOp   : Nat
  turn     : List Nat
  stalled  : BitVec 8
  exited   : Bool
  walked   : List (BitVec 8 × Nat) := []
  deriving DecidableEq, Repr

/-- A value of a b register that a group may still read although another group has written the register since (R42). A
group's entries for one register stand oldest first. -/
structure LateB where
  group : Nat
  reg   : Nat
  val   : Word
  deriving DecidableEq, Repr

/-- A placed team (R2, R20 to R23, R41, R42, R198, R199). `grid` is the DONE pointer of its task's record (R16), `drain`
is the clock at which a draining team is saved, `saving` says that a save has stopped its issue (R198, R201). -/
structure Team where
  uid     : Nat
  task    : Nat
  ctx     : Nat
  index   : Nat
  die     : Nat
  core    : Nat
  cluster : Nat
  lseq    : Nat
  ngroups : Nat
  prio    : Nat
  grid    : BitVec 64
  tmemG   : Nat
  tileG   : Nat
  breg    : Tab 32
  bwriter : Tab 8
  late    : List LateB
  tmem    : Memory
  tile    : Memory
  issuedN : Nat
  clean   : Bool
  drain   : Option Nat
  saving  : Bool
  deriving DecidableEq, Repr

/-- A task (R16 to R19): the record, the queue that holds it, its place in push order, who pushed it, and how far its
placement has come. -/
structure Task where
  id       : Nat
  record   : BitVec 512
  die      : Nat
  prio     : Nat
  who      : BitVec 64
  src      : BitVec 64
  valid    : Bool
  eligible : Bool
  args     : BitVec 512
  next     : Nat
  requeued : List Nat
  lseq     : List (Nat × Nat)
  waitFrom : List (Nat × Nat)
  live     : Nat
  failed   : Bool
  deriving DecidableEq, Repr

/-- A copy command in an engine's queue (R90, R296 to R299). `pos` counts the elements already performed,
`seq` is its place in the group's copy class, `delivered` says that its fault has reached the handler. -/
structure CopyCmd where
  place : Place
  team  : Nat
  ctx   : Nat
  op    : Nat
  pc    : Pc
  kind  : CopyKind
  cseg  : Nat
  dst   : BitVec 64
  src   : BitVec 64
  cnt   : Nat
  rcd   : BitVec 256
  pos   : Nat
  since : Nat
  prio  : Nat
  seq   : Nat
  fault : Option OpFail
  delivered : Bool
  deriving DecidableEq, Repr

/-- One compute die: the next launch sequence number (R186), the tasks that hold its reservation, the holder first and
behind it those that gave it up for a requeued team (R178), each with whether it holds it for a requeued team, and the
copy engines (R182). -/
structure Die where
  nextLseq : Nat
  reserved : List (Nat × Bool)
  engines  : List (List CopyCmd)
  deriving DecidableEq, Repr

/-- What one member brought to the latch (R157, R163, R170): its position, its operation and instruction, its
contributing rows, the 32 rows of its A slice, its A scales and, for member 0, the B scales, 32 lanes a register. -/
structure Member where
  pos   : Nat
  place : Place
  op    : Nat
  pc    : Pc
  rows  : Mask
  a     : List Nat
  sa    : List Nat
  sb    : List Nat
  deriving DecidableEq, Repr

/-- The state of a reservation-table entry (R157 to R165). `broken` is a gathering entry that has lost a listed member
(R158), whose waiting members still have to take crew broken. -/
inductive CrewSt where
  | gathering
  | running (done : Nat) (taken : List (List (BitVec 8)))
  | tombstone (left : List Nat)
  | kept
  | broken
  deriving DecidableEq, Repr

/-- A rendezvous latch or reservation-table entry, or a kept A set (R157, R161, R165). `since` is the clock of its last
grant, `order` its place in assembly order (0 before assembly). `fromKept` says that a member took its slice from the
kept set, `dropKept` that a kept set goes once no such instruction is left. -/
structure Crew where
  id      : Nat
  die     : Nat
  cluster : Nat
  team    : Nat
  crew    : BitVec 64
  word    : BitVec 96
  st      : CrewSt
  members : List Member
  since   : Nat
  order   : Nat
  fromKept : Bool
  dropKept : Bool
  deriving DecidableEq, Repr

/-- A metadata queue of a cluster (R162, R298). -/
structure MetaQ where
  die     : Nat
  cluster : Nat
  q       : Nat
  entries : List (List (BitVec 8))
  deriving DecidableEq, Repr

/-- An entry of the switch's merge buffer (R122). -/
structure Merge where
  loc   : Loc
  op    : Nat
  ty    : Nat
  val   : Nat
  since : Nat
  deriving DecidableEq, Repr

/-- A read-modify-write of the device that waits for the host to give a line up (R217): where the bits `cond` of `n`
bytes at an address hold `want`, their bits `mask` become `put`. -/
structure HostRmw where
  addr : Nat
  n    : Nat
  cond : Nat
  want : Nat
  mask : Nat
  put  : Nat
  deriving DecidableEq, Repr

/-- The identity of a storing group (R123). -/
structure Storer where
  ctx   : Nat
  lseq  : Nat
  team  : Nat
  uid   : Nat
  group : Nat
  deriving DecidableEq, Repr

/-- A shuttered cell (R123, R124). -/
structure Shutter where
  loc    : Loc
  size   : Nat
  former : Nat
  owner  : Storer
  seen   : Bool
  deriving DecidableEq, Repr

/-- A participant of a checked barrier object (R116, R118, R119): a group (its index) of a team-memory object, a team
(its name) of a slice-memory object, and whether it has arrived in the current phase. -/
structure Part where
  obj     : Loc
  who     : Nat
  arrived : Bool
  deriving DecidableEq, Repr

/-- A pop index recorded at its slot (R175, R344); `waiter` is none once it is cancelled, `entry` is what a push has put there
for a team that is saved. -/
structure QRes where
  head   : Nat
  index  : Nat
  waiter : Option (Place × Nat × Nat)
  entry  : Option Nat := none
  deriving DecidableEq, Repr

/-- A word held in a core's L1 (R205 to R207). `pair` marks an unregistered copy that was current together with the copy
of the other word of its eight aligned bytes (R102). -/
structure L1Word where
  die  : Nat
  core : Nat
  addr : Nat
  val  : Word
  mask : BitVec 4
  reg  : Bool
  pair : Bool
  deriving DecidableEq, Repr

/-- A contention counter of a home slice (R111): its index, its value, the core of the last atomic on its lines and the
clock of the last atomic by a core other than the one before. -/
structure Contention where
  idx   : Nat
  count : Nat
  die   : Nat
  core  : Nat
  since : Nat
  deriving DecidableEq, Repr

/-- A directory entry (R209): the holder is a die 0 to 3, or 4 for the host. `halves` are the 64-byte halves whose ownership
the host has been granted (R217), or that the home of a line of host memory has been given by CXL.cache (R221). -/
structure DirEntry where
  line     : Nat
  holder   : Nat
  excl     : Bool
  halves   : BitVec 2
  evicting : Bool
  deriving DecidableEq, Repr

/-- A cached alias line with its written mask (R149, R150). -/
structure AliasLine where
  line    : Nat
  data    : BitVec 1024
  written : BitVec 64
  deriving DecidableEq, Repr

/-- A cached translation of a 4 KiB page, in a core's TLB or a die's second-level one (R70): the frame, whether a write
may pass, and the size of the mapping that it is part of, as a power of two (R69). -/
structure TlbEntry where
  die   : Nat
  core  : Nat
  ctx   : Nat
  vpn   : Nat
  pfn   : Nat
  write : Bool
  shift : Nat
  deriving DecidableEq, Repr

/-- A page that misses in a die's TLBs (R70): whether a write waits for it, and whether its walk has failed. -/
structure Miss where
  die    : Nat
  ctx    : Nat
  vpn    : Nat
  write  : Bool
  failed : Bool
  deriving DecidableEq, Repr

/-- A cached descriptor (R68). -/
structure DescEntry where
  die  : Nat
  core : Nat
  ctx  : Nat
  seg  : Nat
  desc : BitVec 256
  deriving DecidableEq, Repr

/-- A binding lookaside copy (R76). -/
structure BlbEntry where
  die  : Nat
  core : Nat
  ctx  : Nat
  idx  : Nat
  gen  : Nat
  ptr  : BitVec 64
  deriving DecidableEq, Repr

/-- An entry of the hub's context table (R69, R184, R189, R255), with the capture area (R233) and the save area (R201) that
Mihus names. -/
structure Ctx where
  num       : Nat
  resident  : Bool
  root      : Nat
  handlers  : BitVec 64
  btBase    : BitVec 64
  segTable  : BitVec 64
  nameRules : BitVec 64
  capture   : BitVec 64
  save      : BitVec 64
  stopped   : Bool
  noPlace   : Bool
  deriving DecidableEq, Repr

/-- A bias flip in progress (R218, R219): page, target, and the lines that are still to be flushed or answered. -/
structure Flip where
  page : Nat
  host : Bool
  left : List Nat
  deriving DecidableEq, Repr

/-- A host request that the home holds until its line is flushed (R218). -/
inductive HostReq where
  | read (addr n : Nat)
  | write (addr : Nat) (bytes : List (BitVec 8))
  | own (half : Nat) (excl : Bool)
  deriving DecidableEq, Repr

/-- The hub's registers (R64, R146, R174, R218, R230, R235). Tables are indexed by hub offset. `flip` and `waiting` are a
bias flip in progress and the host requests that it holds back; `cxl` says that CXL was negotiated at link training
(R214). -/
structure Hub where
  smcarve  : BitVec 64
  smwin    : Tab 64
  fw       : Tab 64
  biasflip : BitVec 64
  biasbase : BitVec 64
  flip     : Option Flip
  waiting  : List HostReq
  cxl      : Bool
  ports    : Tab 64
  hostWin  : List (Nat × Nat)
  watchdog : Nat
  isolated : Bool
  thermal  : BitVec 64
  power    : BitVec 64
  mhz      : Nat
  ecccnt   : BitVec 64
  spares   : BitVec 64
  deriving DecidableEq, Repr

/-- An interrupt raised to Mihus. -/
inductive Irq where
  | errorRecord (ctx : Nat)
  | doubleFault (ctx : Nat)
  | launchError (ctx : Nat)
  | doorbell (ctx : Nat)
  deriving DecidableEq, Repr

/-- A record of the hub's double-fault log (R195). -/
structure DfRec where
  ctx   : Nat
  cause : Nat
  pc    : BitVec 64
  addr  : BitVec 64
  deriving DecidableEq, Repr

/-- A saved team (R201): the team, its groups, what their hatch areas in segments 7 and 8 hold, and its crews' kept sets. -/
structure Save where
  id     : Nat
  team   : Team
  groups : List Group
  areas  : List (Nat × Nat)
  kept   : List Crew
  deriving DecidableEq, Repr

/-- What else a capturing context records (R233): its task records, snapshots of a task's input segments, and the host's
writes to its pages. -/
inductive CapIn where
  | task (ctx : Nat) (record : BitVec 512)
  | snapshot (ctx task ptr : Nat) (bytes : List (BitVec 8))
  | hostWrite (ctx addr : Nat) (bytes : List (BitVec 8))
  deriving DecidableEq, Repr

/-- The boot state of the hub (R223 to R230). `lostPower` says that always-on memory has lost the record (R228); `working`
is the controller's working memory: the device secret and the identity key until the attestation certificate `cert` has
been issued (R227); `asked` are the SPDM requests since reset, code, parameter and nonce; `mihus` is the slot whose Mihus
image runs. -/
structure Boot where
  attempts  : Nat
  steps     : List (BitVec 8)
  flashCopy : Nat × List (BitVec 8)
  fuseKey   : BitVec 512
  rollback  : Nat
  fuseState : List (BitVec 8)
  secret    : BitVec 256
  working   : Option (BitVec 256 × BitVec 512)
  slots     : List FlashSlot
  mihus     : Nat
  meas      : List (BitVec 512)
  attest    : Option (BitVec 512)
  cert      : List (BitVec 8)
  asked     : List (Nat × Nat × BitVec 256)
  ready     : Bool
  recovery  : Bool
  lostPower : Bool
  out       : List Spdm
  deriving DecidableEq, Repr

/-- An answer that leaves toward the host, a peer or a general core (R93, R216 to R222). -/
inductive HostOut where
  | data (addr : Nat) (bytes : List (BitVec 8))
  | error (addr : Nat)
  | granted (half : Nat)
  | snoop (half : Nat)
  | value (x : Nat)
  | window (base size : Nat)
  | backInvalidate (line : Nat)
  deriving DecidableEq, Repr

/-- An issue slot (R181): the group and, for a group that is not in single-lane mode, the slices of the fragment. The second
slot of a pair holds the counter of the pair's second instruction. -/
structure Issuer where
  place  : Place
  slices : BitVec 8
  pc     : Option Pc := none
  deriving DecidableEq, Repr

/-- The whole device. `retain` is the retention priority of the lines last reached at another one than 3, which an
omitted suffix stands for (R89), `hostLate` the bytes that the device has written while the host held their line (R217),
`hostRmw` what waits for the host to give a line up (R217); `departed` holds groups whose slot has been returned while
their stores and copies continue (R33), `retired` teams that have retired while such operations continue (R34),
`coreErrs` the corrected errors that cores have reported, with their clocks (R232), `replays` the tasks that run in
replay mode (R234); `agenda` and `fresh` are the model's own. -/
structure State where
  clock   : Nat
  issue   : List Issuer
  agenda  : List Instr
  fresh   : Nat
  nextUid : Nat
  mem     : Memory
  smem    : Memory
  groups  : List Group
  departed : List Group
  teams   : List Team
  retired : List Team
  tasks   : List Task
  dies    : List Die
  crews   : List Crew
  metaq   : List MetaQ
  merge   : List Merge
  shutters : List Shutter
  parts   : List Part
  qres    : List QRes
  l1      : List L1Word
  dir     : List DirEntry
  held    : List Nat
  retain  : List (Nat × Nat)
  hostLate : List Nat
  hostRmw : List HostRmw
  aliases : List AliasLine
  contention : List Contention
  tlb     : List TlbEntry
  tlb2    : List TlbEntry
  misses  : List Miss
  descs   : List DescEntry
  blb     : List BlbEntry
  ctxs    : List Ctx
  hub     : Hub
  dfLog   : List DfRec
  irqs    : List Irq
  eccLog  : List Nat
  saved   : List Save
  preStop : List Nat
  capture : List CapRec
  replay  : List CapRec
  replays : List Nat
  capIn   : List CapIn
  boot    : Boot
  fenced  : List (Nat × Nat)
  spareCores : List (Nat × Nat)
  coreErrs : List (Nat × Nat × Nat)
  remapped : List (Nat × Bool × Nat)
  gated   : List (Nat × Nat)
  hostOut : List HostOut
  deriving DecidableEq, Repr

/-- The one way a step can end without a next state: no fragment is selected to issue the instruction. -/
inductive Fault where
  /-- Raised by every program instruction when `State.issue` selects no resident group: nothing issues it, so there is
  no state for it to act on. Safe: the device has no such event. -/
  | nothingIssues
  deriving DecidableEq, Repr

/-- Reasons for which a step has no meaning. -/
inductive Refusal where
  /-- Raised by an arm of `exec` whose instruction has no meaning yet. Safe: the model stops. -/
  | notModelled (mnemonic : String)
  deriving DecidableEq, Repr

/-- A die after reset: no task has been placed, nothing is reserved, the eight engines are empty. -/
def Die.reset : Die := { nextLseq := 0, reserved := [], engines := List.replicate 8 [] }

/-- The hub's registers after reset (the Reset columns of Tables 10-8 and 16-3, R64, R174, R230).
(DESIGN CHOICE, log 4) -/
def Hub.reset : Hub :=
  { smcarve := 0, smwin := [], fw := [], biasflip := 0, biasbase := 0, flip := none, waiting := [], cxl := false, ports := [],
    hostWin := List.replicate 8 (0, 0), watchdog := 0, isolated := false, thermal := 0, power := 0, mhz := 1250,
    ecccnt := 0, spares := 0 }

/-- The boot state at cold reset: no step has run and every measurement register reads zero (R225, R228). Fuses and
flash are what the part was made with. (DESIGN CHOICE, log 4) -/
def Boot.reset : Boot :=
  { attempts := 0, steps := List.replicate 32 0, flashCopy := (0, List.replicate 32 0), fuseKey := 0, rollback := 0,
    fuseState := [], secret := 0, working := none, slots := [], mihus := 0, meas := List.replicate 8 0, attest := none,
    cert := [], asked := [], ready := false, recovery := false, lostPower := false, out := [] }

/-- The device right after cold reset: nothing is placed, queued or cached, and every register with a stated reset
value holds it. -/
def State.reset : State :=
  { clock := 0, issue := [], agenda := [], fresh := 0, nextUid := 0, mem := [], smem := [], groups := [],
    departed := [], teams := [], retired := [], tasks := [], dies := List.replicate 4 Die.reset, crews := [],
    metaq := [], merge := [], shutters := [], parts := [], qres := [], l1 := [], dir := [], held := [],
    retain := [], hostLate := [], hostRmw := [], aliases := [], contention := [], tlb := [], tlb2 := [], misses := [], descs := [], blb := [], ctxs := [],
    hub := Hub.reset, dfLog := [], irqs := [], eccLog := [], saved := [], preStop := [], capture := [], replay := [],
    replays := [], capIn := [], boot := Boot.reset, fenced := [], spareCores := [], coreErrs := [], remapped := [],
    gated := [], hostOut := [] }

end Sys2Proof.Machine
end

