-- ==== Sys2Proof/Machine/Store.lean ====
section
/-! DEFINITION. Operations on canonical tables and memories, on bit fields and on byte order (R3). A table is kept
strictly rising with no entry equal to 0, which an unlisted index reads as. -/

namespace Sys2Proof.Machine

open Sys2Proof

/-- The value at an index; 0 where none is listed. -/
def tabGet {w : Nat} : Tab w → Nat → BitVec w
  | [], _ => 0
  | (k', v) :: r, k => if k < k' then 0 else if k = k' then v else tabGet r k

/-- A table without its leading entries at or below `k`. -/
def tabDrop {w : Nat} : Tab w → Nat → Tab w
  | [], _ => []
  | (k', v) :: r, k => if k' ≤ k then tabDrop r k else (k', v) :: r

/-- Write one index, keeping the canonical form. -/
def tabSet {w : Nat} : Tab w → Nat → BitVec w → Tab w
  | [], k, v => if v = 0 then [] else [(k, v)]
  | (k', v') :: r, k, v =>
    if k < k' then (if v = 0 then (k', v') :: r else (k, v) :: (k', v') :: r)
    else if k = k' then (if v = 0 then tabDrop r k else (k, v) :: r)
    else (k', v') :: tabSet r k v

/-- The keys that follow lie above `lo` and rise, and no listed value is 0. -/
def tabWfFrom {w : Nat} : Nat → Tab w → Bool
  | _, [] => true
  | lo, (k, v) :: r => decide (lo ≤ k) && decide (v ≠ 0) && tabWfFrom (k + 1) r

/-- The canonical form of a table. -/
def tabWf {w : Nat} (t : Tab w) : Bool := tabWfFrom 0 t

end Sys2Proof.Machine

namespace Sys2Proof

/-- The canonical form of a memory: addresses strictly rising, no listed byte equal to 0, as which an unlisted address
reads. -/
def Memory.wf (m : Memory) : Bool := Machine.tabWf m

end Sys2Proof

namespace Sys2Proof.Machine

open Sys2Proof

/-- `n` bytes from address `a`, little-endian (R3). (DESIGN CHOICE, log 3) -/
def memRead (m : Memory) (a : Nat) : Nat → Nat
  | 0 => 0
  | n + 1 => (tabGet m a).toNat + 256 * memRead m (a + 1) n

/-- Write the low `n` bytes of `v` from address `a`, little-endian (R3). -/
def memWrite (m : Memory) (a : Nat) : Nat → Nat → Memory
  | 0, _ => m
  | n + 1, v => memWrite (tabSet m a (BitVec.ofNat 8 v)) (a + 1) n (v / 256)

/-- Write a list of bytes from address `a`. -/
def memWriteBytes (m : Memory) (a : Nat) : List Byte → Memory
  | [] => m
  | b :: r => memWriteBytes (tabSet m a b) (a + 1) r

/-- `n` bytes from address `a`, as a list. -/
def memBytes (m : Memory) (a : Nat) : Nat → List Byte
  | 0 => []
  | n + 1 => tabGet m a :: memBytes m (a + 1) n

/-- The field of `n` bits of `x` that starts at bit `lo`. -/
def fld (x lo n : Nat) : Nat := x / 2 ^ lo % 2 ^ n

/-- Bit `i` of `x`. -/
def bitOf (x i : Nat) : Bool := x / 2 ^ i % 2 == 1

/-- `x` with the field of `n` bits at `lo` replaced by `v`. -/
def setFld (x lo n v : Nat) : Nat :=
  x % 2 ^ lo + 2 ^ lo * (v % 2 ^ n) + 2 ^ (lo + n) * (x / 2 ^ (lo + n))

/-- The `n` low bits of `x` read as a signed number (R5, SignExt). -/
def sint (n x : Nat) : Int :=
  let y := x % 2 ^ n
  if y < 2 ^ (n - 1) then (y : Int) else (y : Int) - (2 : Int) ^ n

/-- A number modulo 2^n, as an unsigned value. -/
def wrapN (n : Nat) (x : Int) : Nat := (x % (2 : Int) ^ n).toNat

/-- The little-endian value of a list of bytes. -/
def bytesVal : List Byte → Nat
  | [] => 0
  | b :: r => b.toNat + 256 * bytesVal r

/-- The `n` low bytes of `v`, lowest first. -/
def valBytes : Nat → Nat → List Byte
  | 0, _ => []
  | n + 1, v => BitVec.ofNat 8 v :: valBytes n (v / 256)

/-- The lanes of a mask, in rising order. -/
def lanesOf (m : Mask) : List Nat := (List.range 32).filter (fun l => bitOf m.toNat l)

/-- The mask of the lanes that a test accepts. -/
def maskOf (p : Nat → Bool) : Mask :=
  BitVec.ofNat 32 ((List.range 32).foldl (fun acc l => if p l then acc + 2 ^ l else acc) 0)

/-- Does lane `l` stand in the mask? -/
def hasLane (m : Mask) (l : Nat) : Bool := bitOf m.toNat l

/-- The lowest lane of a mask. -/
def lowestLane (m : Mask) : Option Nat := (lanesOf m).head?

/-- Replace element `i` of a list by `f` of it. -/
def modAt {α : Type} (l : List α) (i : Nat) (f : α → α) : List α :=
  match l, i with
  | [], _ => []
  | a :: r, 0 => f a :: r
  | a :: r, i + 1 => a :: modAt r i f

/-- The first element of a list that a test accepts, by the smallest key. -/
def leastBy {α : Type} (key : α → List Nat) : List α → Option α
  | [] => none
  | a :: r =>
    match leastBy key r with
    | none => some a
    | some b => if key b < key a then some b else some a

end Sys2Proof.Machine
end

