-- ==== Sys2Proof/Machine/Float.lean ====
section
/-! DEFINITION. The number formats of 10_number_formats.md: decoding a code to an exact value, and rounding an exact
value to a format (RoundTo, R5, R129 to R141). -/

namespace Sys2Proof.Machine

open Sys2Proof

/-- An exact value: NaN, an infinity, or (−1)^neg · m · 2^e. -/
inductive FV where
  | nan
  | inf (neg : Bool)
  | fin (neg : Bool) (m : Nat) (e : Int)
  deriving DecidableEq, Repr

/-- How a format uses its top codes (Tables 10-1, 10-5, 10-6, R136). -/
inductive FmtKind where
  | ieee | e4m3 | noInf | p3109 (ext : Bool) | e8m0
  deriving DecidableEq, Repr

/-- A floating-point format: sign present, exponent and trailing widths, bias. -/
structure Fmt where
  sgn  : Bool
  eb   : Nat
  tb   : Nat
  bias : Nat
  kind : FmtKind
  deriving DecidableEq, Repr

def Fmt.f64 : Fmt := ⟨true, 11, 52, 1023, .ieee⟩
def Fmt.f32 : Fmt := ⟨true, 8, 23, 127, .ieee⟩
def Fmt.f16 : Fmt := ⟨true, 5, 10, 15, .ieee⟩
def Fmt.bf16 : Fmt := ⟨true, 8, 7, 127, .ieee⟩
def Fmt.e4m3 : Fmt := ⟨true, 4, 3, 7, .e4m3⟩
def Fmt.e5m2 : Fmt := ⟨true, 5, 2, 15, .ieee⟩
def Fmt.e3m2 : Fmt := ⟨true, 3, 2, 3, .noInf⟩
def Fmt.e2m3 : Fmt := ⟨true, 2, 3, 1, .noInf⟩
def Fmt.e2m1 : Fmt := ⟨true, 2, 1, 1, .noInf⟩
def Fmt.e8m0 : Fmt := ⟨false, 8, 0, 127, .e8m0⟩

/-- A legal P3109 format byte (R135). -/
def p3109Ok (b : Nat) : Bool := fld b 0 3 != 0 && fld b 5 3 == 0

/-- The P3109 member of a format byte (R135, R136). -/
def Fmt.p3109 (b : Nat) : Fmt :=
  let p := fld b 0 3
  if bitOf b 3 then ⟨false, 9 - p, p - 1, 2 ^ (8 - p), .p3109 (bitOf b 4)⟩
  else ⟨true, 8 - p, p - 1, 2 ^ (7 - p), .p3109 (bitOf b 4)⟩

/-- The bits of a code that hold its magnitude. -/
def Fmt.magBits (f : Fmt) : Nat := f.eb + f.tb

/-- The width of a code in bits. -/
def Fmt.width (f : Fmt) : Nat := f.magBits + if f.sgn then 1 else 0

/-- The magnitude code of the largest finite value (Tables 10-1, 10-4, 10-5). -/
def Fmt.maxMag (f : Fmt) : Nat :=
  match f.kind with
  | .ieee => (2 ^ f.eb - 1) * 2 ^ f.tb - 1
  | .e4m3 => 2 ^ f.magBits - 2
  | .noInf => 2 ^ f.magBits - 1
  | .p3109 ext =>
    if f.sgn then 2 ^ f.magBits - 1 - (if ext then 1 else 0) else 2 ^ f.magBits - 2 - (if ext then 1 else 0)
  | .e8m0 => 0xFE

/-- The exact value of a magnitude code read as an ordinary code (R136, R137). -/
def Fmt.magVal (f : Fmt) (mag : Nat) : Nat × Int :=
  let e := mag / 2 ^ f.tb
  let t := mag % 2 ^ f.tb
  if e = 0 then (t, 1 - (f.bias : Int) - f.tb) else (2 ^ f.tb + t, (e : Int) - f.bias - f.tb)

/-- The exact value of a code. -/
def Fmt.decode (f : Fmt) (code : Nat) : FV :=
  let code := code % 2 ^ f.width
  let mag := code % 2 ^ f.magBits
  let neg := f.sgn && bitOf code f.magBits
  let fin := FV.fin neg (f.magVal mag).1 (f.magVal mag).2
  match f.kind with
  | .ieee =>
    if mag / 2 ^ f.tb = 2 ^ f.eb - 1 then (if mag % 2 ^ f.tb = 0 then .inf neg else .nan) else fin
  | .e4m3 => if mag = 2 ^ f.magBits - 1 then .nan else fin
  | .noInf => fin
  | .p3109 ext =>
    if f.sgn then
      if code = 0x80 then .nan else if ext && mag == 0x7F then .inf neg else fin
    else if code = 0xFF then .nan else if ext && code == 0xFE then .inf false else fin
  | .e8m0 => if code = 0xFF then .nan else .fin false 1 ((code : Int) - 127)

/-- The canonical NaN code (R130, R137, R139); 0 where the format has none. -/
def Fmt.nanCode (f : Fmt) : Nat :=
  match f.kind with
  | .ieee => if f.eb = 5 ∧ f.tb = 2 then 0x7E else (2 ^ f.eb - 1) * 2 ^ f.tb + 2 ^ (f.tb - 1)
  | .e4m3 => 0x7F
  | .noInf => 0
  | .p3109 _ => if f.sgn then 0x80 else 0xFF
  | .e8m0 => 0xFF

/-- A magnitude code with a sign. -/
def Fmt.withSign (f : Fmt) (neg : Bool) (mag : Nat) : Nat :=
  if f.sgn && neg then mag + 2 ^ f.magBits else mag

/-- A zero of the format: the P3109 family has no −0 (R136, R140). -/
def Fmt.zeroCode (f : Fmt) (neg : Bool) : Nat :=
  match f.kind with
  | .p3109 _ => 0
  | .e8m0 => 0xFF
  | _ => f.withSign neg 0

/-- The largest finite value of a sign; a negative one in an unsigned format becomes 0x00 (R140). -/
def Fmt.maxCode (f : Fmt) (neg : Bool) : Nat :=
  if !f.sgn && neg then 0 else f.withSign neg f.maxMag

/-- What an infinite result becomes (R133, R139, R140, Table 10-6). -/
def Fmt.infCode (f : Fmt) (neg sat : Bool) : Nat :=
  match f.kind with
  | .e8m0 => if neg then 0xFF else if sat then 0xFE else 0xFF
  | .noInf => f.maxCode neg
  | .ieee => if sat then f.maxCode neg else f.withSign neg ((2 ^ f.eb - 1) * 2 ^ f.tb)
  | .e4m3 => if sat then f.maxCode neg else f.nanCode
  | .p3109 ext =>
    if sat then f.maxCode neg
    else if !ext || (!f.sgn && neg) then f.nanCode
    else if f.sgn then f.withSign neg 0x7F else 0xFE

/-- Where a remainder stands: exact, below, at or above the half. -/
inductive Rest where
  | zero | below | half | above
  deriving DecidableEq, Repr

/-- Does a mode round the magnitude `n` up, given the remainder (Table 10-2)? The significand of a P3109 member with P = 1 is
always 1, so that in mode 0 a tie between two of its values, of which neither is even, goes to the larger power of two.
(DESIGN CHOICE, log 74) -/
def roundsUp (rm : Rnd) (neg : Bool) (n : Nat) (r : Rest) : Bool :=
  match r, rm with
  | .zero, _ => false
  | _, .rz => false
  | _, .rd => neg
  | _, .ru => !neg
  | .above, _ => true
  | .below, _ => false
  | .half, .rna => true
  | .half, .rn => n % 2 == 1

/-- m · 2^e (a little more when `sticky`) as a whole number of 2^q, rounded. -/
def roundAt (rm : Rnd) (neg : Bool) (m : Nat) (e : Int) (sticky : Bool) (q : Int) : Nat :=
  if q ≤ e then
    let n := m * 2 ^ (e - q).toNat
    if roundsUp rm neg n (if sticky then .below else .zero) then n + 1 else n
  else
    let k := (q - e).toNat
    let n := m / 2 ^ k
    let r := m % 2 ^ k
    let h := 2 ^ (k - 1)
    let rest := if r = 0 ∧ !sticky then Rest.zero else if r < h then .below
      else if r = h ∧ !sticky then .half else .above
    if roundsUp rm neg n rest then n + 1 else n

/-- Conversion to E8M0 of a positive finite value (R140). -/
def e8m0Code (rm : Rnd) (sat : Bool) (m : Nat) (e : Int) : Nat :=
  let l : Int := e + Nat.log2 m
  let n : Int := if roundAt rm false m e false l ≥ 2 then l + 1 else l
  if n < -127 then 0x00 else if n > 127 then (if sat || rm = .rz || rm = .rd then 0xFE else 0xFF) else (n + 127).toNat

/-- The code of a nonzero finite value, rounded once with an unbounded exponent range, overflow and special cases
as R133, R139 and R140 give. `sticky` adds a positive amount below the last bit of `m`. A tie of a P3109 member with
P = 1 goes to the larger magnitude in mode 0. (DESIGN CHOICE, log 74) -/
def Fmt.roundFin (f : Fmt) (rm : Rnd) (sat neg : Bool) (m : Nat) (e : Int) (sticky : Bool) : Nat :=
  if f.kind = .e8m0 then (if neg then 0xFF else e8m0Code rm sat m e)
  else
    let q := Max.max (e + Nat.log2 m - f.tb) (1 - (f.bias : Int) - f.tb)
    let n := roundAt rm neg m e sticky q
    let (n, q) := if n ≥ 2 ^ (f.tb + 1) then (n / 2, q + 1) else (n, q)
    let mag := if n < 2 ^ f.tb then n else (q + f.tb + f.bias).toNat * 2 ^ f.tb + (n - 2 ^ f.tb)
    if n = 0 then f.zeroCode neg
    else if !f.sgn && neg then (if sat then 0 else f.nanCode)
    else if mag > f.maxMag then
      if (rm = .rz) || (rm = .rd && !neg) || (rm = .ru && neg) then f.maxCode neg else f.infCode neg sat
    else f.withSign neg mag

/-- RoundTo (R5, R133, R139): the code of an exact value. -/
def Fmt.round (f : Fmt) (rm : Rnd) (sat : Bool) (x : FV) : Nat :=
  match x with
  | .nan => f.nanCode
  | .inf neg => f.infCode neg sat
  | .fin neg m e => if m = 0 then f.zeroCode neg else f.roundFin rm sat neg m e false

/-- Negation of an exact value. -/
def FV.neg : FV → FV
  | .nan => .nan
  | .inf n => .inf !n
  | .fin n m e => .fin (!n) m e

/-- Is the value a NaN? -/
def FV.isNan : FV → Bool
  | .nan => true
  | _ => false

/-- The signed significand of a finite value at exponent `q`, for q no greater than e. -/
def sigAt (neg : Bool) (m : Nat) (e q : Int) : Int :=
  let x : Int := (m * 2 ^ (e - q).toNat : Nat)
  if neg then -x else x

/-- The exact sum; an exact zero takes the sign of R306 (`rd`: the mode is toward −∞). -/
def FV.add (rd : Bool) : FV → FV → FV
  | .nan, _ => .nan
  | _, .nan => .nan
  | .inf a, .inf b => if a = b then .inf a else .nan
  | .inf a, _ => .inf a
  | _, .inf b => .inf b
  | .fin na ma ea, .fin nb mb eb =>
    let q := Min.min ea eb
    let s := sigAt na ma ea q + sigAt nb mb eb q
    if s = 0 then
      .fin (if ma = 0 ∧ mb = 0 then (if na = nb then na else rd) else rd) 0 0
    else .fin (decide (s < 0)) s.natAbs q

/-- The exact product (R306). -/
def FV.mul : FV → FV → FV
  | .nan, _ => .nan
  | _, .nan => .nan
  | .inf a, .inf b => .inf (a != b)
  | .inf a, .fin n m _ => if m = 0 then .nan else .inf (a != n)
  | .fin n m _, .inf b => if m = 0 then .nan else .inf (n != b)
  | .fin na ma ea, .fin nb mb eb => .fin (na != nb) (ma * mb) (ea + eb)

/-- Is `a` less than `b`, for values that are not NaN, −0 equal to +0? -/
def FV.lt : FV → FV → Bool
  | .inf true, .inf true => false
  | .inf true, _ => true
  | _, .inf true => false
  | .inf false, _ => false
  | _, .inf false => true
  | .fin na ma ea, .fin nb mb eb =>
    let q := Min.min ea eb
    decide (sigAt na ma ea q < sigAt nb mb eb q)
  | _, _ => false

/-- Are two values equal as numbers (R319)? -/
def FV.eq (a b : FV) : Bool := !a.isNan && !b.isNan && !FV.lt a b && !FV.lt b a

/-- Is the value a zero with its sign set? -/
def FV.negZero : FV → Bool
  | .fin n m _ => n && m == 0
  | _ => false

/-- Does `a` come before `b` in the order of R131, in which −0 is below +0? -/
def FV.below (a b : FV) : Bool := FV.lt a b || (FV.eq a b && a.negZero && !b.negZero)

/-- minimumNumber and maximumNumber (R131). -/
def FV.minNum (max : Bool) (a b : FV) : FV :=
  if a.isNan then b else if b.isNan then a
  else if max then (if FV.below a b then b else a) else (if FV.below b a then b else a)

/-- Conversion to an integer range (R141): rounded, then clamped; NaN gives 0. -/
def FV.toIntClamped (rm : Rnd) (lo hi : Int) : FV → Int
  | .nan => 0
  | .inf n => if n then lo else hi
  | .fin n m e =>
    let k : Int := roundAt rm n m e false 0
    let x := if n then -k else k
    Max.max lo (Min.min hi x)

/-- An integer as an exact value. -/
def FV.ofInt (x : Int) : FV := .fin (decide (x < 0)) x.natAbs 0

/-- The element format and count of a floating-point type of Table 19-9; `fmt` is the P3109 format byte. -/
def fpFmt (t : FpTy) (fmt : Nat) : Fmt × Nat :=
  match t with
  | .f32 => (.f32, 1) | .f64 => (.f64, 1) | .f16 => (.f16, 1) | .bf16 => (.bf16, 1)
  | .f16x2 => (.f16, 2) | .bf16x2 => (.bf16, 2) | .f32x2 => (.f32, 2)
  | .p8x4 => (.p3109 fmt, 4) | .e4m3x4 => (.e4m3, 4) | .e5m2x4 => (.e5m2, 4)
  | .e3m2x4 => (.e3m2, 4) | .e2m3x4 => (.e2m3, 4) | .e2m1x8 => (.e2m1, 8) | .e8m0x4 => (.e8m0, 4)

/-- The width in bits that an element of the type takes in a register (R138: six-bit elements take eight). -/
def fpElemBits (t : FpTy) : Nat :=
  match t with
  | .f32 | .f32x2 => 32
  | .f64 => 64
  | .f16 | .bf16 | .f16x2 | .bf16x2 => 16
  | .p8x4 | .e4m3x4 | .e5m2x4 | .e3m2x4 | .e2m3x4 | .e8m0x4 => 8
  | .e2m1x8 => 4

/-- The width in bits of an operand of the type (R248). -/
def fpWidth (t : FpTy) : Nat :=
  match t with
  | .f64 | .f32x2 => 64
  | _ => 32

end Sys2Proof.Machine
end

