-- ==== Sys2Proof/Machine/Mem.lean ====
section
/-! DEFINITION. Physical memory as agents see it: the ranges of Table 16-2, the alias aperture of the format windows
(R146 to R150), the L1 words with their registrations (R205 to R208), and the shutter cells (R123 to R127). -/

namespace Sys2Proof.Machine

open Sys2Proof

/-- The ranges of Table 16-2. -/
inductive PRange where
  | bonded | moduleMem | peer (n : Nat) | host | aliasAp | unassigned
  deriving DecidableEq, Repr

/-- The range that holds a physical address (Table 16-2). -/
def prange (a : Nat) : PRange :=
  if a < 2 ^ 38 then .bonded
  else if 2 ^ 39 ≤ a ∧ a < 2 ^ 40 then .moduleMem
  else if 2 ^ 49 ≤ a ∧ a < 2 ^ 50 then .peer ((a - 2 ^ 49) / 2 ^ 44)
  else if 2 ^ 50 ≤ a ∧ a < 2 ^ 51 then .host
  else if 2 ^ 51 ≤ a ∧ a < 2 ^ 52 then .aliasAp
  else .unassigned

/-- Do the host's windows cover a range of host addresses, one window after another (R230)? -/
def hostCovered (s : State) : Nat → Nat → Nat → Bool
  | 0, _, _ => false
  | fuel + 1, a, n =>
    match s.hub.hostWin.find? (fun w => decide (w.1 ≤ a) && decide (a < w.1 + w.2)) with
    | some w => decide (a + n ≤ w.1 + w.2) || hostCovered s fuel (w.1 + w.2) (a + n - (w.1 + w.2))
    | none => false

/-- Are `n` bytes of host memory inside the windows that the host has programmed (R221, R230)? -/
def hostAllowed (s : State) (a n : Nat) : Bool := hostCovered s 8 (a - 2 ^ 50) n

/-- The home die of a line (R210). -/
def homeDie (a : Nat) : Nat :=
  match prange a with
  | .bonded => a / 2 ^ 36 % 4
  | _ => a / 2 ^ 12 % 4

/-- The home slice of a line: within the home die, by a hash of address bits 36:7 (R210). (DESIGN CHOICE, log 8) -/
def lineHome (a : Nat) : Nat := homeDie a * 64 + Config.homeSlice (a / 128 % 2 ^ 30) % 64

/-- The lines of the last-level cache in a slice: 1 MiB less what SMCARVE takes (R11, R64). -/
def sliceLines (s : State) : Nat := 8192 - 512 * fld s.hub.smcarve.toNat 0 3

/-- Is the line cached by word registration in the L1s (R205, R222)? Without CXL no line of host memory is (R214).
(DEDUCED, log 84) -/
def registers (s : State) (a : Nat) : Bool :=
  match prange a with
  | .bonded | .moduleMem | .aliasAp => true
  | .host => s.hub.cxl
  | _ => false

/-- A register of format window `k` of die `d` (R146). -/
def fwReg (s : State) (d k r : Nat) : Nat := (tabGet s.hub.fw (0x40000 + 0x100 * d + 0x20 * k + r)).toNat

/-- A format window (Table 10-8). -/
structure Win where
  en    : Bool
  wr    : Bool
  npg   : Nat
  lfmt  : Nat
  pfmt  : Nat
  efmt  : Nat
  abase : Nat
  sbase : Nat
  scbase : Nat
  deriving DecidableEq, Repr

/-- The window that four registers describe. -/
def winOf (ctl alias_ store scale : Nat) : Win :=
  { en := bitOf ctl 63, wr := bitOf ctl 62, npg := fld ctl 24 24, lfmt := fld ctl 16 1, pfmt := fld ctl 8 8,
    efmt := fld ctl 0 3, abase := fld alias_ 12 40 * 4096, sbase := fld store 12 40 * 4096,
    scbase := fld scale 6 46 * 64 }

/-- Window `k` of die `d`. -/
def winAt (s : State) (d k : Nat) : Win :=
  winOf (fwReg s d k 0) (fwReg s d k 8) (fwReg s d k 0x10) (fwReg s d k 0x18)

/-- All windows, by die and number. -/
def allWins (s : State) : List Win :=
  (List.range 32).map (fun i => winAt s (i / 8) (i % 8))

/-- The enabled window that covers an alias address (R148). -/
def winFor (s : State) (a : Nat) : Option Win :=
  if s.hub.fw = [] then none
  else (allWins s).find? (fun w => w.en && decide (w.abase ≤ a) && decide (a < w.abase + w.npg * 4096))

/-- The stored element format of a window (Table 10-8). -/
def Win.eFmt (w : Win) : Fmt :=
  match w.efmt with
  | 0 => Fmt.p3109 w.pfmt
  | 1 => Fmt.e4m3
  | 2 => Fmt.e5m2
  | 3 => Fmt.e3m2
  | 4 => Fmt.e2m3
  | _ => Fmt.e2m1

/-- The line format of a window. -/
def Win.lFmt (w : Win) : Fmt := if w.lfmt = 0 then .bf16 else .f16

/-- The stored code of element `n` (R148). -/
def Win.code (w : Win) (m : Memory) (n : Nat) : Nat :=
  if w.efmt = 5 then fld (tabGet m (w.sbase + n / 2)).toNat (4 * (n % 2)) 4 else (tabGet m (w.sbase + n)).toNat

/-- The scale byte of element `n` (R148). -/
def Win.scale (w : Win) (m : Memory) (n : Nat) : Nat := (tabGet m (w.scbase + n / 32)).toNat

/-- A value times a power of two. -/
def FV.scale (x : FV) (k : Int) : FV :=
  match x with
  | .fin n m e => .fin n m (e + k)
  | y => y

/-- The decoded element (R149). -/
def Win.elem (w : Win) (m : Memory) (n : Nat) : Nat :=
  let sc := w.scale m n
  if sc = 0xFF then w.lFmt.nanCode
  else
    match w.eFmt.decode (w.code m n) with
    | .inf neg => w.lFmt.infCode neg false
    | x => w.lFmt.round .rn true (x.scale ((sc : Int) - 127))

/-- The 128 bytes of an alias line, decoded (R149). -/
def Win.line (w : Win) (m : Memory) (line : Nat) : BitVec 1024 :=
  let n0 := (line * 128 - w.abase) / 2
  BitVec.ofNat 1024 ((List.range 64).foldl (fun acc k => acc + w.elem m (n0 + k) * 2 ^ (16 * k)) 0)

/-- The code that a written element is stored as (R150). -/
def Win.reencode (w : Win) (m : Memory) (n v : Nat) : Nat :=
  let sc := w.scale m n
  let f := w.eFmt
  let x := w.lFmt.decode v
  if sc = 0xFF then f.nanCode
  else if x.isNan then f.nanCode
  else f.round .rn true (x.scale (127 - (sc : Int)))

/-- Write element `n`'s stored code. -/
def Win.put (w : Win) (m : Memory) (n c : Nat) : Memory :=
  if w.efmt = 5 then
    let a := w.sbase + n / 2
    tabSet m a (BitVec.ofNat 8 (setFld (tabGet m a).toNat (4 * (n % 2)) 4 c))
  else tabSet m (w.sbase + n) (BitVec.ofNat 8 c)

/-- The alias line that the last-level cache holds. -/
def aliasLine? (s : State) (line : Nat) : Option AliasLine := s.aliases.find? (fun l => l.line == line)

/-- Write the marked elements of an alias line back through its window; the line stays, clean (R150). -/
def aliasWb (s : State) (line : Nat) : State :=
  match aliasLine? s line, winFor s (line * 128) with
  | some l, some w =>
    if w.wr then
      let n0 := (line * 128 - w.abase) / 2
      let m := (List.range 64).foldl (fun m k =>
        if bitOf l.written.toNat k then w.put m (n0 + k) (w.reencode m (n0 + k) (fld l.data.toNat (16 * k) 16)) else m) s.mem
      { s with mem := m,
               aliases := s.aliases.map (fun x => if x.line == line then { x with written := 0 } else x) }
    else s
  | _, _ => s

/-- Drop an alias line. -/
def aliasDrop (s : State) (line : Nat) : State :=
  { s with aliases := s.aliases.filter (fun l => l.line != line) }

/-- A line leaves the last-level cache, its written elements going through the window first (R150). -/
def aliasEvict (s : State) (line : Nat) : State := aliasDrop (aliasWb s line) line

/-- The retention priority of a line: that of the last memory instruction that reached it (R89). -/
def retention (s : State) (line : Nat) : Nat :=
  match s.retain.find? (fun x => x.1 == line) with
  | some x => x.2
  | none => 3

/-- The slice of a die that answers for a word (R205, R210): the home slice on the line's home die. (DESIGN CHOICE, log 8) -/
def answering (die a : Nat) : Nat := die * 64 + Config.homeSlice (a / 128 % 2 ^ 30) % 64

/-- The slice in which a die holds the line of a directory entry (R205, R209, R221). -/
def DirEntry.slice (e : DirEntry) : Nat := answering e.holder (e.line * 128)

/-- Is a line held (R89) in the slice of a directory entry, which is then the line's home (R221)? -/
def dirHeld (s : State) (e : DirEntry) : Bool := s.held.contains e.line && e.holder == homeDie (e.line * 128)

/-- The lines that a slice keeps in the last-level cache, as far as the model knows them: alias lines, the lines of
other homes that its die holds, those of host memory that it holds by CXL.cache (R209, R221), and held ones (R89). -/
def sliceLoad (s : State) (slice : Nat) : Nat :=
  (s.aliases.filter (fun l => lineHome (l.line * 128) == slice)).length
    + (s.dir.filter (fun e => e.holder != 4 && e.slice == slice)).length
    + (s.held.filter (fun x => lineHome (x * 128) == slice && (aliasLine? s x).isNone
        && !s.dir.any (fun e => e.line == x && e.holder == homeDie (x * 128)))).length

/-- Have all slices together at most so many lines? Then each of them has. -/
def fewLines (s : State) (cap : Nat) : Bool := decide (s.aliases.length + s.dir.length + s.held.length ≤ cap)

/-- A slice gives up alias lines until `cap` lines fill it (R11): the line of the least retention that is not held, the oldest
among equals (R89). (DESIGN CHOICE, log 83) -/
def aliasFit (slice cap : Nat) : Nat → State → State
  | 0, s => s
  | n + 1, s =>
    if fewLines s cap || decide (sliceLoad s slice ≤ cap) then s
    else
      match leastBy (fun (l : AliasLine) => [retention s l.line])
          (s.aliases.filter (fun l => lineHome (l.line * 128) == slice && !s.held.contains l.line)).reverse with
      | some l => aliasFit slice cap n (aliasEvict s l.line)
      | none => s

/-- The home slice of an alias line keeps its capacity (R11). One without room for the line, because no other alias line may
leave it, gives up that line itself. -/
def aliasTidy (s : State) (line : Nat) : State := aliasFit (lineHome (line * 128)) (sliceLines s) s.aliases.length s

/-- Read an alias line into the last-level cache (R149), which first makes room for it (R11); a line outside every
window stays out. -/
def aliasFill (s : State) (line : Nat) : State :=
  match aliasLine? s line, winFor s (line * 128) with
  | none, some w =>
    let s := aliasFit (lineHome (line * 128)) (sliceLines s - 1) s.aliases.length s
    { s with aliases := { line := line, data := w.line s.mem line, written := 0 } :: s.aliases }
  | _, _ => s

/-- A byte at its home: memory, or the decoded line under an alias address. -/
def homeByte (s : State) (a : Nat) : Nat :=
  if a < 2 ^ 51 then (tabGet s.mem a).toNat
  else
    match aliasLine? s (a / 128), winFor s a with
    | some l, _ => fld l.data.toNat (8 * (a % 128)) 8
    | none, some w => fld (w.line s.mem (a / 128)).toNat (8 * (a % 128)) 8
    | none, none => 0

/-- Write a byte at its home. -/
def homeSet (s : State) (a b : Nat) : State :=
  if a < 2 ^ 51 then { s with mem := tabSet s.mem a (BitVec.ofNat 8 b) }
  else
    let s := aliasFill s (a / 128)
    aliasTidy { s with aliases := s.aliases.map (fun l =>
        if l.line == a / 128 then
          { l with data := BitVec.ofNat 1024 (setFld l.data.toNat (8 * (a % 128)) 8 b),
                   written := BitVec.ofNat 64 (setFld l.written.toNat (a % 128 / 2) 1 1) }
        else l) } (a / 128)

/-- The registration of a word, if a core holds one (R205). -/
def regOf (s : State) (w : Nat) : Option L1Word := s.l1.find? (fun x => x.reg && x.addr == w)

/-- The current byte: the registrant's where its mask covers it, else the home's (R207). -/
def curByte (s : State) (a : Nat) : Nat :=
  match regOf s (a / 4 * 4) with
  | some w => if bitOf w.mask.toNat (a % 4) then fld w.val.toNat (8 * (a % 4)) 8 else homeByte s a
  | none => homeByte s a

/-- `n` current bytes from `a`, little-endian. -/
def curRead (s : State) (a : Nat) : Nat → Nat
  | 0 => 0
  | n + 1 => curByte s a + 256 * curRead s (a + 1) n

/-- Write a word's masked bytes home. -/
def wbWord (s : State) (w : L1Word) : State :=
  (List.range 4).foldl (fun s k =>
    if bitOf w.mask.toNat k then homeSet s (w.addr + k) (fld w.val.toNat (8 * k) 8) else s) s

/-- Revoke the registration of the word at `w`: its bytes are written back (R207). -/
def revoke (s : State) (w : Nat) : State :=
  match regOf s w with
  | some x =>
    let s := wbWord s x
    { s with l1 := s.l1.filter (fun y => !(y.reg && y.addr == w)) }
  | none => s

/-- Revoke the registrations that a test selects. -/
def revokeWhere (s : State) (p : L1Word → Bool) : State :=
  (s.l1.filter (fun x => x.reg && p x)).foldl (fun s x => revoke s x.addr) s

/-- Revoke every registration in `n` bytes from `a`. -/
def revokeRange (s : State) (a n : Nat) : State :=
  if s.l1 = [] then s
  else
    (List.range ((a + n + 3) / 4 - a / 4)).foldl (fun s k => revoke s ((a / 4 + k) * 4)) s

/-- Write back and keep the registrations in a range: the word stays registered (R217). -/
def cleanRange (s : State) (a n : Nat) : State :=
  s.l1.foldl (fun s w => if w.reg && decide (a ≤ w.addr) && decide (w.addr < a + n) then wbWord s w else s) s

/-- Write `n` bytes at their home, revoking what cores hold (R207, R216). -/
def homeWriteFrom (s : State) (a : Nat) : Nat → Nat → State
  | 0, _ => s
  | n + 1, v => homeWriteFrom (homeSet s a (v % 256)) (a + 1) n (v / 256)

/-- The home recalls lines from the dies that some directory entries name: their registered words of those lines are written
back, and the entries go (R209). -/
def dirRecall (s : State) (gone : DirEntry → Bool) : State :=
  let ds := s.dir.filter gone
  if ds = [] then s
  else
    let s := revokeWhere s (fun x => ds.any (fun d => d.line == x.addr / 128 && d.holder == x.die))
    { s with dir := s.dir.filter (fun d => !gone d) }

/-- A slice gives up lines until `cap` lines fill it (R11, R13): that of the least retention which is not held, an alias line
before another one, the oldest among equals (R89). An alias line goes through its window (R150); another one's registered
words are written back first (R211), a line of host memory's by every die (R221). (DESIGN CHOICE, log 83) -/
def sliceFit (slice cap : Nat) : Nat → State → State
  | 0, s => s
  | n + 1, s =>
    if fewLines s cap || decide (sliceLoad s slice ≤ cap) then s
    else
      let as := (s.aliases.filter (fun l => lineHome (l.line * 128) == slice && !s.held.contains l.line)).reverse
      let ds := (s.dir.filter (fun e => e.holder != 4 && e.slice == slice && !dirHeld s e)).reverse
      match leastBy (fun (x : Nat × Option DirEntry) => [retention s x.1]) (as.map (fun l => (l.line, none)) ++ ds.map (fun e => (e.line, some e))) with
      | some (line, none) => sliceFit slice cap n (aliasEvict s line)
      | some (line, some e) =>
        sliceFit slice cap n (dirRecall s (fun d =>
          d.line == line && d.holder != 4 && (d.holder == e.holder || e.holder == homeDie (line * 128))))
      | none => s

/-- A slice makes room for one more line (R11). -/
def sliceRoom (s : State) (slice : Nat) : State := sliceFit slice (sliceLines s - 1) (s.aliases.length + s.dir.length) s

/-- The dies' copies of the lines of a range are recalled (R209); the host's holding stays with the host. -/
def dirDrop (s : State) (a n : Nat) : State :=
  dirRecall s (fun d => d.holder != 4 && d.halves == 0 && decide (a / 128 ≤ d.line) && decide (d.line ≤ (a + n - 1) / 128))

/-- Write `n` bytes at their home. (DESIGN CHOICE, log 67) -/
def homeWrite (s : State) (a n v : Nat) : State := homeWriteFrom (dirDrop (revokeRange s a n) a n) a n v

/-- Does the host hold the line (R216)? -/
def hostHolds (s : State) (line : Nat) : Bool := s.dir.any (fun e => e.line == line && e.holder == 4)

/-- Ask the host for a line, once (R217). -/
def snoopHost (s : State) (line : Nat) : State :=
  if s.hostOut.contains (.backInvalidate line) then s else { s with hostOut := .backInvalidate line :: s.hostOut }

/-- The value that a read-modify-write leaves. -/
def HostRmw.apply (r : HostRmw) (x : Nat) : Nat := if x &&& r.cond = r.want then ((x ||| r.mask) ^^^ r.mask) ||| r.put else x

/-- A read-modify-write of the device itself waits while the host holds its line, and the host is asked for it (R217);
else `now` happens. (DEDUCED, log 85) -/
def rmwWaits (s : State) (r : HostRmw) (now : State → State) : State :=
  if hostHolds s (r.addr / 128) then
    (let s := snoopHost s (r.addr / 128)
     if s.hostRmw.contains r then s else { s with hostRmw := s.hostRmw ++ [r] })
  else now s

/-- The hub and the hatch write lines that the host holds without a wait: the host is asked for each, and what it writes back
of these bytes is older (R217). (DEDUCED, log 85) -/
def overHost (s : State) (a n : Nat) : State :=
  if !s.dir.any (fun e => e.holder == 4) then s
  else
    (List.range n).foldl (fun s k =>
      if hostHolds s ((a + k) / 128) then
        (let s := snoopHost s ((a + k) / 128)
         if s.hostLate.contains (a + k) then s else { s with hostLate := (a + k) :: s.hostLate })
      else s) s

/-- A write of the device at the home, be the host a holder of the line or not. -/
def deviceWrite (s : State) (a n v : Nat) : State := homeWrite (overHost s a n) a n v

/-- A slice whose table of 65,536 registered words is full revokes its oldest registration (R205). The list holds the
newest first. -/
def makeRoom (s : State) (die w : Nat) : State :=
  let mine := s.l1.filter (fun x => x.reg && answering x.die x.addr == answering die w)
  if mine.length < 65536 then s
  else
    match mine.getLast? with
    | some x => revoke s x.addr
    | none => s

/-- A core's L1 of 128 KiB that is full gives up a word of the line with the least retention, the oldest one (R11, R89), a
registered one with a write-back (R205). (DESIGN CHOICE, log 83) -/
def l1Room (s : State) (die core : Nat) : State :=
  let mine := s.l1.filter (fun x => x.die == die && x.core == core)
  if mine.length < 32768 then s
  else
    match leastBy (fun (x : L1Word) => [retention s (x.addr / 128)]) mine.reverse with
    | some x => if x.reg then revoke s x.addr else { s with l1 := s.l1.erase x }
    | none => s

/-- A word enters a core's L1 in place of what the core held of it. -/
def l1Add (s : State) (x : L1Word) : State :=
  let s := l1Room { s with l1 := s.l1.filter (fun y => !(y.addr == x.addr && y.die == x.die && y.core == x.core)) } x.die x.core
  { s with l1 := x :: s.l1 }

/-- A core's store of one byte into its L1 under registration (R205, R207): another core's registration of the word is
revoked first, and this core's unregistered copy goes. -/
def l1StoreByte (s : State) (die core a b : Nat) : State :=
  let w := a / 4 * 4
  match s.l1.find? (fun x => x.reg && x.addr == w && x.die == die && x.core == core) with
  | some _ =>
    { s with l1 := s.l1.map (fun x =>
        if x.reg && x.addr == w then
          { x with val := BitVec.ofNat 32 (setFld x.val.toNat (8 * (a % 4)) 8 b),
                   mask := BitVec.ofNat 4 (setFld x.mask.toNat (a % 4) 1 1) }
        else x) }
  | none =>
    l1Add (revoke (makeRoom s die w) w)
      { die := die, core := core, addr := w, val := BitVec.ofNat 32 (b % 256 * 2 ^ (8 * (a % 4))),
        mask := BitVec.ofNat 4 (2 ^ (a % 4)), reg := true, pair := false }

/-- A core's store of `n` bytes. -/
def l1Store (s : State) (die core a : Nat) : Nat → Nat → State
  | 0, _ => s
  | n + 1, v => l1Store (l1StoreByte s die core a (v % 256)) die core (a + 1) n (v / 256)

/-- The unregistered copy of a word in a core's L1. -/
def copyOf (s : State) (die core w : Nat) : Option L1Word :=
  s.l1.find? (fun x => !x.reg && x.addr == w && x.die == die && x.core == core)

/-- A core's unregistered words go at an acquire at cluster scope or wider (R206). -/
def l1Acquire (s : State) (die core : Nat) : State :=
  { s with l1 := s.l1.filter (fun x => x.reg || x.die != die || x.core != core) }

/-- Change every group that is resident or saved. -/
def mapGroups (s : State) (f : Group → Group) : State :=
  { s with groups := s.groups.map f, saved := s.saved.map (fun v => { v with groups := v.groups.map f }) }

/-- Do two ranges of one space share a byte? -/
def Loc.overlaps (x : Loc) (n : Nat) (y : Loc) (m : Nat) : Bool :=
  match x, y with
  | .phys a, .phys b => decide (a < b + m) && decide (b < a + n)
  | .smem a, .smem b => decide (a < b + m) && decide (b < a + n)
  | .tmem t a, .tmem u b => t == u && decide (a < b + m) && decide (b < a + n)
  | .tile t a, .tile u b => t == u && decide (a < b + m) && decide (b < a + n)
  | _, _ => false

/-- A place `k` bytes further on. -/
def Loc.plus (x : Loc) (k : Nat) : Loc :=
  match x with
  | .phys a => .phys (a + k)
  | .smem a => .smem (a + k)
  | .tmem t a => .tmem t (a + k)
  | .tile t a => .tile t (a + k)

/-- Who performs an access: its core, and its identity for shutters (none: an agent that is foreign to every storer). -/
structure Actor where
  die    : Nat
  core   : Nat
  storer : Option Storer
  deriving DecidableEq, Repr

/-- Is a shutter cell foreign to an actor? -/
def Shutter.foreign (c : Shutter) (w : Actor) : Bool := w.storer != some c.owner

/-- Keep an unregistered copy of one word, as a load or a prefetch brings it (R206). A word of a shuttered cell is kept
only for its storer (R124). `pair` says that the copy and that of the other word of its eight bytes were current
together (R102). -/
def l1KeepWord (s : State) (w : Actor) (a : Nat) : State :=
  let here (y : L1Word) : Bool := y.die == w.die && y.core == w.core
  if s.l1.any (fun y => y.reg && y.addr == a && here y)
      || s.shutters.any (fun c => c.foreign w && c.loc.overlaps c.size (.phys a) 4) then s
  else
    let mate := a ^^^ 4
    let pair := match copyOf s w.die w.core mate with
      | some m => m.val.toNat == curRead s mate 4
      | none => false
    l1Add { s with l1 := s.l1.map (fun y => if !y.reg && y.addr == mate && here y then { y with pair := pair } else y) }
      { die := w.die, core := w.core, addr := a, val := BitVec.ofNat 32 (curRead s a 4), mask := 15, reg := false, pair := pair }

/-- Keep unregistered copies of the words of a range. -/
def l1Keep (s : State) (w : Actor) (a n : Nat) : State :=
  (List.range ((a + n + 3) / 4 - a / 4)).foldl (fun s k => l1KeepWord s w ((a / 4 + k) * 4)) s

/-- The bytes of a unit of at most eight aligned bytes as a core's unregistered copies hold them; none unless every word
has a copy and two words were current together (R102). (DESIGN CHOICE, log 7) -/
def staleRead (s : State) (w : Actor) (a n : Nat) : Option Nat :=
  let copy (k : Nat) : Option L1Word := copyOf s w.die w.core ((a + k) / 4 * 4)
  let together := a / 4 == (a + n - 1) / 4 || (match copy 0 with | some x => x.pair | none => false)
  if together then
    (List.range n).reverse.foldl (fun acc k =>
      match acc, copy k with
      | some v, some x => some (fld x.val.toNat (8 * ((a + k) % 4)) 8 + 256 * v)
      | _, _ => none) (some 0)
  else none

/-- A core gives up its unregistered copies of a range that it changes at its home, so that its own later loads return
what it wrote (R94, R99, R104). -/
def l1Forget (s : State) (w : Actor) (x : Loc) (n : Nat) : State :=
  match x with
  | .phys _ => { s with l1 := s.l1.filter (fun y =>
      y.reg || y.die != w.die || y.core != w.core || !(Loc.phys y.addr).overlaps 4 x n) }
  | _ => s

/-- Every core's unregistered copies of a range go: what a retract has withdrawn is never read again (R9, R126). -/
def l1ForgetAll (s : State) (x : Loc) (n : Nat) : State :=
  match x with
  | .phys _ => { s with l1 := s.l1.filter (fun y => y.reg || !(Loc.phys y.addr).overlaps 4 x n) }
  | _ => s

/-- A foreign read that returns a cell's new value marks it observed; its team is no longer clean (R124, R199). -/
def observe (s : State) (w : Actor) (x : Loc) (n : Nat) : State :=
  if s.shutters.any (fun c => c.foreign w && c.loc.overlaps c.size x n) then
    { s with
      shutters := s.shutters.map (fun c => if c.foreign w && c.loc.overlaps c.size x n then { c with seen := true } else c),
      teams := s.teams.map soil, saved := s.saved.map (fun v => { v with team := soil v.team }) }
  else s
where
  /-- The team of a cell that is seen. -/
  soil (t : Team) : Team :=
    if s.shutters.any (fun c => c.foreign w && c.loc.overlaps c.size x n && c.owner.uid == t.uid) then { t with clean := false }
    else t

/-- A foreign store or read-modify-write settles the cells it touches (R124). -/
def settleForeign (s : State) (w : Actor) (x : Loc) (n : Nat) : State :=
  if s.shutters = [] then s
  else { s with shutters := s.shutters.filter (fun c => !(c.foreign w && c.loc.overlaps c.size x n)) }

/-- The team memory or tile store of a team. -/
def teamMem (s : State) (uid : Nat) (tile : Bool) : Memory :=
  match s.teams.find? (fun t => t.uid == uid) with
  | some t => if tile then t.tile else t.tmem
  | none => []

/-- The current bytes of a place. -/
def locRead (s : State) (x : Loc) (n : Nat) : Nat :=
  match x with
  | .phys a => curRead s a n
  | .smem a => memRead s.smem a n
  | .tmem t a => memRead (teamMem s t false) a n
  | .tile t a => memRead (teamMem s t true) a n

/-- Write bytes of a place at its home: the bank unit, the team-memory unit or the tile store. -/
def locWrite (s : State) (x : Loc) (n v : Nat) : State :=
  match x with
  | .phys a => deviceWrite s a n v
  | .smem a => { s with smem := memWrite s.smem a n v }
  | .tmem t a =>
    { s with teams := s.teams.map (fun y => if y.uid == t then { y with tmem := memWrite y.tmem a n v } else y) }
  | .tile t a =>
    { s with teams := s.teams.map (fun y => if y.uid == t then { y with tile := memWrite y.tile a n v } else y) }

/-- The bytes of a list of places in order, little-endian. -/
def locsRead (s : State) : List (Loc × Nat) → Nat
  | [] => 0
  | (x, n) :: r => locRead s x n + 256 ^ n * locsRead s r

/-- An actor's write at the home of a place: a foreign shutter settles, and its own core's copies go. -/
def actWrite (s : State) (w : Actor) (x : Loc) (n v : Nat) : State := locWrite (l1Forget (settleForeign s w x n) w x n) x n v

/-- Write bytes to a list of places in order, as an agent foreign to every storer or an engine of a core's group. -/
def locsWrite (w : Actor) (s : State) : List (Loc × Nat) → Nat → State
  | [], _ => s
  | (x, n) :: r, v => locsWrite w (actWrite s w x n (v % 256 ^ n)) r (v / 256 ^ n)

/-- Put the former value of a cell back (R125, R127). -/
def restoreCell (s : State) (c : Shutter) : State := locWrite (l1ForgetAll s c.loc c.size) c.loc c.size c.former

/-- An access through the alias aperture is answered with an error outside every window, and a write also where the
window is not writable (R148, R150). A host access under an isolated port fails likewise (R230). -/
def accessFails (s : State) (x : Loc) (write : Bool) : Bool :=
  match x with
  | .phys a =>
    match prange a with
    | .aliasAp =>
      match winFor s a with
      | some w => write && !w.wr
      | none => true
    | .host => s.hub.isolated
    | _ => false
  | _ => false

/-- A free choice of the device: whether the counter's next choice is odd. The counter moves on.
(DESIGN CHOICE, log 2) -/
def choose (s : State) : Bool × State :=
  (Config.choice s.fresh % 2 == 1, { s with fresh := s.fresh + 1 })

/-- The home of a line of host memory holds it by CXL.cache, each half that an access reaches requested separately
(R221). A port trained without CXL has no such protocol (R214). -/
def hostFetch (s : State) (a n : Nat) : State :=
  match prange a, s.hub.cxl with
  | .host, true =>
    let half := setFld (setFld 0 (a / 64 % 2) 1 1) ((a + n - 1) / 64 % 2) 1 1
    let mine (e : DirEntry) : Bool := e.line == a / 128 && e.holder == homeDie a
    let s := if s.dir.any mine then s else sliceRoom s (lineHome a)
    let old := match s.dir.find? mine with | some e => e.halves | none => 0
    { s with dir := { line := a / 128, holder := homeDie a, excl := false, evicting := false, halves := old ||| BitVec.ofNat 2 half }
        :: s.dir.filter (fun e => !mine e) }
  | _, _ => s

/-- A die that does not hold a line makes room for it in the slice that answers for it (R11). -/
def dieRoom (s : State) (line d : Nat) : State :=
  if s.dir.any (fun e => e.line == line && e.holder == d) then s else sliceRoom s (answering d (line * 128))

/-- The directory after die `d` takes a line exclusive: every other die gives it up, its cores' registrations first
(R209). -/
def dirExclusive (s : State) (line d : Nat) : State :=
  let s := revokeWhere s (fun x => x.addr / 128 == line && x.die != d)
  let s := if homeDie (line * 128) = d then s else dieRoom s line d
  let rest := s.dir.filter (fun e => e.line != line || e.holder == 4 || e.halves != 0)
  if homeDie (line * 128) = d then { s with dir := rest }
  else { s with dir := { line := line, holder := d, excl := true, evicting := false, halves := 0 } :: rest }

/-- A read by a die that is not the line's home brings the line into its slices: the die holds it shared, unless a die
holds it exclusive (R209). (DEDUCED, log 82) -/
def dirShare (s : State) (w : Actor) (a : Nat) : State :=
  let line := a / 128
  if 48 ≤ w.core ∨ homeDie a = w.die ∨ !registers s a then s
  else if s.dir.any (fun e => e.line == line && e.holder != 4 && (e.excl || e.holder == w.die)) then s
  else
    let s := dieRoom s line w.die
    { s with dir := { line := line, holder := w.die, excl := false, evicting := false, halves := 0 } :: s.dir }

/-- A read reaches a line: an alias line enters the last-level cache (R149), a half of a host line is held by CXL.cache
(R221), and the reader's die may share the line (R209). -/
def touchLine (s : State) (w : Actor) (a n : Nat) : State :=
  dirShare (match prange a with | .aliasAp => aliasTidy (aliasFill s (a / 128)) (a / 128) | _ => hostFetch s a n) w a

/-- A load's unit of at most eight aligned bytes (R98, R102, R206). A weak load may return the core's unregistered copy
where it differs from the current value; a foreign load that returns a cell's new value marks it (R124). A load at
retention 0 leaves nothing in the L1 (R89). A line that the host owns exclusively gives the bytes that its home has, and the
host is not asked for it, since R217 speaks of writes. (DESIGN CHOICE, log 105) -/
def performLoad (s : State) (w : Actor) (weak stream : Bool) (x : Loc) (n : Nat) : Nat × State :=
  match x with
  | .phys a =>
    let s := touchLine s w a n
    let cur := curRead s a n
    let keep (s : State) : State := if stream then s else l1Keep s w a n
    if weak && registers s a then
      match staleRead s w a n with
      | some old =>
        if old = cur then (cur, observe s w x n)
        else if s.shutters.any (fun c => c.foreign w && c.loc.overlaps c.size x n) then (cur, observe s w x n)
        else
          let (c, s) := choose s
          if c then (old, s) else (cur, keep s)
      | none => (cur, keep (observe s w x n))
    else (cur, observe s w x n)
  | _ => (locRead s x n, observe s w x n)

/-- Hold a line in the last-level cache (R89, EVP 7): at most one quarter of a slice's lines, and never a peer's
(R222). -/
def holdLine (s : State) (a : Nat) : State :=
  let line := a / 128
  if !registers s a || s.held.contains line
      || decide (sliceLines s / 4 ≤ (s.held.filter (fun l => lineHome (l * 128) == lineHome a)).length) then s
  else sliceFit (lineHome a) (sliceLines s) (s.aliases.length + s.dir.length) { s with held := line :: s.held }

/-- The retention that a memory instruction gives a line: 7 holds it, and counts as 6 beyond the quarter (R89). -/
def retainLine (s : State) (evp a : Nat) : State :=
  let line := a / 128
  let rest := s.retain.filter (fun x => x.1 != line)
  let s := { s with retain := if evp = 3 then rest else (line, Min.min evp 6) :: rest }
  if evp = 7 then holdLine s a else s

/-- A store's unit. It settles foreign cells; a store to a registered range goes to the L1, any other to its home. -/
def performStore (s : State) (w : Actor) (x : Loc) (n v : Nat) : State :=
  let s := settleForeign s w x n
  match x with
  | .phys a =>
    if registers s a then l1Store (dirExclusive (hostFetch s a n) (a / 128) w.die) w.die w.core a n v else actWrite s w x n v
  | _ => locWrite s x n v

end Sys2Proof.Machine
end

