-- ==== Sys2Proof/Machine/Seg.lean ====
section
/-! DEFINITION. Segments, rights, translation and link slots (05_segments_linkage.md): from a segmented address to the
places that hold its bytes, or to the cause that stops the access. -/

namespace Sys2Proof.Machine

open Sys2Proof

/-- The hub's context table entry of a resident context. -/
def ctxOf (s : State) (n : Nat) : Option Ctx := s.ctxs.find? (fun c => c.num == n && c.resident)

/-- Who makes an access: its core, context and team, the mode, and the code segment that executes (R63, R65). -/
structure View where
  die     : Nat
  core    : Nat
  ctx     : Nat
  team    : Nat
  tmemG   : Nat
  tileG   : Nat
  single  : Bool
  codeSeg : Nat
  storer  : Option Storer := none
  deriving DecidableEq, Repr

/-- The view as an actor on memory. -/
def View.actor (v : View) : Actor := { die := v.die, core := v.core, storer := v.storer }

/-- A page-table entry with A, and D for a leaf that a write uses, set (R69). -/
def pteMark (e : Nat) (leafWrite : Bool) : Nat :=
  let e := setFld e 5 1 1
  if leafWrite then setFld e 6 1 1 else e

/-- Why a translation table, a descriptor or a frame table cannot be read at a physical address: a frame that no access
may use is a translation failure (R215), and a read that is answered with an error is a data error of the consumer
(R148, R230). -/
def tableCause (s : State) (p n : Nat) : Option Nat :=
  let data := if accessFails s (.phys p) false then some 0x21 else none
  match prange p with
  | .unassigned => some 0x0C
  | .host => if hostAllowed s p n then data else some 0x0C
  | _ => data

/-- Write an entry back when its marks changed, once the host does not hold its line (R217); a window that is not
writable takes none (R150). -/
def pteUpdate (s : State) (pa e : Nat) (leafWrite : Bool) : State :=
  if pteMark e leafWrite = e || accessFails s (.phys pa) true then s
  else
    rmwWaits s { addr := pa, n := 8, cond := 0, want := 0, mask := pteMark 0 leafWrite, put := pteMark 0 leafWrite }
      (fun s => deviceWrite s pa 8 (pteMark e leafWrite))

/-- A walk from level `l` (R69): the physical address with the page size as a power of two (a contiguous 64 KiB entry
included), or the cause that stops it: a translation fault, or a data error of an entry's read (R148). The walker sets A
in every present entry it passes, and D in the leaf of a write. Reserved bits 8 and 4:2 are ignored, and an entry with L
at level 4 or 5 is a translation fault. (DESIGN CHOICE, log 69) -/
def walkFrom (s : State) (lin : Nat) (write : Bool) : Nat → Nat → ((Nat × Nat) ⊕ Nat) × State
  | 0, _ => (.inr 0x0C, s)
  | l + 1, table =>
    let shift := 12 + 9 * l
    let pa := table + 8 * (lin / 2 ^ shift % 512)
    let e := curRead s pa 8
    let big := bitOf e 7
    match tableCause s pa 8 with
    | some c => (.inr c, s)
    | none =>
      if !bitOf e 0 || fld e 52 12 != 0 || (write && !bitOf e 1) || (big && l ≥ 3) then (.inr 0x0C, s)
      else if l = 0 ∨ big then
        let frame := fld e 12 40 * 4096
        if frame % 2 ^ shift ≠ 0 then (.inr 0x0C, s)
        else (.inl (frame + lin % 2 ^ shift, if l = 0 ∧ bitOf e 11 then 16 else shift), pteUpdate s pa e write)
      else walkFrom (pteUpdate s pa e false) lin write l (fld e 12 40 * 4096)

/-- The walk of a linear address from a context's root. -/
def walk (s : State) (ctx lin : Nat) (write : Bool) : ((Nat × Nat) ⊕ Nat) × State :=
  match ctxOf s ctx with
  | some c => walkFrom s (lin % 2 ^ 57) write 5 c.root
  | none => (.inr 0x0C, s)

/-- A list, newest first, without the elements of a kind beyond the first `n`. -/
def keepFirst {α : Type} (p : α → Bool) : Nat → List α → List α
  | _, [] => []
  | n, a :: r =>
    if p a then
      match n with
      | 0 => keepFirst p 0 r
      | k + 1 => a :: keepFirst p k r
    else a :: keepFirst p n r

/-- Does an entry translate a page of a context for an access? It stands for the whole mapping that its page is part of,
16 pages for a contiguous hint (R69). -/
def TlbEntry.covers (e : TlbEntry) (ctx vpn : Nat) (write : Bool) : Bool :=
  e.ctx == ctx && e.vpn / 2 ^ (e.shift - 12) == vpn / 2 ^ (e.shift - 12) && (e.write || !write)

/-- The frame that an entry gives a page of its mapping. -/
def TlbEntry.frame (e : TlbEntry) (vpn : Nat) : Nat := e.pfn + vpn - e.vpn

/-- The TLB entry of a core for a page, usable for the access (R70). -/
def tlbFind (s : State) (v : View) (vpn : Nat) (write : Bool) : Option TlbEntry :=
  s.tlb.find? (fun e => e.die == v.die && e.core == v.core && e.covers v.ctx vpn write)

/-- The entry of a die's second-level TLB for a page of one of its cores (R70). -/
def tlb2Find (s : State) (v : View) (vpn : Nat) (write : Bool) : Option TlbEntry :=
  if 48 ≤ v.core then none else s.tlb2.find? (fun e => e.die == v.die && e.covers v.ctx vpn write)

/-- A translation enters a core's TLB of 128 entries (R70). -/
def tlbFill (s : State) (e : TlbEntry) : State :=
  let mine (x : TlbEntry) : Bool := x.die == e.die && x.core == e.core
  { s with tlb := keepFirst mine 128 (e :: s.tlb.filter (fun x => !(mine x && x.covers e.ctx e.vpn false))) }

/-- A translation enters a die's second-level TLB of 8,192 entries (R70). -/
def tlb2Fill (s : State) (e : TlbEntry) : State :=
  let mine (x : TlbEntry) : Bool := x.die == e.die
  if 48 ≤ e.core then s
  else { s with tlb2 := keepFirst mine 8192 (e :: s.tlb2.filter (fun x => !(mine x && x.covers e.ctx e.vpn false))) }

/-- The entry that a completed walk leaves. -/
def tlbEntryOf (v : View) (vpn : Nat) (write : Bool) (p : Nat × Nat) : TlbEntry :=
  { die := v.die, core := v.core, ctx := v.ctx, vpn := vpn, pfn := p.1 / 4096, write := write, shift := p.2 }

/-- Translate a linear address: the physical address, or the cause that stops the walk. A cached entry that no longer
matches the tables may still be used (R71, R194): the device chooses. -/
def translate (s : State) (v : View) (lin : Nat) (write : Bool) : (Nat ⊕ Nat) × State :=
  let lin := lin % 2 ^ 57
  let vpn := lin / 4096
  let (r, s') := walk s v.ctx lin write
  let fill (s : State) (p : Nat × Nat) : State :=
    let e := tlbEntryOf v vpn write p
    tlbFill (tlb2Fill s e) e
  let use (s : State) (e : TlbEntry) : State :=
    if (tlbFind s v vpn write).isSome then s else tlbFill s { e with core := v.core }
  match (tlbFind s v vpn write).or (tlb2Find s v vpn write) with
  | some e =>
    let p := e.frame vpn * 4096 + lin % 4096
    if (match r with | .inl q => q.1 == p | .inr _ => false) then (.inl p, use s e)
    else
      let (c, s1) := choose s
      if c then (.inl p, use s1 e)
      else
        let (r, s2) := walk s1 v.ctx lin write
        match r with
        | .inl q => (.inl q.1, fill s2 q)
        | .inr c => (.inr c, s2)
  | none =>
    match r with
    | .inl p => (.inl p.1, fill s' p)
    | .inr c => (.inr c, s')

/-! ### Misses (R70) -/

/-- Does a page miss in the TLBs of a core and its die, with no walk of it that has failed (R70)? -/
def pageMisses (s : State) (v : View) (vpn : Nat) (write : Bool) : Bool :=
  (tlbFind s v vpn write).isNone && (tlb2Find s v vpn write).isNone
    && !s.misses.any (fun m => m.die == v.die && m.ctx == v.ctx && m.vpn == vpn && m.failed)

/-- The pages of a range of linear addresses. -/
def pagesOf (lin n : Nat) : List Nat :=
  (List.range ((lin + n + 4095) / 4096 - lin / 4096)).map (fun k => (lin / 4096 + k) % 2 ^ 45)

/-- A miss enters its die's table of 256 entries; misses to one page merge (R70). -/
def addMiss (s : State) (v : View) (vpn : Nat) (write : Bool) : State :=
  let same (m : Miss) : Bool := m.die == v.die && m.ctx == v.ctx && m.vpn == vpn
  if s.misses.any same then
    { s with misses := s.misses.map (fun m => if same m then { m with write := m.write || write } else m) }
  else if 256 ≤ (s.misses.filter (fun m => m.die == v.die)).length then s
  else { s with misses := s.misses ++ [{ die := v.die, ctx := v.ctx, vpn := vpn, write := write, failed := false }] }

/-- The failed walks of some pages have been taken. -/
def dropMisses (s : State) (v : View) (vpns : List Nat) : State :=
  { s with misses := s.misses.filter (fun m => !(m.failed && m.die == v.die && m.ctx == v.ctx && vpns.contains m.vpn)) }

/-- Read `n` bytes of one page at a linear address, or say why they cannot be read. -/
def pageRead (s : State) (v : View) (lin n : Nat) : (Nat ⊕ Nat) × State :=
  match translate s v lin false with
  | (.inr c, s) => (.inr c, s)
  | (.inl p, s) =>
    match tableCause s p n with
    | some c => (.inr c, s)
    | none => (.inl (curRead s p n), s)

/-- Read `n` bytes at a linear address, page by page of at most two, or say why they cannot be read. -/
def linRead (s : State) (v : View) (lin n : Nat) : (Nat ⊕ Nat) × State :=
  let k := Min.min n (4096 - lin % 4096)
  match pageRead s v lin k with
  | (.inr c, s) => (.inr c, s)
  | (.inl x, s) =>
    if k = n then (.inl x, s)
    else
      match pageRead s v (lin + k) (n - k) with
      | (.inr c, s) => (.inr c, s)
      | (.inl y, s) => (.inl (x + 256 ^ k * y), s)

/-- Is bit `i` of a descriptor set? -/
def dKind (d : Nat) : Nat := fld d 136 4
def dLimit (d : Nat) : Nat := fld d 64 45
def dBase (d : Nat) : Nat := fld d 0 57
def dPlc (d : Nat) : Nat := fld d 140 2
def dHome (d : Nat) : Nat := fld d 142 8
def dLkLen (d : Nat) : Nat := fld d 224 17
def dLkBase (d : Nat) : Nat := fld d 192 32

/-- Does a kind fit a segment number (R63, Table 5-2)? -/
def kindFits (seg kind : Nat) : Bool :=
  if seg = 1 then kind == 2 else if seg = 2 then kind == 3 else if seg = 3 then kind == 4
  else if seg = 4 then kind == 5 else if seg = 5 then kind == 1 else if seg = 6 then kind == 6
  else if seg ≤ 9 then kind == 7
  else if seg < 16 then false
  else kind == 0 || kind == 1 || kind == 7

/-- Does a descriptor pass R62 and R63 for its segment? Fields that the device ignores for it are not checked. -/
def descOk (seg d : Nat) : Bool :=
  let ign := decide (1 ≤ seg ∧ seg ≤ 5)
  bitOf d 151 && fld d 241 15 == 0 && fld d 182 10 == 0 && fld d 133 3 == 0 && fld d 109 19 == 0 && fld d 57 7 == 0
    && kindFits seg (dKind d)
    && (ign || (dPlc d != 3 && decide (dLimit d ≤ 2 ^ 44)
        && (if dPlc d = 0 then dHome d == 0 else if dPlc d = 1 then decide (dHome d ≤ 3) else decide (dHome d ≤ 31))))
    && (seg == 5 || dKind d == 1 || (dLkBase d == 0 && dLkLen d == 0))
    && (seg == 5 || decide (dLkLen d ≤ 65536))

/-- What a descriptor lookup gives: a descriptor that passes, a cause that stops the access (0x08 of a rejection, 0x21 of a
segment table whose read is answered with an error), or a double fault (R68, R148). -/
inductive DescRes where
  | ok (d : Nat)
  | bad (cause : Nat)
  | dbl
  deriving DecidableEq, Repr

/-- The raw descriptor of a segment, through the core's descriptor cache (R68). -/
def rawDesc (s : State) (v : View) (seg : Nat) : (Nat ⊕ Nat) × State :=
  match ctxOf s v.ctx with
  | none => (.inl 0, s)
  | some c =>
    let tab := c.segTable.toNat
    if seg ≥ 2 ^ fld tab 57 5 then (.inl 0, s)
    else
      match linRead s v (fld tab 0 57 + 32 * seg) 32 with
      | (.inr c, s) => (.inr c, s)
      | (.inl d, s) =>
        let fill (s : State) : State :=
          let mine (e : DescEntry) : Bool := e.die == v.die && e.core == v.core
          let new : DescEntry := { die := v.die, core := v.core, ctx := v.ctx, seg := seg, desc := BitVec.ofNat 256 d }
          { s with descs := keepFirst mine 256 (new :: s.descs.filter (fun e => !(mine e && e.ctx == v.ctx && e.seg == seg))) }
        match s.descs.find? (fun e => e.die == v.die && e.core == v.core && e.ctx == v.ctx && e.seg == seg) with
        | some e =>
          if e.desc.toNat = d then (.inl d, s)
          else
            let (c, s) := choose s
            if c then (.inl e.desc.toNat, s) else (.inl d, fill s)
        | none => (.inl d, fill s)

/-- A segment's descriptor, checked (R62, R63). -/
def descFor (s : State) (v : View) (seg : Nat) : DescRes × State :=
  if seg = 0 ∨ (10 ≤ seg ∧ seg ≤ 15) ∨ seg ≥ 2 ^ 20 then (.bad 0x08, s)
  else
    match rawDesc s v seg with
    | (.inr c, s) => (if c = 0x21 then .bad 0x21 else .dbl, s)
    | (.inl d, s) => if descOk seg d then (.ok d, s) else (.bad 0x08, s)

/-- The descriptor that governs an access through a segment: segment 5 uses the executing code segment's own (R63). -/
def governing (s : State) (v : View) (seg : Nat) : DescRes × State :=
  match descFor s v seg with
  | (.ok d, s) =>
    if seg = 5 then
      match descFor s v v.codeSeg with
      | (.ok c, s) => if dKind c = 1 then (.ok c, s) else (.bad 0x08, s)
      | r => r
    else (.ok d, s)
  | r => r

/-- The slice-memory window of a context (R64): enabled, first granule, granules. -/
def smWindow (s : State) (ctx : Nat) : Bool × Nat × Nat :=
  let r := (tabGet s.hub.smwin ctx).toNat
  (bitOf r 63, fld r 0 24, fld r 24 24)

/-- The limit in bytes of a segment (Table 5-2). -/
def segLimit (s : State) (v : View) (seg d : Nat) : Nat :=
  if seg = 1 then v.tmemG * 4096
  else if seg = 2 then (let w := smWindow s v.ctx; if w.1 then w.2.2 * 256 else 0)
  else if seg = 3 then v.tileG * 4096
  else if seg = 4 then 16384
  else dLimit d

/-- What an access needs (R65). -/
inductive Need where
  | load | store | atomic | shutter | barRead | barWrite | copySrc | copyDst | combine | fetch
  deriving DecidableEq, Repr

/-- Does the need include a write for translation (R69)? -/
def Need.writes : Need → Bool
  | .load | .barRead | .copySrc | .fetch => false
  | _ => true

/-- The rights rule (R65). -/
def rightsOk (v : View) (seg d : Nat) (nd : Need) : Bool :=
  let r := bitOf d 128
  let w := bitOf d 129
  let x := bitOf d 130
  let a := bitOf d 131
  let sh := bitOf d 132
  (dKind d != 7 || v.single)
    && (seg != 6 || (!v.single && (nd == .load || nd == .copySrc)))
    && (seg != 3 || nd == .copySrc || nd == .copyDst)
    && (seg != 4 || nd == .copyDst)
    && (match nd with
        | .load | .copySrc => r
        | .store | .copyDst => w
        | .atomic => a
        | .shutter => w && sh && seg != 1
        | .barRead => r && (seg == 1 || seg == 2)
        | .barWrite => r && w && (seg == 1 || seg == 2)
        | .combine => w && a && seg == 2
        | .fetch => x && dKind d == 1)

/-- The outcome of the checks of R67: the places of the bytes in order, the first failing step with its cause and the
distance of the first failing byte from the start of the range, or a double fault. -/
inductive Chk where
  | ok (locs : List (Loc × Nat))
  | fail (step cause skip : Nat)
  | dbl (cause : Nat)
  deriving DecidableEq, Repr

/-- Is a translated frame one that the access may use, and a host range inside the host's windows (R215, R221, R222,
R351)? Gives the cause otherwise. A segment with PLC 0 or 1 whose frame lies in a peer's range reaches that peer (R86, R222).
(DESIGN CHOICE, log 100) -/
def frameCause (s : State) (d : Nat) (nd : Need) (p n : Nat) : Option Nat :=
  let peerHome := if dPlc d = 2 then some (dHome d) else none
  match prange p, peerHome with
  | .unassigned, _ => some 0x0C
  | .peer n, some h => if n ≠ h then some 0x0C else if nd == .shutter then some 0x0A else none
  | _, some _ => some 0x0C
  | .peer _, none => if nd == .shutter then some 0x0A else none
  | .host, none => if !hostAllowed s p n then some 0x0C else if nd == .shutter then some 0x0A else none
  | .aliasAp, none => if nd == .shutter then some 0x0A else none
  | _, none => none

/-- What a range whose page does not translate meets: in a pinned segment a translation failure is a double fault (R195). -/
def pageFail (pinned : Bool) (c : Nat) : Chk := if pinned && c == 0x0C then .dbl 0x0C else .fail 6 c 0

/-- Translate a range page by page (R69). -/
def translateRange (s : State) (v : View) (d : Nat) (nd : Need) (pinned : Bool) : Nat → Nat → Nat → Chk × State
  | 0, _, _ => (.ok [], s)
  | fuel + 1, lin, n =>
    if n = 0 then (.ok [], s)
    else
      let k := Min.min n (4096 - lin % 4096)
      match translate s v lin nd.writes with
      | (.inr c, s) => (pageFail pinned c, s)
      | (.inl p, s) =>
        match frameCause s d nd p k with
        | some c => (pageFail pinned c, s)
        | none =>
          match translateRange s v d nd pinned fuel (lin + k) (n - k) with
          | (.ok ls, s) => (.ok ((.phys p, k) :: ls), s)
          | (.fail st c skip, s) => (.fail st c (skip + k), s)
          | r => r

/-- Steps 2 to 5 of R67 for a range. In a translated segment both the offset and the linear address must be aligned (R66
names neither). (DESIGN CHOICE, log 86) -/
def checkRange (s : State) (v : View) (nd : Need) (seg : Nat) (off : Int) (size align : Nat) : (Chk ⊕ Nat) × State :=
  match governing s v seg with
  | (.dbl, s) => (.inl (.dbl 0x0C), s)
  | (.bad c, s) => (.inl (.fail 2 c 0), s)
  | (.ok d, s) =>
    if off % (align : Int) ≠ 0 ∨ (5 ≤ seg ∧ ((dBase d : Int) + off) % (align : Int) ≠ 0) then (.inl (.fail 3 0x0B 0), s)
    else if off < 0 ∨ off + size > segLimit s v seg d ∨ off ≥ (2 : Int) ^ 44 then 
      (.inl (.fail 4 0x09 (if off < 0 then 0 else segLimit s v seg d - off.toNat)), s)
    else if !rightsOk v seg d nd then (.inl (.fail 5 0x0A 0), s)
    else (.inr d, s)

/-- Step 6 of R67: the places of a range that has passed the steps before it, under its governing descriptor. -/
def placeRange (s : State) (v : View) (nd : Need) (seg o size d : Nat) : Chk × State :=
  if seg = 1 then (.ok [(.tmem v.team o, size)], s)
  else if seg = 2 then (.ok [(.smem ((smWindow s v.ctx).2.1 * 256 + o), size)], s)
  else if seg = 3 then (.ok [(.tile v.team o, size)], s)
  else if seg = 4 then (.ok [], s)
  else translateRange s v d nd (decide (6 ≤ seg ∧ seg ≤ 9)) (size / 4096 + 2) (dBase d + o) size

/-- All steps of R67 from step 2 on. -/
def checkAccess (s : State) (v : View) (nd : Need) (seg : Nat) (off : Int) (size align : Nat) : Chk × State :=
  match checkRange s v nd seg off size align with
  | (.inl c, s) => (c, s)
  | (.inr d, s) => placeRange s v nd seg off.toNat size d

/-- The pages of a range in a translated segment under its descriptor. -/
def rangePages (seg o size d : Nat) : List Nat := if seg ≤ 4 ∨ size = 0 then [] else pagesOf ((dBase d + o) % 2 ^ 57) size

/-- All steps of R67 for an access that stalls where a page of it misses (R70): the missing pages, or what the steps
give. -/
def checkMissing (s : State) (v : View) (nd : Need) (seg : Nat) (off : Int) (size align : Nat) : (List Nat ⊕ Chk) × State :=
  match checkRange s v nd seg off size align with
  | (.inl c, s) => (.inr c, s)
  | (.inr d, s) =>
    let ps := rangePages seg off.toNat size d
    let miss := ps.filter (fun p => pageMisses s v p nd.writes)
    if miss ≠ [] then (.inl miss, s)
    else
      let (c, s) := placeRange (dropMisses s v ps) v nd seg off.toNat size d
      (.inr c, s)

/-- A segmented pointer from its parts (R61). -/
def segPtr (seg off : Nat) : Nat := seg % 2 ^ 20 * 2 ^ 44 + off % 2 ^ 44

/-- The segmented pointer of an exact offset, for TRAPADDR; an offset below 0 or of 2^44 or more, which no pointer holds, is
taken modulo 2^44. (DESIGN CHOICE, log 98) -/
def segPtrI (seg : Nat) (off : Int) : Nat := segPtr seg (wrapN 44 off)

/-- TRAPINFO of a cause that a check gives (Table 15-2): the instruction's index of a data error, else the kind of access. -/
def dataInfo (pc : Pc) (kind cause : Nat) : Nat := if cause = 0x21 then pc.idx % 2 ^ 28 else kind

/-- What a use of a link slot meets (R74, Table 5-5): bound, the pointer with the entry's index and generation. -/
inductive LinkRes where
  | bound (ptr : Nat) (link : Nat × Nat)
  | trap (cause addr : Nat)
  | wait (entry addr : Nat)
  | miss (pages : List Nat)
  | dbl (cause addr : Nat)
  deriving DecidableEq, Repr

/-- Read a link slot's entry (R74, R75): the read is an acquire at device scope, observes a shuttered cell (R124), and needs
the R right of segment 6 (DESIGN CHOICE, log 69); one that is answered with an error is a data error (R148, R230), and one
whose page misses stalls the instruction (R70). A use in single-lane mode reads it as one outside that mode does.
(DESIGN CHOICE, log 99) -/
def linkEntry (s : State) (v : View) (idx : Nat) : LinkRes × State :=
  let addr := segPtr 6 (idx * 32)
  match checkMissing s { v with single := false } .load 6 (idx * 32 : Nat) 32 1 with
  | (.inl ps, s) => (.miss ps, s)
  | (.inr (.dbl c), s) => (.dbl c addr, s)
  | (.inr (.fail _ c _), s) => (.trap c addr, s)
  | (.inr (.ok ls), s) =>
    if ls.any (fun x => accessFails s x.1 false) then (.trap 0x21 addr, s)
    else
      let s := ls.foldl (fun s x => observe s v.actor x.1 x.2) (l1Acquire s v.die v.core)
      let e := locsRead s ls
      let st := fld e 64 2
      if st = 2 then
        let mine (b : BlbEntry) : Bool := b.die == v.die && b.core == v.core
        let new : BlbEntry :=
          { die := v.die, core := v.core, ctx := v.ctx, idx := idx, gen := fld e 66 30, ptr := BitVec.ofNat 64 e }
        (.bound (fld e 0 64) (idx, fld e 66 30),
          { s with blb := keepFirst mine 256 (new :: s.blb.filter (fun b => !(mine b && b.ctx == v.ctx && b.idx == idx))) })
      else if st = 0 then (.trap 0x0D addr, s)
      else if st = 1 then (match ls with | (.phys p, _) :: _ => (.wait p addr, s) | _ => (.dbl 0x0C addr, s))
      else (.trap 0x0E addr, s)

/-- What an entry of segment 6 holds now, none where it cannot be read. -/
def entryNow (s : State) (v : View) (idx : Nat) : Option Nat :=
  match checkAccess s { v with single := false } .load 6 (idx * 32 : Nat) 32 1 with
  | (.ok ls, s) => if ls.any (fun x => accessFails s x.1 false) then none else some (locsRead s ls)
  | _ => none

/-- A use of link slot `k` (R72, R74 to R76). A lookaside copy supplies the pointer without a read of segment 6; of one
that no longer matches the entry the device chooses whether the core still holds it. A code descriptor that is rejected has
no pointer to report: TRAPADDR is 0. (DESIGN CHOICE, log 87) -/
def linkSlot (s : State) (v : View) (k : Nat) : LinkRes × State :=
  match descFor s v v.codeSeg with
  | (.dbl, s) => (.dbl 0x0C (segPtr v.codeSeg 0), s)
  | (.bad c, s) => (.trap c 0, s)
  | (.ok c, s) =>
    let idx := dLkBase c + k
    if k ≥ dLkLen c then (.trap 0x09 (segPtr 6 (idx * 32)), s)
    else
      match s.blb.find? (fun b => b.die == v.die && b.core == v.core && b.ctx == v.ctx && b.idx == idx) with
      | some b =>
        let same := match entryNow s v idx with
          | some e => fld e 64 2 == 2 && fld e 66 30 == b.gen && fld e 0 64 == b.ptr.toNat
          | none => false
        if same then (.bound b.ptr.toNat (idx, b.gen), s)
        else
          let (c, s) := choose s
          if c then (.bound b.ptr.toNat (idx, b.gen), s) else linkEntry s v idx
      | none => linkEntry s v idx

/-- The line word and slot of an instruction index (R238). -/
def lineOff (idx : Nat) : Nat := idx / 5 * 64

/-- Is the line of an index reachable under a limit (R238)? -/
def reachable (idx limit : Nat) : Bool := decide (lineOff idx + 64 ≤ limit) && decide (idx < 2 ^ 28)

/-- What the check of a transfer target gives (R241). -/
inductive Target where
  | ok
  | illegal
  | trap (cause addr : Nat)
  | dbl
  deriving DecidableEq, Repr

/-- The check of a transfer to an index of a code segment: reachable, and marked in TGT (R238, R241). The line word's
own read can fail (0x0C), with TRAPADDR its segmented pointer, which a data error leaves 0. -/
def checkTarget (s : State) (v : View) (seg : Nat) (idx : Int) : Target × State :=
  match descFor s v seg with
  | (.dbl, s) => (.dbl, s)
  | (.bad c, s) => (.trap c (if c = 0x21 then 0 else segPtr seg 0), s)
  | (.ok d, s) =>
    if idx < 0 ∨ !reachable idx.toNat (dLimit d) then (.illegal, s)
    else
      let off := lineOff idx.toNat
      match translateRange s v d .fetch false 3 (dBase d + off) 4 with
      | (.ok ls, s) =>
        if ls.any (fun x => accessFails s x.1 false) then (.trap 0x21 0, s)
        else if bitOf (locsRead s ls) (idx.toNat % 5) then (.ok, s) else (.illegal, s)
      | (.dbl _, s) => (.dbl, s)
      | (.fail _ c _, s) => (.trap c (if c = 0x21 then 0 else segPtr seg off), s)

end Sys2Proof.Machine
end

