-- ==== Sys2Proof/Machine/Watch.lean ====
section
/-! DEFINITION. Finding groups and teams, when an access may be performed (R94, R98, R113, R222), and watched words (R115,
R237): every write that an agent makes re-evaluates the words that groups wait for. -/

namespace Sys2Proof.Machine

open Sys2Proof

/-! ### Finding and replacing -/

/-- The resident group in a place. -/
def groupAt (s : State) (p : Place) : Option Group := s.groups.find? (fun g => g.place == p)

/-- Replace the group in a place. -/
def setGroup (s : State) (g : Group) : State :=
  { s with groups := s.groups.map (fun x => if x.place == g.place then g else x) }

/-- A placed team. -/
def teamOf (s : State) (uid : Nat) : Option Team := s.teams.find? (fun t => t.uid == uid)

/-- The team of a group that has issued operations: a placed one, or one that has retired since (R34). -/
def ownerOf (s : State) (uid : Nat) : Option Team := (teamOf s uid).or (s.retired.find? (fun t => t.uid == uid))

/-- Replace a team. -/
def setTeam (s : State) (t : Team) : State :=
  { s with teams := s.teams.map (fun x => if x.uid == t.uid then t else x) }

/-- The register context in which a group executes: its handler's in single-lane mode (R185). -/
def Group.ctx (g : Group) : RegCtx :=
  match g.handler with
  | some h => h.ctx
  | none => g.main

/-! ### Outstanding operations -/

/-- Is an access of an operation still to be performed? A pop lane with an index has made its access (R175). -/
def Op.pend (o : Op) (a : Acc) : Bool :=
  !a.done && (match o.body with | .qpop .. => a.exp == 0 | _ => true)

/-- Has an operation an access that is still to be performed? -/
def Op.open_ (o : Op) : Bool := o.accs.any o.pend

/-- Does an operation acquire: may nothing after it be performed first (R98, R176)? -/
def Op.acquires (o : Op) : Bool :=
  match o.body with
  | .load _ _ _ | .atom _ _ (some _) | .cas _ _ | .cpadd _ (some _) => o.ord == .acqrel || o.ord == .sc
  | .qpop .. => true
  | _ => false

/-- Does an older operation that acquires hold back every later access that its scope reaches (R98, R176)? -/
def Op.holds (o : Op) (reaches : Bool) : Bool := o.acquires && reaches && o.accs.any (fun a => !a.done)

/-- Does an operation release: must everything before it be performed first? -/
def Op.releases (o : Op) : Bool :=
  match o.body with
  | .load _ _ _ | .touch | .cctl _ _ | .tld _ _ | .tst | .tzero _ _ | .tcvt .. | .copy | .mat | .qpop .. => false
  | .qpush .. | .qpushTask .. => true
  | _ => o.ord == .acqrel || o.ord == .sc

/-- Is an operation an access of an engine, which the group's order does not cover (R314)? -/
def Op.engine (o : Op) : Bool :=
  match o.cls with
  | .copy | .mat => true
  | _ => false

/-- Does a place lie in a peer device's memory? -/
def Loc.peer (x : Loc) : Bool :=
  match x with
  | .phys a => (match prange a with | .peer _ => true | _ => false)
  | _ => false

end Sys2Proof.Machine

namespace Sys2Proof

/-- Does an ordering at a scope reach an access? Only system scope includes peers (R222). -/
def Scope.orders (c : Scope) (x : Machine.Loc) : Bool := c == .system || !x.peer

end Sys2Proof

namespace Sys2Proof.Machine

open Sys2Proof

/-- What a new access of a group is ordered by: release, sequential consistency, and its scope. -/
structure Rank where
  rel   : Bool
  sc    : Bool
  scope : Scope
  deriving DecidableEq, Repr

/-- The ordering of an operation's accesses. -/
def Op.rank (o : Op) : Rank := { rel := o.releases, sc := o.ord == .sc, scope := o.scope }

/-- Must a new access of a lane wait for one of the older operations? -/
def blockedBy (older : List Op) (lane : Nat) (x : Loc) (n : Nat) (r : Rank) : Bool :=
  older.any (fun o =>
    o.accs.any (fun a => o.pend a && a.lane == lane && a.loc.overlaps a.size x n)
      || (!o.engine
          && (o.accs.any (fun a => o.pend a && (r.rel || (r.sc && o.ord == .sc)) && r.scope.orders a.loc)
              || o.holds (o.scope.orders x))))

/-- A group's identity as a storer (R123). -/
def storerOf (t : Team) (g : Group) : Storer := { ctx := t.ctx, lseq := t.lseq, team := t.index, uid := t.uid, group := g.index }

/-- A group as an actor on memory. -/
def groupActor (t : Team) (g : Group) : Actor := { die := g.place.die, core := g.place.core, storer := some (storerOf t g) }

/-- A foreign agent's actor: the hub, an engine, a general core, the host or a peer. -/
def outsider : Actor := { die := 0, core := 48, storer := none }

/-! ### Watched words (R115, R237) -/

/-- The comparison of waitv, ge and lt unsigned (R115). -/
def waitHolds (c : WaitCmp) (a b : Nat) : Bool :=
  match c with
  | .eq => a == b
  | .ne => a != b
  | .ge => decide (b ≤ a)
  | .lt => decide (a < b)

/-- One evaluation of the lanes of a word wait (R115, R237): a lane whose word now satisfies the comparison is marked, and
only then is a shuttered cell marked observed. A lane with an older access of its own to the word waits for it. -/
def waitvLanes (w : Actor) (older : List Op) (r : Rank) (cmp : WaitCmp) (size : Nat) :
    List WaitLane → State → List WaitLane × State
  | [], s => ([], s)
  | x :: rest, s =>
    let (x', s) :=
      if x.sat || blockedBy older x.lane x.loc size r then (x, s)
      else if waitHolds cmp (locRead s x.loc size) x.val then ({ x with sat := true }, observe s w x.loc size)
      else (x, s)
    let (rest, s) := waitvLanes w older r cmp size rest s
    (x' :: rest, s)

/-- Re-evaluate the words that a group waits for; a word that can no longer be read is a data error (R148). -/
def watchGroup (s : State) (g : Group) : State :=
  match g.wait, teamOf s g.team with
  | some w, some t =>
    match w.cont with
    | .word lanes size cmp ord scope =>
      if lanes.any (fun x => !x.sat && accessFails s x.loc false) then setGroup s { g with wait := some { w with broken := some 0x21 } }
      else
        let (lanes, s) := waitvLanes (groupActor t g) g.ctx.ops { rel := false, sc := ord == .sc, scope := scope } cmp size lanes s
        setGroup s { g with wait := some { w with cont := .word lanes size cmp ord scope } }
    | _ => s
  | _, _ => s

/-- Every watched word is re-evaluated after a write (R115). -/
def watchAll (s : State) : State :=
  s.groups.foldl (fun s g => if g.wait.isSome then (match groupAt s g.place with | some g => watchGroup s g | none => s) else s) s

/-- An agent's write at the home of a place, which wakes whoever waits for the word. -/
def putWatched (s : State) (w : Actor) (x : Loc) (n v : Nat) : State := watchAll (actWrite s w x n v)

end Sys2Proof.Machine
end

