-- ==== Sys2Proof/Machine/Barrier.lean ====
section
/-! DEFINITION. Barrier objects (R116 to R120): the object's bytes, arrivals, drops, phase completion and breaking. -/

namespace Sys2Proof.Machine

open Sys2Proof

/-- A barrier object (Table 8-2). -/
structure Bar where
  members : Nat
  arr     : Nat
  phase   : Nat
  expect  : Nat
  count   : Nat
  broken  : Bool
  live    : Bool
  counted : Bool
  deriving DecidableEq, Repr

/-- The object in 16 bytes (Table 8-2). -/
def barOf (x : Nat) : Bar :=
  { members := fld x 96 32, arr := fld x 64 32, phase := fld x 48 16, expect := fld x 32 16, count := fld x 16 16,
    broken := bitOf x 3, live := bitOf x 2, counted := bitOf x 0 }

/-- The 16 bytes of an object (Table 8-2). -/
def Bar.word (b : Bar) : Nat :=
  b.members % 2 ^ 32 * 2 ^ 96 + b.arr % 2 ^ 32 * 2 ^ 64 + b.phase % 2 ^ 16 * 2 ^ 48 + b.expect % 2 ^ 16 * 2 ^ 32
    + b.count % 2 ^ 16 * 2 ^ 16 + (if b.broken then 8 else 0) + (if b.live then 4 else 0) + (if b.counted then 1 else 0)

/-- Read an object. -/
def barRead (s : State) (x : Loc) : Bar := barOf (locRead s x 16)

/-- An agent reads an object: a shuttered cell of another storer in it is observed (R124). -/
def barSee (s : State) (w : Actor) (x : Loc) : State := observe s w x 16

/-- An agent writes an object: a shuttered cell of another storer in it settles (R124), and waiting words see it (R115). -/
def barWrite (s : State) (w : Actor) (x : Loc) (b : Bar) : State := putWatched s w x 16 b.word

/-- Signal the waiters of an object that a phase change made by bar has released (R117, R281). -/
def barSignal (s : State) (x : Loc) (phase : Nat) : State :=
  mapGroups s (fun g =>
    match g.wait with
    | some w =>
      match w.cont with
      | .barrier y p => if y == x && p != phase then { g with wait := some { w with signal := true } } else g
      | _ => g
    | none => g)

/-- The waiters of an object take barrier broken (0x15) (R117, R119). -/
def barBreakWaiters (s : State) (x : Loc) : State :=
  mapGroups s (fun g =>
    match g.wait with
    | some w =>
      match w.cont with
      | .barrier y _ => if y == x then { g with wait := some { w with broken := some 0x15 } } else g
      | _ => g
    | none => g)

/-- Complete a phase (R117, R120): PHASE rises, COUNT and ARR clear, waiters wake, and object 0 of team memory empties
the writer fields of the team's b registers. -/
def barComplete (s : State) (w : Actor) (x : Loc) (b : Bar) : State :=
  let b' := { b with phase := (b.phase + 1) % 65536, count := 0, arr := 0 }
  let s := barWrite s w x b'
  let s := { s with parts := s.parts.map (fun p => if p.obj == x then { p with arrived := false } else p) }
  let s := match x with
    | .tmem t 0 => { s with teams := s.teams.map (fun y => if y.uid == t then { y with
          bwriter := []
          late := [] } else y) }
    | _ => s
  barSignal s x b'.phase

/-- The logical slice of a slice-memory place (R64). -/
def sliceOf (x : Loc) : Nat :=
  match x with
  | .smem a => a / 256 % 256
  | _ => 256

/-- Is a team-memory object: participants are groups. -/
def Loc.isTeam : Loc → Bool
  | .tmem _ _ => true
  | _ => false

/-- Write a fresh object (R117): its waiters take barrier broken, its participants are forgotten. -/
def barInitAt (s : State) (w : Actor) (x : Loc) (counted : Bool) (n : Nat) : State :=
  let s := barBreakWaiters s x
  let s := { s with parts := s.parts.filter (fun p => p.obj != x) }
  barWrite s w x { members := 0, arr := 0, phase := 0, expect := n, count := 0, broken := false, live := true,
                   counted := counted }

/-- Why an operation on an object fails: not live (0x14), broken (0x15) (R117). -/
def barFault (b : Bar) : Option Nat := if !b.live then some 0x14 else if b.broken then some 0x15 else none

/-- An arrival by a participant (R117, R118): the cause and TRAPINFO, or the phase it counted toward. -/
def barArriveAt (s : State) (w : Actor) (x : Loc) (group team : Nat) : (Nat × Nat) ⊕ (Nat × State) :=
  let b := barRead s x
  let s := barSee s w x
  match barFault b with
  | some c => .inl (c, 0)
  | none =>
    let who := if x.isTeam then group else team
    let part := s.parts.find? (fun p => p.obj == x && p.who == who)
    let second := if x.isTeam then bitOf b.arr group else (match part with | some p => p.arrived | none => false)
    if !b.counted && second then .inl (0x14, 0)
    else if !b.counted && !x.isTeam && part.isNone
        && decide (16384 ≤ (s.parts.filter (fun p => sliceOf p.obj == sliceOf x)).length) then .inl (0x14, 1)
    else
      let s := if b.counted then s
        else { s with parts := { obj := x, who := who, arrived := true }
                :: s.parts.filter (fun p => !(p.obj == x && p.who == who)) }
      let b1 := if !b.counted && x.isTeam then
          { b with arr := setFld b.arr group 1 1, members := setFld b.members group 1 1 } else b
      let b2 := { b1 with count := (b1.count + 1) % 65536 }
      .inr (b.phase, if b2.count = b2.expect then barComplete s w x b2 else barWrite s w x b2)

/-- A drop (R119): EXPECT falls, and in checked mode COUNT too when the participant had arrived in this phase. A phase
that completes by it completes first; with EXPECT 0 the object then is no longer live. The dropper's own bits of MEM and ARR
clear in checked mode. (DESIGN CHOICE, log 102) -/
def barDropAt (s : State) (w : Actor) (x : Loc) (group team : Nat) : State :=
  let b := barRead s x
  let s := barSee s w x
  let who := if x.isTeam then group else team
  let here := if x.isTeam then bitOf b.arr group
    else s.parts.any (fun p => p.obj == x && p.who == who && p.arrived)
  let b1 := { b with expect := (b.expect + 65535) % 65536,
                     count := if !b.counted && here then (b.count + 65535) % 65536 else b.count,
                     arr := if !b.counted && x.isTeam then setFld b.arr group 1 0 else b.arr,
                     members := if !b.counted && x.isTeam then setFld b.members group 1 0 else b.members }
  let s := { s with parts := s.parts.filter (fun p => !(p.obj == x && p.who == who)) }
  if b1.count = b1.expect then
    let s := barComplete s w x b1
    if b1.expect = 0 then barWrite s w x { barRead s x with live := false } else s
  else barWrite s w x b1

/-- A participant leaves the checked objects it has arrived at since init (R119): a group at its exit, a team when its
last group has exited. An object that is no longer live or is broken is left as it is. (DESIGN CHOICE, log 70) -/
def barLeave (s : State) (isTeam : Bool) (teamUid group : Nat) : State :=
  (s.parts.filter (fun p =>
      match p.obj with
      | .tmem t _ => isTeam && t == teamUid && p.who == group
      | _ => !isTeam && p.who == teamUid)).foldl
    (fun s p =>
      let b := barRead s p.obj
      if b.live && !b.counted && !b.broken then barDropAt s outsider p.obj group teamUid
      else { s with parts := s.parts.filter (fun q => !(q.obj == p.obj && q.who == p.who)) }) s

/-- A killed team breaks the checked slice-memory objects it takes part in (R119). -/
def barBreakTeam (s : State) (teamUid : Nat) : State :=
  (s.parts.filter (fun p => !p.obj.isTeam && p.who == teamUid)).foldl
    (fun s p =>
      let b := barRead s p.obj
      let s := { s with parts := s.parts.filter (fun q => !(q.obj == p.obj && q.who == p.who)) }
      if b.live && !b.counted then barBreakWaiters (barWrite s outsider p.obj { b with broken := true }) p.obj else s) s

end Sys2Proof.Machine
end

