-- ==== Sys2Proof/Machine/Ops.lean ====
section
/-! DEFINITION. The named operations over groups, teams, frames and traps that the meanings share: finding the issuer,
error records, taking a trap and entering its handler (R183 to R186), double faults (R195), kill (R203), waiting, the
casement, and leaving an instruction. -/

namespace Sys2Proof.Machine

open Sys2Proof

/-! ### Finding and replacing -/

/-- A task. -/
def taskOf (s : State) (id : Nat) : Option Task := s.tasks.find? (fun t => t.id == id)

/-- A field of a task record (Table 3-1). -/
def Task.f (k : Task) (lo n : Nat) : Nat := fld k.record.toNat lo n

/-- The number of teams of a task's grid (R17). -/
def Task.total (k : Task) : Nat := k.f 112 16 * k.f 96 16 * k.f 80 16

/-- Does a task stand in its queue: not validated yet, or with teams still to place (R17, R173)? -/
def Task.queued (k : Task) : Bool := !k.valid || (!k.failed && (decide (k.next < k.total) || k.requeued != []))

/-- Replace a task. -/
def setTask (s : State) (t : Task) : State :=
  { s with tasks := s.tasks.map (fun x => if x.id == t.id then t else x) }

/-- The groups of a partition. -/
def inPart (s : State) (p : Place) : List Group :=
  s.groups.filter (fun g => g.place.die == p.die && g.place.core == p.core && g.place.part == p.part)

/-- Change the executing register context. -/
def Group.mapCtx (g : Group) (f : RegCtx → RegCtx) : Group :=
  match g.handler with
  | some h => { g with handler := some { h with ctx := f h.ctx } }
  | none => { g with main := f g.main }

/-- A slice is alive while one of its lanes is live: running, or waiting on a deferred path (R32). -/
def Slice.live (sl : Slice) : Bool := sl.run != 0 || sl.stack.any (fun e => e.mask != 0 || e.merged != 0)

/-- A slice that may issue (R27, R30, R32). -/
def Slice.ready (sl : Slice) : Bool := sl.run != 0 && !sl.arrived && sl.held.isNone

/-- The eight-bit mask of a list of slices. -/
def sliceBits (ks : List Nat) : BitVec 8 := BitVec.ofNat 8 (ks.foldl (fun m k => m + 2 ^ k) 0)

/-- The slices of a group that may issue and share the program counter of the first of a choice. -/
def fragmentOf (g : Group) (choice : Nat) : List Nat :=
  let c := (List.range 8).filter (fun k => bitOf choice k && (match g.slices[k]? with | some sl => sl.ready | none => false))
  match c with
  | [] => []
  | k :: _ => c.filter (fun j => (g.slices[j]?).map (·.pc) == (g.slices[k]?).map (·.pc))

/-- The lanes of a list of slices that run. -/
def lanesRun (g : Group) (ks : List Nat) : Mask :=
  maskOf (fun l => ks.contains (l / 4) && (match g.slices[l / 4]? with | some sl => bitOf sl.run.toNat (l % 4) | none => false))

/-- What an issuing instruction sees of its issuer: the group, its team, the mode, the slices of the fragment, its live
lanes, and the program counter. -/
structure Env where
  g      : Group
  t      : Team
  single : Bool
  slices : List Nat
  live   : Mask
  pc     : Pc
  deriving DecidableEq, Repr

/-- Does the context of a team let it issue: resident or not, not stopped (R189)? -/
def ctxRuns (s : State) (n : Nat) : Bool := !(s.ctxs.any (fun c => c.num == n && c.stopped))

/-- The issuer in a place, with a choice of slices: not exited, not waiting, its team not being saved, its context not
stopped, its core not fenced, its cluster not gated. -/
def envAt (s : State) (p : Place) (choice : Nat) : Option Env :=
  match groupAt s p with
  | none => none
  | some g =>
    match teamOf s g.team with
    | none => none
    | some t =>
      if g.exited || g.wait.isSome || (g.hatched && g.handler.isNone) || t.saving || !ctxRuns s t.ctx
          || s.fenced.contains (g.place.die, g.place.core) || s.gated.contains (g.place.die, t.cluster) then none
      else
        match g.handler with
        | some h => some { g := g, t := t, single := true, slices := [0], live := 1, pc := h.pc }
        | none =>
          match fragmentOf g choice with
          | [] => none
          | k :: ks =>
            some { g := g, t := t, single := false, slices := k :: ks, live := lanesRun g (k :: ks),
                   pc := (match g.slices[k]? with | some sl => sl.pc | none => ⟨0, 0⟩) }

/-- The issuer that the first issue slot selects. The second slot of a pair is void unless the first instruction went on to
the one after it (R181). -/
def env? (s : State) : Option Env :=
  match s.issue with
  | [] => none
  | i :: _ => (envAt s i.place i.slices.toNat).filter (fun e => i.pc == none || i.pc == some e.pc)

/-- The first issue slot is used up. (DEDUCED, log 18) -/
def popIssue (s : State) : State := { s with issue := s.issue.tail }

/-- The group's identity for shutters (R123). -/
def Env.storer (e : Env) : Storer :=
  { ctx := e.t.ctx, lseq := e.t.lseq, team := e.t.index, uid := e.t.uid, group := e.g.index }

/-- What an access of the issuer is judged by. -/
def Env.view (e : Env) : View :=
  { die := e.g.place.die, core := e.g.place.core, ctx := e.t.ctx, team := e.t.uid, tmemG := e.t.tmemG,
    tileG := e.t.tileG, single := e.single, codeSeg := e.pc.seg, storer := some e.storer }

/-- The issuer as an actor on memory. -/
def Env.actor (e : Env) : Actor := { die := e.g.place.die, core := e.g.place.core, storer := some e.storer }

/-- The system opcodes, privileged outside single-lane mode (R251). -/
def isPrivileged (op : Nat) : Bool := decide (0xA0 ≤ op) && decide (op ≤ 0xA9)

/-- The opcodes that single-lane mode accepts (R185). -/
def singleAccepts (op : Nat) : Bool :=
  op == 0x00 || op == 0x01 || op == 0x07 || (decide (0x10 ≤ op) && decide (op ≤ 0x2C)) || op == 0x60 || op == 0x61
    || op == 0x64 || op == 0x65 || op == 0x69 || op == 0x6B || op == 0x6D || op == 0x91 || isPrivileged op

/-! ### Words that name things -/

/-- TRAPWHO.PLACE (Table 15-2). -/
def placeWord (p : Place) : Nat := p.die % 4 * 2 ^ 14 + p.core % 64 * 2 ^ 8 + p.part % 8 * 2 ^ 5 + p.slot % 32

/-- The place that a PLACE word names. -/
def wordPlace (x : Nat) : Place := { die := fld x 14 2, core := fld x 8 6, part := fld x 5 3, slot := fld x 0 5 }

/-- TRAPWHO (Table 15-2). -/
def whoWord (t : Team) (g : Group) : Nat := t.lseq % 2 ^ 16 * 2 ^ 32 + g.index % 32 * 2 ^ 16 + placeWord g.place

/-- TRAPPC (Table 15-2). -/
def pcWord (p : Pc) : Nat := p.seg % 2 ^ 20 * 2 ^ 44 + p.idx % 2 ^ 28

/-! ### Error records (R196, R197) -/

/-- The view of the hub in a context: its lookups belong to no core. -/
def hubView (ctx : Nat) (single : Bool) : View :=
  { die := 0, core := 48, ctx := ctx, team := 0, tmemG := 0, tileG := 0, single := single, codeSeg := 0 }

/-- The hub as a reader and writer of a context's segments: its lookups leave no cached copies. Where it posts to the fault
queue or reads the handler table (`single`), it is judged as a handler is, so that segments of the system kind pass; as a
dispatcher it makes no access in single-lane mode (R65). (DESIGN CHOICE, log 77) -/
def hubAccess (s : State) (single : Bool) (ctx : Nat) (nd : Need) (seg off n align : Nat) : Chk × State :=
  let v := hubView ctx single
  let r := checkAccess { s with tlb := s.tlb.filter (fun e => e.core != 48), descs := s.descs.filter (fun e => e.core != 48) }
    v nd seg (off : Int) n align
  (r.1, { r.2 with tlb := s.tlb, descs := s.descs })

/-- What the hub's access of a context's segment meets: the value, a cause, or a double fault (R68, R195). -/
inductive HubRes where
  | ok (v : Nat)
  | fail (cause : Nat)
  | dbl (cause : Nat)
  deriving DecidableEq, Repr

/-- The hub reads bytes of a context's segment. -/
def hubRead (s : State) (single : Bool) (ctx seg off n : Nat) : HubRes × State :=
  match hubAccess s single ctx .load seg off n 1 with
  | (.ok ls, s) =>
    if ls.any (fun x => accessFails s x.1 false) then (.fail 0x21, s)
    else (.ok (locsRead s ls), ls.foldl (fun s x => observe s outsider x.1 x.2) s)
  | (.fail _ c _, s) => (.fail c, s)
  | (.dbl c, s) => (.dbl c, s)

/-- The hub writes bytes of a context's segment, which wakes whoever waits for them (R115). -/
def hubWrite (s : State) (ctx seg off n v : Nat) : HubRes × State :=
  match hubAccess s true ctx .store seg off n 1 with
  | (.ok ls, s) =>
    if ls.any (fun x => accessFails s x.1 true) then (.fail 0x21, s) else (.ok v, watchAll (locsWrite outsider s ls v))
  | (.fail _ c _, s) => (.fail c, s)
  | (.dbl c, s) => (.dbl c, s)

/-- The fields of an error record (Table 15-7). -/
structure ErrRec where
  code   : Nat
  cause  : Nat := 0
  pc     : Nat := 0
  addr   : Nat := 0
  who    : Nat := 0
  team   : Nat := 0
  grid   : Nat := 0
  paddr  : Nat := 0
  src    : Nat := 0
  lane   : Nat := 0
  exited : Bool := false
  deriving DecidableEq, Repr

/-- The 64 bytes of an error record. -/
def ErrRec.word (r : ErrRec) (ctx : Nat) : Nat :=
  (r.code % 256 + r.cause % 256 * 2 ^ 8 + (if r.exited then 2 ^ 16 else 0) + r.lane % 32 * 2 ^ 17 + ctx % 64 * 2 ^ 24)
    + r.pc % 2 ^ 64 * 2 ^ 64 + r.addr % 2 ^ 64 * 2 ^ 128 + r.who % 2 ^ 64 * 2 ^ 192 + r.team % 2 ^ 48 * 2 ^ 256
    + r.grid % 2 ^ 64 * 2 ^ 320 + r.paddr % 2 ^ 52 * 2 ^ 384 + r.src % 2 ^ 64 * 2 ^ 448

/-- Go on where an access of segment 9 at an offset passes; else nothing is posted, and a double fault names its cause and
pointer. -/
def postStep (x : HubRes × State) (off : Nat) (k : Nat → State → Option (Nat × Nat) × State) : Option (Nat × Nat) × State :=
  match x with
  | (.ok v, s) => k v s
  | (.fail _, s) => (none, s)
  | (.dbl c, s) => (some (c, segPtr 9 off), s)

/-- Post an error record (R196): into the ring and AEWORD when there is room, and Mihus is interrupted; else OVF is set
and no record written. Nothing is posted without a segment 9 that can be written; where its translation fails, the cause and
TRAPADDR of a double fault are given (R195). -/
def postOnce (s : State) (ctx : Nat) (r : ErrRec) : Option (Nat × Nat) × State :=
  postStep (hubRead s true ctx 9 0x40 8) 0x40 (fun ae s =>
    postStep (hubRead s true ctx 9 0x48 8) 0x48 (fun eh s =>
      let count := fld ae 32 32
      let at_ := 0x1000 + count % 256 * 64
      if wrapN 32 ((count : Int) - (fld eh 0 32 : Nat)) < 256 then
        postStep (hubWrite s ctx 9 at_ 64 (r.word ctx)) at_ (fun _ s =>
          postStep (hubWrite s ctx 9 0x40 8 ((count + 1) % 2 ^ 32 * 2 ^ 32 + (if bitOf ae 31 then 2 ^ 31 else 0) + r.code % 256)) 0x40
            (fun _ s => (none, { s with irqs := s.irqs ++ [.errorRecord ctx] })))
      else postStep (hubWrite s ctx 9 0x40 8 (setFld ae 31 1 1)) 0x40 (fun _ s => (none, s))))

/-! ### Frames (R48, R55) -/

/-- General and reserve blocks of a frame that stands in the register file. -/
def Frame.general (f : Frame) : Nat := if f.spilled then 0 else (f.blocks.filter (fun b => !b)).length
def Frame.reserve (f : Frame) : Nat := if f.spilled then 0 else (f.blocks.filter (fun b => b)).length

/-- The frames of a group: its handler's, its current one, its callers'. -/
def Group.frames (g : Group) : List Frame :=
  (match g.handler with | some h => [h.ctx.frame] | none => []) ++ g.main.frame :: g.calls.map (·.frame)

/-- Free general blocks of a partition: 104 less those held (R55). -/
def freeGeneral (s : State) (p : Place) : Nat :=
  104 - ((inPart s p).foldl (fun n g => n + (g.frames.map Frame.general).sum) 0)

/-- Free reserve blocks of a partition: 24 less those held. -/
def freeReserve (s : State) (p : Place) : Nat :=
  24 - ((inPart s p).foldl (fun n g => n + (g.frames.map Frame.reserve).sum) 0)

/-- Live handlers of a partition. -/
def handlersIn (s : State) (p : Place) : Nat := ((inPart s p).filter (fun g => g.handler.isSome)).length

/-- Does a group wait for a handler frame? -/
def Group.waitsHandler (g : Group) : Bool :=
  match g.wait with
  | some w => w.kind == 9
  | none => false

/-- A group's age: placement time, then index (R55, R179). -/
def Group.age (g : Group) : List Nat := [g.placedAt, g.index, g.team]

/-- The oldest resident group of a partition (R55). -/
def oldestIn (s : State) (p : Place) : Option Group :=
  leastBy Group.age ((inPart s p).filter (fun g => !g.exited))

/-- The blocks that a group waits for: those of a call, claim or return, or of its own hatched frame once nothing else
keeps it (R57, R58). -/
def Group.frameDemand (g : Group) : Option Nat :=
  match g.wait with
  | some w => if w.kind = 7 && w.broken.isNone then some w.object.toNat else none
  | none => none

/-- The frame wait record of a group whose current frame is spilled (R58, R180): its demand is that frame. -/
def Group.refillWait (g : Group) (now : Nat) : Wait :=
  { kind := 7, cmp := 0, object := BitVec.ofNat 64 g.main.frame.blocks.length, value := 0, since := now, slices := 0,
    cont := .refill, signal := false, broken := none }

/-- Nothing but its spilled frame keeps a hatched group from running: it waits for that frame, and `under` is what it goes on
with afterwards. -/
def Group.waitRefill (g : Group) (under : Option Wait) (now : Nat) : Group :=
  { g with
    wait := some (g.refillWait now)
    under := under }

/-- The oldest group of a partition that waits on a frame, with its demand (R57, R315). -/
def frameWaiter (s : State) (p : Place) : Option (Group × Nat) :=
  match leastBy Group.age ((inPart s p).filter (fun g => g.frameDemand.isSome)) with
  | some g => g.frameDemand.map (fun n => (g, n))
  | none => none

/-- General blocks that already belong to another group's waiting request, because they cover it (R57, R315). Blocks that do
not cover it yet are not kept for it: a running group's call or fclaim may take them. (DESIGN CHOICE, log 97) -/
def blocksOwed (s : State) (p : Place) : Nat :=
  match frameWaiter s p with
  | some (o, n) => if o.place != p && decide (n ≤ freeGeneral s p) then n else 0
  | none => 0

/-- The blocks that a request for `n` takes: general ones, or for the oldest group also reserve ones, at most 22,
leaving two free, while no trapping group waits for a handler frame (R55). None when they are not free. -/
def takeBlocks (s : State) (g : Group) (n : Nat) : Option (List Bool) :=
  let fg := freeGeneral s g.place - blocksOwed s g.place
  if n ≤ fg then some (List.replicate n false)
  else
    let k := n - fg
    let oldest := (match oldestIn s g.place with | some o => o.place == g.place | none => false)
    if oldest && decide (k ≤ 22) && decide (k + 2 ≤ freeReserve s g.place)
        && !((inPart s g.place).any Group.waitsHandler) then
      some (List.replicate fg false ++ List.replicate k true)
    else none

/-- An empty frame of given blocks: every register reads zero (R49). -/
def Frame.fresh (blocks : List Bool) : Frame := { blocks := blocks, regs := [], spilled := false }

/-- A slice's empty casement: sixteen invalid ages. -/
def emptyCas : List Age := List.replicate 16 { valid := false, data := 0 }

/-- The registers at a start: zero, g1 to g6 holding segments 1 to 6, the casement empty (R20, R185). -/
def RegCtx.fresh (blocks : List Bool) : RegCtx :=
  { frame := Frame.fresh blocks, sreg := [], greg := (List.range 6).map (fun k => (k + 1, BitVec.ofNat 20 (k + 1))),
    pred := [], cas := List.replicate 8 emptyCas, unw := [], ops := [], issued := ⟨0, 0, 0, 0, 0⟩, failed := [] }

/-! ### Crews (R158, R161) -/

/-- The member indices of a %crew value (Table 12-1). -/
def crewMembers (c : Nat) : List Nat := (List.range (fld c 0 3)).map (fun k => fld c (3 + 5 * k) 5)

/-- Does a crew entry list a group of a team? -/
def Crew.lists (k : Crew) (team index : Nat) : Bool := k.team == team && (crewMembers k.crew.toNat).contains index

/-- Mark a waiting group's record broken with a cause. -/
def breakWait (s : State) (p : Place) (cause : Nat) : State :=
  { s with groups := s.groups.map (fun g =>
      if g.place == p then
        match g.wait with
        | some w => { g with wait := some { w with broken := some cause } }
        | none => g
      else g) }

/-- Forget a resident group's youngest matrix operation. -/
def dropOp (s : State) (p : Place) (id : Nat) : State :=
  { s with groups := s.groups.map (fun g =>
      if g.place == p then
        let n := g.main.issued
        { g with main := { g.main with ops := g.main.ops.filter (fun o => o.id != id),
                                       issued := if g.main.ops.any (fun o => o.id == id) then { n with mat := n.mat - 1 } else n } }
      else g) }

/-- The members that wait in a crew entry take a cause at their matrix instruction; it counts no more (R157, R158,
R162). -/
def failMembers (s : State) (k : Crew) (cause : Nat) : State :=
  k.members.foldl (fun s m => breakWait (dropOp s m.place m.op) m.place cause) s

/-- Does an instruction that gathers or runs take A from a kept set (R161)? -/
def Crew.usedBy (k : Crew) (cs : List Crew) : Bool :=
  cs.any (fun x => x.fromKept && x.team == k.team && x.crew == k.crew)

/-- Release some kept sets: one that an instruction still uses goes at that instruction's end (R161). -/
def releaseKept (cs : List Crew) (p : Crew → Bool) : List Crew :=
  cs.filterMap (fun k =>
    if k.st == .kept && p k then (if k.usedBy cs then some { k with dropKept := true } else none) else some k)

/-- A listed member exits, traps or is killed (R158, R161): a gathering entry breaks, and its waiting members take crew
broken at the event CREW_BROKEN; the kept sets that list the member are released; a tombstone counts a member off that
is gone. -/
def crewsLose (s : State) (team index : Nat) (gone : Bool) : State :=
  let tomb (k : Crew) : Option Crew :=
    match k.st with
    | .gathering => some (if k.lists team index then { k with st := .broken, fromKept := false } else k)
    | .tombstone left =>
      let left := if gone && k.lists team index then left.filter (fun i => i != index) else left
      if left = [] then none else some { k with st := .tombstone left }
    | _ => some k
  { s with crews := releaseKept (s.crews.filterMap tomb) (fun k => k.lists team index) }

/-! ### Claims (R78) -/

/-- A field of `n` bits at bit `lo`, all ones. -/
def ones (lo n : Nat) : Nat := (2 ^ n - 1) * 2 ^ lo

/-- A read-modify-write of the device is performed at the home, which wakes whoever watches the bytes (R115). -/
def rmwNow (s : State) (r : HostRmw) : State :=
  let x := curRead s r.addr r.n
  if r.apply x = x then s else putWatched s outsider (.phys r.addr) r.n (r.apply x)

/-- The device changes some bytes at a physical address, once the host does not hold their line (R217); bytes that cannot be
reached stay as they are (R150, R230). -/
def deviceRmw (s : State) (r : HostRmw) : State :=
  if accessFails s (.phys r.addr) true then s else rmwWaits s r (fun s => rmwNow s r)

/-- Release a claim on the entry at physical address `p` that is still in state 1 (R78). -/
def releaseClaimAt (s : State) (p : Nat) : State :=
  deviceRmw s { addr := p, n := 32, cond := ones 64 2, want := 2 ^ 64, mask := ones 64 2 + ones 96 32, put := 0 }

/-- Release the claim that a group holds. -/
def releaseClaim (s : State) (g : Group) : State :=
  match g.claim with
  | some p => releaseClaimAt s p
  | none => s

/-! ### Reservations (R178) -/

/-- The dies with one die changed. -/
def setDie (s : State) (die : Nat) (f : Die → Die) : State := { s with dies := modAt s.dies die f }

/-- The tasks that a test selects hold no reservation any more: they are discarded, or have no team left to place. -/
def freeReservations (s : State) (p : Nat → Bool) : State :=
  { s with dies := s.dies.map (fun d => { d with reserved := d.reserved.filter (fun h => !p h.1) }) }

/-! ### Kill (R203) -/

/-- Retract the unobserved cells of a team and settle the observed ones (R127). -/
def dropShutters (s : State) (uid : Nat) (settleAll : Bool) : State :=
  let mine := s.shutters.filter (fun c => c.owner.uid == uid)
  let s := mine.foldl (fun s c => if settleAll || c.seen then s else restoreCell s c) s
  watchAll { s with shutters := s.shutters.filter (fun c => c.owner.uid != uid) }

/-- Is an operation a load or a returning one: its results are discarded once its group has ended (R33, R203)? -/
def Op.returns (o : Op) : Bool :=
  match o.cls with
  | .ld | .mat | .task => true
  | _ => false

/-- The registers of a group that has ended: no blocks, and only the operations that run on (R33). -/
def RegCtx.ended (r : RegCtx) : RegCtx :=
  { r with frame := Frame.fresh [], cas := List.replicate 8 emptyCas, unw := [], failed := [],
           ops := r.ops.filter (fun o => !o.returns) }

/-! ### Queue headers (R171 to R175) -/

/-- The place of entry slot `i` of a ring (R171). -/
def slotLoc (ring cap esz i : Nat) : Loc := .smem (ring + i % 2 ^ cap * esz)

/-- A difference of 64-bit counts, read as signed. -/
def diff64 (a b : Nat) : Int := sint 64 (wrapN 64 ((a : Int) - b))

/-- The lanes of a pop receive the indices from HEAD on: an entry already pushed is read at once, another index is
recorded at its slot for the lane, or for nobody when the group is gone (R175, R344). -/
def grantLanes (w : Actor) (p : Place) (id head esz cap ring tail : Nat) (live : Bool) :
    Nat → List Acc → State → List Acc × State
  | _, [], s => ([], s)
  | i, a :: r, s =>
    if 0 < diff64 tail i then
      let slot := slotLoc ring cap esz i
      let x := grantLanes w p id head esz cap ring tail live ((i + 1) % 2 ^ 64) r (observe s w slot esz)
      ({ a with val := locRead s slot esz, exp := 1, done := true } :: x.1, x.2)
    else
      let q : QRes := { head := head, index := i, waiter := if live then some (p, id, a.lane) else none }
      let x := grantLanes w p id head esz cap ring tail live ((i + 1) % 2 ^ 64) r { s with qres := s.qres ++ [q] }
      ({ a with exp := 1 } :: x.1, x.2)

/-- The grant of a qpop that has no indices yet (R175): HEAD advances at once. -/
def popGrant (s : State) (w : Actor) (p : Place) (live : Bool) (o : Op) : Op × State :=
  match o.body with
  | .qpop _ head esz cap ring =>
    if o.accs.any (fun a => a.exp == 0) then
      let tail := memRead s.smem head 8
      let h := memRead s.smem (head + 8) 8
      let x := grantLanes w p o.id head esz cap ring tail live h o.accs (observe s w (.smem head) 16)
      ({ o with accs := x.1 }, putWatched x.2 w (.smem (head + 8)) 8 ((h + o.accs.length) % 2 ^ 64))
    else (o, s)
  | _ => (o, s)

/-- Cancel the pop indices of a group that ends: those recorded, and those of a qpop not granted yet; an entry that has come
for a saved one is discarded (R344). -/
def cancelPops (s : State) (g : Group) : State :=
  let s := g.main.ops.foldl (fun s o => (popGrant s outsider g.place false o).2) s
  { s with qres := s.qres.filterMap (fun q =>
      match q.waiter with
      | some (pl, id, _) =>
        if pl == g.place && id / 2 ^ 32 == g.team then (if q.entry.isSome then none else some { q with waiter := none }) else some q
      | none => some q) }

/-- What the end of a group does to others (R203): its claim is released, its crews break, its pops are cancelled. -/
def endEffects (s : State) (g : Group) : State := cancelPops (crewsLose (releaseClaim s g) g.team g.index true) g

/-- A group that has ended (R203): frames and call records freed, no lane live, only what runs on left. -/
def Group.ended (g : Group) : Group :=
  let hops := match g.handler with
    | some h => h.ctx.ops.filter (fun o => !o.returns)
    | none => []
  let main := g.main.ended
  { g with
    slices := g.slices.map (fun sl => { sl with run := 0, stack := [], arrived := false, held := none }),
    join := none, main := { main with ops := main.ops ++ hops }, calls := [], handler := none, wait := none,
    active := false, claim := none, hatched := false, under := none, due := [], spillBlk := 0, stalled := 0, exited := true }

/-- A resident group ends at once (R203). -/
def endGroup (s : State) (g : Group) : State := setGroup (endEffects s g) g.ended

/-- A saved team that is killed: its groups end where they are, and what they issued runs on (R203). -/
def unsave (s : State) (uid : Nat) : State :=
  match s.saved.find? (fun v => v.team.uid == uid) with
  | none => s
  | some v =>
    let s := v.groups.foldl (fun s g => if g.exited then s else endEffects s g) s
    { s with saved := s.saved.filter (fun v => v.team.uid != uid),
             departed := s.departed ++ v.groups.map (fun g => if g.exited then g else g.ended),
             teams := s.teams ++ [{ v.team with tmemG := 0, tileG := 0, saving := false }] }

/-- A number enters a rising list. -/
def insertUp (n : Nat) (l : List Nat) : List Nat := l.takeWhile (fun x => decide (x < n)) ++ n :: l.dropWhile (fun x => decide (x < n))

/-- Kill a team (R203). Its task's grid fails unless the team is requeued: the teams not placed yet are discarded, and
with them the task's reservations (R178, R204). A team that is requeued, as at a flush, breaks the checked slice-memory
barriers that it takes part in like one that is killed. (DESIGN CHOICE, log 101) -/
def killTeamOp (s : State) (uid : Nat) (requeue : Bool) : State :=
  let s := unsave s uid
  match teamOf s uid with
  | none => s
  | some t =>
    let s := dropShutters s uid false
    let s := barBreakTeam s uid
    let s := (s.groups.filter (fun g => g.team == uid && !g.exited)).foldl (fun s g =>
      match groupAt s g.place with
      | some g => endGroup s g
      | none => s) s
    let s := { s with
      crews := s.crews.filter (fun k => k.team != uid),
      issue := s.issue.filter (fun i => !(s.groups.any (fun g => g.team == uid && g.place == i.place))) }
    { (if requeue then s else freeReservations s (fun h => h == t.task)) with tasks := s.tasks.map (fun k =>
        if k.id == t.task then
          (if requeue then { k with requeued := insertUp t.index k.requeued } else { k with failed := true })
        else k) }

/-- Kill every team of a context, the saved ones too. -/
def killContext (s : State) (ctx : Nat) : State :=
  ((s.teams ++ s.saved.map (·.team)).filter (fun t => t.ctx == ctx)).foldl (fun s t => killTeamOp s t.uid false) s

/-! ### Double faults (R195) -/

/-- A double fault: the context's teams are killed and its queued tasks discarded, the hub's log records it, an error
record is posted when segment 9 can be written, and Mihus is interrupted. -/
def doubleFault (s : State) (ctx cause pc addr : Nat) (r : ErrRec) : State :=
  let s := { s with
    dfLog := s.dfLog ++ [{ ctx := ctx, cause := cause, pc := BitVec.ofNat 64 pc, addr := BitVec.ofNat 64 addr }] }
  let s := (postOnce s ctx { r with code := 0x05, cause := cause, pc := pc, addr := addr }).2
  let s := killContext s ctx
  let mine (k : Task) : Bool := fld k.record.toNat 10 6 == ctx
  let s := freeReservations s (fun h => s.tasks.any (fun k => k.id == h && mine k))
  let left := s.tasks.filter (fun k => !(mine k && k.live == 0 && k.queued))
  { s with tasks := left.map (fun k => if mine k && k.queued then { k with failed := true } else k),
           irqs := s.irqs ++ [.doubleFault ctx] }

/-- An error record is posted (R196); a translation failure in segment 9 is a double fault, which names the error's own
counter (R195). (DEDUCED, log 26) -/
def postError (s : State) (ctx : Nat) (r : ErrRec) : State :=
  match postOnce s ctx r with
  | (none, s) => s
  | (some (cause, addr), s) => doubleFault s ctx cause r.pc addr r

/-! ### Traps (R183 to R186) -/

/-- A trap: cause, the lanes that raised it, TRAPADDR and TRAPINFO. -/
structure Trap where
  cause : Nat
  lanes : Mask
  addr  : Nat := 0
  info  : Nat := 0
  deriving DecidableEq, Repr

/-- The error-record fields that name an issuer. -/
def Env.errRec (e : Env) : ErrRec :=
  { code := 0, pc := pcWord e.pc, who := whoWord e.t e.g, team := e.t.index, grid := e.t.grid.toNat }

/-- A double fault of an issuer (R195): in single-lane mode the log records the trap registers as they stand, else what
they would hold. (DEDUCED, log 26) -/
def dblFault (s : State) (e : Env) (cause addr : Nat) : State :=
  if e.single then doubleFault s e.t.ctx cause e.g.trap.pc.toNat e.g.trap.addr.toNat e.errRec
  else doubleFault s e.t.ctx cause (pcWord e.pc) addr e.errRec

/-- The entry of a context's handler table for a cause (R184): the handler's program counter, when the entry names a
marked slot of a code segment with the execute right. -/
def handlerPc (s : State) (t : Team) (g : Group) (cause : Nat) : Option Pc × State :=
  match ctxOf s t.ctx with
  | none => (none, s)
  | some c =>
    let p := c.handlers.toNat + 8 * cause
    match hubRead s true t.ctx (fld p 44 20) (fld p 0 44) 8 with
    | (.fail _, s) => (none, s)
    | (.dbl _, s) => (none, s)
    | (.ok e, s) =>
      let seg := fld e 44 20
      let idx := fld e 0 44
      let v : View := { die := g.place.die, core := g.place.core, ctx := t.ctx, team := t.uid, tmemG := t.tmemG,
                        tileG := t.tileG, single := true, codeSeg := seg }
      match descFor s v seg with
      | (.ok d, s) =>
        if dKind d = 1 && bitOf d 130 then
          match checkTarget s v seg idx with
          | (.ok, s) => (some ⟨seg, idx⟩, s)
          | (_, s) => (none, s)
        else (none, s)
      | (_, s) => (none, s)

/-- Enter the handler for the cause in the group's trap registers, taking a frame of two reserve blocks (R184, R185);
an unusable entry is a double fault. -/
def enterHandler (s : State) (t : Team) (g : Group) : State :=
  match handlerPc s t g g.trap.cause.toNat with
  | (some pc, s) =>
    setGroup s { g with
      handler := some { ctx := RegCtx.fresh [true, true], pc := pc, frzsel := 0, resume := 0 }
      wait := none
      readyAt := s.clock }
  | (none, s) =>
    doubleFault s t.ctx g.trap.cause.toNat g.trap.pc.toNat g.trap.addr.toNat
      { code := 5, who := whoWord t g, team := t.index, grid := t.grid.toNat }

/-- May a trap of the partition take a handler frame now (R55, R184)? -/
def handlerFree (s : State) (p : Place) : Bool := decide (handlersIn s p < 12) && decide (2 ≤ freeReserve s p)

/-- The wait record for a handler frame (Table 14-3, kind 9). -/
def handlerWait (s : State) : Wait :=
  { kind := 9, cmp := 0, object := 0, value := 0, since := s.clock, slices := 0, cont := .handler, signal := false, broken := none }

/-- Take a trap (R31, R183, R184): a trap in single-lane mode is a double fault; otherwise the trap registers are set,
the group stops, its crews break, and the handler is entered or waited for. (DEDUCED, log 15) -/
def takeTrap (s : State) (e : Env) (tr : Trap) : State :=
  if e.single then dblFault s e tr.cause tr.addr
  else
    let s := crewsLose s e.g.team e.g.index false
    let g := { e.g with
      stalled := 0
      walked := []
      trap := { cause := BitVec.ofNat 64 tr.cause, pc := BitVec.ofNat 64 (pcWord e.pc),
                lanes := BitVec.ofNat 64 tr.lanes.toNat, addr := BitVec.ofNat 64 tr.addr,
                info := BitVec.ofNat 64 tr.info, who := BitVec.ofNat 64 (whoWord e.t e.g) },
      trapSlices := sliceBits e.slices, wait := none }
    if handlerFree s g.place && !((inPart s g.place).any Group.waitsHandler) then enterHandler (setGroup s g) e.t g
    else setGroup s { g with wait := some (handlerWait s), active := false }

/-! ### Leaving an instruction -/

/-- Set the program counters of slices, or the handler's. -/
def Group.setPc (g : Group) (ks : List Nat) (pc : Pc) : Group :=
  match g.handler with
  | some h => { g with handler := some { h with pc := pc } }
  | none =>
    { g with slices := (List.range g.slices.length).map (fun k =>
        match g.slices[k]? with
        | some sl => if ks.contains k then { sl with pc := pc } else sl
        | none => { pc := pc, run := 0, stack := [], arrived := false, held := none }) }

/-- The next instruction's counter. -/
def Pc.next (p : Pc) : Pc := { p with idx := p.idx + 1 }

/-- An index at a distance (R238), as an exact number. -/
def Pc.at (p : Pc) (off : Int) : Int := (p.idx : Int) + off

/-- A group has issued in a clock: its fragment goes to the end of the turn (R29, R181). -/
def Group.issuedAt (g : Group) (ks : List Nat) (now : Nat) : Group :=
  { g with
    stalled := 0
    walked := g.walked.filter (fun x => x.1 &&& sliceBits ks == 0)
    lastIssue := now + 1
    turn := g.turn.filter (fun k => !ks.contains k) ++ ks }

/-- The issuer's group once its instruction has issued; a handler is no fragment. -/
def Env.issued (e : Env) (g : Group) (now : Nat) : Group := g.issuedAt (if e.single then [] else e.slices) now

/-- Put the issuer's group back after an instruction and count the instruction (R198). -/
def commit (s : State) (e : Env) (g : Group) : State :=
  let s := setGroup s (e.issued g s.clock)
  { s with teams := s.teams.map (fun t => if t.uid == e.t.uid then { t with issuedN := t.issuedN + 1 } else t) }

/-- The instruction stalls at issue (R105, R180): its fragment is not ready until something happens. -/
def stall (s : State) (e : Env) : State := setGroup s { e.g with stalled := e.g.stalled ||| sliceBits e.slices }

/-- Has every fragment of a group that may issue stalled at issue? Such a group is not ready (R180). -/
def Group.allStalled (g : Group) : Bool :=
  g.handler.isSome || (List.range 8).all (fun k =>
    bitOf g.stalled.toNat k || (match g.slices[k]? with | some sl => !sl.ready | none => true))

/-- Something has happened: the groups that have stalled may try again. One that had no fragment left to issue is ready from
now on; one that had is ready as before (R181). -/
def unstall (s : State) : State :=
  { s with groups := s.groups.map (fun g => if g.stalled ≠ 0 then { g with
      stalled := 0
      readyAt := if g.allStalled then s.clock else g.readyAt } else g) }

/-- The wait of a group is over: it is ready (R179). -/
def Group.released (g : Group) (now : Nat) : Group := { g with wait := none, readyAt := now }

/-- Go on at the next instruction with a changed group. -/
def advance (s : State) (e : Env) (g : Group) : State := commit s e (g.setPc e.slices e.pc.next)

/-- The team is no longer clean (R199). -/
def soil (s : State) (uid : Nat) : State :=
  { s with teams := s.teams.map (fun t => if t.uid == uid then { t with clean := false } else t) }

/-! ### The casement (R44, R47) -/

/-- Push one result onto a slice's ages. -/
def pushAge (a : List Age) (valid : Bool) (d : BitVec 128) : List Age := { valid := valid, data := d } :: a.take 15

/-- Mark ages `lo` to `hi` (from 1) of a slice invalid. -/
def invalidate (a : List Age) (lo hi : Nat) : List Age :=
  (List.range a.length).map (fun k =>
    match a[k]? with
    | some x => if lo ≤ k + 1 ∧ k + 1 ≤ hi then { x with valid := false } else x
    | none => { valid := false, data := 0 })

/-- Change the casements of a list of slices. -/
def RegCtx.mapCas (r : RegCtx) (ks : List Nat) (f : Nat → List Age → List Age) : RegCtx :=
  { r with cas := (List.range r.cas.length).map (fun k =>
      match r.cas[k]? with
      | some a => if ks.contains k then f k a else a
      | none => emptyCas) }

/-- A casement fence (R47): ages 1 to 8 of every slice of the fragment become invalid. -/
def Group.fence (g : Group) (ks : List Nat) : Group :=
  g.mapCtx (fun r => r.mapCas ks (fun _ a => invalidate a 1 8))

/-! ### Waiting (Table 14-3) -/

/-- Record a wait: the group leaves the active set (R36, R179). -/
def beginWait (s : State) (e : Env) (g : Group) (kind cmp object value : Nat) (cont : Cont) : State :=
  commit s e { g with
    wait := some { kind := kind, cmp := cmp, object := BitVec.ofNat 64 object, value := BitVec.ofNat 64 value,
                   since := s.clock, slices := sliceBits e.slices, cont := cont,
                   signal := false, broken := none },
    active := false }

/-! ### Counters (R103 to R106) -/

/-- Outstanding operations of a class. -/
def RegCtx.count (r : RegCtx) (c : Cls) : Nat := (r.ops.filter (fun o => o.cls == c)).length

/-- Operations of a class issued so far. -/
def Counts.get (n : Counts) (c : Cls) : Nat :=
  match c with
  | .ld => n.ld | .st => n.st | .copy => n.copy | .mat => n.mat | .task => n.task

/-- One more of a class has issued. -/
def Counts.inc (n : Counts) (c : Cls) : Counts :=
  match c with
  | .ld => { n with ld := n.ld + 1 }
  | .st => { n with st := n.st + 1 }
  | .copy => { n with copy := n.copy + 1 }
  | .mat => { n with mat := n.mat + 1 }
  | .task => { n with task := n.task + 1 }

/-- A class's threshold (Table 19-12). -/
def threshold (th : BitVec 30) (c : Cls) : Nat :=
  match c with
  | .ld => fld th.toNat 0 6 | .st => fld th.toNat 6 6 | .copy => fld th.toNat 12 6 | .mat => fld th.toNat 18 6
  | .task => fld th.toNat 24 6

/-- All classes. -/
def allCls : List Cls := [.ld, .st, .copy, .mat, .task]

/-- Are the thresholds met? A threshold of 63 leaves its class unwaited (R104). -/
def RegCtx.met (r : RegCtx) (th : BitVec 30) : Bool :=
  allCls.all (fun c => threshold th c == 63 || decide (r.count c ≤ threshold th c))

/-- Does a threshold cover the operation of a class at a position: it is older than the n youngest (R104)? -/
def RegCtx.covers (r : RegCtx) (th : BitVec 30) (c : Cls) (seq : Nat) : Bool :=
  threshold th c != 63 && decide (seq + threshold th c < r.issued.get c)

/-- The covered destinations become waited (R106). -/
def RegCtx.release (r : RegCtx) (th : BitVec 30) : RegCtx :=
  { r with unw := r.unw.filter (fun u => !r.covers th u.cls u.seq) }

/-- %counts: the five counters packed as in Table 19-12 (R103). -/
def RegCtx.counts (r : RegCtx) : Nat :=
  r.count .ld + r.count .st * 2 ^ 6 + r.count .copy * 2 ^ 12 + r.count .mat * 2 ^ 18 + r.count .task * 2 ^ 24

/-- Issue an operation of a class: its record joins the outstanding ones (R103, R107). -/
def Group.addOp (g : Group) (c : Cls) (body : OpBody) (accs : List Acc) (ord : Ord) (scope : Scope) (pc : Pc)
    (unw : List (Nat × Nat × Bool)) : Group :=
  let id := g.nextOp
  let depth := if g.handler.isSome then 0 else g.calls.length
  let g := { g with nextOp := id + 1 }
  g.mapCtx (fun r =>
    let q := r.issued.get c
    { r with
      ops := r.ops ++ [{ id := id, cls := c, seq := q, depth := depth, body := body, accs := accs, ord := ord,
                         scope := scope, pc := pc, done := false, fail := none }],
      issued := r.issued.inc c,
      unw := r.unw ++ unw.map (fun u => { cls := c, seq := q, depth := depth, lo := u.1, n := u.2.1, pred := u.2.2 }) })

/-- The operations that have completed leave their counts, in issue order within a class (R104); what failed is kept
for the waitc that covers it (R183). -/
def retireOps : List Op → List Cls → List Op × List (Cls × Nat × OpFail)
  | [], _ => ([], [])
  | o :: r, held =>
    if o.done && !held.contains o.cls then
      let x := retireOps r held
      (x.1, match o.fail with | some f => (o.cls, o.seq, f) :: x.2 | none => x.2)
    else
      let x := retireOps r (o.cls :: held)
      (o :: x.1, x.2)

/-- Retire what has completed. -/
def RegCtx.retire (r : RegCtx) : RegCtx :=
  let x := retireOps r.ops []
  { r with ops := x.1, failed := r.failed ++ x.2 }

/-- Issue an operation of the ld or st class; one without accesses has completed already. -/
def Group.addMem (g : Group) (c : Cls) (body : OpBody) (accs : List Acc) (ord : Ord) (scope : Scope) (pc : Pc)
    (unw : List (Nat × Nat × Bool)) : Group :=
  let id := g.nextOp
  let g := g.addOp c body accs ord scope pc unw
  if accs = [] then
    let mark (o : Op) : Op := if o.id == id then { o with done := true } else o
    g.mapCtx (fun r => RegCtx.retire { r with ops := r.ops.map mark })
  else g

/-- Would another operation of a class be the 64th outstanding (R105)? -/
def Group.full (g : Group) (c : Cls) : Bool := decide (63 ≤ g.ctx.count c)

/-- The outstanding operations of a group, its handler's included. -/
def Group.allOps (g : Group) : List Op := g.main.ops ++ (match g.handler with | some h => h.ctx.ops | none => [])

/-- The memory requests of a group: its operations on memory that still have an access to perform. -/
def Group.requests (g : Group) : Nat :=
  (g.allOps.filter (fun o => (o.cls == .ld || o.cls == .st) && o.open_)).length

/-- The memory requests of the groups that a test selects, the departed ones included. -/
def requestsOf (s : State) (p : Group → Bool) : Nat := (((s.groups ++ s.departed).filter p).map Group.requests).sum

/-- Is the request queue of a partition (128) or of a core (1,024) full (R11, R12)? (DEDUCED, log 71) -/
def requestsFull (s : State) (p : Place) : Bool :=
  let core (g : Group) : Bool := g.place.die == p.die && g.place.core == p.core
  decide (1024 ≤ requestsOf s core) || decide (128 ≤ requestsOf s (fun g => core g && g.place.part == p.part))

/-- Does a memory instruction of a class stall at issue: at a full counter (R105) or a full request queue (R12)? -/
def memStalls (s : State) (e : Env) (c : Cls) : Bool := e.g.full c || requestsFull s e.g.place

/-- Are all the group's earlier accesses that an ordering at a scope reaches performed? Engine accesses of copies and
matrix instructions are not the group's (R314). -/
def Group.performed (g : Group) (p : Op → Bool) (scope : Scope) : Bool :=
  g.allOps.all (fun o =>
    match o.cls with
    | .copy | .mat => true
    | _ => !(p o) || o.accs.all (fun a => !o.pend a || !scope.orders a.loc))

/-- The acquire of an operation or fence at a scope: cluster or wider empties the core's unregistered words (R206). -/
def acquireAt (s : State) (p : Place) (scope : Scope) : State :=
  match scope with
  | .group | .team => s
  | _ => l1Acquire s p.die p.core

/-! ### Capture (R233) -/

/-- Do atomics of a context stay at home because a task of it captures (R233)? -/
def captures (s : State) (ctx : Nat) : Bool :=
  s.tasks.any (fun k => fld k.record.toNat 10 6 == ctx && bitOf k.record.toNat 5)

/-- Does a team's task record what it orders? -/
def recordsTask (s : State) (t : Team) : Bool :=
  match taskOf s t.task with
  | some k => bitOf k.record.toNat 5
  | none => false

/-- `n` bytes enter an area that Mihus has named, at a place in module memory that nothing states. (DESIGN CHOICE, log 10) -/
def areaStore (s : State) (area : BitVec 64) (n v : Nat) : State :=
  { s with mem := memWrite s.mem (2 ^ 39 + Config.capturePlace area s.fresh % (2 ^ 39 - n)) n v, fresh := s.fresh + 1 }

/-- `n` bytes of a record enter the capture area of a context (R233). -/
def captureStore (s : State) (ctx n v : Nat) : State :=
  match ctxOf s ctx with
  | some c => areaStore s c.capture n v
  | none => s

/-- Is the capture area of a capturing team's context full, so that the operations that it records stall at issue?
(DESIGN CHOICE, log 10) -/
def captureFull (s : State) (t : Team) : Bool :=
  recordsTask s t
    && (match ctxOf s t.ctx with
        | some c => decide (Config.captureCapacity c.capture ≤ (s.capture.filter (fun r => r.ctx == t.ctx)).length)
        | none => false)

/-! ### Issuing -/

/-- Issue an instruction: without an issuer nothing happens (the one fault of the model); an opcode that single-lane
mode does not accept is a double fault with cause 0x01 (R185); a system opcode outside it traps 0x05 (R251).
(DESIGN CHOICE, log 64) -/
def onIssue (op : Nat) (s : State) (f : Env → State → State) : Host.Outcome State Fault Refusal :=
  match env? s with
  | none => .fault .nothingIssues
  | some e =>
    let s := popIssue s
    if e.single && !singleAccepts op then .next (takeTrap s e { cause := 0x01, lanes := e.live })
    else if !e.single && isPrivileged op then .next (takeTrap s e { cause := 0x05, lanes := e.live })
    else .next (f e s)

end Sys2Proof.Machine
end

