-- ==== Sys2Proof/WellFormed.lean ====
section
/-! DEFINITION. When an instruction is one that the encoding maps of 19_encoding.md admit: the type sets of the
reference entries, the guard rule (R244), scalar issue (R243), the immediate rule (R243, R249), alignment of register
pairs and quads (R38, R45), and the fields that must be zero. What depends on the state (the frame's length, the
validity of an age, %crew) is checked by the machine. -/

namespace Sys2Proof

/-- The width in bits of an operand of an integer or bit type (R248). -/
def IntTy.width : IntTy → Nat
  | .i64 | .n64 | .b64 => 64
  | .b128 => 128
  | _ => 32

/-- The types of add, sub, min and max (R275, R331). -/
def IntTy.isArith : IntTy → Bool
  | .b32 | .b64 | .b128 => false
  | _ => true

/-- I32, N32, I64, N64. -/
def IntTy.isWord : IntTy → Bool
  | .i32 | .n32 | .i64 | .n64 => true
  | _ => false

/-- The types of mul (Table 23-1). -/
def IntTy.isMul : IntTy → Bool
  | .i16x2 | .n16x2 => true
  | t => t.isWord

/-- The types of abs and neg (R274, R338). -/
def IntTy.isSigned : IntTy → Bool
  | .i32 | .i64 | .i16x2 | .i8x4 => true
  | _ => false

/-- B32, B64. -/
def IntTy.isBits : IntTy → Bool
  | .b32 | .b64 => true
  | _ => false

/-- B32, B64, B128. -/
def IntTy.isBits3 : IntTy → Bool
  | .b32 | .b64 | .b128 => true
  | _ => false

/-- The width in bits of an operand of a floating-point type (R248). -/
def FpTy.width : FpTy → Nat
  | .f64 | .f32x2 => 64
  | _ => 32

/-- TY 0 to 6: the types of the vector floating-point instructions (R306). -/
def FpTy.isVec : FpTy → Bool
  | .f32 | .f64 | .f16 | .bf16 | .f16x2 | .bf16x2 | .f32x2 => true
  | _ => false

/-- TY 0 to 3: scalars (R309, R319). -/
def FpTy.isScalar : FpTy → Bool
  | .f32 | .f64 | .f16 | .bf16 => true
  | _ => false

/-- TY 0 and 2 to 5 (R310). -/
def FpTy.isTrans : FpTy → Bool
  | .f32 | .f16 | .bf16 | .f16x2 | .bf16x2 => true
  | _ => false

/-- The 8-bit and 6-bit packed types (Table 21-4). -/
def FpTy.isNarrow4 : FpTy → Bool
  | .p8x4 | .e4m3x4 | .e5m2x4 | .e3m2x4 | .e2m3x4 | .e8m0x4 => true
  | _ => false

/-- The types that stand beside a narrow one in cvt (Table 21-4). -/
def FpTy.isWideSide : FpTy → Bool
  | .f32 | .f16x2 | .bf16x2 => true
  | _ => false

/-- The number of elements that cvt converts between two floating-point types; none for an illegal pair (Table 21-4). -/
def cvtCount (s d : FpTy) : Option Nat :=
  if s.isScalar && d.isScalar then some 1
  else if s == .e2m1x8 || d == .e2m1x8 then
    (if (s == .e2m1x8 && d.isWideSide) || (d == .e2m1x8 && s.isWideSide) then some 8 else none)
  else if s.isNarrow4 || d.isNarrow4 then
    (if (s.isNarrow4 || s.isWideSide) && (d.isNarrow4 || d.isWideSide) then some 4 else none)
  else if (s == .f32x2 || s == .f16x2 || s == .bf16x2) && (d == .f32x2 || d == .f16x2 || d == .bf16x2) then some 2
  else none

/-- The bits of one element of a floating-point type in a register (R138). -/
def FpTy.elemBits : FpTy → Nat
  | .f32 | .f32x2 => 32
  | .f64 => 64
  | .f16 | .bf16 | .f16x2 | .bf16x2 => 16
  | .p8x4 | .e4m3x4 | .e5m2x4 | .e3m2x4 | .e2m3x4 | .e8m0x4 => 8
  | .e2m1x8 => 4

/-- The legal pairs of cvt (Table 21-4). -/
def cvtPair : AnyTy → AnyTy → Bool
  | .f s, .f d => (cvtCount s d).isSome
  | .f s, .i d => s.isScalar && d.isWord
  | .i s, .f d => s.isWord && d.isScalar
  | .i s, .i d => s.isWord && d.isWord

/-- Registers that a side of `n` elements occupies when it must name an aligned v register: 2, 4 or 8; 1 for a side
of one register or of one 64-bit value (R302). -/
def cvtRegs (t : FpTy) (n : Nat) : Nat := if n = 1 then 1 else (n * t.elemBits + 31) / 32

/-- The P3109 format bytes that cvt needs stand in IMM, the source's first; every other bit is 0 (R302, R249). -/
def p8Legal (b : Nat) : Bool := decide (b % 8 ≠ 0) && decide (b / 32 = 0)

/-- The format-byte rule of cvt. -/
def cvtImmOk (s d : AnyTy) (imm : Nat) : Bool :=
  match s == .f .p8x4, d == .f .p8x4 with
  | true, true => p8Legal (imm % 256) && p8Legal (imm / 256 % 256) && decide (imm / 65536 = 0)
  | false, false => decide (imm = 0)
  | _, _ => p8Legal (imm % 256) && decide (imm / 256 = 0)

/-- PG 7 with PN 1 is illegal (R244). -/
def Guard.wf (g : Guard) : Bool := !(g.pred == 7 && g.neg)

/-- A source at a width: pairs and quads aligned, ages within c16 (R38, R45, R248). -/
def Src.wf (w : Nat) (s : Src) : Bool :=
  match w, s with
  | 64, .v n => n.val % 2 == 0
  | 64, .c k => decide (k.val + 1 < 16)
  | 64, .b n => n.val % 2 == 0
  | 128, .v n => n.val % 4 == 0
  | 128, .c k => decide (k.val + 3 < 16)
  | 128, .zero => true
  | 128, _ => false
  | _, _ => true

/-- A destination at a width. -/
def Dst.wf (w : Nat) (d : Dst) : Bool :=
  match w, d with
  | 64, .v n => n.val % 2 == 0
  | 64, .b n => n.val % 2 == 0
  | 128, .v n => n.val % 4 == 0
  | 128, .none _ => true
  | 128, _ => false
  | _, _ => true

/-- A source that scalar issue accepts (R243, R248). -/
def Src.isUni : Src → Bool
  | .b _ | .s _ | .imm | .zero => true
  | _ => false

/-- A destination that scalar issue accepts (R243). -/
def Dst.isUni : Dst → Bool
  | .b _ | .s _ => true
  | _ => false

/-- Is the source a v register, pair or quad, an age or zero (R364, R351)? -/
def Src.isData : Src → Bool
  | .v _ | .c _ | .zero => true
  | _ => false

/-- A 64-bit pointer operand of bar and calli: a v pair, a b pair or an s register (R280, R292). -/
def Src.isPtr : Src → Bool
  | .v n => n.val % 2 == 0
  | .b n => n.val % 2 == 0
  | .s _ => true
  | _ => false

/-- A pointer operand of the handler's instructions: an s register or a v pair (R284, R325). -/
def Src.isSysPtr : Src → Bool
  | .v n => n.val % 2 == 0
  | .s _ => true
  | _ => false

/-- Is the destination a v register or "_" ? -/
def Dst.isVec : Dst → Bool
  | .v _ | .none _ => true
  | _ => false

/-- The immediate is 0 unless an operand reads it (R243). -/
def immOk (h : Hdr) (srcs : List Src) : Bool := h.imm == 0 || srcs.contains .imm

/-- A format V instruction whose IMM is an operand's: guard, scalar issue, immediate, and the operands at their
widths. -/
def vWf (h : Hdr) (uniOk : Bool) (d : Dst) (dw : Nat) (srcs : List (Src × Nat)) : Bool :=
  h.guard.wf && (!h.uni || (uniOk && d.isUni && srcs.all (fun p => p.1.isUni)))
    && immOk h (srcs.map (·.1)) && d.wf dw && srcs.all (fun p => p.1.wf p.2)

/-- A format V instruction without a register destination and without scalar issue. -/
def vWf0 (h : Hdr) (srcs : List (Src × Nat)) : Bool :=
  h.guard.wf && !h.uni && immOk h (srcs.map (·.1)) && srcs.all (fun p => p.1.wf p.2)

/-- A format V instruction whose IMM is a field of its own: no operand names it (R249). -/
def vWfOwn (h : Hdr) (d : Dst) (dw : Nat) (srcs : List (Src × Nat)) : Bool :=
  h.guard.wf && !h.uni && d.wf dw && srcs.all (fun p => p.1.wf p.2 && p.1 != .imm)

/-- The width of a load or store type in bits, as a register operand. -/
def LdTy.width : LdTy → Nat
  | .b64 => 64
  | .b128 => 128
  | _ => 32

/-- A v register for a value of a width. -/
def regWf (w n : Nat) : Bool := n % (w / 32) == 0

/-- The legal types of an atomic (Table 8-1). -/
def AtomOp.legal (op : AtomOp) (ty : AnyTy) : Bool :=
  match op, ty with
  | .add, .i t | .min, .i t | .max, .i t => t.isWord
  | .and, .i t | .or, .i t | .xor, .i t | .xchg, .i t => t.isBits
  | .inc, .i t | .dec, .i t => t == .n32 || t == .n64
  | .fadd, .f t | .fmin, .f t | .fmax, .f t =>
    match t with
    | .f32 | .f64 | .bf16 | .bf16x2 | .f16x2 | .f32x2 => true
    | _ => false
  | _, _ => false

/-- The width of a type of either table in bits. -/
def AnyTy.width : AnyTy → Nat
  | .i t => t.width
  | .f t => t.width

/-- The legal types of redux (Table 23-4). -/
def ReduxOp.legal (op : ReduxOp) (ty : AnyTy) : Bool :=
  match op, ty with
  | .add, .i t | .min, .i t | .max, .i t => t.isWord
  | .and, .i t | .or, .i t | .xor, .i t => t.isBits
  | .fadd, .f t | .fmin, .f t | .fmax, .f t => t == .f32 || t == .f64
  | _, _ => false

/-- What a format M instruction may use: ordering, scope, eviction priority (R245). -/
structure MUse where
  ord   : Bool
  scope : Bool
  evp   : Bool

/-- The part that format M instructions share. Pointer mode reads A, as a 64-bit operand (R61); IMM has no meaning in
format M (R245). -/
def MHdr.wf (m : MHdr) (u : MUse) : Bool :=
  m.guard.wf && (u.ord || m.ord == .weak) && (u.scope || m.scope == .group) && (u.evp || m.evp == 0)
    && (match m.addr, m.a with
        | .sel g _, some a => (if g = 0 then a.wf 64 else true) && a != .imm
        | .sel g _, none => g != 0
        | .link _ _, some a => a != .imm
        | .link _ _, none => true)

def MUse.all : MUse := ⟨true, true, true⟩

/-- The physical form (R325, R366): selector form with G = 0, A an s register or a v pair. -/
def MHdr.wfPhys (m : MHdr) : Bool :=
  m.wf MUse.all && (match m.addr, m.a with
    | .sel g _, some a => g == 0 && a.isSysPtr
    | _, _ => false)

/-- The pairings of Table 12-2. -/
def matPair (a : MatTy) (c : AccTy) : Bool :=
  match a, c with
  | .f64, .f64 => true
  | .f32, .f32 | .f16, .f32 | .bf16, .f32 | .p8, .f32 | .e4m3, .f32 | .e5m2, .f32 | .e3m2, .f32 | .e2m3, .f32
  | .e2m1, .f32 => true
  | .i8, .i32 | .n8, .i32 => true
  | _, _ => false

/-- The inputs of mmas (Table 23-3). -/
def MatTy.isSparse : MatTy → Bool
  | .f16 | .bf16 | .p8 | .e4m3 | .e5m2 | .i8 | .n8 => true
  | _ => false

/-- The inputs of mmx (Table 23-3). -/
def MatTy.isMx : MatTy → Bool
  | .e4m3 | .e5m2 | .e3m2 | .e2m3 | .e2m1 => true
  | _ => false

/-- The format byte stands in bits 7:0 exactly when the input is P3109 (R155, R159). -/
def fmtOk (t : MatTy) (low : Nat) : Bool := if t == .p8 then p8Legal low else low == 0

/-- The pairs of tcvt (Table 24-2). -/
def tcvtPair (d : MatTy) (s : AccTy) : Bool :=
  match s, d with
  | .f32, .f16 | .f32, .bf16 | .f32, .p8 | .f32, .e4m3 | .f32, .e5m2 | .f32, .e3m2 | .f32, .e2m3 | .f32, .e2m1 => true
  | .f64, .f32 | .f64, .f16 | .f64, .bf16 => true
  | _, _ => false

/-- Thresholds leave bits 31:30 zero; the field has 30 bits, so nothing is left to check. A copy without a yield reads
no immediate: its IMM is zero (R296). -/
def copyWf (gd : Guard) (aw bw cw : Nat) (a b c : Src) : Bool := gd.wf && a.wf aw && b.wf bw && c.wf cw

/-- The widths of B and C of a copy kind (R296). -/
def CopyKind.widths : CopyKind → Nat × Nat
  | .linear | .metaq => (64, 32)
  | .fill => (32, 32)
  | _ => (64, 64)

/-- Well-formed instructions. An event of the device carries no encoding and is always well formed. -/
def Instr.wf : Instr → Bool
  | .nop _ => true
  | .bra gd _ _ => gd.wf
  | .brx gd _ _ => gd.wf
  | .call gd _ _ => gd.wf
  | .calli gd _ a => gd.wf && a.isPtr
  | .ret gd _ => gd.wf
  | .unwind gd a _ => gd.wf && (match a with | .v _ | .b _ | .s _ | .c _ | .zero => true | _ => false)
  | .regang => true
  | .exit gd => gd.wf
  | .yield gd _ _ => gd.wf
  | .trap gd _ => gd.wf
  | .assert gd _ _ => gd.wf
  | .brk gd _ => gd.wf
  | .add h ty _ d a b => ty.isArith && vWf h true d ty.width [(a, ty.width), (b, ty.width)]
  | .sub h ty _ d a b => ty.isArith && vWf h true d ty.width [(a, ty.width), (b, ty.width)]
  | .mul h ty _ d a b => ty.isMul && vWf h true d ty.width [(a, ty.width), (b, ty.width)]
  | .mulhi h ty d a b => ty.isWord && vWf h true d ty.width [(a, ty.width), (b, ty.width)]
  | .mad h ty _ d a b c => ty.isWord && vWf h true d ty.width [(a, ty.width), (b, ty.width), (c, ty.width)]
  | .mulwide h ty d a b => (ty == .i32 || ty == .n32) && vWf h true d 64 [(a, 32), (b, 32)]
  | .min h ty d a b => ty.isArith && vWf h true d ty.width [(a, ty.width), (b, ty.width)]
  | .max h ty d a b => ty.isArith && vWf h true d ty.width [(a, ty.width), (b, ty.width)]
  | .abs h ty _ d a => ty.isSigned && vWf h true d ty.width [(a, ty.width)]
  | .neg h ty _ d a => ty.isSigned && vWf h true d ty.width [(a, ty.width)]
  | .and h ty d a b => ty.isBits3 && vWf h true d ty.width [(a, ty.width), (b, ty.width)]
  | .or h ty d a b => ty.isBits3 && vWf h true d ty.width [(a, ty.width), (b, ty.width)]
  | .xor h ty d a b => ty.isBits3 && vWf h true d ty.width [(a, ty.width), (b, ty.width)]
  | .not h ty d a => ty.isBits3 && vWf h true d ty.width [(a, ty.width)]
  | .lop3 h ty d a b c => ty.isBits && decide (h.imm.toNat / 8192 = 0) && h.guard.wf
      && (!h.uni || (d.isUni && a.isUni && b.isUni && c.isUni)) && d.wf ty.width
      && a.wf ty.width && b.wf ty.width && c.wf ty.width && a != .imm && b != .imm && c != .imm
  | .shl h ty d a b => ty.isBits && vWf h true d ty.width [(a, ty.width), (b, 32)]
  | .shr h _ ty d a b => ty.isBits && vWf h true d ty.width [(a, ty.width), (b, 32)]
  | .fsh h _ d a b c => vWf h true d 32 [(a, 32), (b, 32), (c, 32)]
  | .popc h ty d a => ty.isBits && vWf h true d 32 [(a, ty.width)]
  | .clz h ty d a => ty.isBits && vWf h true d 32 [(a, ty.width)]
  | .brev h ty d a => ty.isBits && vWf h true d ty.width [(a, ty.width)]
  | .bfe h ty d a b c => ty.isWord && vWf h true d ty.width [(a, ty.width), (b, 32), (c, 32)]
  | .bfi h ty d a b c => ty.isBits && vWf h true d ty.width [(a, ty.width), (b, ty.width), (c, 32)]
  | .setp h cmp _ ty _ a b =>
    (ty.isWord && cmp != .uo && cmp != .ord || ty.isBits && (cmp == .eq || cmp == .ne))
      && vWf0 h [(a, ty.width), (b, ty.width)]
  | .sel h ty d a b _ => ty.isBits3 && vWf h true d ty.width [(a, ty.width), (b, ty.width)]
  | .leaPtr h ty d a b => ty.isWord && vWf h true d 64 [(a, 32), (b, ty.width)]
  | .leaAdd h ty d a b => ty.isWord && vWf h true d 64 [(a, 64), (b, ty.width)]
  | .leaSeg h g a => g != 0 && vWf0 h [(a, 32)]
  | .leaChk h _ a b => vWf0 h [(a, 64), (b, 32)]
  | .mov h ty d a => ty.isBits3 && vWf h true d ty.width [(a, ty.width)]
  | .smovRead gd wide d _ => gd.wf && d.wf (if wide then 64 else 32)
  | .smovWriteCrew gd a => gd.wf && a.wf 64 && a != .imm
  | .prmt h d a b c => vWf h true d 32 [(a, 32), (b, 32), (c, 32)]
  | .fadd h ty _ _ d a b => ty.isVec && vWf h true d ty.width [(a, ty.width), (b, ty.width)]
  | .fsub h ty _ _ d a b => ty.isVec && vWf h true d ty.width [(a, ty.width), (b, ty.width)]
  | .fmul h ty _ _ d a b => ty.isVec && vWf h true d ty.width [(a, ty.width), (b, ty.width)]
  | .fma h ty _ _ d a b c => ty.isVec && vWf h true d ty.width [(a, ty.width), (b, ty.width), (c, ty.width)]
  | .fmin h ty d a b => ty.isVec && vWf h true d ty.width [(a, ty.width), (b, ty.width)]
  | .fmax h ty d a b => ty.isVec && vWf h true d ty.width [(a, ty.width), (b, ty.width)]
  | .fsetp h _ _ ty _ a b => ty.isScalar && vWf0 h [(a, ty.width), (b, ty.width)]
  | .frcp h ty _ _ d a => ty.isVec && vWf h true d ty.width [(a, ty.width)]
  | .frsq h ty _ _ d a => ty.isVec && vWf h true d ty.width [(a, ty.width)]
  | .fsqrt h ty _ _ d a => ty.isVec && vWf h true d ty.width [(a, ty.width)]
  | .fdiv h ty _ _ d a b => ty.isVec && vWf h true d ty.width [(a, ty.width), (b, ty.width)]
  | .fex2 h ty _ _ d a => ty.isTrans && vWf h true d ty.width [(a, ty.width)]
  | .flg2 h ty _ _ d a => ty.isTrans && vWf h true d ty.width [(a, ty.width)]
  | .fsin h ty _ _ d a => ty.isTrans && vWf h true d ty.width [(a, ty.width)]
  | .fcos h ty _ _ d a => ty.isTrans && vWf h true d ty.width [(a, ty.width)]
  | .fscale h ty _ _ d a b => ty.isVec && vWf h true d ty.width [(a, ty.width), (b, 32)]
  | .fclass h ty d a => ty.isScalar && vWf h true d 32 [(a, ty.width)]
  | .fdot2 h ty _ _ d a b c => (ty == .f16x2 || ty == .bf16x2) && vWf h true d 32 [(a, 32), (b, 32), (c, 32)]
  | .frnd h ty _ d a => ty.isVec && vWf h true d ty.width [(a, ty.width)]
  | .cvt h s t _ _ d a =>
    cvtPair s t && cvtImmOk s t h.imm.toNat && h.guard.wf && !h.uni && a != .imm
      && (match s, t with
          | .f s, .f t =>
            let n := (cvtCount s t).getD 1
            let rs := cvtRegs s n
            let rt := cvtRegs t n
            (if rs = 1 then a.wf s.width else match a with | .v k => k.val % rs == 0 | _ => false)
              && (if rt = 1 then d.wf t.width else match d with | .v k => k.val % rt == 0 | .none _ => true | _ => false)
          | _, _ => a.wf s.width && d.wf t.width)
  | .shfl h _ ty d a b _ =>
    ty.isBits && (h.imm == 1 || h.imm == 2 || h.imm == 4 || h.imm == 8 || h.imm == 16 || h.imm == 32)
      && vWfOwn h d ty.width [(a, ty.width), (b, 32)] && d.isVec
      && (ty == .b32 || match a with | .v _ => true | _ => false)
  | .vote h form wide a =>
    (match form with
      | .eq _ => vWf0 h [(a, if wide then 64 else 32)]
      | .ballot d => !wide && vWf h false d 32 [(a, 32)]
      | _ => !wide && vWf0 h [(a, 32)])
  | .redux h op ty sat d a => op.legal ty && (!sat || op == .add) && vWf h false d ty.width [(a, ty.width)]
  | .scan h _ ty _ d a => ty.isWord && d.isVec && vWf h false d ty.width [(a, ty.width)]
  | .ld m ty d => m.wf MUse.all && regWf ty.width d.val
  | .st m ty b => m.wf MUse.all && b.isData && b.wf ty.width
  | .pf m => m.wf ⟨false, false, true⟩
  | .touch m b => m.wf ⟨false, false, false⟩ && b != .imm
  | .fence gd _ _ => gd.wf
  | .cctlWb m => m.wf ⟨false, true, false⟩
  | .cctlInv m => m.wf ⟨false, true, false⟩
  | .cctlWbinv m => m.wf ⟨false, true, false⟩
  | .cctlUnhold m => m.wf ⟨false, false, false⟩
  | .sts m wide _ b => m.wf MUse.all && b.isData && b.wf (if wide then 64 else 32)
  | .retract m _ _ => m.wf ⟨true, true, false⟩
  | .settle m _ => m.wf ⟨true, true, false⟩
  | .atom m op ty d b => m.wf MUse.all && op.legal ty && regWf ty.width d.val && b.wf ty.width && b != .imm
  | .red m op ty b => m.wf MUse.all && op.legal ty && b.wf ty.width && b != .imm
  | .cas m ty d b c => m.wf MUse.all && ty.isBits3 && regWf ty.width d.val && b.isData && b.wf ty.width
      && c.isData && c.wf ty.width
  | .cpadd m wide d b => m.wf MUse.all && b.wf (if wide then 64 else 32) && b != .imm
      && (match d with | some n => regWf (if wide then 128 else 64) n.val | none => true)
  | .waitv m _ wide b => m.wf ⟨true, true, false⟩ && b.wf (if wide then 64 else 32) && b != .imm
  | .spred m b c => m.wf ⟨true, true, false⟩ && m.ord != .sc && b != .imm && c != .imm
  | .mma f => f.guard.wf && matPair f.tya f.tyc && fmtOk f.tya f.low.toNat
  | .mmas f _ => f.guard.wf && matPair f.tya f.tyc && f.tya.isSparse && fmtOk f.tya f.low.toNat
  | .mmx f _ => f.guard.wf && matPair f.tya f.tyc && f.tya.isMx
  | .tld gd _ _ _ => gd.wf
  | .tst gd _ _ _ => gd.wf
  | .tzero gd _ _ => gd.wf
  | .tcvt gd d s _ _ _ fmt => gd.wf && tcvtPair d s && fmtOk d fmt.toNat
  | .copyLinear gd a b c => copyWf gd 64 64 32 a b c
  | .copyStrided2 gd a b c => copyWf gd 64 64 64 a b c
  | .copyStrided3 gd a b c => copyWf gd 64 64 64 a b c
  | .copyGather gd a b c => copyWf gd 64 64 64 a b c
  | .copyScatter gd a b c => copyWf gd 64 64 64 a b c
  | .copyFill gd a b c => copyWf gd 64 32 32 a b c
  | .copyCombine gd a b c => copyWf gd 64 64 64 a b c
  | .copyMeta gd a b c => copyWf gd 64 64 32 a b c
  | .copyYield gd k _ a b c =>
    copyWf gd 64 k.widths.1 k.widths.2 a b c && a != .imm && b != .imm && c != .imm
  | .waitc gd _ => gd.wf
  | .barInit h _ a b => vWf0 h [(a, 64), (b, 32)] && a.isPtr
  | .barArrive gd d a => gd.wf && a.isPtr && (match d with | .none nw => !nw | _ => true)
  | .barWait h a b => vWf0 h [(a, 64), (b, 32)] && a.isPtr
  | .barArrwait gd d a => gd.wf && a.isPtr && (match d with | .none nw => !nw | _ => true)
  | .barDrop gd a => gd.wf && a.isPtr
  | .qpush gd _ a _ => gd.wf && a.val % 2 == 0
  | .qpushTask gd _ _ _ => gd.wf
  | .qpop gd _ a => gd.wf && a.val % 2 == 0
  | .fgive h a => vWf0 h [(a, 32)]
  | .fclaim h a => vWf0 h [(a, 32)]
  | .sret gd => gd.wf
  | .srd gd d _ => gd.wf && (match d with | .s _ => true | .v n => n.val % 2 == 0 | _ => false)
  | .swr gd a _ => gd.wf && a.wf 64 && a != .imm
  | .bindClaim gd _ a => gd.wf && a.isSysPtr
  | .bindSet gd _ a b => gd.wf && a.isSysPtr && b.wf 64
  | .bindFail gd _ a => gd.wf && a.isSysPtr
  | .bindUnbind gd _ a => gd.wf && a.isSysPtr
  | .bindRead gd _ a => gd.wf && a.isSysPtr
  | .blbiEntry h a => vWf0 h [(a, 64)]
  | .blbiModule h a => vWf0 h [(a, 32)]
  | .blbiContext gd => gd.wf
  | .tlbiPage h a => vWf0 h [(a, 64)]
  | .tlbiContext gd => gd.wf
  | .tlbiAll gd => gd.wf
  | .sdciEntry h a => vWf0 h [(a, 32)]
  | .sdciContext gd => gd.wf
  | .ldphys m ty d => m.wfPhys && regWf ty.width d.val
  | .stphys m ty b => m.wfPhys && b.isData && b.wf ty.width
  | .hatchSpill h _ a => vWf0 h [(a, 32)]
  | .hatchFill h _ a => vWf0 h [(a, 32)]
  | .hatchStatus h _ a => vWf0 h [(a, 32)]
  | _ => true

end Sys2Proof
end

