-- ==== Sys2Proof/Machine/Operands.lean ====
section
/-! DEFINITION. Operand forms (04_registers_frames.md, R248): reading a source in a lane, the checks that come before an
instruction acts (R183), writing a destination, and the casement push (R44, R45). -/

namespace Sys2Proof.Machine

open Sys2Proof

/-! ### Predicates and guards -/

/-- Predicate `p` in lane `l`; p7 is true (R37). -/
def RegCtx.predAt (r : RegCtx) (p l : Nat) : Bool := p == 7 || hasLane (tabGet r.pred p) l

/-- Write predicate `p` in the lanes of a mask; p7 ignores writes (R37). -/
def RegCtx.setPred (r : RegCtx) (p : Nat) (act : Mask) (v : Nat → Bool) : RegCtx :=
  if p = 7 then r
  else { r with pred := tabSet r.pred p (maskOf (fun l => if hasLane act l then v l else hasLane (tabGet r.pred p) l)) }

/-- Does the guard hold in a lane (R262)? -/
def RegCtx.holds (r : RegCtx) (gd : Guard) (l : Nat) : Bool := r.predAt gd.pred.val l != gd.neg

/-- The active lanes of an instruction (R273). -/
def Env.active (e : Env) (gd : Guard) : Mask :=
  maskOf (fun l => hasLane e.live l && e.g.ctx.holds gd l)

/-- The one lane in which a scalar issue executes: the lowest live lane when the guard holds there (R243, R273). -/
def Env.once (e : Env) (gd : Guard) : Mask :=
  match lowestLane e.live with
  | some l => if e.g.ctx.holds gd l then maskOf (fun k => k == l) else 0
  | none => 0

/-- The lanes in which a format V instruction executes. -/
def Env.acts (e : Env) (h : Hdr) : Mask := if h.uni then e.once h.guard else e.active h.guard

/-! ### Reading -/

/-- Register `vN` of lane `l` in a frame. -/
def Frame.v (f : Frame) (n l : Nat) : Nat := (tabGet f.regs (32 * n + l)).toNat

/-- Write register `vN` of lane `l`. -/
def Frame.setV (f : Frame) (n l v : Nat) : Frame := { f with regs := tabSet f.regs (32 * n + l) (BitVec.ofNat 32 v) }

/-- `k` registers from `vN`, the lowest register lowest (R38). -/
def Frame.vs (f : Frame) (n l : Nat) : Nat → Nat
  | 0 => 0
  | k + 1 => f.v n l + 2 ^ 32 * f.vs (n + 1) l k

/-- Write `k` registers from `vN`. -/
def Frame.setVs (f : Frame) (n l : Nat) : Nat → Nat → Frame
  | 0, _ => f
  | k + 1, v => (f.setV n l (v % 2 ^ 32)).setVs (n + 1) l k (v / 2 ^ 32)

/-- The blocks of a frame, %fblocks (R48). -/
def Frame.count (f : Frame) : Nat := f.blocks.length

/-- Age `k` (from 1) of lane `l`. -/
def RegCtx.age (r : RegCtx) (k l : Nat) : Nat :=
  match (r.cas.getD (l / 4) emptyCas)[k - 1]? with
  | some a => fld a.data.toNat (32 * (l % 4)) 32
  | none => 0

/-- `n` ages from `k`, age k lowest (R45). -/
def RegCtx.ages (r : RegCtx) (k l : Nat) : Nat → Nat
  | 0 => 0
  | n + 1 => r.age k l + 2 ^ 32 * r.ages (k + 1) l n

/-- Are ages `k` to `k + n − 1` of lane `l` valid? -/
def RegCtx.agesValid (r : RegCtx) (k l n : Nat) : Bool :=
  (List.range n).all (fun i =>
    match (r.cas.getD (l / 4) emptyCas)[k - 1 + i]? with
    | some a => a.valid
    | none => false)

/-- A source with the width in bits at which it is read and the value that code 496 supplies. -/
structure Inp where
  src : Src
  w   : Nat
  imm : Nat
  deriving DecidableEq, Repr

/-- The value of a b register that group `g` of the team reads (R42): the oldest that may still reach it, else the present
one. Before an instruction, `seeWrites` decides which of them have reached its group. (DESIGN CHOICE, log 42) -/
def Team.seen (t : Team) (g n : Nat) : Word :=
  match t.late.find? (fun x => x.group == g && x.reg == n) with
  | some x => x.val
  | none => tabGet t.breg n

/-- Op(code, l) at a width (R5, R38, R45, R248). -/
def readInp (e : Env) (i : Inp) (l : Nat) : Nat :=
  let r := e.g.ctx
  let k := i.w / 32
  match i.src with
  | .v n => r.frame.vs n.val l k
  | .c n => r.ages (n.val + 1) l k
  | .b n =>
    if i.w = 64 then (e.t.seen e.g.index n.val).toNat + 2 ^ 32 * (e.t.seen e.g.index (n.val + 1)).toNat
    else (e.t.seen e.g.index n.val).toNat
  | .s n => (tabGet r.sreg n.val).toNat % 2 ^ i.w
  | .g n => (tabGet r.greg n.val).toNat
  | .imm => i.imm % 2 ^ i.w
  | .zero => 0
  | .lane => l

/-- The immediate of a type of the integer table (R248). (DEDUCED, log 23) -/
def immInt (ty : IntTy) (imm : BitVec 32) : Nat :=
  match ty with
  | .i64 | .b64 => wrapN 64 (sint 32 imm.toNat)
  | _ => imm.toNat

/-- The immediate of a type of the floating-point table (R248). -/
def immFp (ty : FpTy) (imm : BitVec 32) : Nat :=
  match ty with
  | .f64 => Fmt.f64.round .rn false (Fmt.f32.decode imm.toNat)
  | .f32x2 => imm.toNat + 2 ^ 32 * imm.toNat
  | .f16 | .bf16 => imm.toNat % 2 ^ 16
  | _ => imm.toNat

/-- A source of an integer type. -/
def inI (h : Hdr) (ty : IntTy) (a : Src) : Inp := { src := a, w := ty.width, imm := immInt ty h.imm }

/-- A source of a floating-point type. -/
def inF (h : Hdr) (ty : FpTy) (a : Src) : Inp := { src := a, w := ty.width, imm := immFp ty h.imm }

/-- A 32-bit source. -/
def in32 (h : Hdr) (a : Src) : Inp := { src := a, w := 32, imm := h.imm.toNat }

/-- A 64-bit source read as bits: an immediate is sign-extended (R248). -/
def in64 (h : Hdr) (a : Src) : Inp := { src := a, w := 64, imm := immInt .b64 h.imm }

/-- A source that no immediate can supply. -/
def inX (w : Nat) (a : Src) : Inp := { src := a, w := w, imm := 0 }

/-! ### The checks before an instruction acts (R183) -/

/-- Do `k` registers from `vN` lie in the current frame (R38, R48)? -/
def RegCtx.inFrame (r : RegCtx) (n k : Nat) : Bool :=
  decide ((n + k - 1) / 16 < r.frame.count) && decide (n + k ≤ 384)

/-- Is one of `k` registers from `vN` of the current frame unwaited (R106)? -/
def Group.unwaited (g : Group) (n k : Nat) : Bool :=
  let depth := if g.handler.isSome then 0 else g.calls.length
  g.ctx.unw.any (fun u => !u.pred && u.depth == depth && decide (u.lo < n + k) && decide (n < u.lo + u.n))

/-- Is predicate `p` unwaited (R8)? -/
def Group.unwaitedPred (g : Group) (p : Nat) : Bool := p != 7 && g.ctx.unw.any (fun u => u.pred && u.lo == p)

/-- TRAPLANES of a cause that names no lanes of its own: the active lanes, or the running ones where none is active. -/
def Env.raised (e : Env) (act : Mask) : Mask := if act = 0 then e.live else act

/-- The lanes in which a source reads an invalid age (R7). -/
def badAges (e : Env) (act : Mask) (i : Inp) : Mask :=
  match i.src with
  | .c n => maskOf (fun l => hasLane act l && !e.g.ctx.agesValid (n.val + 1) l (i.w / 32))
  | _ => 0

/-- Does a register span stand outside the frame? -/
def Inp.outside (r : RegCtx) (i : Inp) : Bool :=
  match i.src with
  | .v n => !r.inFrame n.val (i.w / 32)
  | _ => false

/-- What a destination needs: a span of v registers. -/
def dstSpan (d : Dst) (w : Nat) : Option (Nat × Nat) :=
  match d with
  | .v n => some (n.val, w / 32)
  | _ => none

/-- The causes 0x02 and 0x06 of an instruction, before its own (R183): a v operand beyond the frame, an invalid age, an
unwaited register or predicate. `spans` are destination registers, `preds` the predicates that it reads or writes.
(DEDUCED, log 16) -/
def operandFault (e : Env) (gd : Guard) (act : Mask) (ins : List Inp) (spans : List (Nat × Nat)) (preds : List Nat) :
    Option Trap :=
  let r := e.g.ctx
  let bad := ins.foldl (fun m i => m ||| badAges e act i) (0 : Mask)
  if ins.any (fun i => i.outside r) || spans.any (fun p => !r.inFrame p.1 p.2) then
    some { cause := 0x02, lanes := e.raised act }
  else if bad != 0 then some { cause := 0x02, lanes := bad }
  else if e.g.unwaitedPred gd.pred.val then some { cause := 0x06, lanes := e.live }
  else if act != 0 && (preds.any e.g.unwaitedPred || spans.any (fun p => e.g.unwaited p.1 p.2)
      || ins.any (fun i => match i.src with | .v n => e.g.unwaited n.val (i.w / 32) | _ => false)) then
    some { cause := 0x06, lanes := act }
  else none

/-- The lowest lane of a mask, as a mask: the lane in which an operand that is read once is read. -/
def lowMask (m : Mask) : Mask :=
  match lowestLane m with
  | some l => maskOf (fun k => k == l)
  | none => 0

/-- The operand traps `t` of an instruction that has a check of its own on the values of `ins` in its lowest active lane
(0x02): that cause comes before an unwaited operand which the values can be read without (R183). -/
def valueFault (e : Env) (gd : Guard) (act : Mask) (ins : List Inp) (bad : Nat → Bool) (t : Option Trap) : Option Trap :=
  match lowestLane act with
  | none => t
  | some l =>
    if bad l && (operandFault e gd (lowMask act) ins [] []).isNone && (match t with | some t => t.cause != 0x02 | none => true) then
      some { cause := 0x02, lanes := maskOf (fun j => j == l) }
    else t

/-- Does a destination take one value, from the lowest active lane (R40)? -/
def Dst.isScalar (d : Dst) : Bool := match d with | .b _ | .s _ => true | _ => false

/-- The causes 0x02 and 0x06 of an instruction with a destination. One that writes a b or s register in no lane raises
nothing but for its guard (R40). -/
def destFault (e : Env) (gd : Guard) (act : Mask) (ins : List Inp) (d : Dst) (w : Nat) (preds : List Nat) : Option Trap :=
  if act = 0 ∧ Dst.isScalar d then
    (if e.g.unwaitedPred gd.pred.val then some { cause := 0x06, lanes := e.live } else none)
  else operandFault e gd act ins (dstSpan d w).toList preds

/-! ### Writing -/

/-- The b registers of a destination at a width. -/
def bSpan (d : Dst) (w : Nat) : List Nat :=
  match d with
  | .b n => if w = 64 then [n.val, n.val + 1] else [n.val]
  | _ => []

/-- May the group write the b registers of a destination (R41)? -/
def writerOk (e : Env) (d : Dst) (w : Nat) : Bool :=
  (bSpan d w).all (fun n =>
    let k := (tabGet e.t.bwriter n).toNat
    k == 0 || k == e.g.index + 1)

/-- Write a b register: the writer reads the new value at once, and every other group of the team may read the former one
until the write reaches it (R42). -/
def Team.putB (t : Team) (writer n v : Nat) : Team :=
  { t with
    breg := tabSet t.breg n (BitVec.ofNat 32 v)
    late := t.late.filter (fun x => !(x.group == writer && x.reg == n))
      ++ ((List.range t.ngroups).filter (fun g => g != writer)).map (fun g =>
        { group := g, reg := n, val := tabGet t.breg n }) }

/-- Write a word to a b register and take its writer field (R41). (DESIGN CHOICE, log 42) -/
def Team.setB (t : Team) (writer n v : Nat) : Team :=
  { t.putB writer n v with bwriter := tabSet t.bwriter n (BitVec.ofNat 8 (writer + 1)) }

/-- Push the words of a result onto the casement of each executing slice, the highest word first; lanes that are not
active push zero (R44, R45). -/
def RegCtx.pushWords (r : RegCtx) (ks : List Nat) (act : Mask) (v : Nat → Nat) : Nat → RegCtx
  | 0 => r
  | k + 1 =>
    let word (slice : Nat) : BitVec 128 :=
      BitVec.ofNat 128 ((List.range 4).foldl (fun acc j =>
        acc + (if hasLane act (4 * slice + j) then fld (v (4 * slice + j)) (32 * k) 32 else 0) * 2 ^ (32 * j)) 0)
    (r.mapCas ks (fun slice a => pushAge a true (word slice))).pushWords ks act v k

/-- Set in every active lane of a register context (R5). -/
def RegCtx.setLanes (r : RegCtx) (n k : Nat) (act : Mask) (v : Nat → Nat) : RegCtx :=
  { r with frame := (lanesOf act).foldl (fun f l => f.setVs n l k (v l)) r.frame }

/-- Write a destination from per-lane values: a v register in every active lane, a b or s register from the lowest
active lane (R40), none nowhere. -/
def writeDst (s : State) (e : Env) (g : Group) (act : Mask) (d : Dst) (w : Nat) (v : Nat → Nat) : State × Group :=
  match d with
  | .v n => (s, g.mapCtx (fun r => r.setLanes n.val (w / 32) act v))
  | .s n =>
    match lowestLane act with
    | some l => (s, g.mapCtx (fun r => { r with sreg := tabSet r.sreg n.val (BitVec.ofNat 64 (v l % 2 ^ w)) }))
    | none => (s, g)
  | .b n =>
    match lowestLane act with
    | some l =>
      let put (t : Team) : Team :=
        let t := t.setB e.g.index n.val (v l)
        if w = 64 then t.setB e.g.index (n.val + 1) (v l / 2 ^ 32) else t
      ({ s with teams := s.teams.map (fun t => if t.uid == e.t.uid then put t else t) }, g)
    | none => (s, g)
  | .none _ => (s, g)

/-- The result of a fixed-latency instruction: conflict on a b register (0x12), the write, the push, and on to the next
instruction (R40, R41, R44, R273). -/
def finish (s : State) (e : Env) (uni : Bool) (act : Mask) (d : Dst) (w : Nat) (v : Nat → Nat) : State :=
  if act != 0 && !writerOk e d w then takeTrap s e { cause := 0x12, lanes := maskOf (fun l => lowestLane act == some l) }
  else
    let r := writeDst s e e.g act d w v
    let g := if !uni && d.isVec then r.2.mapCtx (fun x => x.pushWords e.slices act v (w / 32)) else r.2
    advance r.1 e g

/-- A fixed-latency instruction: its checks, then its result in each active lane from its sources (R273). `f` is given
the reader of all sources, the active lanes and the lane. -/
def vectorOp (op : Nat) (h : Hdr) (d : Dst) (w : Nat) (ins : List Inp) (preds : List Nat)
    (f : RegCtx → (Nat → List Nat) → Mask → Nat → Nat) (s : State) : Host.Outcome State Fault Refusal :=
  onIssue op s (fun e s =>
    let act := e.acts h
    match destFault e h.guard act ins d w preds with
    | some t => takeTrap s e t
    | none => finish s e h.uni act d w (f e.g.ctx (fun l => ins.map (fun i => readInp e i l)) act))

/-- A fixed-latency instruction whose result in a lane comes from that lane's sources alone. -/
def alu (op : Nat) (h : Hdr) (d : Dst) (w : Nat) (ins : List Inp) (f : List Nat → Nat) (s : State) :
    Host.Outcome State Fault Refusal :=
  vectorOp op h d w ins [] (fun _ rd _ l => f (rd l)) s

/-- A fixed-latency instruction that writes predicate `p` in the active lanes (R243, R319); it pushes nothing (R44). -/
def predOp (op : Nat) (gd : Guard) (p : Nat) (ins : List Inp) (preds : List Nat)
    (f : RegCtx → (Nat → List Nat) → Mask → Nat → Bool) (s : State) : Host.Outcome State Fault Refusal :=
  onIssue op s (fun e s =>
    let act := e.active gd
    match operandFault e gd act ins [] (p :: preds) with
    | some t => takeTrap s e t
    | none =>
      advance s e (e.g.mapCtx (fun r => r.setPred p act (f r (fun l => ins.map (fun i => readInp e i l)) act))))

end Sys2Proof.Machine
end

