-- ==== Sys2Proof/Machine/Flags.lean ====
section
/-! DEFINITION. The computations that set predicates: integer and floating-point comparison (R319, R357) and the
combination with a predicate (Table 19-11). The CZ-6400 has no other flags. -/

namespace Sys2Proof

open Sys2Proof.Machine

/-- Is the type read as signed numbers? -/
def IntTy.signed : IntTy → Bool
  | .i32 | .i64 | .i16x2 | .i8x4 => true
  | _ => false

/-- The width of one element, and how many a register value holds (R134). -/
def IntTy.ew : IntTy → Nat
  | .i16x2 | .n16x2 => 16
  | .i8x4 | .n8x4 => 8
  | t => t.width

/-- The number of elements. -/
def IntTy.count : IntTy → Nat
  | .i16x2 | .n16x2 => 2
  | .i8x4 | .n8x4 => 4
  | _ => 1

/-- Element `k` of a value as a number: signed for I types, unsigned otherwise. -/
def IntTy.elem (ty : IntTy) (x k : Nat) : Int :=
  if ty.signed then sint ty.ew (fld x (ty.ew * k) ty.ew) else ((fld x (ty.ew * k) ty.ew : Nat) : Int)

/-- A comparison of two numbers; `uo` and `ord` have no integer form. -/
def Cmp.int (c : Cmp) (a b : Int) : Bool :=
  match c with
  | .eq => decide (a = b)
  | .ne => decide (a ≠ b)
  | .lt => decide (a < b)
  | .le => decide (a ≤ b)
  | .gt => decide (b < a)
  | .ge => decide (b ≤ a)
  | .uo => false
  | .ord => true

/-- A comparison of two floating-point values (Table 22-4). -/
def Cmp.fp (c : Cmp) (a b : FV) : Bool :=
  let un := a.isNan || b.isNan
  match c with
  | .eq => !un && FV.eq a b
  | .ne => un || !FV.eq a b
  | .lt => !un && FV.lt a b
  | .le => !un && !FV.lt b a
  | .gt => !un && FV.lt b a
  | .ge => !un && !FV.lt a b
  | .uo => un
  | .ord => !un

/-- The combination with predicate C in a lane (R319). -/
def Comb.apply (c : Comb) (r : RegCtx) (l : Nat) (t : Bool) : Bool :=
  match c with
  | .none => t
  | .and p => t && r.predAt p.val l
  | .or p => t || r.predAt p.val l
  | .xor p => t != r.predAt p.val l

/-- The predicate that a combination reads. -/
def Comb.preds : Comb → List Nat
  | .none => []
  | .and p | .or p | .xor p => [p.val]

end Sys2Proof
end

