-- ==== Sys2Proof/Machine/Alu.lean ====
section
/-! DEFINITION. The integer and bit instructions (OP 0x10 to 0x2C but for lea, mov and smov; R274 to R276, R282, R283,
R288, R295, R320, R328 to R331, R338, R341, R342, R356, R357, R359). -/

namespace Sys2Proof.Machine

open Sys2Proof

/-- SatTo or the wrap (R134): an exact number as an element of `w` bits. -/
def intFit (sat signed : Bool) (w : Nat) (x : Int) : Nat :=
  if sat then
    let lo : Int := if signed then -(2 ^ (w - 1)) else 0
    let hi : Int := if signed then 2 ^ (w - 1) - 1 else 2 ^ w - 1
    wrapN w (Max.max lo (Min.min hi x))
  else wrapN w x

/-- An elementwise integer operation (R134): `f` is given the element of each operand. -/
def intMap (ty : IntTy) (sat : Bool) (f : List Int → Int) (xs : List Nat) : Nat :=
  (List.range ty.count).foldl (fun acc k =>
    acc + intFit sat ty.signed ty.ew (f (xs.map (fun x => ty.elem x k))) * 2 ^ (ty.ew * k)) 0

/-- A two-operand integer operation on numbers. -/
def on2 (f : Int → Int → Int) : List Int → Int
  | [a, b] => f a b
  | _ => 0

/-- A two-operand operation on bit patterns. -/
def bits2 (f : Nat → Nat → Nat) : List Nat → Nat
  | [a, b] => f a b
  | _ => 0

/-- A one-operand operation on bit patterns. -/
def bits1 (f : Nat → Nat) : List Nat → Nat
  | [a] => f a
  | _ => 0

/-- A three-operand operation on bit patterns. -/
def bits3 (f : Nat → Nat → Nat → Nat) : List Nat → Nat
  | [a, b, c] => f a b c
  | _ => 0

/-- The word of `w` bits whose bit `k` is `p k`. -/
def bitsOf (w : Nat) (p : Nat → Bool) : Nat := (List.range w).foldl (fun acc k => if p k then acc + 2 ^ k else acc) 0

/-- shl (R359). -/
def shlBits (w a b : Nat) : Nat := if b % 256 ≥ w then 0 else a * 2 ^ (b % 256) % 2 ^ w

/-- Logical shr (R359). -/
def shrBits (w a b : Nat) : Nat := if b % 256 ≥ w then 0 else a / 2 ^ (b % 256)

/-- Arithmetic shr (R359). -/
def sarBits (w a b : Nat) : Nat := wrapN w (sint w a / 2 ^ Min.min (b % 256) w)

/-- fsh (R320). -/
def fshBits (right : Bool) (a b c : Nat) : Nat :=
  let n := b % 32
  if n = 0 then a
  else if right then a / 2 ^ n + c * 2 ^ (32 - n) % 2 ^ 32
  else (a * 2 ^ n + c / 2 ^ (32 - n)) % 2 ^ 32

/-- popc (R341). -/
def popBits (w a : Nat) : Nat := ((List.range w).filter (fun k => bitOf a k)).length

/-- clz (R295). -/
def clzBits (w a : Nat) : Nat := if a = 0 then w else w - 1 - Nat.log2 a

/-- brev (R288). -/
def revBits (w a : Nat) : Nat := bitsOf w (fun k => bitOf a (w - 1 - k))

/-- bfe (R282). -/
def bfeBits (signed : Bool) (w a b c : Nat) : Nat :=
  let pos := Min.min (b % 256) w
  let len := Min.min (c % 256) w
  if len = 0 then 0
  else
    let f := if signed then wrapN w (sint w a / 2 ^ pos) else a / 2 ^ pos
    if signed then wrapN w (sint len f) else f % 2 ^ len

/-- bfi (R283). -/
def bfiBits (w a b c : Nat) : Nat :=
  let pos := c % 256
  let len := c / 256 % 256
  bitsOf w (fun k => if decide (pos ≤ k) && decide (k < pos + len) then bitOf a (k - pos) else bitOf b k)

/-- lop3 (R328). -/
def lop3Bits (w tbl rot a b c : Nat) : Nat :=
  let r := rot % w
  let c := if r = 0 then c else c * 2 ^ r % 2 ^ w + c / 2 ^ (w - r)
  bitsOf w (fun k =>
    bitOf tbl ((if bitOf a k then 1 else 0) + (if bitOf b k then 2 else 0) + (if bitOf c k then 4 else 0)))

/-- prmt (R342). -/
def prmtBits (a b sel : Nat) : Nat :=
  (List.range 4).foldl (fun acc k =>
    let j := fld sel (3 * k) 3
    let byte := if j < 4 then fld a (8 * j) 8 else fld b (8 * (j - 4)) 8
    let byte := if bitOf sel (12 + k) then 0 else if bitOf sel (16 + k) then (if bitOf byte 7 then 0xFF else 0) else byte
    acc + byte * 2 ^ (8 * k)) 0

/-- The operands of a two-source integer instruction. -/
def ins2 (h : Hdr) (ty : IntTy) (a b : Src) : List Inp := [inI h ty a, inI h ty b]

/-- add (R275). -/
def execAdd (h : Hdr) (ty : IntTy) (sat : Bool) (d : Dst) (a b : Src) (s : State) : Host.Outcome State Fault Refusal :=
  alu 0x10 h d ty.width (ins2 h ty a b) (intMap ty sat (on2 (· + ·))) s

/-- sub (R275). -/
def execSub (h : Hdr) (ty : IntTy) (sat : Bool) (d : Dst) (a b : Src) (s : State) : Host.Outcome State Fault Refusal :=
  alu 0x11 h d ty.width (ins2 h ty a b) (intMap ty sat (on2 (· - ·))) s

/-- mul (R329). -/
def execMul (h : Hdr) (ty : IntTy) (sat : Bool) (d : Dst) (a b : Src) (s : State) : Host.Outcome State Fault Refusal :=
  alu 0x12 h d ty.width (ins2 h ty a b) (intMap ty sat (on2 (· * ·))) s

/-- mulhi (R329): floor(a × b / 2^w). -/
def execMulhi (h : Hdr) (ty : IntTy) (d : Dst) (a b : Src) (s : State) : Host.Outcome State Fault Refusal :=
  alu 0x13 h d ty.width (ins2 h ty a b) (intMap ty false (on2 (fun x y => x * y / 2 ^ ty.ew))) s

/-- mad (R329). -/
def execMad (h : Hdr) (ty : IntTy) (sat : Bool) (d : Dst) (a b c : Src) (s : State) : Host.Outcome State Fault Refusal :=
  alu 0x14 h d ty.width [inI h ty a, inI h ty b, inI h ty c]
    (intMap ty sat (fun xs => match xs with | [x, y, z] => x * y + z | _ => 0)) s

/-- mulwide (R329, R330). -/
def execMulwide (h : Hdr) (ty : IntTy) (d : Dst) (a b : Src) (s : State) : Host.Outcome State Fault Refusal :=
  alu 0x15 h d 64 (ins2 h ty a b) (bits2 (fun x y => wrapN 64 (ty.elem x 0 * ty.elem y 0))) s

/-- min (R331). -/
def execMin (h : Hdr) (ty : IntTy) (d : Dst) (a b : Src) (s : State) : Host.Outcome State Fault Refusal :=
  alu 0x16 h d ty.width (ins2 h ty a b) (intMap ty false (on2 Min.min)) s

/-- max (R331). -/
def execMax (h : Hdr) (ty : IntTy) (d : Dst) (a b : Src) (s : State) : Host.Outcome State Fault Refusal :=
  alu 0x17 h d ty.width (ins2 h ty a b) (intMap ty false (on2 Max.max)) s

/-- abs (R274). -/
def execAbs (h : Hdr) (ty : IntTy) (sat : Bool) (d : Dst) (a : Src) (s : State) : Host.Outcome State Fault Refusal :=
  alu 0x18 h d ty.width [inI h ty a] (intMap ty sat (fun xs => match xs with | [x] => (x.natAbs : Int) | _ => 0)) s

/-- neg (R338). -/
def execNeg (h : Hdr) (ty : IntTy) (sat : Bool) (d : Dst) (a : Src) (s : State) : Host.Outcome State Fault Refusal :=
  alu 0x19 h d ty.width [inI h ty a] (intMap ty sat (fun xs => match xs with | [x] => -x | _ => 0)) s

/-- and (R276). -/
def execAnd (h : Hdr) (ty : IntTy) (d : Dst) (a b : Src) (s : State) : Host.Outcome State Fault Refusal :=
  alu 0x1A h d ty.width (ins2 h ty a b) (bits2 (fun x y => x &&& y)) s

/-- or (R276). -/
def execOr (h : Hdr) (ty : IntTy) (d : Dst) (a b : Src) (s : State) : Host.Outcome State Fault Refusal :=
  alu 0x1B h d ty.width (ins2 h ty a b) (bits2 (fun x y => x ||| y)) s

/-- xor (R276). -/
def execXor (h : Hdr) (ty : IntTy) (d : Dst) (a b : Src) (s : State) : Host.Outcome State Fault Refusal :=
  alu 0x1C h d ty.width (ins2 h ty a b) (bits2 (fun x y => x ^^^ y)) s

/-- not (R276). -/
def execNot (h : Hdr) (ty : IntTy) (d : Dst) (a : Src) (s : State) : Host.Outcome State Fault Refusal :=
  alu 0x1D h d ty.width [inI h ty a] (bits1 (fun x => 2 ^ ty.width - 1 - x)) s

/-- lop3 (R328): the table in IMM[7:0], the rotation of C in IMM[12:8]. -/
def execLop3 (h : Hdr) (ty : IntTy) (d : Dst) (a b c : Src) (s : State) : Host.Outcome State Fault Refusal :=
  alu 0x1E h d ty.width [inX ty.width a, inX ty.width b, inX ty.width c]
    (bits3 (lop3Bits ty.width (h.imm.toNat % 256) (fld h.imm.toNat 8 5))) s

/-- shl (R359). -/
def execShl (h : Hdr) (ty : IntTy) (d : Dst) (a b : Src) (s : State) : Host.Outcome State Fault Refusal :=
  alu 0x1F h d ty.width [inI h ty a, in32 h b] (bits2 (shlBits ty.width)) s

/-- shr (R359). -/
def execShr (h : Hdr) (ar : Bool) (ty : IntTy) (d : Dst) (a b : Src) (s : State) : Host.Outcome State Fault Refusal :=
  alu 0x20 h d ty.width [inI h ty a, in32 h b] (bits2 (if ar then sarBits ty.width else shrBits ty.width)) s

/-- fsh (R320). -/
def execFsh (h : Hdr) (right : Bool) (d : Dst) (a b c : Src) (s : State) : Host.Outcome State Fault Refusal :=
  alu 0x21 h d 32 [in32 h a, in32 h b, in32 h c] (bits3 (fshBits right)) s

/-- popc (R341). -/
def execPopc (h : Hdr) (ty : IntTy) (d : Dst) (a : Src) (s : State) : Host.Outcome State Fault Refusal :=
  alu 0x22 h d 32 [inI h ty a] (bits1 (popBits ty.width)) s

/-- clz (R295). -/
def execClz (h : Hdr) (ty : IntTy) (d : Dst) (a : Src) (s : State) : Host.Outcome State Fault Refusal :=
  alu 0x23 h d 32 [inI h ty a] (bits1 (clzBits ty.width)) s

/-- brev (R288). -/
def execBrev (h : Hdr) (ty : IntTy) (d : Dst) (a : Src) (s : State) : Host.Outcome State Fault Refusal :=
  alu 0x24 h d ty.width [inI h ty a] (bits1 (revBits ty.width)) s

/-- bfe (R282). -/
def execBfe (h : Hdr) (ty : IntTy) (d : Dst) (a b c : Src) (s : State) : Host.Outcome State Fault Refusal :=
  alu 0x25 h d ty.width [inI h ty a, in32 h b, in32 h c] (bits3 (bfeBits ty.signed ty.width)) s

/-- bfi (R283). -/
def execBfi (h : Hdr) (ty : IntTy) (d : Dst) (a b c : Src) (s : State) : Host.Outcome State Fault Refusal :=
  alu 0x26 h d ty.width [inI h ty a, inI h ty b, in32 h c] (bits3 (bfiBits ty.width)) s

/-- setp (R357). -/
def execSetp (h : Hdr) (cmp : Cmp) (comb : Comb) (ty : IntTy) (p : Fin 8) (a b : Src) (s : State) :
    Host.Outcome State Fault Refusal :=
  predOp 0x27 h.guard p.val (ins2 h ty a b) comb.preds
    (fun r rd _ l => comb.apply r l (match rd l with | [x, y] => cmp.int (ty.elem x 0) (ty.elem y 0) | _ => false)) s

/-- sel (R356). -/
def execSel (h : Hdr) (ty : IntTy) (d : Dst) (a b : Src) (p : Fin 8) (s : State) : Host.Outcome State Fault Refusal :=
  vectorOp 0x28 h d ty.width (ins2 h ty a b) [p.val]
    (fun r rd _ l => match rd l with | [x, y] => if r.predAt p.val l then x else y | _ => 0) s

/-- prmt (R342). -/
def execPrmt (h : Hdr) (d : Dst) (a b c : Src) (s : State) : Host.Outcome State Fault Refusal :=
  alu 0x2C h d 32 [in32 h a, in32 h b, in32 h c] (bits3 prmtBits) s

end Sys2Proof.Machine
end

