-- ==== Sys2Proof/Machine/Math.lean ====
section
/-! DEFINITION. Correctly rounded quotients, roots and transcendental functions (R310 to R312). Quotients and roots are
exact integer computations with a sticky remainder. The others are computed in fixed point with an error bound, at
rising precision, until both ends of the interval round to one code; at no argument of a format is the exact value a
rounding boundary, but for the cases that are answered exactly. -/

namespace Sys2Proof.Machine

open Sys2Proof

/-- The largest `r` below 2^n with r·r ≤ x, bit by bit from `acc`. -/
def sqrtGo (x : Nat) : Nat → Nat → Nat
  | 0, acc => acc
  | n + 1, acc => sqrtGo x n (if (acc + 2 ^ n) * (acc + 2 ^ n) ≤ x then acc + 2 ^ n else acc)

/-- The integer square root. -/
def natSqrt (x : Nat) : Nat := sqrtGo x (Nat.log2 x / 2 + 1) 0

/-- a / b, rounded once (R312). -/
def Fmt.div (f : Fmt) (rm : Rnd) (sat : Bool) (a b : FV) : Nat :=
  match a, b with
  | .nan, _ => f.nanCode
  | _, .nan => f.nanCode
  | .inf _, .inf _ => f.nanCode
  | .inf na, .fin nb _ _ => f.infCode (na != nb) sat
  | .fin na _ _, .inf nb => f.zeroCode (na != nb)
  | .fin na ma ea, .fin nb mb eb =>
    if mb = 0 then (if ma = 0 then f.nanCode else f.infCode (na != nb) sat)
    else if ma = 0 then f.zeroCode (na != nb)
    else
      let k := f.tb + 4 + Nat.log2 mb
      f.roundFin rm sat (na != nb) (ma * 2 ^ k / mb) (ea - eb - k) (decide (ma * 2 ^ k % mb ≠ 0))

/-- √a, rounded once (R310, Table 22-3). -/
def Fmt.sqrt (f : Fmt) (rm : Rnd) (sat : Bool) (a : FV) : Nat :=
  match a with
  | .nan => f.nanCode
  | .inf n => if n then f.nanCode else f.infCode false sat
  | .fin n m e =>
    if m = 0 then f.zeroCode n
    else if n then f.nanCode
    else
      let (m, e) := if e % 2 = 0 then (m, e) else (2 * m, e - 1)
      let k := f.tb + 4
      let x := m * 2 ^ (2 * k)
      let r := natSqrt x
      f.roundFin rm sat false r (e / 2 - k) (decide (r * r ≠ x))

/-- 1/√a, rounded once (R310, Table 22-3). -/
def Fmt.rsqrt (f : Fmt) (rm : Rnd) (sat : Bool) (a : FV) : Nat :=
  match a with
  | .nan => f.nanCode
  | .inf n => if n then f.nanCode else f.zeroCode false
  | .fin n m e =>
    if m = 0 then f.infCode n sat
    else if n then f.nanCode
    else
      let (m, e) := if e % 2 = 0 then (m, e) else (2 * m, e - 1)
      let k := f.tb + 4 + Nat.log2 m
      let x := 2 ^ (2 * k) / m
      let r := natSqrt x
      f.roundFin rm sat false r (-(e / 2) - k) (decide (r * r * m ≠ 2 ^ (2 * k)))

/-- The remaining terms of Σ z^(2k+1)/(2k+1) with `term` = z^(2k+1). -/
def atanhGo (p z2 : Nat) : Nat → Nat → Nat → Nat
  | 0, _, _ => 0
  | n + 1, term, k => term / (2 * k + 1) + atanhGo p z2 n (term * z2 / 2 ^ p) (k + 1)

/-- The remaining terms of Σ (−1)^k z^(2k+1)/(2k+1). -/
def atanGo (p z2 : Nat) : Nat → Nat → Nat → Int
  | 0, _, _ => 0
  | n + 1, term, k => (term / (2 * k + 1) : Nat) - atanGo p z2 n (term * z2 / 2 ^ p) (k + 1)

/-- The remaining terms of Σ t^k/k!. -/
def expGo (p t : Nat) : Nat → Nat → Nat → Nat
  | 0, _, _ => 0
  | n + 1, term, k => term + expGo p t n (term * t / 2 ^ p / (k + 1)) (k + 1)

/-- The remaining terms of the alternating series of sine and cosine: `term` = t^k/k!, then t^(k+2)/(k+2)!. -/
def sinGo (p t2 : Nat) : Nat → Nat → Nat → Int
  | 0, _, _ => 0
  | n + 1, term, k => (term : Int) - sinGo p t2 n (term * t2 / 2 ^ p / ((k + 1) * (k + 2))) (k + 2)

/-- ln 2 · 2^p. -/
def ln2Fix (p : Nat) : Nat := 2 * atanhGo p (2 ^ p / 9) p (2 ^ p / 3) 0

/-- π · 2^p (Machin's formula). -/
def piFix (p : Nat) : Nat :=
  (16 * atanGo p (2 ^ p / 25) p (2 ^ p / 5) 0 - 4 * atanGo p (2 ^ p / 57121) p (2 ^ p / 239) 0).toNat

/-- How far a fixed-point value of this file may lie from the exact one, in units of 2^−p. -/
def fixErr : Nat := 2 ^ 20

/-- The code of a positive number within `fixErr` of v · 2^−p · 2^k, when both ends round alike. -/
def Fmt.settled (f : Fmt) (rm : Rnd) (sat neg : Bool) (v : Int) (p : Nat) (k : Int) : Option Nat :=
  let lo := v - fixErr
  let hi := v + fixErr - 1
  if lo ≤ 0 ∨ Nat.log2 lo.toNat < f.tb + 2 then none
  else
    let a := f.roundFin rm sat neg lo.toNat (k - p) true
    let b := f.roundFin rm sat neg hi.toNat (k - p) true
    if a = b then some a else none

/-- The functions that are not algebraic. -/
inductive TransFn where
  | ex2 | lg2 | sin | cos
  deriving DecidableEq, Repr

/-- The number m · 2^e times 2^p, for a fraction that has `p` bits or fewer behind the point, and its floor otherwise. -/
def fixOf (m : Nat) (e : Int) (p : Nat) : Nat :=
  if 0 ≤ e + p then m * 2 ^ (e + p).toNat else m / 2 ^ (-(e + p)).toNat

/-- 2^a at precision `p`. -/
def ex2At (f : Fmt) (rm : Rnd) (sat neg : Bool) (m : Nat) (e : Int) (p : Nat) : Option Nat :=
  let x : Int := if neg then -(fixOf m e p : Int) else fixOf m e p
  let n : Int := x / 2 ^ p
  let t := (x % 2 ^ p).toNat * ln2Fix p / 2 ^ p
  f.settled rm sat false (expGo p t p (2 ^ p) 0) p n

/-- log2 of m · 2^e at precision `p`. -/
def lg2At (f : Fmt) (rm : Rnd) (sat : Bool) (m : Nat) (e : Int) (p : Nat) : Option Nat :=
  let l := Nat.log2 m
  let x := m * 2 ^ p / 2 ^ l
  let z := (x - 2 ^ p) * 2 ^ p / (x + 2 ^ p)
  let ln := 2 * atanhGo p (z * z / 2 ^ p) p z 0
  let v : Int := (e + l) * 2 ^ p + (ln * 2 ^ p / ln2Fix p : Nat)
  f.settled rm sat (decide (v < 0)) v.natAbs p 0

/-- sin(πa) or cos(πa) for a positive a = m · 2^e at precision `p`; `flip` is the sign of the operand that sine keeps. -/
def trigAt (f : Fmt) (rm : Rnd) (sat flip cos : Bool) (m : Nat) (e : Int) (p : Nat) : Option Nat :=
  let r := fixOf m e p % 2 ^ (p + 1)
  let q := r / 2 ^ (p - 1)
  let t := (r % 2 ^ (p - 1)) * piFix p / 2 ^ p
  let t2 := t * t / 2 ^ p
  let q' := if cos then (q + 1) % 4 else q
  let v := if q' % 2 = 1 then sinGo p t2 p (2 ^ p) 0 else sinGo p t2 p t 1
  f.settled rm sat (flip != decide (2 ≤ q')) v p 0

/-- A transcendental function at the first precision that settles it. -/
def transAt (fn : TransFn) (f : Fmt) (rm : Rnd) (sat neg : Bool) (m : Nat) (e : Int) (p : Nat) : Option Nat :=
  match fn with
  | .ex2 => ex2At f rm sat neg m e p
  | .lg2 => lg2At f rm sat m e p
  | .sin => trigAt f rm sat neg false m e p
  | .cos => trigAt f rm sat false true m e p

/-- Precisions tried in turn; the last one settles every argument of the formats that these functions take. -/
def precisions : List Nat := [96, 192, 416]

/-- The code of a transcendental function of a nonzero finite number without an exact result.
(DESIGN CHOICE, log 29) -/
def transFin (fn : TransFn) (f : Fmt) (rm : Rnd) (sat neg : Bool) (m : Nat) (e : Int) : Nat :=
  match precisions.findSome? (transAt fn f rm sat neg m e) with
  | some c => c
  | none => Config.transcendental (match fn with | .ex2 => 0 | .lg2 => 1 | .sin => 2 | .cos => 3) f.width
      (match rm with | .rn => 0 | .rz => 1 | .rd => 2 | .ru => 3 | .rna => 4) (f.round .rn false (.fin neg m e))

/-- 2^a (R310, Table 22-3). Beyond ±4,096 every format overflows or rounds from below its least number. -/
def fex2Code (f : Fmt) (rm : Rnd) (sat : Bool) (a : FV) : Nat :=
  match a with
  | .nan => f.nanCode
  | .inf n => if n then f.zeroCode false else f.infCode false sat
  | .fin n m e =>
    if m = 0 then f.round rm sat (.fin false 1 0)
    else if e + Nat.log2 m ≥ 12 then f.roundFin rm sat false 1 (if n then -4096 else 4096) false
    else if 0 ≤ e ∨ m % 2 ^ (-e).toNat = 0 then
      let k : Int := if 0 ≤ e then (m * 2 ^ e.toNat : Nat) else (m / 2 ^ (-e).toNat : Nat)
      f.roundFin rm sat false 1 (if n then -k else k) false
    else transFin .ex2 f rm sat n m e

/-- log2(a) (R310, Table 22-3). -/
def flg2Code (f : Fmt) (rm : Rnd) (sat : Bool) (a : FV) : Nat :=
  match a with
  | .nan => f.nanCode
  | .inf n => if n then f.nanCode else f.infCode false sat
  | .fin n m e =>
    if m = 0 then f.infCode true sat
    else if n then f.nanCode
    else if m = 2 ^ Nat.log2 m then f.round rm sat (FV.ofInt (e + Nat.log2 m))
    else transFin .lg2 f rm sat false m e

/-- Twice a number when it is a whole number of halves. -/
def halves (m : Nat) (e : Int) : Option Nat :=
  if 0 ≤ e + 1 then some (m * 2 ^ (e + 1).toNat)
  else if m % 2 ^ (-(e + 1)).toNat = 0 then some (m / 2 ^ (-(e + 1)).toNat) else none

/-- sin(πa) (R310, Table 22-3). -/
def fsinCode (f : Fmt) (rm : Rnd) (sat : Bool) (a : FV) : Nat :=
  match a with
  | .nan => f.nanCode
  | .inf _ => f.nanCode
  | .fin n m e =>
    match halves m e with
    | some h => if h % 2 = 0 then f.zeroCode n else f.round rm sat (.fin (n != decide (h % 4 = 3)) 1 0)
    | none => transFin .sin f rm sat n m e

/-- cos(πa) (R310, Table 22-3). -/
def fcosCode (f : Fmt) (rm : Rnd) (sat : Bool) (a : FV) : Nat :=
  match a with
  | .nan => f.nanCode
  | .inf _ => f.nanCode
  | .fin _ m e =>
    match halves m e with
    | some h => if h % 2 = 1 then f.zeroCode false else f.round rm sat (.fin (decide (h % 4 = 2)) 1 0)
    | none => transFin .cos f rm sat false m e

end Sys2Proof.Machine
end

