-- ==== Sys2Proof/Machine/FpAlu.lean ====
section
/-! DEFINITION. The floating-point instructions (OP 0x30 to 0x42; R306 to R313, R316 to R319) and cvt (R302, R303). -/

namespace Sys2Proof.Machine

open Sys2Proof

/-- The width of one element of an arithmetic floating-point type. -/
def fpEw (ty : FpTy) : Nat := fpElemBits ty

/-- An elementwise floating-point operation (R307): `f` is given the element codes and answers a code. -/
def fpMap (ty : FpTy) (f : Fmt → List Nat → Nat) (xs : List Nat) : Nat :=
  let p := fpFmt ty 0
  (List.range p.2).foldl (fun acc k =>
    acc + f p.1 (xs.map (fun x => fld x (fpEw ty * k) (fpEw ty))) * 2 ^ (fpEw ty * k)) 0

/-- A rounded operation on two elements (R307). -/
def fpRound2 (rm : Rnd) (sat : Bool) (g : FV → FV → FV) (f : Fmt) (xs : List Nat) : Nat :=
  match xs with
  | [a, b] => f.round rm sat (g (f.decode a) (f.decode b))
  | _ => 0

/-- A function of one element's value. -/
def fpOn1 (g : Fmt → FV → Nat) (f : Fmt) (xs : List Nat) : Nat :=
  match xs with
  | [a] => g f (f.decode a)
  | _ => 0

/-- fma on three elements (R316). -/
def fmaCode (rm : Rnd) (sat : Bool) (f : Fmt) (xs : List Nat) : Nat :=
  match xs with
  | [a, b, c] => f.round rm sat (FV.add (rm == .rd) (FV.mul (f.decode a) (f.decode b)) (f.decode c))
  | _ => 0

/-- frnd on one element (R317). -/
def frndCode (rm : Rnd) (f : Fmt) (x : FV) : Nat :=
  match x with
  | .fin n m e => if 0 ≤ e then f.round .rn false x else f.round .rn false (.fin n (roundAt rm n m e false 0) 0)
  | _ => f.round .rn false x

/-- fscale on one element (R318); beyond ±8,192 the result no longer depends on the exponent. -/
def fscaleCode (rm : Rnd) (sat : Bool) (n : Int) (f : Fmt) (x : FV) : Nat :=
  f.round rm sat (x.scale (Max.max (-8192) (Min.min 8192 n)))

/-- fclass (R309, Table 22-2). -/
def fclassBits (f : Fmt) (code : Nat) : Nat :=
  let neg := bitOf code f.magBits
  let mag := code % 2 ^ f.magBits
  let e := mag / 2 ^ f.tb
  let t := mag % 2 ^ f.tb
  if e = 2 ^ f.eb - 1 then
    (if t = 0 then (if neg then 2 ^ 2 else 2 ^ 9) else if bitOf t (f.tb - 1) then 2 ^ 1 else 2 ^ 0)
  else if e = 0 then
    (if t = 0 then (if neg then 2 ^ 5 else 2 ^ 6) else (if neg then 2 ^ 4 else 2 ^ 7))
  else (if neg then 2 ^ 3 else 2 ^ 8)

/-- fdot2 (R313): the exact sum of two products and an F32 addend. -/
def fdot2Code (ty : FpTy) (rm : Rnd) (sat : Bool) (xs : List Nat) : Nat :=
  let f := (fpFmt ty 0).1
  match xs with
  | [a, b, c] =>
    let p (k : Nat) : FV := FV.mul (f.decode (fld a (16 * k) 16)) (f.decode (fld b (16 * k) 16))
    Fmt.f32.round rm sat (FV.add (rm == .rd) (FV.add (rm == .rd) (p 0) (p 1)) (Fmt.f32.decode c))
  | _ => 0

/-- The operands of a two-source floating-point instruction. -/
def insF2 (h : Hdr) (ty : FpTy) (a b : Src) : List Inp := [inF h ty a, inF h ty b]

/-- fadd (R306, R307). -/
def execFadd (h : Hdr) (ty : FpTy) (rm : Rnd) (sat : Bool) (d : Dst) (a b : Src) (s : State) :
    Host.Outcome State Fault Refusal :=
  alu 0x30 h d ty.width (insF2 h ty a b) (fpMap ty (fpRound2 rm sat (FV.add (rm == .rd)))) s

/-- fsub adds −b (R306). -/
def execFsub (h : Hdr) (ty : FpTy) (rm : Rnd) (sat : Bool) (d : Dst) (a b : Src) (s : State) :
    Host.Outcome State Fault Refusal :=
  alu 0x31 h d ty.width (insF2 h ty a b) (fpMap ty (fpRound2 rm sat (fun x y => FV.add (rm == .rd) x y.neg))) s

/-- fmul (R306, R307). -/
def execFmul (h : Hdr) (ty : FpTy) (rm : Rnd) (sat : Bool) (d : Dst) (a b : Src) (s : State) :
    Host.Outcome State Fault Refusal :=
  alu 0x32 h d ty.width (insF2 h ty a b) (fpMap ty (fpRound2 rm sat FV.mul)) s

/-- fma (R316). -/
def execFma (h : Hdr) (ty : FpTy) (rm : Rnd) (sat : Bool) (d : Dst) (a b c : Src) (s : State) :
    Host.Outcome State Fault Refusal :=
  alu 0x33 h d ty.width [inF h ty a, inF h ty b, inF h ty c] (fpMap ty (fmaCode rm sat)) s

/-- fmin (R306, R131). -/
def execFmin (h : Hdr) (ty : FpTy) (d : Dst) (a b : Src) (s : State) : Host.Outcome State Fault Refusal :=
  alu 0x34 h d ty.width (insF2 h ty a b) (fpMap ty (fpRound2 .rn false (FV.minNum false))) s

/-- fmax (R306, R131). -/
def execFmax (h : Hdr) (ty : FpTy) (d : Dst) (a b : Src) (s : State) : Host.Outcome State Fault Refusal :=
  alu 0x35 h d ty.width (insF2 h ty a b) (fpMap ty (fpRound2 .rn false (FV.minNum true))) s

/-- fsetp (R319). -/
def execFsetp (h : Hdr) (cmp : Cmp) (comb : Comb) (ty : FpTy) (p : Fin 8) (a b : Src) (s : State) :
    Host.Outcome State Fault Refusal :=
  let f := (fpFmt ty 0).1
  predOp 0x36 h.guard p.val (insF2 h ty a b) comb.preds
    (fun r rd _ l => comb.apply r l (match rd l with | [x, y] => cmp.fp (f.decode x) (f.decode y) | _ => false)) s

/-- frcp (R310, R311). -/
def execFrcp (h : Hdr) (ty : FpTy) (rm : Rnd) (sat : Bool) (d : Dst) (a : Src) (s : State) :
    Host.Outcome State Fault Refusal :=
  alu 0x37 h d ty.width [inF h ty a] (fpMap ty (fpOn1 (fun f x => f.div rm sat (.fin false 1 0) x))) s

/-- frsq (R310, R311). -/
def execFrsq (h : Hdr) (ty : FpTy) (rm : Rnd) (sat : Bool) (d : Dst) (a : Src) (s : State) :
    Host.Outcome State Fault Refusal :=
  alu 0x38 h d ty.width [inF h ty a] (fpMap ty (fpOn1 (fun f x => f.rsqrt rm sat x))) s

/-- fsqrt (R310, R311). -/
def execFsqrt (h : Hdr) (ty : FpTy) (rm : Rnd) (sat : Bool) (d : Dst) (a : Src) (s : State) :
    Host.Outcome State Fault Refusal :=
  alu 0x39 h d ty.width [inF h ty a] (fpMap ty (fpOn1 (fun f x => f.sqrt rm sat x))) s

/-- fdiv (R312). -/
def execFdiv (h : Hdr) (ty : FpTy) (rm : Rnd) (sat : Bool) (d : Dst) (a b : Src) (s : State) :
    Host.Outcome State Fault Refusal :=
  alu 0x3A h d ty.width (insF2 h ty a b)
    (fpMap ty (fun f xs => match xs with | [x, y] => f.div rm sat (f.decode x) (f.decode y) | _ => 0)) s

/-- fex2 (R310, R311). -/
def execFex2 (h : Hdr) (ty : FpTy) (rm : Rnd) (sat : Bool) (d : Dst) (a : Src) (s : State) :
    Host.Outcome State Fault Refusal :=
  alu 0x3B h d ty.width [inF h ty a] (fpMap ty (fpOn1 (fun f x => fex2Code f rm sat x))) s

/-- flg2 (R310, R311). -/
def execFlg2 (h : Hdr) (ty : FpTy) (rm : Rnd) (sat : Bool) (d : Dst) (a : Src) (s : State) :
    Host.Outcome State Fault Refusal :=
  alu 0x3C h d ty.width [inF h ty a] (fpMap ty (fpOn1 (fun f x => flg2Code f rm sat x))) s

/-- fsin (R310, R311). -/
def execFsin (h : Hdr) (ty : FpTy) (rm : Rnd) (sat : Bool) (d : Dst) (a : Src) (s : State) :
    Host.Outcome State Fault Refusal :=
  alu 0x3D h d ty.width [inF h ty a] (fpMap ty (fpOn1 (fun f x => fsinCode f rm sat x))) s

/-- fcos (R310, R311). -/
def execFcos (h : Hdr) (ty : FpTy) (rm : Rnd) (sat : Bool) (d : Dst) (a : Src) (s : State) :
    Host.Outcome State Fault Refusal :=
  alu 0x3E h d ty.width [inF h ty a] (fpMap ty (fpOn1 (fun f x => fcosCode f rm sat x))) s

/-- fscale (R318): B is a 32-bit exponent for every type. -/
def execFscale (h : Hdr) (ty : FpTy) (rm : Rnd) (sat : Bool) (d : Dst) (a b : Src) (s : State) :
    Host.Outcome State Fault Refusal :=
  alu 0x3F h d ty.width [inF h ty a, in32 h b]
    (fun xs => match xs with | [x, n] => fpMap ty (fpOn1 (fscaleCode rm sat (sint 32 n))) [x] | _ => 0) s

/-- fclass (R309). -/
def execFclass (h : Hdr) (ty : FpTy) (d : Dst) (a : Src) (s : State) : Host.Outcome State Fault Refusal :=
  let f := (fpFmt ty 0).1
  alu 0x40 h d 32 [inF h ty a] (fun xs => match xs with | [x] => fclassBits f (x % 2 ^ f.width) | _ => 0) s

/-- fdot2 (R313). -/
def execFdot2 (h : Hdr) (ty : FpTy) (rm : Rnd) (sat : Bool) (d : Dst) (a b c : Src) (s : State) :
    Host.Outcome State Fault Refusal :=
  alu 0x41 h d 32 [in32 h a, in32 h b, in32 h c] (fdot2Code ty rm sat) s

/-- frnd (R317). -/
def execFrnd (h : Hdr) (ty : FpTy) (rm : Rnd) (d : Dst) (a : Src) (s : State) : Host.Outcome State Fault Refusal :=
  alu 0x42 h d ty.width [inF h ty a] (fpMap ty (fpOn1 (frndCode rm))) s

/-! ### cvt -/

/-- The registers, in bits, that a side of cvt occupies (R302). -/
def cvtWidth (t : AnyTy) (n : Nat) : Nat :=
  match t with
  | .i ty => ty.width
  | .f ty => if ty == .f64 then 64 else 32 * cvtRegs ty n

/-- The number of elements that a pair converts. -/
def cvtN (src dst : AnyTy) : Nat :=
  match src, dst with
  | .f a, .f b => (cvtCount a b).getD 1
  | _, _ => 1

/-- One element of cvt (R303): from a code of the source to a code of the destination. -/
def cvtElem (src dst : AnyTy) (rm : Rnd) (sat : Bool) (sf df : Nat) (x : Nat) : Nat :=
  match src, dst with
  | .f a, .f b => ((fpFmt b df).1).round rm sat (((fpFmt a sf).1).decode x)
  | .f a, .i t =>
    let lo : Int := if t.signed then -(2 ^ (t.width - 1)) else 0
    let hi : Int := if t.signed then 2 ^ (t.width - 1) - 1 else 2 ^ t.width - 1
    wrapN t.width (FV.toIntClamped rm lo hi (((fpFmt a sf).1).decode x))
  | .i t, .f b => ((fpFmt b df).1).round rm sat (FV.ofInt (t.elem x 0))
  | .i t, .i u => intFitTo sat u (t.elem x 0)
where
  /-- An exact integer in a destination type: wrapped, or clamped with SAT. -/
  intFitTo (sat : Bool) (u : IntTy) (x : Int) : Nat :=
    let lo : Int := if u.signed then -(2 ^ (u.width - 1)) else 0
    let hi : Int := if u.signed then 2 ^ (u.width - 1) - 1 else 2 ^ u.width - 1
    wrapN u.width (if sat then Max.max lo (Min.min hi x) else x)

/-- The bits between elements of a side of cvt. -/
def cvtStep (t : AnyTy) : Nat :=
  match t with
  | .i ty => ty.width
  | .f ty => fpElemBits ty

/-- cvt of a whole operand (R302, R303). -/
def cvtAll (src dst : AnyTy) (rm : Rnd) (sat : Bool) (imm : Nat) (x : Nat) : Nat :=
  let both := src == .f .p8x4 && dst == .f .p8x4
  let df := if both then imm / 256 % 256 else imm % 256
  (List.range (cvtN src dst)).foldl (fun acc k =>
    acc + cvtElem src dst rm sat (imm % 256) df (fld x (cvtStep src * k) (cvtStep src)) * 2 ^ (cvtStep dst * k)) 0

/-- cvt (R302, R303). -/
def execCvt (h : Hdr) (src dst : AnyTy) (rm : Rnd) (sat : Bool) (d : Dst) (a : Src) (s : State) :
    Host.Outcome State Fault Refusal :=
  let n := cvtN src dst
  alu 0x50 h d (cvtWidth dst n) [inX (cvtWidth src n) a] (bits1' (cvtAll src dst rm sat h.imm.toNat)) s
where
  /-- One operand. -/
  bits1' (f : Nat → Nat) : List Nat → Nat
    | [a] => f a
    | _ => 0

end Sys2Proof.Machine
end

