-- ==== Sys2Proof/Decode.lean ====
section
/-! DEFINITION. The decoder of the 96-bit instruction words of 19_encoding.md, total and rejecting by name, and after
it the encoder, written from the same tables. -/

namespace Sys2Proof

/-- Why a word is no instruction. The first ten are illegal instruction (0x01), the others illegal operand (0x02)
(Table 19-15). -/
inductive Reject where
  | opcode | sub | type | round | ordering | reserved | guard | scalar | immediate | formatByte
  | operand | dest | nw | predicate | special
  deriving DecidableEq, Repr

/-- The trap cause of a rejection (Table 19-15). -/
def Reject.cause : Reject → Nat
  | .operand | .dest | .nw | .predicate | .special => 0x02
  | _ => 0x01

/-- The bits of `x` from `lo`, `n` of them. -/
def bitsAt (x lo n : Nat) : Nat := x / 2 ^ lo % 2 ^ n

/-- The fields of format V (Table 19-4), which also serve format M's upper part (Table 19-5) and formats B and X, as
numbers. -/
structure RawV where
  op  : Nat
  sub : Nat
  ty  : Nat
  pg  : Nat
  pn  : Nat
  nw  : Nat
  sc  : Nat
  d   : Nat
  a   : Nat
  b   : Nat
  c   : Nat
  rm  : Nat
  sat : Nat
  imm : Nat
  deriving DecidableEq, Repr

/-- Format V read from a word (Table 19-4). -/
def RawV.unpack (x : Nat) : RawV :=
  { op := bitsAt x 88 8, sub := bitsAt x 82 6, ty := bitsAt x 78 4, pg := bitsAt x 75 3, pn := bitsAt x 74 1,
    nw := bitsAt x 73 1, sc := bitsAt x 72 1, d := bitsAt x 63 9, a := bitsAt x 54 9, b := bitsAt x 45 9,
    c := bitsAt x 36 9, rm := bitsAt x 33 3, sat := bitsAt x 32 1, imm := bitsAt x 0 32 }

/-- Format V written as a word. -/
def RawV.pack (r : RawV) : Nat :=
  r.imm + 2 ^ 32 * (r.sat + 2 * (r.rm + 8 * (r.c + 512 * (r.b + 512 * (r.a + 512 * (r.d + 512 * (r.sc + 2 * (r.nw
    + 2 * (r.pn + 2 * (r.pg + 8 * (r.ty + 16 * (r.sub + 64 * r.op))))))))))))

/-- Format M below bit 36 (Table 19-5): the field that format V calls RM, SAT and IMM holds ORD, SCOPE, EVP and the
address. -/
structure RawM where
  ord   : Nat
  scope : Nat
  evp   : Nat
  g     : Nat
  off   : Nat
  deriving DecidableEq, Repr

/-- The low 36 bits of a format V record. -/
def RawV.low (r : RawV) : Nat := r.imm + 2 ^ 32 * (r.sat + 2 * r.rm)

/-- The low 36 bits of format M. -/
def RawM.unpack (x : Nat) : RawM :=
  { ord := bitsAt x 34 2, scope := bitsAt x 31 3, evp := bitsAt x 28 3, g := bitsAt x 24 4, off := bitsAt x 0 24 }

/-- The low 36 bits of format M, written. -/
def RawM.pack (m : RawM) : Nat := m.off + 2 ^ 24 * (m.g + 16 * (m.evp + 8 * (m.scope + 8 * m.ord)))

/-- A format V record with its low 36 bits replaced. -/
def RawV.withLow (r : RawV) (x : Nat) : RawV :=
  { r with rm := bitsAt x 33 3, sat := bitsAt x 32 1, imm := bitsAt x 0 32 }

/-- Stop with a rejection unless a condition holds. -/
def need (c : Bool) (r : Reject) : Except Reject Unit := if c then .ok () else .error r

/-- A value, or a rejection. -/
def orElse {α : Type} (o : Option α) (r : Reject) : Except Reject α :=
  match o with
  | some a => .ok a
  | none => .error r

/-- A source operand (Table 19-8). -/
def decSrc (n : Nat) : Option Src :=
  if h : n < 384 then some (.v ⟨n, h⟩)
  else if h : n - 384 < 16 then some (.c ⟨n - 384, h⟩)
  else if h : n - 400 < 64 then some (.b ⟨n - 400, h⟩)
  else if h : n - 464 < 16 then some (.s ⟨n - 464, h⟩)
  else if h : n - 480 < 16 then some (.g ⟨n - 480, h⟩)
  else if n = 496 then some .imm
  else if n = 497 then some .zero
  else if n = 498 then some .lane
  else none

/-- A destination operand with the field NW (R39, R46). -/
def decDst (n nw : Nat) : Except Reject Dst :=
  if n = 511 then .ok (.none (nw == 1))
  else if nw = 1 then .error .nw
  else if h : n < 384 then .ok (.v ⟨n, h⟩)
  else if 400 ≤ n ∧ n < 464 then .ok (.b (Fin.ofNat 64 (n - 400)))
  else if 464 ≤ n ∧ n < 480 then .ok (.s (Fin.ofNat 16 (n - 464)))
  else .error .dest

/-- The operand code of a source. -/
def Src.code : Src → Nat
  | .v n => n.val
  | .c k => 384 + k.val
  | .b n => 400 + n.val
  | .s n => 464 + n.val
  | .g n => 480 + n.val
  | .imm => 496
  | .zero => 497
  | .lane => 498

/-- The operand code of a destination. -/
def Dst.code : Dst → Nat
  | .v n => n.val
  | .b n => 400 + n.val
  | .s n => 464 + n.val
  | .none _ => 511

/-- The field NW of a destination. -/
def Dst.nw : Dst → Nat
  | .none true => 1
  | _ => 0

/-- The source that a field names. -/
def src (n : Nat) : Except Reject Src := orElse (decSrc n) .operand

/-- A field that the instruction does not read (R243). -/
def unused (n : Nat) : Except Reject Unit := need (n == 511) .operand

/-- A predicate field (R243). -/
def prd (n : Nat) : Except Reject (Fin 8) :=
  if h : n < 8 then .ok ⟨n, h⟩ else .error .predicate

/-- A v register field. -/
def vreg (n : Nat) : Except Reject (Fin 384) :=
  if h : n < 384 then .ok ⟨n, h⟩ else .error .operand

/-- The integer table (Table 19-9). -/
def decIntTy : Nat → Option IntTy
  | 0 => some .i32 | 1 => some .n32 | 2 => some .i64 | 3 => some .n64 | 4 => some .i16x2 | 5 => some .n16x2
  | 6 => some .i8x4 | 7 => some .n8x4 | 8 => some .b32 | 9 => some .b64 | 10 => some .b128 | _ => none

def IntTy.code : IntTy → Nat
  | .i32 => 0 | .n32 => 1 | .i64 => 2 | .n64 => 3 | .i16x2 => 4 | .n16x2 => 5 | .i8x4 => 6 | .n8x4 => 7
  | .b32 => 8 | .b64 => 9 | .b128 => 10

/-- The floating-point table (Table 19-9). -/
def decFpTy : Nat → Option FpTy
  | 0 => some .f32 | 1 => some .f64 | 2 => some .f16 | 3 => some .bf16 | 4 => some .f16x2 | 5 => some .bf16x2
  | 6 => some .f32x2 | 7 => some .p8x4 | 8 => some .e4m3x4 | 9 => some .e5m2x4 | 10 => some .e3m2x4
  | 11 => some .e2m3x4 | 12 => some .e2m1x8 | 13 => some .e8m0x4 | _ => none

def FpTy.code : FpTy → Nat
  | .f32 => 0 | .f64 => 1 | .f16 => 2 | .bf16 => 3 | .f16x2 => 4 | .bf16x2 => 5 | .f32x2 => 6 | .p8x4 => 7
  | .e4m3x4 => 8 | .e5m2x4 => 9 | .e3m2x4 => 10 | .e2m3x4 => 11 | .e2m1x8 => 12 | .e8m0x4 => 13

/-- The ld and st table (Table 19-9). -/
def decLdTy : Nat → Option LdTy
  | 0 => some .i8 | 1 => some .n8 | 2 => some .i16 | 3 => some .n16 | 4 => some .b32 | 5 => some .b64
  | 6 => some .b128 | 7 => some .bf16 | 8 => some .f16 | _ => none

def LdTy.code : LdTy → Nat
  | .i8 => 0 | .n8 => 1 | .i16 => 2 | .n16 => 3 | .b32 => 4 | .b64 => 5 | .b128 => 6 | .bf16 => 7 | .f16 => 8

/-- A type of the integer table from a set. -/
def intTy (n : Nat) (p : IntTy → Bool) : Except Reject IntTy :=
  match decIntTy n with
  | some t => if p t then .ok t else .error .type
  | none => .error .type

/-- A type of the floating-point table from a set. -/
def fpTy (n : Nat) (p : FpTy → Bool) : Except Reject FpTy :=
  match decFpTy n with
  | some t => if p t then .ok t else .error .type
  | none => .error .type

/-- A type of the ld and st table. -/
def ldTy (n : Nat) : Except Reject LdTy := orElse (decLdTy n) .type

/-- A type of the table that `f` selects. -/
def anyTy (f : Bool) (n : Nat) (p : AnyTy → Bool) : Except Reject AnyTy :=
  if f then
    match decFpTy n with
    | some t => if p (.f t) then .ok (.f t) else .error .type
    | none => .error .type
  else
    match decIntTy n with
    | some t => if p (.i t) then .ok (.i t) else .error .type
    | none => .error .type

def AnyTy.code : AnyTy → Nat
  | .i t => t.code
  | .f t => t.code

/-- A rounding mode (Table 10-2). -/
def decRnd : Nat → Rnd
  | 0 => .rn | 1 => .rz | 2 => .rd | 3 => .ru | _ => .rna

def Rnd.code : Rnd → Nat
  | .rn => 0 | .rz => 1 | .rd => 2 | .ru => 3 | .rna => 4

/-- Comparisons (Table 19-11). -/
def decCmp : Nat → Option Cmp
  | 0 => some .eq | 1 => some .ne | 2 => some .lt | 3 => some .le | 4 => some .gt | 5 => some .ge
  | 6 => some .uo | 7 => some .ord | _ => none

def Cmp.code : Cmp → Nat
  | .eq => 0 | .ne => 1 | .lt => 2 | .le => 3 | .gt => 4 | .ge => 5 | .uo => 6 | .ord => 7

/-- The combine of a comparison with the predicate that C names (Table 19-11). -/
def decComb (k c : Nat) : Except Reject Comb :=
  match k with
  | 0 => do unused c; pure .none
  | 1 => do pure (.and (← prd c))
  | 2 => do pure (.or (← prd c))
  | _ => do pure (.xor (← prd c))

def Comb.code : Comb → Nat
  | .none => 0 | .and _ => 1 | .or _ => 2 | .xor _ => 3

def Comb.field : Comb → Nat
  | .none => 511 | .and p => p.val | .or p => p.val | .xor p => p.val

/-- Ordering codes (Table 7-4). -/
def decOrd : Nat → Ord
  | 0 => .weak | 1 => .rlx | 2 => .acqrel | _ => .sc

def Ord.code : Ord → Nat
  | .weak => 0 | .rlx => 1 | .acqrel => 2 | .sc => 3

/-- Scopes (Table 7-3). -/
def decScope : Nat → Option Scope
  | 0 => some .group | 1 => some .team | 2 => some .cluster | 3 => some .die | 4 => some .device | 5 => some .system
  | _ => none

def Scope.code : Scope → Nat
  | .group => 0 | .team => 1 | .cluster => 2 | .die => 3 | .device => 4 | .system => 5

/-- Atomic operations (Table 8-1). -/
def decAtom : Nat → Option AtomOp
  | 0 => some .add | 1 => some .min | 2 => some .max | 3 => some .and | 4 => some .or | 5 => some .xor
  | 6 => some .xchg | 7 => some .inc | 8 => some .dec | 9 => some .fadd | 10 => some .fmin | 11 => some .fmax
  | _ => none

def AtomOp.code : AtomOp → Nat
  | .add => 0 | .min => 1 | .max => 2 | .and => 3 | .or => 4 | .xor => 5 | .xchg => 6 | .inc => 7 | .dec => 8
  | .fadd => 9 | .fmin => 10 | .fmax => 11

/-- Operations of redux (Table 23-4). -/
def decRedux : Nat → Option ReduxOp
  | 0 => some .add | 1 => some .min | 2 => some .max | 3 => some .and | 4 => some .or | 5 => some .xor
  | 6 => some .fadd | 7 => some .fmin | 8 => some .fmax | _ => none

def ReduxOp.code : ReduxOp → Nat
  | .add => 0 | .min => 1 | .max => 2 | .and => 3 | .or => 4 | .xor => 5 | .fadd => 6 | .fmin => 7 | .fmax => 8

def decShfl : Nat → Option ShflMode
  | 0 => some .idx | 1 => some .up | 2 => some .down | 3 => some .xor | _ => none

def ShflMode.code : ShflMode → Nat
  | .idx => 0 | .up => 1 | .down => 2 | .xor => 3

def decFence : Nat → Option FenceKind
  | 0 => some .acqrel | 1 => some .acq | 2 => some .rel | 3 => some .sc | _ => none

def FenceKind.code : FenceKind → Nat
  | .acqrel => 0 | .acq => 1 | .rel => 2 | .sc => 3

def decWaitCmp : Nat → Option WaitCmp
  | 0 => some .eq | 1 => some .ne | 2 => some .ge | 3 => some .lt | _ => none

def WaitCmp.code : WaitCmp → Nat
  | .eq => 0 | .ne => 1 | .ge => 2 | .lt => 3

def decCopy : Nat → Option CopyKind
  | 0 => some .linear | 1 => some .strided2 | 2 => some .strided3 | 3 => some .gather | 4 => some .scatter
  | 5 => some .fill | 6 => some .combine | 7 => some .metaq | _ => none

def CopyKind.code : CopyKind → Nat
  | .linear => 0 | .strided2 => 1 | .strided3 => 2 | .gather => 3 | .scatter => 4 | .fill => 5 | .combine => 6
  | .metaq => 7

/-- Matrix input types (Table 12-2). -/
def decMatTy : Nat → Option MatTy
  | 0 => some .f32 | 1 => some .f64 | 2 => some .f16 | 3 => some .bf16 | 7 => some .p8 | 8 => some .e4m3
  | 9 => some .e5m2 | 10 => some .e3m2 | 11 => some .e2m3 | 12 => some .e2m1 | 14 => some .i8 | 15 => some .n8
  | _ => none

def MatTy.code : MatTy → Nat
  | .f32 => 0 | .f64 => 1 | .f16 => 2 | .bf16 => 3 | .p8 => 7 | .e4m3 => 8 | .e5m2 => 9 | .e3m2 => 10 | .e2m3 => 11
  | .e2m1 => 12 | .i8 => 14 | .n8 => 15

/-- Accumulator types (Table 12-2). -/
def decAccTy : Nat → Option AccTy
  | 0 => some .f32 | 1 => some .f64 | 2 => some .i32 | _ => none

def AccTy.code : AccTy → Nat
  | .f32 => 0 | .f64 => 1 | .i32 => 2

/-- The guard of a word (R244). -/
def RawV.guard (r : RawV) : Guard := { pred := Fin.ofNat 8 r.pg, neg := r.pn == 1 }

/-- The part that format V instructions share. -/
def RawV.hdr (r : RawV) : Hdr := { guard := r.guard, uni := r.sc == 1, imm := BitVec.ofNat 32 r.imm }

/-- How many of the fields A, B and C are source operands of a format V opcode (Table 19-10). C under a combine, in sel and in
shfl names a predicate (R243). -/
def RawV.sources (r : RawV) : Nat :=
  let op := r.op
  if op = 0x14 ∨ op = 0x21 ∨ op = 0x25 ∨ op = 0x26 ∨ op = 0x2C ∨ op = 0x33 ∨ op = 0x41 ∨ op = 0x90 then 3
  else if op = 0x18 ∨ op = 0x19 ∨ op = 0x1D ∨ (0x22 ≤ op ∧ op ≤ 0x24) ∨ op = 0x2A ∨ op = 0x2B ∨ (0x37 ≤ op ∧ op ≤ 0x39)
      ∨ (0x3B ≤ op ∧ op ≤ 0x3E) ∨ op = 0x40 ∨ op = 0x42 ∨ op = 0x50 ∨ (0x53 ≤ op ∧ op ≤ 0x55) ∨ op = 0x95 ∨ op = 0x96
      ∨ op = 0xA2 ∨ (op = 0xA4 ∧ r.sub < 2) ∨ ((op = 0xA5 ∨ op = 0xA6) ∧ r.sub = 0) ∨ op = 0xA9 ∨ (op = 0x29 ∧ r.sub = 2)
      ∨ (op = 0x92 ∧ (r.sub = 1 ∨ 3 ≤ r.sub)) ∨ (op = 0xA3 ∧ r.sub ≠ 1) then 1
  else if op = 0x91 ∨ op = 0xA0 ∨ op = 0xA1 ∨ (0xA4 ≤ op ∧ op ≤ 0xA6) then 0
  else 2

/-- Does a source operand name the immediate? -/
def RawV.names496 (r : RawV) : Bool :=
  (decide (1 ≤ r.sources) && r.a == 496) || (decide (2 ≤ r.sources) && r.b == 496) || (decide (3 ≤ r.sources) && r.c == 496)

/-- What a format V opcode uses (R132, R243, R249). -/
structure VUse where
  uni : Bool := false
  rm  : Bool := false
  sat : Bool := false
  own : Bool := false

/-- The checks of a format V word that raise illegal instruction, but for SUB and TY (Table 19-15). -/
def RawV.chk (r : RawV) (u : VUse) : Except Reject Unit := do
  need (!(r.pg == 7 && r.pn == 1)) .guard
  need (u.uni || r.sc == 0) .scalar
  need (if u.rm then decide (r.rm ≤ 4) else r.rm == 0) .round
  need (u.sat || r.sat == 0) .round
  need (u.own || r.imm == 0 || r.names496) .immediate

/-- NW on an instruction without a fixed-latency vector result (R46). -/
def RawV.noNw (r : RawV) : Except Reject Unit := need (r.nw == 0) .nw

/-- SUB must be 0. -/
def RawV.sub0 (r : RawV) : Except Reject Unit := need (r.sub == 0) .sub

/-- TY must be 0. -/
def RawV.ty0 (r : RawV) : Except Reject Unit := need (r.ty == 0) .type

/-- A destination register field of an instruction whose result is not vector data of fixed latency. -/
def RawV.dstNoNw (r : RawV) : Except Reject Dst := do
  r.noNw
  decDst r.d 0


/-- Rows 0x1 and 0x2: integer and bit instructions, and the others of Table 19-10 in those rows. -/
def decodeInt (r : RawV) : Except Reject Instr := do
  let h := r.hdr
  match r.op with
  | 0x10 => do
    r.chk { uni := true, sat := true }
    r.sub0
    let ty ← intTy r.ty IntTy.isArith
    let d ← decDst r.d r.nw
    let a ← src r.a
    let b ← src r.b
    unused r.c
    pure (.add h ty (r.sat == 1) d a b)
  | 0x11 => do
    r.chk { uni := true, sat := true }
    r.sub0
    let ty ← intTy r.ty IntTy.isArith
    let d ← decDst r.d r.nw
    let a ← src r.a
    let b ← src r.b
    unused r.c
    pure (.sub h ty (r.sat == 1) d a b)
  | 0x12 => do
    r.chk { uni := true, sat := true }
    r.sub0
    let ty ← intTy r.ty IntTy.isMul
    let d ← decDst r.d r.nw
    let a ← src r.a
    let b ← src r.b
    unused r.c
    pure (.mul h ty (r.sat == 1) d a b)
  | 0x13 => do
    r.chk { uni := true }
    r.sub0
    let ty ← intTy r.ty IntTy.isWord
    let d ← decDst r.d r.nw
    let a ← src r.a
    let b ← src r.b
    unused r.c
    pure (.mulhi h ty d a b)
  | 0x14 => do
    r.chk { uni := true, sat := true }
    r.sub0
    let ty ← intTy r.ty IntTy.isWord
    let d ← decDst r.d r.nw
    let a ← src r.a
    let b ← src r.b
    let c ← src r.c
    pure (.mad h ty (r.sat == 1) d a b c)
  | 0x15 => do
    r.chk { uni := true }
    r.sub0
    let ty ← intTy r.ty (fun t => t == .i32 || t == .n32)
    let d ← decDst r.d r.nw
    let a ← src r.a
    let b ← src r.b
    unused r.c
    pure (.mulwide h ty d a b)
  | 0x16 => do
    r.chk { uni := true }
    r.sub0
    let ty ← intTy r.ty IntTy.isArith
    let d ← decDst r.d r.nw
    let a ← src r.a
    let b ← src r.b
    unused r.c
    pure (.min h ty d a b)
  | 0x17 => do
    r.chk { uni := true }
    r.sub0
    let ty ← intTy r.ty IntTy.isArith
    let d ← decDst r.d r.nw
    let a ← src r.a
    let b ← src r.b
    unused r.c
    pure (.max h ty d a b)
  | 0x18 => do
    r.chk { uni := true, sat := true }
    r.sub0
    let ty ← intTy r.ty IntTy.isSigned
    let d ← decDst r.d r.nw
    let a ← src r.a
    unused r.b
    unused r.c
    pure (.abs h ty (r.sat == 1) d a)
  | 0x19 => do
    r.chk { uni := true, sat := true }
    r.sub0
    let ty ← intTy r.ty IntTy.isSigned
    let d ← decDst r.d r.nw
    let a ← src r.a
    unused r.b
    unused r.c
    pure (.neg h ty (r.sat == 1) d a)
  | 0x1A => do
    r.chk { uni := true }
    r.sub0
    let ty ← intTy r.ty IntTy.isBits3
    let d ← decDst r.d r.nw
    let a ← src r.a
    let b ← src r.b
    unused r.c
    pure (.and h ty d a b)
  | 0x1B => do
    r.chk { uni := true }
    r.sub0
    let ty ← intTy r.ty IntTy.isBits3
    let d ← decDst r.d r.nw
    let a ← src r.a
    let b ← src r.b
    unused r.c
    pure (.or h ty d a b)
  | 0x1C => do
    r.chk { uni := true }
    r.sub0
    let ty ← intTy r.ty IntTy.isBits3
    let d ← decDst r.d r.nw
    let a ← src r.a
    let b ← src r.b
    unused r.c
    pure (.xor h ty d a b)
  | 0x1D => do
    r.chk { uni := true }
    r.sub0
    let ty ← intTy r.ty IntTy.isBits3
    let d ← decDst r.d r.nw
    let a ← src r.a
    unused r.b
    unused r.c
    pure (.not h ty d a)
  | 0x1E => do
    r.chk { uni := true, own := true }
    r.sub0
    need (decide (r.imm / 8192 = 0)) .immediate
    let ty ← intTy r.ty IntTy.isBits
    let d ← decDst r.d r.nw
    let a ← src r.a
    let b ← src r.b
    let c ← src r.c
    pure (.lop3 h ty d a b c)
  | 0x1F => do
    r.chk { uni := true }
    r.sub0
    let ty ← intTy r.ty IntTy.isBits
    let d ← decDst r.d r.nw
    let a ← src r.a
    let b ← src r.b
    unused r.c
    pure (.shl h ty d a b)
  | 0x22 => do
    r.chk { uni := true }
    r.sub0
    let ty ← intTy r.ty IntTy.isBits
    let d ← decDst r.d r.nw
    let a ← src r.a
    unused r.b
    unused r.c
    pure (.popc h ty d a)
  | 0x23 => do
    r.chk { uni := true }
    r.sub0
    let ty ← intTy r.ty IntTy.isBits
    let d ← decDst r.d r.nw
    let a ← src r.a
    unused r.b
    unused r.c
    pure (.clz h ty d a)
  | 0x24 => do
    r.chk { uni := true }
    r.sub0
    let ty ← intTy r.ty IntTy.isBits
    let d ← decDst r.d r.nw
    let a ← src r.a
    unused r.b
    unused r.c
    pure (.brev h ty d a)
  | 0x25 => do
    r.chk { uni := true }
    r.sub0
    let ty ← intTy r.ty IntTy.isWord
    let d ← decDst r.d r.nw
    let a ← src r.a
    let b ← src r.b
    let c ← src r.c
    pure (.bfe h ty d a b c)
  | 0x26 => do
    r.chk { uni := true }
    r.sub0
    let ty ← intTy r.ty IntTy.isBits
    let d ← decDst r.d r.nw
    let a ← src r.a
    let b ← src r.b
    let c ← src r.c
    pure (.bfi h ty d a b c)
  | 0x2A => do
    r.chk { uni := true }
    r.sub0
    let ty ← intTy r.ty IntTy.isBits3
    let d ← decDst r.d r.nw
    let a ← src r.a
    unused r.b
    unused r.c
    pure (.mov h ty d a)
  | 0x20 => do
    r.chk { uni := true }
    need (decide (r.sub ≤ 1)) .sub
    let ty ← intTy r.ty IntTy.isBits
    let d ← decDst r.d r.nw
    let a ← src r.a
    let b ← src r.b
    unused r.c
    pure (.shr h (r.sub == 1) ty d a b)
  | 0x21 => do
    r.chk { uni := true }
    need (decide (r.sub ≤ 1)) .sub
    need (r.ty == 8) .type
    let d ← decDst r.d r.nw
    let a ← src r.a
    let b ← src r.b
    let c ← src r.c
    pure (.fsh h (r.sub == 1) d a b c)
  | 0x27 => do
    r.chk { uni := true }
    let cmp ← orElse (decCmp (r.sub % 16)) .sub
    need (cmp != .uo && cmp != .ord) .sub
    let ty ← intTy r.ty (fun t => t.isWord || (t.isBits && (cmp == .eq || cmp == .ne)))
    need (r.sc == 0) .operand
    r.noNw
    let p ← prd r.d
    let a ← src r.a
    let b ← src r.b
    let k ← decComb (r.sub / 16) r.c
    pure (.setp h cmp k ty p a b)
  | 0x28 => do
    r.chk { uni := true }
    r.sub0
    let ty ← intTy r.ty IntTy.isBits3
    let d ← decDst r.d r.nw
    let a ← src r.a
    let b ← src r.b
    let p ← prd r.c
    pure (.sel h ty d a b p)
  | 0x29 => do
    need (decide (r.sub ≤ 3)) .sub
    r.chk { uni := decide (r.sub ≤ 1) }
    if r.sub ≤ 1 then do
      let ty ← intTy r.ty IntTy.isWord
      let d ← decDst r.d r.nw
      let a ← src r.a
      let b ← src r.b
      unused r.c
      pure (if r.sub = 0 then .leaPtr h ty d a b else .leaAdd h ty d a b)
    else if r.sub = 2 then do
      r.ty0
      r.noNw
      need (decide (481 ≤ r.d ∧ r.d ≤ 495)) .dest
      let a ← src r.a
      unused r.b
      unused r.c
      pure (.leaSeg h (Fin.ofNat 16 (r.d - 480)) a)
    else do
      r.ty0
      r.noNw
      let p ← prd r.d
      let a ← src r.a
      let b ← src r.b
      unused r.c
      pure (.leaChk h p a b)
  | 0x2B => do
    r.chk { own := true }
    need (decide (r.sub ≤ 1)) .sub
    if r.sub = 0 then do
      need (r.ty == 0 || r.ty == 9) .type
      let d ← decDst r.d r.nw
      unused r.a
      unused r.b
      unused r.c
      if hr : r.imm < 19 then pure (.smovRead r.guard (r.ty == 9) d ⟨r.imm, hr⟩) else .error .special
    else do
      r.ty0
      r.noNw
      need (r.imm == 13) .special
      unused r.d
      let a ← src r.a
      unused r.b
      unused r.c
      pure (.smovWriteCrew r.guard a)
  | 0x2C => do
    r.chk { uni := true }
    r.sub0
    need (r.ty == 8) .type
    let d ← decDst r.d r.nw
    let a ← src r.a
    let b ← src r.b
    let c ← src r.c
    pure (.prmt h d a b c)
  | _ => .error .opcode

/-- Rows 0x3 to 0x5: floating point, cvt and lane exchange. -/
def decodeFp (r : RawV) : Except Reject Instr := do
  let h := r.hdr
  let rm := decRnd r.rm
  match r.op with
  | 0x30 => do
    r.chk { uni := true, rm := true, sat := true }
    r.sub0
    let ty ← fpTy r.ty FpTy.isVec
    let d ← decDst r.d r.nw
    let a ← src r.a
    let b ← src r.b
    unused r.c
    pure (.fadd h ty rm (r.sat == 1) d a b)
  | 0x31 => do
    r.chk { uni := true, rm := true, sat := true }
    r.sub0
    let ty ← fpTy r.ty FpTy.isVec
    let d ← decDst r.d r.nw
    let a ← src r.a
    let b ← src r.b
    unused r.c
    pure (.fsub h ty rm (r.sat == 1) d a b)
  | 0x32 => do
    r.chk { uni := true, rm := true, sat := true }
    r.sub0
    let ty ← fpTy r.ty FpTy.isVec
    let d ← decDst r.d r.nw
    let a ← src r.a
    let b ← src r.b
    unused r.c
    pure (.fmul h ty rm (r.sat == 1) d a b)
  | 0x33 => do
    r.chk { uni := true, rm := true, sat := true }
    r.sub0
    let ty ← fpTy r.ty FpTy.isVec
    let d ← decDst r.d r.nw
    let a ← src r.a
    let b ← src r.b
    let c ← src r.c
    pure (.fma h ty rm (r.sat == 1) d a b c)
  | 0x34 => do
    r.chk { uni := true }
    r.sub0
    let ty ← fpTy r.ty FpTy.isVec
    let d ← decDst r.d r.nw
    let a ← src r.a
    let b ← src r.b
    unused r.c
    pure (.fmin h ty d a b)
  | 0x35 => do
    r.chk { uni := true }
    r.sub0
    let ty ← fpTy r.ty FpTy.isVec
    let d ← decDst r.d r.nw
    let a ← src r.a
    let b ← src r.b
    unused r.c
    pure (.fmax h ty d a b)
  | 0x37 => do
    r.chk { uni := true, rm := true, sat := true }
    r.sub0
    let ty ← fpTy r.ty FpTy.isVec
    let d ← decDst r.d r.nw
    let a ← src r.a
    unused r.b
    unused r.c
    pure (.frcp h ty rm (r.sat == 1) d a)
  | 0x38 => do
    r.chk { uni := true, rm := true, sat := true }
    r.sub0
    let ty ← fpTy r.ty FpTy.isVec
    let d ← decDst r.d r.nw
    let a ← src r.a
    unused r.b
    unused r.c
    pure (.frsq h ty rm (r.sat == 1) d a)
  | 0x39 => do
    r.chk { uni := true, rm := true, sat := true }
    r.sub0
    let ty ← fpTy r.ty FpTy.isVec
    let d ← decDst r.d r.nw
    let a ← src r.a
    unused r.b
    unused r.c
    pure (.fsqrt h ty rm (r.sat == 1) d a)
  | 0x3A => do
    r.chk { uni := true, rm := true, sat := true }
    r.sub0
    let ty ← fpTy r.ty FpTy.isVec
    let d ← decDst r.d r.nw
    let a ← src r.a
    let b ← src r.b
    unused r.c
    pure (.fdiv h ty rm (r.sat == 1) d a b)
  | 0x3B => do
    r.chk { uni := true, rm := true, sat := true }
    r.sub0
    let ty ← fpTy r.ty FpTy.isTrans
    let d ← decDst r.d r.nw
    let a ← src r.a
    unused r.b
    unused r.c
    pure (.fex2 h ty rm (r.sat == 1) d a)
  | 0x3C => do
    r.chk { uni := true, rm := true, sat := true }
    r.sub0
    let ty ← fpTy r.ty FpTy.isTrans
    let d ← decDst r.d r.nw
    let a ← src r.a
    unused r.b
    unused r.c
    pure (.flg2 h ty rm (r.sat == 1) d a)
  | 0x3D => do
    r.chk { uni := true, rm := true, sat := true }
    r.sub0
    let ty ← fpTy r.ty FpTy.isTrans
    let d ← decDst r.d r.nw
    let a ← src r.a
    unused r.b
    unused r.c
    pure (.fsin h ty rm (r.sat == 1) d a)
  | 0x3E => do
    r.chk { uni := true, rm := true, sat := true }
    r.sub0
    let ty ← fpTy r.ty FpTy.isTrans
    let d ← decDst r.d r.nw
    let a ← src r.a
    unused r.b
    unused r.c
    pure (.fcos h ty rm (r.sat == 1) d a)
  | 0x3F => do
    r.chk { uni := true, rm := true, sat := true }
    r.sub0
    let ty ← fpTy r.ty FpTy.isVec
    let d ← decDst r.d r.nw
    let a ← src r.a
    let b ← src r.b
    unused r.c
    pure (.fscale h ty rm (r.sat == 1) d a b)
  | 0x40 => do
    r.chk { uni := true }
    r.sub0
    let ty ← fpTy r.ty FpTy.isScalar
    let d ← decDst r.d r.nw
    let a ← src r.a
    unused r.b
    unused r.c
    pure (.fclass h ty d a)
  | 0x41 => do
    r.chk { uni := true, rm := true, sat := true }
    r.sub0
    let ty ← fpTy r.ty (fun t => t == .f16x2 || t == .bf16x2)
    let d ← decDst r.d r.nw
    let a ← src r.a
    let b ← src r.b
    let c ← src r.c
    pure (.fdot2 h ty rm (r.sat == 1) d a b c)
  | 0x42 => do
    r.chk { uni := true, rm := true }
    r.sub0
    let ty ← fpTy r.ty FpTy.isVec
    let d ← decDst r.d r.nw
    let a ← src r.a
    unused r.b
    unused r.c
    pure (.frnd h ty rm d a)
  | 0x36 => do
    r.chk { uni := true }
    let cmp ← orElse (decCmp (r.sub % 16)) .sub
    let ty ← fpTy r.ty FpTy.isScalar
    need (r.sc == 0) .operand
    r.noNw
    let p ← prd r.d
    let a ← src r.a
    let b ← src r.b
    let k ← decComb (r.sub / 16) r.c
    pure (.fsetp h cmp k ty p a b)
  | 0x50 => do
    r.chk { rm := true, sat := true, own := true }
    let s ← anyTy (decide (r.sub / 16 < 2)) r.ty (fun _ => true)
    let t ← anyTy (r.sub / 16 % 2 == 0) (r.sub % 16) (fun t => cvtPair s t)
    need (cvtImmOk s t r.imm) (if s == .f .p8x4 || t == .f .p8x4 then .formatByte else .immediate)
    let d ← decDst r.d r.nw
    let a ← src r.a
    unused r.b
    unused r.c
    pure (.cvt h s t rm (r.sat == 1) d a)
  | 0x52 => do
    r.chk { own := true }
    let m ← orElse (decShfl r.sub) .sub
    let ty ← intTy r.ty IntTy.isBits
    need (r.imm == 1 || r.imm == 2 || r.imm == 4 || r.imm == 8 || r.imm == 16 || r.imm == 32) .immediate
    let d ← decDst r.d r.nw
    let a ← src r.a
    let b ← src r.b
    let p ← prd r.c
    pure (.shfl h m ty d a b p)
  | 0x53 => do
    r.chk { }
    need (decide (r.sub ≤ 3)) .sub
    need (r.ty == 8 || (r.sub == 3 && r.ty == 9)) .type
    unused r.b
    unused r.c
    let a ← src r.a
    if r.sub = 2 then do
      let d ← decDst r.d r.nw
      pure (.vote h (.ballot d) false a)
    else do
      r.noNw
      let p ← prd r.d
      pure (.vote h (if r.sub = 0 then .all p else if r.sub = 1 then .any p else .eq p) (r.ty == 9) a)
  | 0x54 => do
    r.chk { sat := r.sub == 0 }
    let op ← orElse (decRedux r.sub) .sub
    let ty ← anyTy (decide (6 ≤ r.sub)) r.ty (fun t => op.legal t)
    let d ← decDst r.d r.nw
    let a ← src r.a
    unused r.b
    unused r.c
    pure (.redux h op ty (r.sat == 1) d a)
  | 0x55 => do
    r.chk { sat := true }
    need (decide (r.sub ≤ 1)) .sub
    let ty ← intTy r.ty IntTy.isWord
    let d ← decDst r.d r.nw
    let a ← src r.a
    unused r.b
    unused r.c
    pure (.scan h (r.sub == 1) ty (r.sat == 1) d a)
  | _ => .error .opcode

/-- Format B (R246). A relative offset is kept as its 32 bits. -/
def decodeB (x : Nat) : Except Reject Instr := do
  let r := RawV.unpack x
  let gd := r.guard
  let rcv := bitsAt x 36 18
  let xf := bitsAt x 63 9
  need (!(r.pg == 7 && r.pn == 1)) .guard
  need (decide (r.op ≤ 0x0C)) .opcode
  r.sub0
  need (r.ty == 0 && r.nw == 0 && r.sc == 0 && bitsAt x 32 4 == 0) .reserved
  match r.op with
  | 0x00 => do
    need (bitsAt x 0 73 == 0) .reserved
    need (r.pn == 0 && (r.pg == 0 || r.pg == 7)) .guard
    pure (.nop (r.pg == 7))
  | 0x01 => do
    need (xf == 0) .reserved
    unused r.a
    pure (.bra gd (BitVec.ofNat 18 rcv) (BitVec.ofNat 32 r.imm))
  | 0x02 => do
    need (xf == 0 && r.imm == 0) .reserved
    let a ← vreg r.a
    pure (.brx gd a (BitVec.ofNat 18 rcv))
  | 0x03 => do
    need (xf % 8 == 0 && rcv == 0) .reserved
    unused r.a
    pure (.call gd (BitVec.ofNat 6 (xf / 8)) (BitVec.ofNat 32 r.imm))
  | 0x04 => do
    need (xf % 8 == 0 && rcv == 0 && r.imm == 0) .reserved
    let a ← src r.a
    pure (.calli gd (BitVec.ofNat 6 (xf / 8)) a)
  | 0x05 => do
    need (xf % 32 == 0 && rcv == 0 && r.imm == 0) .reserved
    need (decide (xf / 32 < 9)) .reserved
    unused r.a
    pure (.ret gd (Fin.ofNat 9 (xf / 32)))
  | 0x06 => do
    need (xf == 0 && rcv == 0) .reserved
    let a ← src r.a
    pure (.unwind gd a (BitVec.ofNat 32 r.imm))
  | 0x07 => do
    need (r.pg == 7) .guard
    need (xf == 0 && rcv == 0 && r.imm == 0) .reserved
    unused r.a
    pure .regang
  | 0x08 => do
    need (xf == 0 && rcv == 0 && r.imm == 0) .reserved
    unused r.a
    pure (.exit gd)
  | 0x09 => do
    need (xf == 0 && decide (r.imm / 2 ^ 30 = 0)) .reserved
    unused r.a
    pure (.yield gd (BitVec.ofNat 18 rcv) (BitVec.ofNat 30 r.imm))
  | 0x0A => do
    need (xf == 0 && rcv == 0) .reserved
    unused r.a
    pure (.trap gd (BitVec.ofNat 32 r.imm))
  | 0x0B => do
    need (xf % 64 == 0 && rcv == 0 && r.imm == 0) .reserved
    need (decide (464 ≤ r.a ∧ r.a < 480)) .operand
    pure (.assert gd (Fin.ofNat 8 (xf / 64)) (Fin.ofNat 16 (r.a - 464)))
  | 0x0C => do
    need (xf == 0 && rcv == 0) .reserved
    unused r.a
    pure (.brk gd (BitVec.ofNat 32 r.imm))
  | _ => .error .opcode

/-- The shared part of format M, with what the entry gives a use (R245). The A field is read as R61 gives. -/
def decM (r : RawV) (u : MUse) : Except Reject MHdr := do
  let m := RawM.unpack r.low
  need (!(r.pg == 7 && r.pn == 1)) .guard
  need (u.ord || m.ord == 0) .ordering
  let sc ← orElse (decScope m.scope) .ordering
  need (u.scope || m.scope == 0) .ordering
  need (u.evp || m.evp == 0) .ordering
  let low := r.low % 2 ^ 28
  pure { guard := r.guard,
         addr := if r.sc = 0 then .sel (Fin.ofNat 16 m.g) (BitVec.ofNat 24 m.off)
           else .link (BitVec.ofNat 16 (low / 4096)) (BitVec.ofNat 12 low),
         a := decSrc r.a, ord := decOrd m.ord, scope := sc, evp := Fin.ofNat 8 m.evp }

/-- The A field of format M: an operand other than IMM, or none outside pointer mode (R245, R61). -/
def decMA (r : RawV) (m : MHdr) : Except Reject Unit := do
  r.noNw
  need (r.a == 511 || (decSrc r.a).isSome) .operand
  need (r.a != 496 && r.b != 496 && r.c != 496) .operand
  need (match m.addr, m.a with | .sel g _, none => g != 0 | _, _ => true) .operand

/-- Row 0x6 and the two physical accesses: format M. -/
def decodeM (r : RawV) : Except Reject Instr := do
  match r.op with
  | 0x60 => do
    let m ← decM r MUse.all
    r.sub0
    let ty ← ldTy r.ty
    decMA r m
    let d ← vreg r.d
    unused r.b
    unused r.c
    pure (.ld m ty d)
  | 0x61 => do
    let m ← decM r MUse.all
    r.sub0
    let ty ← ldTy r.ty
    decMA r m
    unused r.d
    let b ← src r.b
    unused r.c
    pure (.st m ty b)
  | 0x62 => do
    let m ← decM r ⟨false, false, true⟩
    r.sub0
    r.ty0
    decMA r m
    unused r.d
    unused r.b
    unused r.c
    pure (.pf m)
  | 0x63 => do
    let m ← decM r ⟨false, false, false⟩
    r.sub0
    r.ty0
    decMA r m
    unused r.d
    let b ← src r.b
    unused r.c
    pure (.touch m b)
  | 0x64 => do
    let m ← decM r ⟨false, true, false⟩
    let k ← orElse (decFence r.sub) .sub
    r.ty0
    need (r.sc == 0 && r.low % 2 ^ 28 == 0) .reserved
    r.noNw
    unused r.d
    unused r.a
    unused r.b
    unused r.c
    pure (.fence r.guard k m.scope)
  | 0x65 => do
    need (decide (r.sub ≤ 3)) .sub
    let m ← decM r ⟨false, decide (r.sub ≤ 2), false⟩
    r.ty0
    decMA r m
    unused r.d
    unused r.b
    unused r.c
    pure (if r.sub = 0 then .cctlWb m else if r.sub = 1 then .cctlInv m else if r.sub = 2 then .cctlWbinv m
      else .cctlUnhold m)
  | 0x66 => do
    let m ← decM r MUse.all
    r.sub0
    need (r.ty == 8 || r.ty == 9) .type
    decMA r m
    let p ← prd r.d
    let b ← src r.b
    unused r.c
    pure (.sts m (r.ty == 9) p b)
  | 0x67 => do
    let m ← decM r ⟨true, true, false⟩
    r.sub0
    need (r.ty == 8 || r.ty == 9) .type
    decMA r m
    let p ← prd r.d
    unused r.b
    unused r.c
    pure (.retract m (r.ty == 9) p)
  | 0x68 => do
    let m ← decM r ⟨true, true, false⟩
    r.sub0
    need (r.ty == 8 || r.ty == 9) .type
    decMA r m
    unused r.d
    unused r.b
    unused r.c
    pure (.settle m (r.ty == 9))
  | 0x69 => do
    let m ← decM r MUse.all
    let op ← orElse (decAtom r.sub) .sub
    let ty ← anyTy (decide (9 ≤ r.sub)) r.ty (fun t => op.legal t)
    decMA r m
    let d ← vreg r.d
    let b ← src r.b
    unused r.c
    pure (.atom m op ty d b)
  | 0x6A => do
    let m ← decM r MUse.all
    let op ← orElse (decAtom r.sub) .sub
    let ty ← anyTy (decide (9 ≤ r.sub)) r.ty (fun t => op.legal t)
    decMA r m
    unused r.d
    let b ← src r.b
    unused r.c
    pure (.red m op ty b)
  | 0x6B => do
    let m ← decM r MUse.all
    r.sub0
    let ty ← intTy r.ty IntTy.isBits3
    decMA r m
    let d ← vreg r.d
    let b ← src r.b
    let c ← src r.c
    pure (.cas m ty d b c)
  | 0x6C => do
    let m ← decM r MUse.all
    need (decide (r.sub ≤ 1)) .sub
    need (decide (r.ty ≤ 1)) .type
    decMA r m
    let b ← src r.b
    unused r.c
    if r.sub = 0 then do
      unused r.d
      pure (.cpadd m (r.ty == 1) none b)
    else do
      let d ← vreg r.d
      pure (.cpadd m (r.ty == 1) (some d) b)
  | 0x6D => do
    let m ← decM r ⟨true, true, false⟩
    let k ← orElse (decWaitCmp r.sub) .sub
    need (r.ty == 8 || r.ty == 9) .type
    decMA r m
    unused r.d
    let b ← src r.b
    unused r.c
    pure (.waitv m k (r.ty == 9) b)
  | 0x6E => do
    let m ← decM r ⟨true, true, false⟩
    need (m.ord != .sc) .ordering
    r.sub0
    r.ty0
    decMA r m
    unused r.d
    let b ← src r.b
    let c ← src r.c
    pure (.spred m b c)
  | 0xA7 => do
    let m ← decM r MUse.all
    r.sub0
    let ty ← ldTy r.ty
    need (r.sc == 0 && (RawM.unpack r.low).g == 0) .reserved
    decMA r m
    let d ← vreg r.d
    unused r.b
    unused r.c
    pure (.ldphys m ty d)
  | 0xA8 => do
    let m ← decM r MUse.all
    r.sub0
    let ty ← ldTy r.ty
    need (r.sc == 0 && (RawM.unpack r.low).g == 0) .reserved
    decMA r m
    unused r.d
    let b ← src r.b
    unused r.c
    pure (.stphys m ty b)
  | _ => .error .opcode

/-- Format X (R247, R159). Fields that an opcode does not use must be zero. -/
def decodeX (x : Nat) : Except Reject Instr := do
  let op := bitsAt x 88 8
  let gd : Guard := { pred := Fin.ofNat 8 (bitsAt x 75 3), neg := bitsAt x 74 1 == 1 }
  let tya := bitsAt x 78 4
  let f71 := bitsAt x 63 9
  let a := bitsAt x 54 9
  let b := bitsAt x 36 18
  let c := bitsAt x 18 18
  let tyc := bitsAt x 14 4
  let n := bitsAt x 11 3
  let q := bitsAt x 9 2
  let low := bitsAt x 0 8
  need (!(bitsAt x 75 3 == 7 && bitsAt x 74 1 == 1)) .guard
  need (decide (0x80 ≤ op ∧ op ≤ 0x86)) .opcode
  need (bitsAt x 82 6 == 0) .sub
  if op ≤ 0x82 then do
    let ta ← orElse (decMatTy tya) .type
    let tc ← orElse (decAccTy tyc) .type
    need (matPair ta tc) .type
    let f : MatF := { guard := gd, tya := ta, tyc := tc, ru := bitsAt x 73 1 == 1, acc := bitsAt x 72 1 == 1,
                      sat := bitsAt x 8 1 == 1, a := Fin.ofNat 512 a, b := BitVec.ofNat 18 b, c := BitVec.ofNat 18 c,
                      n := Fin.ofNat 8 n, low := BitVec.ofNat 8 low }
    if op = 0x82 then do
      need ta.isMx .type
      need (q == 0) .reserved
      pure (.mmx f (Fin.ofNat 512 f71))
    else do
      need (f71 == 0) .reserved
      need (fmtOk ta low) .formatByte
      if op = 0x80 then do
        need (q == 0) .reserved
        pure (.mma f)
      else do
        need ta.isSparse .type
        pure (.mmas f (Fin.ofNat 4 q))
  else do
    need (f71 == 0 && q == 0 && bitsAt x 72 2 == 0) .reserved
    if op = 0x83 ∨ op = 0x84 then do
      need (tya == 0 && c == 0 && tyc == 0 && bitsAt x 8 1 == 0 && low == 0) .reserved
      pure (if op = 0x83 then .tld gd (Fin.ofNat 512 a) (BitVec.ofNat 18 b) (Fin.ofNat 8 n)
        else .tst gd (Fin.ofNat 512 a) (BitVec.ofNat 18 b) (Fin.ofNat 8 n))
    else if op = 0x85 then do
      need (tya == 0 && a == 0 && tyc == 0 && n == 0 && bitsAt x 8 1 == 0 && low == 0) .reserved
      pure (.tzero gd (BitVec.ofNat 18 b) (BitVec.ofNat 18 c))
    else do
      need (a == 0 && b == 0) .reserved
      let ta ← orElse (decMatTy tya) .type
      let tc ← orElse (decAccTy tyc) .type
      need (tcvtPair ta tc) .type
      need (fmtOk ta low) .formatByte
      pure (.tcvt gd ta tc (bitsAt x 8 1 == 1) (BitVec.ofNat 18 c) (Fin.ofNat 8 n) (BitVec.ofNat 8 low))

/-- Row 0x9: copies, waiting, barriers, queues, frames. -/
def decodeAsync (r : RawV) : Except Reject Instr := do
  let h := r.hdr
  let gd := r.guard
  match r.op with
  | 0x90 => do
    let k ← orElse (decCopy r.sub) .sub
    need (decide (r.ty ≤ 1)) .type
    r.chk { own := true }
    need (if r.ty = 0 then r.imm == 0 else decide (r.imm / 2 ^ 30 = 0)) .immediate
    need (k != .linear || (r.nw == 0 && r.d == 511)) .reserved
    r.noNw
    unused r.d
    let a ← src r.a
    let b ← src r.b
    let c ← src r.c
    if r.ty = 1 then pure (.copyYield gd k (BitVec.ofNat 30 r.imm) a b c)
    else pure (match k with
      | .linear => .copyLinear gd a b c | .strided2 => .copyStrided2 gd a b c | .strided3 => .copyStrided3 gd a b c
      | .gather => .copyGather gd a b c | .scatter => .copyScatter gd a b c | .fill => .copyFill gd a b c
      | .combine => .copyCombine gd a b c | .metaq => .copyMeta gd a b c)
  | 0x91 => do
    r.chk { own := true }
    r.sub0
    r.ty0
    need (decide (r.imm / 2 ^ 30 = 0)) .immediate
    r.noNw
    unused r.d
    unused r.a
    unused r.b
    unused r.c
    pure (.waitc gd (BitVec.ofNat 30 r.imm))
  | 0x92 => do
    need (decide (r.sub ≤ 4)) .sub
    need (if r.sub = 0 then decide (r.ty ≤ 1) else r.ty == 0) .type
    r.chk { own := false }
    need (r.imm == 0 || r.b == 496) .immediate
    r.noNw
    let a ← src r.a
    unused r.c
    if r.sub = 0 then do
      unused r.d
      let b ← src r.b
      pure (.barInit h (r.ty == 1) a b)
    else if r.sub = 2 then do
      unused r.d
      let b ← src r.b
      pure (.barWait h a b)
    else do
      unused r.b
      let d ← r.dstNoNw
      if r.sub = 1 then pure (.barArrive gd d a)
      else if r.sub = 3 then pure (.barArrwait gd d a)
      else do
        unused r.d
        pure (.barDrop gd a)
  | 0x93 => do
    r.sub0
    need (decide (r.ty ≤ 1)) .type
    r.chk { own := true }
    need (r.nw == 0 && r.imm == 0) .reserved
    let p ← prd r.d
    let a ← vreg r.a
    let b ← vreg r.b
    unused r.c
    pure (if r.ty = 0 then .qpush gd p a b else .qpushTask gd p a b)
  | 0x94 => do
    r.sub0
    r.ty0
    r.chk { own := true }
    need (r.nw == 0 && r.imm == 0) .reserved
    let d ← vreg r.d
    let a ← vreg r.a
    unused r.b
    unused r.c
    pure (.qpop gd d a)
  | 0x95 => do
    r.chk { }
    r.sub0
    r.ty0
    r.noNw
    unused r.d
    let a ← src r.a
    unused r.b
    unused r.c
    pure (.fgive h a)
  | 0x96 => do
    r.chk { }
    r.sub0
    r.ty0
    r.noNw
    unused r.d
    let a ← src r.a
    unused r.b
    unused r.c
    pure (.fclaim h a)
  | _ => .error .opcode

/-- Row 0xA in format V: system instructions. -/
def decodeSys (r : RawV) : Except Reject Instr := do
  let h := r.hdr
  let gd := r.guard
  match r.op with
  | 0xA0 => do
    r.chk { }
    r.sub0
    r.ty0
    r.noNw
    unused r.d
    unused r.a
    unused r.b
    unused r.c
    pure (.sret gd)
  | 0xA1 => do
    r.chk { own := true }
    r.sub0
    r.ty0
    need (decide (r.imm / 256 = 0)) .immediate
    unused r.a
    unused r.b
    unused r.c
    let d ← r.dstNoNw
    pure (.srd gd d (BitVec.ofNat 8 r.imm))
  | 0xA2 => do
    r.chk { own := true }
    r.sub0
    r.ty0
    need (decide (r.imm / 256 = 0)) .immediate
    r.noNw
    unused r.d
    let a ← src r.a
    unused r.b
    unused r.c
    pure (.swr gd a (BitVec.ofNat 8 r.imm))
  | 0xA3 => do
    need (decide (r.sub ≤ 4)) .sub
    r.ty0
    r.chk { own := true }
    need (r.imm == 0) .immediate
    r.noNw
    let a ← src r.a
    unused r.c
    if r.sub = 1 then do
      let b ← src r.b
      let p ← prd r.d
      pure (.bindSet gd p a b)
    else do
      unused r.b
      if r.sub = 4 then do
        need (r.d == 464 || r.d == 468 || r.d == 472 || r.d == 476) .dest
        pure (.bindRead gd (Fin.ofNat 4 ((r.d - 464) / 4)) a)
      else do
        let p ← prd r.d
        pure (if r.sub = 0 then .bindClaim gd p a else if r.sub = 2 then .bindFail gd p a else .bindUnbind gd p a)
  | 0xA4 => do
    need (decide (r.sub ≤ 2)) .sub
    r.ty0
    r.chk { }
    r.noNw
    unused r.d
    unused r.b
    unused r.c
    if r.sub = 2 then do
      unused r.a
      pure (.blbiContext gd)
    else do
      let a ← src r.a
      pure (if r.sub = 0 then .blbiEntry h a else .blbiModule h a)
  | 0xA5 => do
    need (decide (r.sub ≤ 2)) .sub
    r.ty0
    r.chk { }
    r.noNw
    unused r.d
    unused r.b
    unused r.c
    if r.sub = 0 then do
      let a ← src r.a
      pure (.tlbiPage h a)
    else do
      unused r.a
      pure (if r.sub = 1 then .tlbiContext gd else .tlbiAll gd)
  | 0xA6 => do
    need (decide (r.sub ≤ 1)) .sub
    r.ty0
    r.chk { }
    r.noNw
    unused r.d
    unused r.b
    unused r.c
    if r.sub = 0 then do
      let a ← src r.a
      pure (.sdciEntry h a)
    else do
      unused r.a
      pure (.sdciContext gd)
  | 0xA9 => do
    need (decide (r.sub ≤ 2)) .sub
    r.ty0
    r.chk { }
    r.noNw
    let a ← src r.a
    unused r.b
    unused r.c
    if r.sub = 2 then do
      need (decide (464 ≤ r.d ∧ r.d < 480)) .dest
      pure (.hatchStatus h (Fin.ofNat 16 (r.d - 464)) a)
    else do
      let p ← prd r.d
      pure (if r.sub = 0 then .hatchSpill h p a else .hatchFill h p a)
  | _ => .error .opcode

/-- The fields of a word, without the rules of WellFormed. -/
def decodeFields (x : Nat) : Except Reject Instr :=
  let r := RawV.unpack x
  match r.op / 16 with
  | 0x0 => decodeB x
  | 0x1 | 0x2 => decodeInt r
  | 0x3 | 0x4 | 0x5 => decodeFp r
  | 0x6 => decodeM r
  | 0x8 => decodeX x
  | 0x9 => decodeAsync r
  | 0xA => if r.op = 0xA7 ∨ r.op = 0xA8 then decodeM r else decodeSys r
  | _ => .error .opcode

/-- The instruction that 96 bits hold, or why they hold none. What the fields alone do not refuse and no entry admits
is an illegal operand. -/
def decode (w : BitVec 96) : Except Reject Instr :=
  match decodeFields w.toNat with
  | .error r => .error r
  | .ok i => if i.wf then .ok i else .error .operand

/-- The opcode of a word. -/
def opcodeOf (w : BitVec 96) : Nat := bitsAt w.toNat 88 8

/-- The instruction of a word whose bits the opcode table numbers from the first byte's bit 0 (R3, R238). -/
def decodeTableWord (nbits w : Nat) : Option Instr :=
  match decode (BitVec.ofNat 96 (w % 2 ^ nbits)) with
  | .ok i => some i
  | .error _ => none

/-- A format V word from the shared part. -/
def encV (op sub ty : Nat) (g : Guard) (nw : Nat) (uni : Bool) (d a b c rm : Nat) (sat : Bool) (imm : Nat) : Nat :=
  RawV.pack { op := op, sub := sub, ty := ty, pg := g.pred.val, pn := if g.neg then 1 else 0, nw := nw,
              sc := if uni then 1 else 0, d := d, a := a, b := b, c := c, rm := rm, sat := if sat then 1 else 0,
              imm := imm }

/-- A format V word with a destination and up to three source codes. -/
def encVd (op sub ty : Nat) (h : Hdr) (d : Dst) (a b c rm : Nat) (sat : Bool) : Nat :=
  encV op sub ty h.guard d.nw h.uni d.code a b c rm sat h.imm.toNat

/-- A format V word without a result. -/
def encV0 (op sub ty : Nat) (h : Hdr) (d a b c : Nat) : Nat :=
  encV op sub ty h.guard 0 h.uni d a b c 0 false h.imm.toNat

/-- A format V word of a guard alone. -/
def encVg (op sub ty : Nat) (g : Guard) (d a b c imm : Nat) : Nat :=
  encV op sub ty g 0 false d a b c 0 false imm

/-- A format M word. -/
def encM (op sub ty : Nat) (m : MHdr) (d b c : Nat) : Nat :=
  let ga := match m.addr with
    | .sel g off => off.toNat + 2 ^ 24 * g.val
    | .link slot off => off.toNat + 4096 * slot.toNat
  let low := ga + 2 ^ 28 * (m.evp.val + 8 * (m.scope.code + 8 * m.ord.code))
  let lk := match m.addr with
    | .sel _ _ => false
    | .link _ _ => true
  let a := match m.a with
    | some s => s.code
    | none => 511
  RawV.pack { op := op, sub := sub, ty := ty, pg := m.guard.pred.val, pn := if m.guard.neg then 1 else 0, nw := 0,
              sc := if lk then 1 else 0, d := d, a := a, b := b, c := c, rm := bitsAt low 33 3, sat := bitsAt low 32 1,
              imm := bitsAt low 0 32 }

/-- A format B word. -/
def encB (op : Nat) (g : Guard) (xf a rcv imm : Nat) : Nat :=
  imm + 2 ^ 36 * (rcv + 2 ^ 18 * (a + 512 * (xf + 2 ^ 11 * ((if g.neg then 1 else 0) + 2 * (g.pred.val + 2 ^ 13 * op)))))

/-- A format X word. -/
def encX (op : Nat) (g : Guard) (tya : Nat) (ru acc : Bool) (f71 a b c tyc n q : Nat) (sat : Bool) (low : Nat) : Nat :=
  low + 256 * ((if sat then 1 else 0) + 2 * (q + 4 * (n + 8 * (tyc + 16 * (c + 2 ^ 18 * (b + 2 ^ 18 * (a + 512 * (f71
    + 512 * ((if acc then 1 else 0) + 2 * ((if ru then 1 else 0) + 2 * ((if g.neg then 1 else 0) + 2 * (g.pred.val
    + 8 * (tya + 1024 * op)))))))))))))

/-- A matrix instruction's word. -/
def encMat (op : Nat) (f : MatF) (f71 q : Nat) : Nat :=
  encX op f.guard f.tya.code f.ru f.acc f71 f.a.val f.b.toNat f.c.toNat f.tyc.code f.n.val q f.sat f.low.toNat

/-- The word of an instruction as a number; none for an event, which has no encoding. -/
def encodeNat : Instr → Option Nat
  | .nop seven => some (if seven then 7 * 2 ^ 75 else 0)
  | .bra g rcv off => some (encB 0x01 g 0 511 rcv.toNat off.toNat)
  | .brx g a rcv => some (encB 0x02 g 0 a.val rcv.toNat 0)
  | .call g fb off => some (encB 0x03 g (fb.toNat * 8) 511 0 off.toNat)
  | .calli g fb a => some (encB 0x04 g (fb.toNat * 8) a.code 0 0)
  | .ret g n => some (encB 0x05 g (n.val * 32) 511 0 0)
  | .unwind g a off => some (encB 0x06 g 0 a.code 0 off.toNat)
  | .regang => some (encB 0x07 ⟨7, false⟩ 0 511 0 0)
  | .exit g => some (encB 0x08 g 0 511 0 0)
  | .yield g rcv th => some (encB 0x09 g 0 511 rcv.toNat th.toNat)
  | .trap g code => some (encB 0x0A g 0 511 0 code.toNat)
  | .assert g t m => some (encB 0x0B g (t.val * 64) (464 + m.val) 0 0)
  | .brk g code => some (encB 0x0C g 0 511 0 code.toNat)
  | .add h ty sat d a b => some (encVd 0x10 0 ty.code h d a.code b.code 511 0 sat)
  | .sub h ty sat d a b => some (encVd 0x11 0 ty.code h d a.code b.code 511 0 sat)
  | .mul h ty sat d a b => some (encVd 0x12 0 ty.code h d a.code b.code 511 0 sat)
  | .mulhi h ty d a b => some (encVd 0x13 0 ty.code h d a.code b.code 511 0 false)
  | .mad h ty sat d a b c => some (encVd 0x14 0 ty.code h d a.code b.code c.code 0 sat)
  | .mulwide h ty d a b => some (encVd 0x15 0 ty.code h d a.code b.code 511 0 false)
  | .min h ty d a b => some (encVd 0x16 0 ty.code h d a.code b.code 511 0 false)
  | .max h ty d a b => some (encVd 0x17 0 ty.code h d a.code b.code 511 0 false)
  | .abs h ty sat d a => some (encVd 0x18 0 ty.code h d a.code 511 511 0 sat)
  | .neg h ty sat d a => some (encVd 0x19 0 ty.code h d a.code 511 511 0 sat)
  | .and h ty d a b => some (encVd 0x1A 0 ty.code h d a.code b.code 511 0 false)
  | .or h ty d a b => some (encVd 0x1B 0 ty.code h d a.code b.code 511 0 false)
  | .xor h ty d a b => some (encVd 0x1C 0 ty.code h d a.code b.code 511 0 false)
  | .not h ty d a => some (encVd 0x1D 0 ty.code h d a.code 511 511 0 false)
  | .lop3 h ty d a b c => some (encVd 0x1E 0 ty.code h d a.code b.code c.code 0 false)
  | .shl h ty d a b => some (encVd 0x1F 0 ty.code h d a.code b.code 511 0 false)
  | .popc h ty d a => some (encVd 0x22 0 ty.code h d a.code 511 511 0 false)
  | .clz h ty d a => some (encVd 0x23 0 ty.code h d a.code 511 511 0 false)
  | .brev h ty d a => some (encVd 0x24 0 ty.code h d a.code 511 511 0 false)
  | .bfe h ty d a b c => some (encVd 0x25 0 ty.code h d a.code b.code c.code 0 false)
  | .bfi h ty d a b c => some (encVd 0x26 0 ty.code h d a.code b.code c.code 0 false)
  | .mov h ty d a => some (encVd 0x2A 0 ty.code h d a.code 511 511 0 false)
  | .fadd h ty rm sat d a b => some (encVd 0x30 0 ty.code h d a.code b.code 511 rm.code sat)
  | .fsub h ty rm sat d a b => some (encVd 0x31 0 ty.code h d a.code b.code 511 rm.code sat)
  | .fmul h ty rm sat d a b => some (encVd 0x32 0 ty.code h d a.code b.code 511 rm.code sat)
  | .fma h ty rm sat d a b c => some (encVd 0x33 0 ty.code h d a.code b.code c.code rm.code sat)
  | .fmin h ty d a b => some (encVd 0x34 0 ty.code h d a.code b.code 511 0 false)
  | .fmax h ty d a b => some (encVd 0x35 0 ty.code h d a.code b.code 511 0 false)
  | .frcp h ty rm sat d a => some (encVd 0x37 0 ty.code h d a.code 511 511 rm.code sat)
  | .frsq h ty rm sat d a => some (encVd 0x38 0 ty.code h d a.code 511 511 rm.code sat)
  | .fsqrt h ty rm sat d a => some (encVd 0x39 0 ty.code h d a.code 511 511 rm.code sat)
  | .fdiv h ty rm sat d a b => some (encVd 0x3A 0 ty.code h d a.code b.code 511 rm.code sat)
  | .fex2 h ty rm sat d a => some (encVd 0x3B 0 ty.code h d a.code 511 511 rm.code sat)
  | .flg2 h ty rm sat d a => some (encVd 0x3C 0 ty.code h d a.code 511 511 rm.code sat)
  | .fsin h ty rm sat d a => some (encVd 0x3D 0 ty.code h d a.code 511 511 rm.code sat)
  | .fcos h ty rm sat d a => some (encVd 0x3E 0 ty.code h d a.code 511 511 rm.code sat)
  | .fscale h ty rm sat d a b => some (encVd 0x3F 0 ty.code h d a.code b.code 511 rm.code sat)
  | .fclass h ty d a => some (encVd 0x40 0 ty.code h d a.code 511 511 0 false)
  | .fdot2 h ty rm sat d a b c => some (encVd 0x41 0 ty.code h d a.code b.code c.code rm.code sat)
  | .frnd h ty rm d a => some (encVd 0x42 0 ty.code h d a.code 511 511 rm.code false)
  | .shr h ar ty d a b => some (encVd 0x20 (if ar then 1 else 0) ty.code h d a.code b.code 511 0 false)
  | .fsh h right d a b c => some (encVd 0x21 (if right then 1 else 0) 8 h d a.code b.code c.code 0 false)
  | .setp h cmp k ty p a b => some (encV0 0x27 (cmp.code + 16 * k.code) ty.code h p.val a.code b.code k.field)
  | .sel h ty d a b p => some (encVd 0x28 0 ty.code h d a.code b.code p.val 0 false)
  | .leaPtr h ty d a b => some (encVd 0x29 0 ty.code h d a.code b.code 511 0 false)
  | .leaAdd h ty d a b => some (encVd 0x29 1 ty.code h d a.code b.code 511 0 false)
  | .leaSeg h g a => some (encV0 0x29 2 0 h (480 + g.val) a.code 511 511)
  | .leaChk h p a b => some (encV0 0x29 3 0 h p.val a.code b.code 511)
  | .smovRead g wide d reg => some (encV 0x2B 0 (if wide then 9 else 0) g d.nw false d.code 511 511 511 0 false reg.val)
  | .smovWriteCrew g a => some (encVg 0x2B 1 0 g 511 a.code 511 511 13)
  | .prmt h d a b c => some (encVd 0x2C 0 8 h d a.code b.code c.code 0 false)
  | .fsetp h cmp k ty p a b => some (encV0 0x36 (cmp.code + 16 * k.code) ty.code h p.val a.code b.code k.field)
  | .cvt h s t rm sat d a =>
    let tab := match s, t with
      | .f _, .f _ => 0
      | .f _, .i _ => 1
      | .i _, .f _ => 2
      | .i _, .i _ => 3
    some (encVd 0x50 (t.code + 16 * tab) s.code h d a.code 511 511 rm.code sat)
  | .shfl h m ty d a b p => some (encVd 0x52 m.code ty.code h d a.code b.code p.val 0 false)
  | .vote h form wide a =>
    match form with
    | .all p => some (encV0 0x53 0 8 h p.val a.code 511 511)
    | .any p => some (encV0 0x53 1 8 h p.val a.code 511 511)
    | .ballot d => some (encVd 0x53 2 8 h d a.code 511 511 0 false)
    | .eq p => some (encV0 0x53 3 (if wide then 9 else 8) h p.val a.code 511 511)
  | .redux h op ty sat d a => some (encVd 0x54 op.code ty.code h d a.code 511 511 0 sat)
  | .scan h ex ty sat d a => some (encVd 0x55 (if ex then 1 else 0) ty.code h d a.code 511 511 0 sat)
  | .ld m ty d => some (encM 0x60 0 ty.code m d.val 511 511)
  | .st m ty b => some (encM 0x61 0 ty.code m 511 b.code 511)
  | .pf m => some (encM 0x62 0 0 m 511 511 511)
  | .touch m b => some (encM 0x63 0 0 m 511 b.code 511)
  | .fence g k sc =>
    some (encM 0x64 k.code 0 { guard := g, addr := .sel 0 0, a := none, ord := .weak, scope := sc, evp := 0 } 511 511 511)
  | .cctlWb m => some (encM 0x65 0 0 m 511 511 511)
  | .cctlInv m => some (encM 0x65 1 0 m 511 511 511)
  | .cctlWbinv m => some (encM 0x65 2 0 m 511 511 511)
  | .cctlUnhold m => some (encM 0x65 3 0 m 511 511 511)
  | .sts m wide p b => some (encM 0x66 0 (if wide then 9 else 8) m p.val b.code 511)
  | .retract m wide p => some (encM 0x67 0 (if wide then 9 else 8) m p.val 511 511)
  | .settle m wide => some (encM 0x68 0 (if wide then 9 else 8) m 511 511 511)
  | .atom m op ty d b => some (encM 0x69 op.code ty.code m d.val b.code 511)
  | .red m op ty b => some (encM 0x6A op.code ty.code m 511 b.code 511)
  | .cas m ty d b c => some (encM 0x6B 0 ty.code m d.val b.code c.code)
  | .cpadd m wide d b =>
    match d with
    | none => some (encM 0x6C 0 (if wide then 1 else 0) m 511 b.code 511)
    | some r => some (encM 0x6C 1 (if wide then 1 else 0) m r.val b.code 511)
  | .waitv m k wide b => some (encM 0x6D k.code (if wide then 9 else 8) m 511 b.code 511)
  | .spred m b c => some (encM 0x6E 0 0 m 511 b.code c.code)
  | .mma f => some (encMat 0x80 f 0 0)
  | .mmas f q => some (encMat 0x81 f 0 q.val)
  | .mmx f sa => some (encMat 0x82 f sa.val 0)
  | .tld g a b n => some (encX 0x83 g 0 false false 0 a.val b.toNat 0 0 n.val 0 false 0)
  | .tst g a b n => some (encX 0x84 g 0 false false 0 a.val b.toNat 0 0 n.val 0 false 0)
  | .tzero g b len => some (encX 0x85 g 0 false false 0 0 b.toNat len.toNat 0 0 0 false 0)
  | .tcvt g d s sat c n fmt => some (encX 0x86 g d.code false false 0 0 0 c.toNat s.code n.val 0 sat fmt.toNat)
  | .copyLinear g a b c => some (encVg 0x90 0 0 g 511 a.code b.code c.code 0)
  | .copyStrided2 g a b c => some (encVg 0x90 1 0 g 511 a.code b.code c.code 0)
  | .copyStrided3 g a b c => some (encVg 0x90 2 0 g 511 a.code b.code c.code 0)
  | .copyGather g a b c => some (encVg 0x90 3 0 g 511 a.code b.code c.code 0)
  | .copyScatter g a b c => some (encVg 0x90 4 0 g 511 a.code b.code c.code 0)
  | .copyFill g a b c => some (encVg 0x90 5 0 g 511 a.code b.code c.code 0)
  | .copyCombine g a b c => some (encVg 0x90 6 0 g 511 a.code b.code c.code 0)
  | .copyMeta g a b c => some (encVg 0x90 7 0 g 511 a.code b.code c.code 0)
  | .copyYield g k th a b c => some (encVg 0x90 k.code 1 g 511 a.code b.code c.code th.toNat)
  | .waitc g th => some (encVg 0x91 0 0 g 511 511 511 511 th.toNat)
  | .barInit h counted a b => some (encV0 0x92 0 (if counted then 1 else 0) h 511 a.code b.code 511)
  | .barArrive g d a => some (encVg 0x92 1 0 g d.code a.code 511 511 0)
  | .barWait h a b => some (encV0 0x92 2 0 h 511 a.code b.code 511)
  | .barArrwait g d a => some (encVg 0x92 3 0 g d.code a.code 511 511 0)
  | .barDrop g a => some (encVg 0x92 4 0 g 511 a.code 511 511 0)
  | .qpush g p a b => some (encVg 0x93 0 0 g p.val a.val b.val 511 0)
  | .qpushTask g p a b => some (encVg 0x93 0 1 g p.val a.val b.val 511 0)
  | .qpop g d a => some (encVg 0x94 0 0 g d.val a.val 511 511 0)
  | .fgive h a => some (encV0 0x95 0 0 h 511 a.code 511 511)
  | .fclaim h a => some (encV0 0x96 0 0 h 511 a.code 511 511)
  | .sret g => some (encVg 0xA0 0 0 g 511 511 511 511 0)
  | .srd g d reg => some (encVg 0xA1 0 0 g d.code 511 511 511 reg.toNat)
  | .swr g a reg => some (encVg 0xA2 0 0 g 511 a.code 511 511 reg.toNat)
  | .bindClaim g p a => some (encVg 0xA3 0 0 g p.val a.code 511 511 0)
  | .bindSet g p a b => some (encVg 0xA3 1 0 g p.val a.code b.code 511 0)
  | .bindFail g p a => some (encVg 0xA3 2 0 g p.val a.code 511 511 0)
  | .bindUnbind g p a => some (encVg 0xA3 3 0 g p.val a.code 511 511 0)
  | .bindRead g d a => some (encVg 0xA3 4 0 g (464 + 4 * d.val) a.code 511 511 0)
  | .blbiEntry h a => some (encV0 0xA4 0 0 h 511 a.code 511 511)
  | .blbiModule h a => some (encV0 0xA4 1 0 h 511 a.code 511 511)
  | .blbiContext g => some (encVg 0xA4 2 0 g 511 511 511 511 0)
  | .tlbiPage h a => some (encV0 0xA5 0 0 h 511 a.code 511 511)
  | .tlbiContext g => some (encVg 0xA5 1 0 g 511 511 511 511 0)
  | .tlbiAll g => some (encVg 0xA5 2 0 g 511 511 511 511 0)
  | .sdciEntry h a => some (encV0 0xA6 0 0 h 511 a.code 511 511)
  | .sdciContext g => some (encVg 0xA6 1 0 g 511 511 511 511 0)
  | .ldphys m ty d => some (encM 0xA7 0 ty.code m d.val 511 511)
  | .stphys m ty b => some (encM 0xA8 0 ty.code m 511 b.code 511)
  | .hatchSpill h p a => some (encV0 0xA9 0 0 h p.val a.code 511 511)
  | .hatchFill h p a => some (encV0 0xA9 1 0 h p.val a.code 511 511)
  | .hatchStatus h d a => some (encV0 0xA9 2 0 h (464 + d.val) a.code 511 511)
  | _ => none

/-- The 96-bit word of an instruction (R243 to R247); none for an event. -/
def encode (i : Instr) : Option (BitVec 96) := (encodeNat i).map (BitVec.ofNat 96)

end Sys2Proof
end

