-- ==== Sys2Proof/Machine/Fetch.lean ====
section
/-! DEFINITION. Fetching an instruction (R238 to R242): the line's reachability, its parity and format, and the word of a
slot. -/

namespace Sys2Proof.Machine

open Sys2Proof

/-- A 64-byte fetch line as a number. -/
abbrev Line := Nat

/-- The 96 bits of slot `k` (R238). -/
def lineSlot (line : Line) (k : Nat) : Nat := fld line (32 + 96 * k) 96

/-- The XOR of the `n` low bits. -/
def parity (x n : Nat) : Bool := (List.range n).foldl (fun p i => p != bitOf x i) false

/-- LWPAR and SPAR (Table 19-1). -/
def parityOk (line : Line) : Bool :=
  parity (fld line 0 24) 24 == bitOf line 29
    && (List.range 5).all (fun k => parity (lineSlot line k) 96 == bitOf line (24 + k))

/-- The pipe class of an instruction word (Table 19-2): 0 A, 1 B, 2 M, 3 X, 4 C; none for an unassigned opcode. -/
def pipeClass (w : Nat) : Option Nat :=
  let op := fld w 88 8
  let ty := fld w 78 4
  let sub := fld w 82 6
  let sc := bitOf w 72
  let fmtV := (decide (0x10 ≤ op) && decide (op ≤ 0x55)) || (decide (0x90 ≤ op) && decide (op ≤ 0x96))
    || (decide (0xA0 ≤ op) && decide (op ≤ 0xA9) && op != 0xA7 && op != 0xA8)
  let wide := ty == 1 || ty == 6
  if op = 0x51 ∨ 0xAA ≤ op then none
  else if op ≤ 0x0C then some 4
  else if fmtV && sc then (if op ≤ 0x2C ∨ (0x30 ≤ op ∧ op ≤ 0x42) ∨ 0x50 ≤ op then some 4 else none)
  else if op = 0x2B then some 4
  else if 0x10 ≤ op ∧ op ≤ 0x2C then some 0
  else if 0x37 ≤ op ∧ op ≤ 0x3E then some 1
  else if (0x30 ≤ op ∧ op ≤ 0x36) ∨ (0x3F ≤ op ∧ op ≤ 0x42) then some (if wide then 1 else 0)
  else if op = 0x50 then
    some (if (ty == 1 && decide (sub / 16 ≤ 1)) || (sub % 16 == 1 && sub / 16 % 2 == 0) then 1 else 0)
  else if 0x52 ≤ op ∧ op ≤ 0x55 then some 0
  else if 0x60 ≤ op ∧ op ≤ 0x6E then some 2
  else if 0x80 ≤ op ∧ op ≤ 0x86 then some 3
  else if op = 0x90 ∨ op = 0x92 ∨ op = 0x93 ∨ op = 0x94 ∨ op = 0xA3 ∨ op = 0xA7 ∨ op = 0xA8 then some 2
  else if op = 0x91 ∨ op = 0x95 ∨ op = 0x96 ∨ (0xA0 ≤ op ∧ op ≤ 0xA9) then some 4
  else none

/-- The line-format rules of R240. -/
def formatOk (line : Line) : Bool :=
  fld line 30 2 == 0 && fld line 9 15 == 0
    && (List.range 4).all (fun k =>
      !bitOf line (5 + k) ||
        (!bitOf line (6 + k) || k == 3) &&
        (match pipeClass (lineSlot line k), pipeClass (lineSlot line (k + 1)) with
          | some a, some b => a != b
          | _, _ => false))

/-- What fetching an index gives: its word, a trap with TRAPADDR and TRAPINFO, or a double fault. -/
inductive Fetched where
  | word (w : BitVec 96)
  | trap (cause addr info : Nat)
  | dbl
  deriving DecidableEq, Repr

/-- A fetch stops with a cause: a data error reports nothing of the access. -/
def fetchTrap (cause addr : Nat) : Fetched := if cause = 0x21 then .trap 0x21 0 0 else .trap cause addr 4

/-- Read the line of an index of a code segment (R238, R240). -/
def fetchLine (s : State) (v : View) (seg idx : Nat) : (Line ⊕ Fetched) × State :=
  match descFor s v seg with
  | (.dbl, s) => (.inr .dbl, s)
  | (.bad c, s) => (.inr (fetchTrap c (segPtr seg (lineOff idx))), s)
  | (.ok d, s) =>
    if !reachable idx (dLimit d) then (.inr (.trap 0x03 0 0), s)
    else if !rightsOk v seg d .fetch then (.inr (.trap 0x0A (segPtr seg (lineOff idx)) 4), s)
    else
      match translateRange s v d .fetch false 3 (dBase d + lineOff idx) 64 with
      | (.ok ls, s) =>
        if ls.any (fun x => accessFails s x.1 false) then (.inr (.trap 0x21 0 0), s)
        else (.inl (locsRead s ls), s)
      | (.dbl _, s) => (.inr .dbl, s)
      | (.fail _ c _, s) => (.inr (fetchTrap c (segPtr seg (lineOff idx))), s)

/-- Fetch the word of an index. -/
def fetchWord (s : State) (v : View) (seg idx : Nat) : Fetched × State :=
  match fetchLine s v seg idx with
  | (.inr r, s) => (r, s)
  | (.inl line, s) =>
    if !parityOk line then (.trap 0x21 0 0, s)
    else if !formatOk line then (.trap 0x04 0 0, s)
    else (.word (BitVec.ofNat 96 (lineSlot line (idx % 5))), s)

/-- Does an index hold a regang (R26)? -/
def isRegang (s : State) (e : Env) (idx : Int) : Bool × State :=
  if idx < 0 ∨ idx ≥ 2 ^ 28 then (false, s)
  else
    match fetchWord s e.view e.pc.seg idx.toNat with
    | (.word w, s) =>
      match decode w with
      | .ok .regang => (true, s)
      | _ => (false, s)
    | (_, s) => (false, s)

end Sys2Proof.Machine
end

