-- ==== Sys2Proof/Machine/Frames.lean ====
section
/-! DEFINITION. Frames, call records and the hatch areas (R48 to R60): carrying out a call, a return, an unwind, a claim
and a give once their conditions hold, and giving an exited group's registers back (R32, R33). -/

namespace Sys2Proof.Machine

open Sys2Proof

/-- The view of the device's own accesses for a group of a place and context: the hatch passes as single-lane (R65). -/
def deviceView (p : Place) (ctx : Nat) : View :=
  { die := p.die, core := p.core, ctx := ctx, team := 0, tmemG := 0, tileG := 0, single := true, codeSeg := 0 }

/-- The index of a place's area (R59). -/
def areaIndex (p : Place) : Nat := ((p.die * 48 + p.core) * 8 + p.part) * 24 + p.slot

/-- The bytes of an area under a descriptor of segment 7 or 8 (R59): the limit divided by 36,864, rounded down to the
unit. -/
def areaBytes (seg d : Nat) : Nat :=
  let unit := if seg = 7 then 2048 else 1152
  dLimit d / 36864 / unit * unit

/-- The size of each group's area in segment 7 or 8 (R59). A descriptor that is rejected leaves no room; a cause stands for a
failure of the segment table's own read. -/
def areaSize (s : State) (p : Place) (ctx seg : Nat) : (Nat ⊕ Nat) × State :=
  match descFor s (deviceView p ctx) seg with
  | (.ok d, s) => (.inl (areaBytes seg d), s)
  | (.bad c, s) => (if c = 0x21 then .inr 0x21 else .inl 0, s)
  | (.dbl, s) => (.inr 0x0C, s)

/-- The places of `n` bytes at an offset of a place's area, which are walked as what they are, a read or a write (R69); or the
cause of the double fault that the access is: beyond the area, a failing descriptor, a translation failure (R59). -/
def areaLocs (s : State) (nd : Need) (p : Place) (ctx seg off n : Nat) : (List (Loc × Nat) ⊕ Nat) × State :=
  let v := deviceView p ctx
  match descFor s v seg with
  | (.dbl, s) => (.inr 0x0C, s)
  | (.bad c, s) => (.inr c, s)
  | (.ok d, s) =>
    if areaBytes seg d < off + n then (.inr 0x09, s)
    else
      match translateRange s v d nd true (n / 4096 + 2) (dBase d + areaIndex p * areaBytes seg d + off) n with
      | (.ok ls, s) => (.inl ls, s)
      | (.fail _ c _, s) => (.inr c, s)
      | (.dbl c, s) => (.inr c, s)

/-- Is an access to some of the places answered with an error (R148, R150, R230)? -/
def locsFail (s : State) (ls : List (Loc × Nat)) (write : Bool) : Bool := ls.any (fun x => accessFails s x.1 write)

/-- The hatch writes `n` bytes of an area, or says why it cannot. -/
def areaPut (s : State) (p : Place) (ctx seg off n v : Nat) : Option Nat × State :=
  match areaLocs s .store p ctx seg off n with
  | (.inr c, s) => (some c, s)
  | (.inl ls, s) =>
    if locsFail s ls true then (some 0x21, s)
    else (none, watchAll (locsWrite { outsider with die := p.die, core := p.core } s ls v))

/-- The hatch reads `n` bytes of an area, or says why it cannot. -/
def areaGet (s : State) (p : Place) (ctx seg off n : Nat) : (Nat ⊕ Nat) × State :=
  match areaLocs s .load p ctx seg off n with
  | (.inr c, s) => (.inr c, s)
  | (.inl ls, s) => if locsFail s ls false then (.inr 0x21, s) else (.inl (locsRead s ls), s)

/-- A failing access of the hatch to an area is a double fault of the group's context (R59, R195); `pc` is TRAPPC of the
instruction that it acts for, 0 where it acts for none. (DEDUCED, log 22) -/
def areaFault (s : State) (t : Team) (g : Group) (pc seg cause : Nat) : State :=
  doubleFault s t.ctx cause pc (segPtr seg (areaIndex g.place * (match (areaSize s g.place t.ctx seg).1 with | .inl n => n | .inr _ => 0)))
    { code := 5, who := whoWord t g, team := t.index, grid := t.grid.toNat }

/-! ### What the areas hold (R25, R60). (DESIGN CHOICE, log 33) -/

/-- The registers of a frame as they lie in its spilled blocks: register `vK` of lane `l` at byte 128K + 4l. -/
def Frame.image (f : Frame) : Nat := f.regs.foldl (fun x p => x + p.2.toNat * 2 ^ (32 * p.1)) 0

/-- The registers of `n` blocks from their image. -/
def imageRegs (n x : Nat) : Tab 32 :=
  (List.range (512 * n)).filterMap (fun i => if fld x (32 * i) 32 = 0 then none else some (i, BitVec.ofNat 32 (fld x (32 * i) 32)))

/-- The offset of a frame's blocks among the spilled ones, which are stacked in the order spilled, the oldest caller first:
that of the current frame for 0, of the frame `k` calls below for `k`. -/
def Group.spillOff (g : Group) (k : Nat) : Nat :=
  0x10000 + 2048 * ((g.calls.drop k).map (fun c => if c.frame.spilled then c.frame.blocks.length else 0)).sum

/-- A call record as it lies at its place: ages, their validity, the return point, the executing slices, the active mask,
the divergence depths. -/
def CallRec.image (c : CallRec) : Nat :=
  let at_ (k a : Nat) : Age := (c.ages.getD k []).getD a { valid := false, data := 0 }
  let cells := (List.range 64).map (fun i => at_ (i / 8) (i % 8))
  (cells.foldr (fun a x => a.data.toNat + 2 ^ 128 * x) 0)
    + (cells.foldr (fun a x => (if a.valid then 1 else 0) + 2 * x) 0) * 2 ^ 8192
    + pcWord c.ret * 2 ^ 8256 + c.exec.toNat * 2 ^ 8320 + c.mask.toNat * 2 ^ 8352
    + (c.depths.foldr (fun d x => d % 256 + 256 * x) 0) * 2 ^ 8384

/-- A call record from its image; its frame map stays with the group. -/
def CallRec.load (c : CallRec) (x : Nat) : CallRec :=
  { c with
    ret := ⟨fld x 8300 20, fld x 8256 28⟩
    exec := BitVec.ofNat 8 (fld x 8320 8)
    mask := BitVec.ofNat 32 (fld x 8352 32)
    depths := (List.range 8).map (fun k => fld x (8384 + 8 * k) 8)
    ages := (List.range 8).map (fun k => (List.range 8).map (fun a =>
      { valid := bitOf x (8192 + 8 * k + a), data := BitVec.ofNat 128 (fld x (128 * (8 * k + a)) 128) }))
    spilled := false }

/-- A call record whose contents lie in the area. -/
def CallRec.stub (c : CallRec) : CallRec :=
  { c with
    ret := ⟨0, 0⟩
    exec := 0
    mask := 0
    depths := []
    ages := []
    spilled := true }

/-- A divergence entry of slice `k` as it lies in the area. -/
def DivEntry.image (k : Nat) (e : DivEntry) : Nat :=
  e.rcv % 2 ^ 28 + e.pc.idx % 2 ^ 28 * 2 ^ 28 + e.pc.seg % 2 ^ 20 * 2 ^ 56 + e.mask.toNat * 2 ^ 76 + e.before.toNat * 2 ^ 80
    + e.merged.toNat * 2 ^ 84 + (if e.started then 2 ^ 88 else 0) + (if e.linked then 2 ^ 89 else 0) + k % 8 * 2 ^ 90 + 2 ^ 93

/-- The entry that slice `k` takes back: what lies in the area where it is that slice's, without lanes that have exited
since (R32). The region has room for one slice's entries. -/
def DivEntry.load (k : Nat) (e : DivEntry) (x : Nat) : DivEntry :=
  if bitOf x 93 && fld x 90 3 == k then
    { rcv := fld x 0 28, pc := ⟨fld x 56 20, fld x 28 28⟩, mask := BitVec.ofNat 4 (fld x 76 4) &&& e.mask,
      before := BitVec.ofNat 4 (fld x 80 4) &&& e.before, merged := BitVec.ofNat 4 (fld x 84 4) &&& e.merged,
      started := bitOf x 88, linked := bitOf x 89 }
  else e

/-- The live lanes of a group: running, or waiting on a deferred path (R32). -/
def Group.liveLanes (g : Group) : Mask :=
  maskOf (fun l => match g.slices[l / 4]? with
    | some sl => bitOf sl.run.toNat (l % 4) || sl.stack.any (fun e => bitOf (e.mask ||| e.merged).toNat (l % 4))
    | none => false)

/-- Call records of a group that stand on chip (R50). -/
def Group.onChip (g : Group) : Nat := (g.calls.filter (fun c => !c.spilled)).length

/-- Does one more call record fit (R50)? With four on chip the oldest is spilled to its place in segment 8; a cause stands for
a failure of the segment table. -/
def callFits (s : State) (g : Group) (ctx : Nat) : (Bool ⊕ Nat) × State :=
  if g.onChip < 4 then (.inl true, s)
  else
    match areaSize s g.place ctx 8 with
    | (.inl n, s) => (.inl (decide ((g.calls.length - g.onChip + 1) * 1152 ≤ n)), s)
    | (.inr c, s) => (.inr c, s)

/-- Room for one more record on chip (R50): with four there, the oldest goes to its place in segment 8 (R60), or the cause
of a double fault. The list holds the newest first. (DEDUCED, log 22) -/
def recordRoom (s : State) (t : Team) (g : Group) : (Group ⊕ Nat) × State :=
  if g.onChip < 4 then (.inl g, s)
  else
    let i := g.onChip - 1
    match g.calls[i]? with
    | none => (.inl g, s)
    | some c =>
      match areaPut s g.place t.ctx 8 ((g.calls.length - i - 1) * 1152) 1152 c.image with
      | (some c, s) => (.inr c, s)
      | (none, s) => (.inl { g with calls := modAt g.calls i CallRec.stub }, s)

/-- The call record at an index of a group's list stands on chip, refilled from its place where it was spilled (R51), without
lanes that have exited since; or the cause of a double fault. -/
def loadRecord (s : State) (t : Team) (g : Group) (i : Nat) : (Group ⊕ Nat) × State :=
  match g.calls[i]? with
  | none => (.inl g, s)
  | some c =>
    if !c.spilled then (.inl g, s)
    else
      match areaGet s g.place t.ctx 8 ((g.calls.length - i - 1) * 1152) 1152 with
      | (.inr c, s) => (.inr c, s)
      | (.inl x, s) =>
        let fill (c : CallRec) : CallRec :=
          let c := c.load x
          { c with mask := c.mask &&& g.liveLanes }
        (.inl { g with calls := modAt g.calls i fill }, s)

/-- Put a list of values of `n` bytes at offsets of an area; the first failure is a double fault. -/
def areaPuts (p : Place) (ctx seg n : Nat) : List (Nat × Nat) → State → Option Nat × State
  | [], s => (none, s)
  | (o, v) :: r, s =>
    match areaPut s p ctx seg o n v with
    | (some c, s) => (some c, s)
    | (none, s) => areaPuts p ctx seg n r s

/-- The divergence entries that a group has spilled by growing from the stacks of `old`: place and contents (R25). -/
def divSpills (old new : Group) : List (Nat × Nat) :=
  ((List.range 8).map (fun k =>
    match old.slices[k]?, new.slices[k]? with
    | some a, some b =>
      let es := b.stack.reverse
      ((List.range (es.length - 4)).filter (fun j => decide (a.stack.length - 4 ≤ j))).filterMap (fun j =>
        es[j]?.map (fun e => (16 * j, e.image k)))
    | _, _ => [])).flatten

/-- One refill of a slice's entry from the area. -/
def divFill (p : Place) (ctx k : Nat) : List Nat → Slice → State → (Slice ⊕ Nat) × State
  | [], sl, s => (.inl sl, s)
  | j :: r, sl, s =>
    match areaGet s p ctx 7 (16 * j) 16 with
    | (.inr c, s) => (.inr c, s)
    | (.inl x, s) => divFill p ctx k r { sl with stack := modAt sl.stack (sl.stack.length - 1 - j) (fun e => e.load k x) } s

/-- Pops refill the on-chip entries from the area (R25): for each slice of `new`, whose stack has shrunk from that in `old`,
the entries that return. -/
def refillDiv (t : Team) (old new : Group) : List Nat → State → (Group ⊕ Nat) × State
  | [], s => (.inl new, s)
  | k :: r, s =>
    match old.slices[k]?, new.slices[k]? with
    | some a, some b =>
      let js := (List.range (a.stack.length - 4)).filter (fun j => decide (b.stack.length - 4 ≤ j) && decide (j < b.stack.length))
      if b.stack.length < a.stack.length ∧ js ≠ [] then
        match divFill new.place t.ctx k js b s with
        | (.inr c, s) => (.inr c, s)
        | (.inl sl, s) => refillDiv t old { new with slices := modAt new.slices k (fun _ => sl) } r s
      else refillDiv t old new r s
    | _, _ => refillDiv t old new r s

/-- A group after a change that may pop divergence entries is put back with `k`, or its hatch area fails (R59). -/
def withRefill (s : State) (e : Env) (g : Group) (k : State → Group → State) : State :=
  match refillDiv e.t e.g g (List.range 8) s with
  | (.inr c, s) => areaFault s e.t e.g (pcWord e.pc) 7 c
  | (.inl g, s) => k s g

/-- Change the slices of a group by index. -/
def Group.mapSlices (g : Group) (f : Nat → Slice → Slice) : Group :=
  { g with slices := (List.range g.slices.length).map (fun k =>
      match g.slices[k]? with
      | some sl => f k sl
      | none => { pc := ⟨0, 0⟩, run := 0, stack := [], arrived := false, held := none }) }

/-- The callee's registers: argument age K of each lane of the executing slices in v(K − 1), zero where invalid (R50). -/
def argRegs (args : List (List Age)) : Tab 32 :=
  ((List.range 16).map (fun k => (List.range 32).map (fun l =>
    match (args.getD (l / 4) [])[k]? with
    | some a => (32 * k + l, if a.valid then fld a.data.toNat (32 * (l % 4)) 32 else 0)
    | none => (32 * k + l, 0)))).flatten.foldl (fun t p => tabSet t p.1 (BitVec.ofNat 32 p.2)) []

/-- The casement of the executing slices at issue, and nothing for the others (R50, step 2). -/
def Group.capture (g : Group) (ks : List Nat) : List (List Age) :=
  (List.range 8).map (fun k => if ks.contains k then g.main.cas.getD k [] else [])

/-- Steps 4 to 7 of R50: the record, the callee's frame with its arguments, its empty casement, the jump, and the
suspension of the sibling slices (R30). -/
def Group.callNow (g : Group) (ks : List Nat) (pc target : Pc) (blocks : List Bool) (args : List (List Age)) : Group :=
  let rcd : CallRec :=
    { ret := pc.next, frame := g.main.frame, ages := g.main.cas.map (fun a => a.drop 8), exec := sliceBits ks,
      depths := g.slices.map (fun sl => sl.stack.length), mask := lanesRun g ks, spilled := false }
  let calls := rcd :: g.calls
  let g := g.mapSlices (fun k sl =>
    if ks.contains k then { sl with pc := target }
    else if sl.live && sl.held.isNone then { sl with held := some calls.length } else sl)
  { g with
    calls := calls,
    main := { (g.main.mapCas ks (fun _ _ => emptyCas)) with
                frame := ({ blocks := blocks, regs := argRegs args, spilled := false } : Frame) } }

/-- The slices that a call record suspended at depth `n` or deeper resume (R30). -/
def Group.resume (g : Group) (n : Nat) : Group :=
  g.mapSlices (fun _ sl =>
    match sl.held with
    | some d => if n ≤ d then { sl with held := none } else sl
    | none => sl)

/-- Forget the unwaited destinations of frames deeper than the current one. -/
def Group.trimUnw (g : Group) : Group :=
  { g with main := { g.main with unw := g.main.unw.filter (fun u => u.pred || decide (u.depth ≤ g.calls.length)) } }

/-- Steps 3 to 6 of R51 for the topmost record, whose frame is in the register file. -/
def Group.retNow (g : Group) (n : Nat) : Group :=
  match g.calls with
  | [] => g
  | c :: rest =>
    let ks := (List.range 8).filter (fun k => bitOf c.exec.toNat k)
    let cas (k : Nat) (a : List Age) : List Age :=
      (a.take n ++ List.replicate 8 ({ valid := false, data := 0 } : Age) ++ c.ages.getD k []).take 16
    let g := g.mapSlices (fun k sl =>
      if ks.contains k && sl.live then { sl with pc := c.ret, run := BitVec.ofNat 4 (fld c.mask.toNat (4 * k) 4) } else sl)
    let g := { g with calls := rest, main := { (g.main.mapCas ks cas) with frame := c.frame } }
    (g.resume (rest.length + 1)).trimUnw

/-- Discard call records until `d` are left (R52): the last one discarded gives back its frame and its masks, and
divergence entries above its depths go. `ks` are the slices that go on at `pc`. (DEDUCED, log 25) -/
def Group.unwindNow (g : Group) (ks : List Nat) (d : Nat) (pc : Option Pc) : Group :=
  let drop := g.calls.length - d
  let g1 :=
    match (g.calls.take drop).getLast? with
    | none => g
    | some c =>
      let g := g.mapSlices (fun k sl =>
        if ks.contains k then
          { sl with run := BitVec.ofNat 4 (fld c.mask.toNat (4 * k) 4),
                    stack := sl.stack.drop (sl.stack.length - c.depths.getD k 0) }
        else sl)
      let freed := ((g.calls.take drop).dropLast.map
        (fun (x : CallRec) => if x.frame.spilled then x.frame.count else 0)).sum
      { g with calls := g.calls.drop drop, main := { g.main with frame := c.frame }, hatched := c.frame.spilled,
               spillBlk := g.spillBlk - freed }
  let g2 := (g1.resume (d + 1)).trimUnw
  let g3 := { g2 with main := g2.main.mapCas ks (fun _ a => invalidate a 1 16) }
  match pc with
  | some pc => g3.setPc ks pc
  | none => g3

/-- The current frame grows by granted blocks, which read zero (R54, R49). -/
def Group.claimNow (g : Group) (blocks : List Bool) : Group :=
  let f := g.main.frame
  { g with main := { g.main with frame :=
      { f with blocks := f.blocks ++ blocks, regs := f.regs.takeWhile (fun p => decide (p.1 < 512 * f.count)) } } }

/-- The top `n` blocks of the current frame go (R53). -/
def Group.giveNow (g : Group) (n : Nat) : Group :=
  let f := g.main.frame
  let k := f.count - n
  { g with main := { g.main with frame :=
      { f with blocks := f.blocks.take k, regs := f.regs.takeWhile (fun p => decide (p.1 < 512 * k)) } } }

/-- A group whose current frame is spilled leaves the active set until the frame is there again (R58). -/
def Group.settleFrame (g : Group) (now : Nat) : Group :=
  if g.hatched ∧ g.wait.isNone ∧ g.handler.isNone then { g.waitRefill none now with active := false } else g

/-- The frame of the topmost call record returns to the register file in granted blocks (R51, R58), or the cause of a
double fault. -/
def refillCaller (s : State) (t : Team) (g : Group) (blocks : List Bool) : (Group ⊕ Nat) × State :=
  match g.calls with
  | [] => (.inl g, s)
  | c :: rest =>
    match areaGet s g.place t.ctx 7 (g.spillOff 1) (2048 * blocks.length) with
    | (.inr c, s) => (.inr c, s)
    | (.inl x, s) =>
      (.inl { g with
        calls := { c with frame := { blocks := blocks, regs := imageRegs blocks.length x, spilled := false } } :: rest
        spillBlk := g.spillBlk - blocks.length }, s)

/-! ### Joining and leaving -/

/-- Some lanes of a slice have exited: they leave every mask (R32), the call records' too (R350). -/
def Group.dropLanes (g : Group) (m : Mask) : Group :=
  let keep (x : BitVec 4) (k : Nat) : BitVec 4 := BitVec.ofNat 4 ((List.range 4).foldl (fun acc j =>
    if bitOf x.toNat j && !hasLane m (4 * k + j) then acc + 2 ^ j else acc) 0)
  let g := g.mapSlices (fun k sl =>
    { sl with run := keep sl.run k,
              stack := sl.stack.map (fun e =>
                { e with mask := keep e.mask k, merged := keep e.merged k, before := keep e.before k }) })
  { g with calls := g.calls.map (fun c => { c with mask := maskOf (fun l => hasLane c.mask l && !hasLane m l) }) }

/-- The join counter falls; at zero the remaining slices merge and run ganged after the regang (R27). -/
def Group.joinArrive (g : Group) (n : Nat) : Group :=
  match g.join with
  | none => g
  | some j =>
    if n < j.count then { g with join := some { j with count := j.count - n } }
    else
      { g.mapSlices (fun _ sl => if sl.live then { sl with arrived := false, pc := j.pc.next } else sl) with join := none }

/-- A slice past the pop of a divergence entry at the regang `pc` (Table 23-5, the last two rows): arrived, or on at
the next instruction. -/
def slicePast (g : Group) (pc : Pc) (sl : Slice) : Slice :=
  if sl.stack = [] && (match g.join with | some j => j.pc == pc | none => false) then { sl with arrived := true, pc := pc }
  else { sl with pc := pc.next }

/-- A slice reaches the regang that its top entry names (Table 23-5, R24, R290). -/
def sliceReach (g : Group) (pc : Pc) (sl : Slice) : Slice :=
  match sl.stack with
  | [] => slicePast g pc sl
  | e :: r =>
    if !e.started then
      { sl with pc := e.pc, run := e.mask, stack := { e with merged := sl.run, started := true } :: r }
    else
      let all := e.merged ||| sl.run
      match r with
      | f :: r' =>
        if f.linked && !f.started then
          { sl with pc := f.pc, run := f.mask, stack := { f with merged := all, started := true } :: r' }
        else slicePast g pc { sl with run := all, stack := r }
      | [] => slicePast g pc { sl with run := all, stack := [] }

/-- A slice whose running lanes have all exited takes up its deferred paths (R32); at most as often as it has entries. -/
def sliceResume (g : Group) : Nat → Slice → Slice
  | 0, sl => sl
  | n + 1, sl =>
    match sl.stack with
    | [] => sl
    | e :: _ => if sl.run != 0 then sl else sliceResume g n (sliceReach g ⟨e.pc.seg, e.rcv⟩ sl)

/-- Blocks and records of an exited group go; its operations run on (R33, R304). -/
def exitGroup (s : State) (g : Group) : State :=
  let s := crewsLose (releaseClaim s g) g.team g.index true
  let s := cancelPops s g
  let s := setGroup s { g with
    slices := g.slices.map (fun sl => { sl with run := 0, stack := [], arrived := false, held := none }),
    join := none, calls := [], wait := none, active := false, claim := none, hatched := false, under := none, due := [], spillBlk := 0,
    exited := true,
    main := { g.main with frame := Frame.fresh [], cas := List.replicate 8 emptyCas, unw := [], failed := [],
                          ops := g.main.ops.filter (fun o => match o.body with | .qpop .. => false | _ => true) } }
  let s := barLeave s true g.team g.index
  if (s.groups.filter (fun x => x.team == g.team)).all (fun x => x.exited) then barLeave s false g.team g.index else s

end Sys2Proof.Machine
end

