-- ==== Sys2Proof/Machine/Access.lean ====
section
/-! DEFINITION. What every memory instruction shares (R61, R66, R67, R74, R94, R98): the effective address of each lane,
the link slot, the checks in their order, TLB misses, and the division into single-copy atomic units. -/

namespace Sys2Proof.Machine

open Sys2Proof

/-- The operand of the address part: a 64-bit pointer in pointer mode, else an N32 offset (R61). -/
def addrInp (m : MHdr) : List Inp :=
  match m.a with
  | none => []
  | some a => [inX (match m.addr with | .sel g _ => if g = 0 then 64 else 32 | .link _ _ => 32) a]

/-- The effective segment and offset of a lane, formed exactly (R61); `ptr` is the snapped pointer of a link slot. -/
def effAddr (e : Env) (m : MHdr) (ptr l : Nat) : Nat × Int :=
  let a := match m.a with
    | none => 0
    | some a => readInp e (inX (match m.addr with | .sel g _ => if g = 0 then 64 else 32 | .link _ _ => 32) a) l
  match m.addr with
  | .sel g off =>
    if g = 0 then (fld a 44 20, (fld a 0 44 : Nat) + sint 24 off.toNat)
    else ((tabGet e.g.ctx.greg g.val).toNat, (a : Int) + sint 24 off.toNat)
  | .link _ off => (fld ptr 44 20, ((fld ptr 0 44 + a + off.toNat : Nat) : Int))

/-- A lane of a memory instruction with its segmented pointer, the places of its bytes, and the binding entry that the pointer
comes from. -/
structure LaneAt where
  lane : Nat
  ptr  : Nat
  locs : List (Loc × Nat)
  link : Option (Nat × Nat) := none
  deriving DecidableEq, Repr

/-- A lane's range before translation: lane, segment, offset, and the governing descriptor or the failure. -/
abbrev LaneRange := Nat × Nat × Int × (Chk ⊕ Nat)

/-- Steps 2 to 5 of R67 in every lane. A range without bytes makes the segment check only (R370). -/
def rangeLanes (e : Env) (m : MHdr) (ptr : Nat) (nd : Need) (size : Nat → Nat) (align : Nat) :
    List Nat → State → List LaneRange × State
  | [], s => ([], s)
  | l :: r, s =>
    let (seg, off) := effAddr e m ptr l
    let (c, s) :=
      if size l = 0 then
        (match governing s e.view seg with
          | (.ok d, s) => (.inr d, s)
          | (.bad c, s) => (.inl (.fail 2 c 0), s)
          | (.dbl, s) => (.inl (.dbl 0x0C), s))
      else checkRange s e.view nd seg off (size l) align
    let (rs, s) := rangeLanes e m ptr nd size align r s
    ((l, seg, off, c) :: rs, s)

/-- Step 6 of R67 in every lane. -/
def placeLanes (e : Env) (nd : Need) (size : Nat → Nat) : List LaneRange → State → List (LaneRange × Chk) × State
  | [], s => ([], s)
  | x :: r, s =>
    match x with
    | (l, seg, off, .inr d) =>
      let (c, s) := if size l = 0 then (.ok [], s) else placeRange s e.view nd seg off.toNat (size l) d
      let (rs, s) := placeLanes e nd size r s
      ((x, c) :: rs, s)
    | (_, _, _, .inl c) =>
      let (rs, s) := placeLanes e nd size r s
      ((x, c) :: rs, s)

/-- A failing lane: lane, segment, offset, step, cause, distance. -/
abbrev LaneFail := Nat × Nat × Int × Nat × Nat × Nat

/-- The failure of one lane. -/
def failOf (x : LaneRange) (c : Chk) : Option LaneFail :=
  match c with
  | .fail st cause skip => some (x.1, x.2.1, x.2.2.1, st, cause, skip)
  | _ => none

/-- The trap of R67: the first cause in the order of the steps; TRAPADDR is the pointer of the lowest lane that raises
it, moved to the first failing byte where `exact` (R370). -/
def failTrap (fs : List LaneFail) (kind : Nat) (exact : Bool) : Option Trap :=
  match leastBy (fun (f : LaneFail) => [f.2.2.2.1, f.1]) fs with
  | none => none
  | some (_, seg, off, st, cause, skip) =>
    some { cause := cause,
           lanes := maskOf (fun l => fs.any (fun f => f.1 == l && f.2.2.2.1 == st && f.2.2.2.2.1 == cause)),
           addr := segPtrI seg (if exact then off + skip else off), info := kind }

/-- The segment table's own read failed in a lane. -/
def rangeDbl (x : LaneRange) : Bool := match x.2.2.2 with | .inl (.dbl _) => true | _ => false

/-- The failure of a lane's steps 2 to 5. -/
def rangeFail (x : LaneRange) : Option LaneFail := match x.2.2.2 with | .inl c => failOf x c | _ => none

/-- A table read failed in a lane's step 6. -/
def placeDbl (x : LaneRange × Chk) : Bool := match x.2 with | .dbl _ => true | _ => false

/-- TRAPADDR of a double fault in some lanes: the segmented pointer of the first. -/
def dblAddr (rs : List LaneRange) : Nat :=
  match rs with
  | (_, seg, off, _) :: _ => segPtrI seg off
  | [] => 0

/-- A lane whose checks passed. -/
def laneAt (x : LaneRange × Chk) : LaneAt :=
  { lane := x.1.1, ptr := segPtrI x.1.2.1 x.1.2.2.1, locs := match x.2 with | .ok ls => ls | _ => [] }

/-- The page number of a lane's range in a translated segment, with those after it. -/
def lanePages (size : Nat → Nat) (x : LaneRange) : List Nat :=
  match x with
  | (l, seg, off, .inr d) => rangePages seg off.toNat (size l) d
  | _ => []

/-- The pages of a memory instruction that miss in the TLBs of its core and die (R70). -/
def missingPages (s : State) (e : Env) (nd : Need) (size : Nat → Nat) (rs : List LaneRange) : List Nat :=
  (rs.map (lanePages size)).flatten.filter (fun p => pageMisses s e.view p nd.writes)

/-- A memory instruction that misses stalls at issue: its pages enter the die's miss table (R70). -/
def missStall (s : State) (e : Env) (nd : Need) (ps : List Nat) : State :=
  stall (ps.foldl (fun s p => addMiss s e.view p nd.writes) s) e

/-- The places of a list take the retention of a memory instruction (R89). -/
def retainLocs (s : State) (m : MHdr) (ls : List (Loc × Nat)) : State :=
  ls.foldl (fun s l => match l with | (.phys a, _) => retainLine s m.evp.val a | _ => s) s

/-- The lines that a memory instruction reaches take its retention (R89). -/
def holdLanes (s : State) (m : MHdr) (ls : List LaneAt) : State := ls.foldl (fun s x => retainLocs s m x.locs) s

/-- TRAPINFO of a use of a link slot (R84, Table 15-2): the module and the slot of an unbound or failed one, the instruction's
index of a data error, else the kind of access. -/
def linkInfo (e : Env) (slot cause kind : Nat) : Nat :=
  if cause = 0x0D ∨ cause = 0x0E then e.pc.seg % 2 ^ 20 + slot * 2 ^ 20 else dataInfo e.pc kind cause

/-- The trap of a failing check as the issuer takes it: a data error reports the instruction's index (Table 15-1). -/
def Env.checked (e : Env) (t : Trap) : Trap := { t with info := dataInfo e.pc t.info t.cause }

/-- How far the walks of a touch have come among its pages (R370): how many of them its fragment has gone past, those that now
hit among them, and the pages that are left. -/
def touchLeft (s : State) (e : Env) (nd : Need) (ps : List Nat) : Nat × List Nat :=
  let done := match e.g.walked.find? (fun x => x.1 == sliceBits e.slices) with | some x => x.2 | none => 0
  let rest := ps.drop done
  let hit := (rest.takeWhile (fun p => !pageMisses s e.view p nd.writes)).length
  (done + hit, rest.drop hit)

/-- The issuer's group, with how far the walks of its touch have come. -/
def Env.walkedTo (e : Env) (n : Nat) : Env :=
  let key := sliceBits e.slices
  { e with g := { e.g with walked := (key, n) :: e.g.walked.filter (fun x => x.1 != key) } }

/-- The pages for which an instruction stalls, with the issuer as it then stands: those that miss; a touch, which needs
no page any more once its walk has ended, asks for as many as a miss table holds (R70, R370). -/
def walksLeft (s : State) (e : Env) (nd : Need) (size : Nat → Nat) (rs : List LaneRange) (exact : Bool) : List Nat × Env :=
  if exact then
    let x := touchLeft s e nd (rs.map (lanePages size)).flatten
    ((x.2.filter (fun p => pageMisses s e.view p nd.writes)).take 256, e.walkedTo x.1)
  else (missingPages s e nd size rs, e)

/-- What a check leaves: a stopped state, or the state and the findings that it passes on. -/
abbrev Passed (α : Type) := State ⊕ (State × α)

/-- Go on where a check passes. -/
def Passed.go {α : Type} (x : Passed α) (k : State → α → State) : State :=
  match x with
  | .inl t => t
  | .inr (s, a) => k s a

/-- What a check passes on, changed. -/
def Passed.map {α β : Type} (x : Passed α) (f : α → β) : Passed β := x.elim .inl (fun r => .inr (r.1, f r.2))

/-- The checks of every lane from step 2 on: they stop, or find the places of the lanes' bytes. A page that misses stalls the
instruction at issue (R70, R370). (DESIGN CHOICE, log 78) -/
def checkLanes (s : State) (e : Env) (m : MHdr) (ptr : Nat) (ls : List Nat) (kind : Nat) (nd : Need)
    (size : Nat → Nat) (align : Nat) (exact : Bool) : Passed (List LaneAt) :=
  let (rs, s) := rangeLanes e m ptr nd size align ls s
  if rs.any rangeDbl then .inl (dblFault s e 0x0C (dblAddr (rs.filter rangeDbl)))
  else
    match failTrap (rs.filterMap rangeFail) kind exact with
    | some t => .inl (takeTrap s e (e.checked t))
    | none =>
      let miss := walksLeft s e nd size rs exact
      if miss.1 ≠ [] then .inl (missStall s miss.2 nd miss.1)
      else
        let (ps, s) := placeLanes e nd size rs (dropMisses s e.view (rs.map (lanePages size)).flatten)
        if ps.any placeDbl then .inl (dblFault s e 0x0C (dblAddr ((ps.filter placeDbl).map (·.1))))
        else
          match failTrap (ps.filterMap (fun x => failOf x.1 x.2)) kind exact with
          | some t => .inl (takeTrap s e (e.checked t))
          | none => .inr (if exact then s else holdLanes s m (ps.map laneAt), ps.map laneAt)

/-- The checks of a memory instruction (R67): its link slot (R74), then every lane's range. With no active lane there is
nothing to check. -/
def accessOf (s : State) (e : Env) (m : MHdr) (act : Mask) (kind : Nat) (nd : Need) (size : Nat → Nat) (align : Nat)
    (exact : Bool) : Passed (List LaneAt) :=
  if act = 0 then .inr (s, [])
  else
    match m.addr with
    | .sel _ _ => checkLanes s e m 0 (lanesOf act) kind nd size align exact
    | .link slot _ =>
      match linkSlot s e.view slot.toNat with
      | (.bound p k, s) =>
        (checkLanes s e m p (lanesOf act) kind nd size align exact).map (fun ls => ls.map (fun x => { x with link := some k }))
      | (.trap c a, s) =>
        .inl (takeTrap s e { cause := c, lanes := act, addr := a, info := linkInfo e slot.toNat c kind })
      | (.miss ps, s) => .inl (missStall s e .load ps)
      | (.wait p a, s) => .inl (beginWait s e e.g 5 0 a 0 (.bind (.phys p)))
      | (.dbl c a, s) => .inl (dblFault s e c a)

/-- Go on with the lanes' places where the checks of a memory instruction pass. -/
def withAccess (s : State) (e : Env) (m : MHdr) (act : Mask) (kind : Nat) (nd : Need) (size : Nat → Nat) (align : Nat)
    (exact : Bool) (k : State → List LaneAt → State) : State :=
  (accessOf s e m act kind nd size align exact).go k

/-- A store or atomic outside segments 1 and 3 and the reserved segments 6 to 9 ends the team's clean status (R199).
(DEDUCED, log 41) -/
def soilLanes (s : State) (e : Env) (ls : List LaneAt) : State :=
  if ls.any (fun x =>
      let seg := fld x.ptr 44 20
      seg != 1 && seg != 3 && !(decide (6 ≤ seg) && decide (seg ≤ 9))) then soil s e.t.uid
  else s

/-! ### Units -/

/-- The number of a place within its space. -/
def Loc.num (x : Loc) : Nat :=
  match x with
  | .phys a => a | .smem a => a | .tmem _ a => a | .tile _ a => a

/-- Divide `n` bytes at a place into naturally aligned units of at most `u` bytes: distance, place, size. -/
def splitPiece (u : Nat) : Nat → Loc → Nat → Nat → List (Nat × Loc × Nat)
  | 0, _, _, _ => []
  | fuel + 1, x, at_, n =>
    if n = 0 then []
    else
      let k := Min.min n (u - x.num % u)
      (at_, x, k) :: splitPiece u fuel (x.plus k) (at_ + k) (n - k)

/-- Divide a lane's bytes into units. -/
def splitLocs (u : Nat) : Nat → List (Loc × Nat) → List (Nat × Loc × Nat)
  | _, [] => []
  | at_, (x, n) :: r => splitPiece u (n + 1) x at_ n ++ splitLocs u (at_ + n) r

/-- The unit of a plain access of `size` bytes (R98, R102): the whole value up to eight aligned bytes; four bytes for a
misaligned access and for a weak one of sixteen bytes. -/
def plainUnit (weak : Bool) (size num : Nat) : Nat :=
  if num % size ≠ 0 then 4 else if size = 16 then (if weak then 4 else 8) else size

/-- The accesses of a lane in units of `u` bytes with the lane's data. -/
def unitAccs (u : Nat) (x : LaneAt) (val : Nat) : List Acc :=
  (splitLocs u 0 x.locs).map (fun p =>
    { lane := x.lane, off := p.1, loc := p.2.1, size := p.2.2, val := fld val (8 * p.1) (8 * p.2.2), exp := 0,
      done := false, posted := false, ptr := x.ptr + p.1 })

/-- One access for a lane's whole location, of `size` bytes. -/
def wholeAcc (x : LaneAt) (size val exp : Nat) : Acc :=
  { lane := x.lane, off := 0, loc := (match x.locs with | (y, _) :: _ => y | [] => .phys 0), size := size, val := val,
    exp := exp, done := false, posted := false, ptr := x.ptr }

end Sys2Proof.Machine
end

