-- ==== Sys2Proof/Machine/MemI.lean ====
section
/-! DEFINITION. The memory instructions up to their issue: ld, st, pf, touch, fence, cctl, and the shutter operations
(R294, R314, R323, R340, R351, R364, R370). What their operations do when they are performed stands in Perform.lean. -/

namespace Sys2Proof.Machine

open Sys2Proof

/-- The size in bytes of a load or store type (Table 19-9). -/
def ldBytes (ty : LdTy) : Nat :=
  match ty with
  | .i8 | .n8 => 1
  | .i16 | .n16 | .bf16 | .f16 => 2
  | .b32 => 4
  | .b64 => 8
  | .b128 => 16

/-- The value that a load writes from the bytes it read (R324). -/
def widen (ty : LdTy) (x : Nat) : Nat :=
  match ty with
  | .i8 => wrapN 32 (sint 8 x)
  | .i16 => wrapN 32 (sint 16 x)
  | .bf16 => Fmt.f32.round .rn false (Fmt.bf16.decode x)
  | .f16 => Fmt.f32.round .rn false (Fmt.f16.decode x)
  | _ => x

/-- The bytes that a store writes from its register value (R364). -/
def narrow (ty : LdTy) (x : Nat) : Nat :=
  match ty with
  | .i8 | .n8 => x % 2 ^ 8
  | .i16 | .n16 => x % 2 ^ 16
  | .bf16 => Fmt.bf16.round .rn false (Fmt.f32.decode x)
  | .f16 => Fmt.f16.round .rn false (Fmt.f32.decode x)
  | _ => x

/-- The alignment that a plain access needs: none when weak (R66, R323, R364). -/
def plainAlign (ord : Ord) (size : Nat) : Nat :=
  match ord with
  | .weak => 1
  | _ => size

/-- The accesses of a plain load or store. -/
def plainAccs (ord : Ord) (size : Nat) (ls : List LaneAt) (val : Nat → Nat) : List Acc :=
  (ls.map (fun x => unitAccs (plainUnit (ord == .weak) size (match x.locs with | (y, _) :: _ => y.num | [] => 0)) x
    (val x.lane))).flatten

/-- ld (R323, R324). -/
def execLd (m : MHdr) (ty : LdTy) (d : Fin 384) (s : State) : Host.Outcome State Fault Refusal :=
  onIssue 0x60 s (fun e s =>
    let act := e.active m.guard
    let n := ty.width / 32
    match operandFault e m.guard act (addrInp m) [(d.val, n)] [] with
    | some t => takeTrap s e t
    | none =>
      if memStalls s e .ld then stall s e
      else
        let size := ldBytes ty
        withAccess s e m act 0 .load (fun _ => size) (plainAlign m.ord size) false (fun s ls =>
          advance s e (e.g.addMem .ld (.load ty d.val (m.evp.val = 0)) (plainAccs m.ord size ls (fun _ => 0)) m.ord m.scope e.pc
            [(d.val, n, false)])))

/-- st (R364, R365): the data are read at issue. -/
def execSt (m : MHdr) (ty : LdTy) (b : Src) (s : State) : Host.Outcome State Fault Refusal :=
  onIssue 0x61 s (fun e s =>
    let act := e.active m.guard
    let ib := inX ty.width b
    match operandFault e m.guard act (ib :: addrInp m) [] [] with
    | some t => takeTrap s e t
    | none =>
      if memStalls s e .st then stall s e
      else
        let size := ldBytes ty
        withAccess s e m act 1 .store (fun _ => size) (plainAlign m.ord size) false (fun s ls =>
          advance (soilLanes s e ls) e (e.g.addMem .st .store (plainAccs m.ord size ls (fun l => narrow ty (readInp e ib l))) m.ord m.scope
            e.pc [])))

/-- Bring the 64-byte half at `h` of the line that a prefetch names: each half of a line of host memory is requested by
itself, one that the device may not reach is left out (R221, R230). -/
def prefetchHalf (e : Env) (evp : Nat) (s : State) (h : Nat) : State :=
  let host : Bool := match prange h with | .host => true | _ => false
  if host && !hostAllowed s h 64 then s
  else
    let s := touchLine s e.actor h 64
    if 1 ≤ evp ∧ registers s h then l1Keep s e.actor h 64 else s

/-- Bring the line of a translated lane at its retention (R89, R340, R206): 0 into the last-level cache only, 1 to 6 into
the L1 as well, 7 with a hold. -/
def prefetchLine (s : State) (e : Env) (evp a : Nat) : State :=
  let h := a / 128 * 128
  retainLine (prefetchHalf e evp (prefetchHalf e evp s h) (h + 64)) evp a

/-- The lanes of a prefetch: a translation failure or a failing range makes a lane's prefetch lapse (R340). -/
def prefetchLanes (e : Env) (evp : Nat) : List LaneRange → State → State
  | [], s => s
  | (_, seg, off, .inr d) :: r, s =>
    let s :=
      if seg ≤ 4 then s
      else
        match placeRange s e.view .load seg off.toNat 1 d with
        | (.ok ((.phys p, _) :: _), s) => if accessFails s (.phys p) false then s else prefetchLine s e evp p
        | (_, s) => s
    prefetchLanes e evp r s
  | (_, _, _, .inl _) :: r, s => prefetchLanes e evp r s

/-- pf once its segment and offset are known: steps 2 to 5 precisely, then the lines; under a full request queue they lapse
(R340). -/
def prefetchChecked (s : State) (e : Env) (m : MHdr) (act : Mask) (ptr : Nat) : State :=
  let (rs, s) := rangeLanes e m ptr .load (fun _ => 1) 1 (lanesOf act) s
  if rs.any rangeDbl then
    dblFault s e 0x0C (dblAddr (rs.filter rangeDbl))
  else
    match failTrap (rs.filterMap rangeFail) 0 false with
    | some t => takeTrap s e (e.checked t)
    | none => advance (if requestsFull s e.g.place then s else prefetchLanes e m.evp.val rs s) e e.g

/-- pf (R340): it counts in no class and writes no register. -/
def execPf (m : MHdr) (s : State) : Host.Outcome State Fault Refusal :=
  onIssue 0x62 s (fun e s =>
    let act := e.active m.guard
    match operandFault e m.guard act (addrInp m) [] [] with
    | some t => takeTrap s e t
    | none =>
      if act = 0 then advance s e e.g
      else
        match m.addr with
        | .sel _ _ => prefetchChecked s e m act 0
        | .link slot _ =>
          match linkSlot s e.view slot.toNat with
          | (.bound p _, s) => prefetchChecked s e m act p
          | (.trap c a, s) =>
            takeTrap s e { cause := c, lanes := act, addr := a, info := linkInfo e slot.toNat c 0 }
          | (.miss ps, s) => missStall s e .load ps
          | (.wait p a, s) => beginWait s e e.g 5 0 a 0 (.bind (.phys p))
          | (.dbl c a, s) => dblFault s e c a)

/-- touch (R370): it walks every page of every lane's range and counts in the ld class for no longer than its issue. -/
def execTouch (m : MHdr) (b : Src) (s : State) : Host.Outcome State Fault Refusal :=
  onIssue 0x63 s (fun e s =>
    let act := e.active m.guard
    let ib := inX 32 b
    match operandFault e m.guard act (ib :: addrInp m) [] [] with
    | some t => takeTrap s e t
    | none =>
      if memStalls s e .ld then stall s e
      else
        withAccess s e m act 3 .load (fun l => readInp e ib l) 1 true (fun s _ =>
          advance s e (e.g.addMem .ld .touch [] .weak .group e.pc [])))

/-- fence (R314, R99): it stalls at issue until the accesses that it orders are performed. -/
def execFence (gd : Guard) (kind : FenceKind) (scope : Scope) (s : State) : Host.Outcome State Fault Refusal :=
  onIssue 0x64 s (fun e s =>
    let act := e.active gd
    match operandFault e gd act [] [] [] with
    | some t => takeTrap s e t
    | none =>
      if act = 0 then advance s e e.g
      else
        let waits (o : Op) : Bool := match kind with
          | .acq => o.cls == .ld
          | _ => true
        if !e.g.performed waits scope then stall s e
        else
          let s := match kind with
            | .rel => s
            | _ => acquireAt s e.g.place scope
          advance s e e.g)

/-- The accesses of a cctl: one for each lane's line in a translated segment (R294). -/
def lineAccs (ls : List LaneAt) : List Acc :=
  ls.filterMap (fun x =>
    match x.locs with
    | (.phys a, _) :: _ =>
      some { lane := x.lane, off := 0, loc := .phys (a / 128 * 128), size := 128, val := 0, exp := 0, done := false,
             posted := false, ptr := x.ptr }
    | _ => none)

/-- cctl (R294): one access to each lane's line, performed later. -/
def cctlIssue (m : MHdr) (sub : Nat) (s : State) : Host.Outcome State Fault Refusal :=
  onIssue 0x65 s (fun e s =>
    let act := e.active m.guard
    match operandFault e m.guard act (addrInp m) [] [] with
    | some t => takeTrap s e t
    | none =>
      if memStalls s e .st then stall s e
      else
        withAccess s e m act 0 .load (fun _ => 1) 1 false (fun s ls =>
          advance s e (e.g.addMem .st (.cctl sub m.scope) (lineAccs ls) .weak m.scope e.pc [])))

/-- cctl.wb (R294). -/
def execCctlWb (m : MHdr) (s : State) : Host.Outcome State Fault Refusal := cctlIssue m 0 s

/-- cctl.inv (R294). -/
def execCctlInv (m : MHdr) (s : State) : Host.Outcome State Fault Refusal := cctlIssue m 1 s

/-- cctl.wbinv (R294). -/
def execCctlWbinv (m : MHdr) (s : State) : Host.Outcome State Fault Refusal := cctlIssue m 2 s

/-- cctl.unhold (R294). -/
def execCctlUnhold (m : MHdr) (s : State) : Host.Outcome State Fault Refusal := cctlIssue m 3 s

/-- The unwaited mark of a result predicate (R8); p7 discards it. -/
def predUnw (p : Fin 8) : List (Nat × Nat × Bool) := if p = 7 then [] else [(p.val, 1, true)]

/-- The shared issue of the shutter operations (R351). -/
def shutterIssue (op : Nat) (m : MHdr) (wide : Bool) (ps : List (Fin 8)) (body : OpBody) (b : Src) (s : State) :
    Host.Outcome State Fault Refusal :=
  onIssue op s (fun e s =>
    let act := e.active m.guard
    let size := if wide then 8 else 4
    let ib := inX (8 * size) b
    match operandFault e m.guard act (ib :: addrInp m) [] (ps.map (·.val)) with
    | some t => takeTrap s e t
    | none =>
      if memStalls s e .st then stall s e
      else
        withAccess s e m act 1 .shutter (fun _ => size) size false (fun s ls =>
          advance s e (e.g.addMem .st body (ls.map (fun x => wholeAcc x size (readInp e ib x.lane) 0)) m.ord m.scope e.pc
            (ps.map predUnw).flatten)))

/-- sts (R351, R123). (DEDUCED, log 45) -/
def execSts (m : MHdr) (wide : Bool) (p : Fin 8) (b : Src) (s : State) : Host.Outcome State Fault Refusal :=
  shutterIssue 0x66 m wide [p] (.sts p.val) b s

/-- retract (R351, R125). -/
def execRetract (m : MHdr) (wide : Bool) (p : Fin 8) (s : State) : Host.Outcome State Fault Refusal :=
  shutterIssue 0x67 m wide [p] (.retract p.val) .zero s

/-- settle (R351, R125). -/
def execSettle (m : MHdr) (wide : Bool) (s : State) : Host.Outcome State Fault Refusal :=
  shutterIssue 0x68 m wide [] .settle .zero s

end Sys2Proof.Machine
end

