-- ==== Sys2Proof/Machine/Atomics.lean ====
section
/-! DEFINITION. Atomics, waiting on a word and sparse reductions up to their issue (R108 to R115, R121, R278, R293, R301,
R346, R361, R375), with the arithmetic that their performing uses. -/

namespace Sys2Proof.Machine

open Sys2Proof

/-- The location of an atomic in bytes (R108). -/
def atomSize (ty : AnyTy) : Nat :=
  match ty with
  | .i t => t.width / 8
  | .f .bf16 => 2
  | .f t => t.width / 8

/-- A floating-point combination on codes, rounded to nearest even (R110). -/
def fpCombine (t : FpTy) (g : FV → FV → FV) (a b : Nat) : Nat :=
  fpMap t (fpRound2 .rn false g) [a, b]

/-- The new value of an atomic from the former value and the operand (Table 8-1). -/
def atomNew (op : AtomOp) (ty : AnyTy) (a b : Nat) : Nat :=
  match ty with
  | .i t =>
    let w := t.width
    match op with
    | .add => (a + b) % 2 ^ w
    | .min => wrapN w (Min.min (t.elem a 0) (t.elem b 0))
    | .max => wrapN w (Max.max (t.elem a 0) (t.elem b 0))
    | .and => a &&& b
    | .or => a ||| b
    | .xor => a ^^^ b
    | .xchg => b
    | .inc => if a ≥ b then 0 else a + 1
    | .dec => if a = 0 ∨ a > b then b else a - 1
    | _ => a
  | .f t =>
    match op with
    | .fadd => fpCombine t (FV.add false) a b
    | .fmin => fpCombine t (FV.minNum false) a b
    | .fmax => fpCombine t (FV.minNum true) a b
    | _ => a

/-- One arrival at a compensated pair: the new sum and error, the sum lowest (R114). -/
def cpaddNew (wide : Bool) (pair x : Nat) : Nat :=
  let f := if wide then Fmt.f64 else Fmt.f32
  let w := f.width
  let sv := f.decode (fld pair 0 w)
  let exact := FV.add false sv (f.decode x)
  let s1 := f.round .rn false exact
  let t := match f.decode s1 with
    | .fin n m e => FV.add false exact (FV.fin (!n) m e)
    | _ => .fin false 0 0
  let e1 := f.round .rn false (FV.add false (f.decode (fld pair w w)) t)
  s1 + 2 ^ w * e1

/-- The operand of an atomic in a lane. -/
def atomInp (ty : AnyTy) (b : Src) : Inp := inX ty.width b

/-- The operand's bits that the location takes (R108): a BF16 scalar stands in bits 15:0. -/
def atomVal (ty : AnyTy) (x : Nat) : Nat := x % 2 ^ (8 * atomSize ty)

/-- The shared issue of read-modify-writes (R278, R293, R301, R346). -/
def rmwIssue (op : Nat) (m : MHdr) (cls : Cls) (body : OpBody) (ins : List Inp) (spans : List (Nat × Nat)) (size : Nat)
    (accs : State → Env → List LaneAt → List Acc) (s : State) : Host.Outcome State Fault Refusal :=
  onIssue op s (fun e s =>
    let act := e.active m.guard
    match operandFault e m.guard act (ins ++ addrInp m) spans [] with
    | some t => takeTrap s e t
    | none =>
      if memStalls s e cls || captureFull s e.t then stall s e
      else
        withAccess s e m act 2 .atomic (fun _ => size) size false (fun s ls =>
          advance (soilLanes s e ls) e (e.g.addMem cls body (accs s e ls) m.ord m.scope e.pc (spans.map (fun p => (p.1, p.2, false))))))

/-- The register span of a value of `w` bits at `vN`. -/
def spanOf (n w : Nat) : Nat × Nat := (n, w / 32)

/-- atom (R278, R279). -/
def execAtom (m : MHdr) (op : AtomOp) (ty : AnyTy) (d : Fin 384) (b : Src) (s : State) : Host.Outcome State Fault Refusal :=
  rmwIssue 0x69 m .ld (.atom op ty (some d.val)) [atomInp ty b] [spanOf d.val ty.width] (atomSize ty)
    (fun _ e ls => ls.map (fun x => wholeAcc x (atomSize ty) (atomVal ty (readInp e (atomInp ty b) x.lane)) 0)) s

/-- Entries of a core's posting buffer: lanes of reductions without return that are not performed yet (R113). -/
def postedIn (s : State) (p : Place) : Nat :=
  ((s.groups ++ s.departed).filter (fun g => g.place.die == p.die && g.place.core == p.core)).foldl
    (fun n g => n + (g.main.ops.map (fun o =>
      match o.body with
      | .atom _ _ none => (o.accs.filter (fun a => !a.done && !a.posted)).length
      | _ => 0)).sum) 0

/-- The slots of a place's posting-overflow area that hold records, those of groups that have left the place included. -/
def postedSlots (s : State) (p : Place) : List Nat :=
  ((s.groups ++ s.departed).filter (fun g => g.place == p)).foldr (fun g l =>
    (g.main.ops.map (fun o =>
      match o.body with
      | .atom _ _ none => (o.accs.filter (fun a => !a.done && a.posted)).map (·.exp)
      | _ => [])).flatten ++ l) []

/-- A record of the posting-overflow area (R113): the lane's physical address, its operand, SUB, TY, ORD and SCOPE.
(DESIGN CHOICE, log 33) -/
def postRecord (op : AtomOp) (ty : AnyTy) (m : MHdr) (a : Acc) : Nat :=
  (match a.loc with | .phys p => p | .smem p => p | .tmem _ p => p | .tile _ p => p) % 2 ^ 64 + a.val % 2 ^ 64 * 2 ^ 64
    + (op.code + 64 * ty.code + 1024 * m.ord.code + 4096 * m.scope.code) * 2 ^ 128

/-- The lanes of a red beyond the free entries of the posting buffer lie in the overflow area, each in a slot of its own
(R113). -/
def postAccs (free : Nat) (slots : List Nat) (accs : List Acc) : List Acc :=
  (List.range accs.length).filterMap (fun i => (accs[i]?).map (fun a =>
    if i < free then a
    else { a with
      exp := slots.getD (i - free) 0
      posted := true }))

/-- red (R346). The hatch writes the records that the posting buffer has no room for; one that fails is a double fault
(R59). -/
def execRed (m : MHdr) (op : AtomOp) (ty : AnyTy) (b : Src) (s : State) : Host.Outcome State Fault Refusal :=
  onIssue 0x6A s (fun e s =>
    let act := e.active m.guard
    match operandFault e m.guard act (atomInp ty b :: addrInp m) [] [] with
    | some t => takeTrap s e t
    | none =>
      if memStalls s e .st || captureFull s e.t then stall s e
      else
        withAccess s e m act 2 .atomic (fun _ => atomSize ty) (atomSize ty) false (fun s ls =>
          let used := postedSlots s e.g.place
          let slots := (List.range 2016).filter (fun k => !used.contains k)
          let accs := postAccs (256 - postedIn s e.g.place) slots
            (ls.map (fun x => wholeAcc x (atomSize ty) (atomVal ty (readInp e (atomInp ty b) x.lane)) 0))
          let spilled := accs.filter (fun a => a.posted)
          match areaPuts e.g.place e.t.ctx 7 32 (spilled.map (fun a => (0x400 + 32 * a.exp, postRecord op ty m a))) s with
          | (some c, s) => areaFault s e.t e.g (pcWord e.pc) 7 c
          | (none, s) => advance (soilLanes s e ls) e (e.g.addMem .st (.atom op ty none) accs m.ord m.scope e.pc [])))

/-- cas (R293). (DEDUCED, log 45) -/
def execCas (m : MHdr) (ty : IntTy) (d : Fin 384) (b c : Src) (s : State) : Host.Outcome State Fault Refusal :=
  rmwIssue 0x6B m .ld (.cas d.val (ty.width / 32)) [inX ty.width b, inX ty.width c] [spanOf d.val ty.width] (ty.width / 8)
    (fun _ e ls => ls.map (fun x =>
      wholeAcc x (ty.width / 8) (readInp e (inX ty.width b) x.lane) (readInp e (inX ty.width c) x.lane))) s

/-- cpadd (R301): without a destination in the st class, with one in the ld class. -/
def execCpadd (m : MHdr) (wide : Bool) (d : Option (Fin 384)) (b : Src) (s : State) : Host.Outcome State Fault Refusal :=
  let w := if wide then 64 else 32
  let ib : Inp := { src := b, w := w, imm := 0 }
  rmwIssue 0x6C m (if d.isSome then .ld else .st) (.cpadd wide (d.map (·.val))) [ib]
    (match d with | some n => [spanOf n.val (2 * w)] | none => []) (w / 4)
    (fun _ e ls => ls.map (fun x => wholeAcc x (w / 4) (readInp e ib x.lane) 0)) s

/-! ### waitv -/

/-- The lanes whose bytes a read at issue cannot obtain (R148). -/
def dataErrors (s : State) (ls : List LaneAt) : Mask :=
  maskOf (fun l => ls.any (fun x => x.lane == l && x.locs.any (fun p => accessFails s p.1 false)))

/-- Uncorrectable data error at the instruction that reads (Table 15-1): TRAPINFO holds its index. -/
def dataTrap (e : Env) (ls : List LaneAt) (bad : Mask) : Trap :=
  { cause := 0x21, lanes := bad,
    addr := (match ls.find? (fun x => hasLane bad x.lane) with | some x => x.ptr | none => 0), info := e.pc.idx % 2 ^ 28 }

/-- waitv (R375, R115): a casement fence; satisfied at once it goes on, else the group waits, a handler that watches a
fault record for the completion of that record (R192, Table 14-3). -/
def execWaitv (m : MHdr) (cmp : WaitCmp) (wide : Bool) (b : Src) (s : State) : Host.Outcome State Fault Refusal :=
  onIssue 0x6D s (fun e s =>
    let act := e.active m.guard
    let size := if wide then 8 else 4
    let ib := inX (8 * size) b
    match operandFault e m.guard act (ib :: addrInp m) [] [] with
    | some t => takeTrap s e t
    | none =>
      if act = 0 then advance s e e.g
      else if requestsFull s e.g.place then stall s e
      else
        withAccess s e m act 0 .load (fun _ => size) size false (fun s ls =>
          let bad := dataErrors s ls
          if bad ≠ 0 then takeTrap s e (dataTrap e ls bad)
          else
            let g := e.g.fence e.slices
            let lanes := ls.map (fun x => ({ lane := x.lane, ptr := x.ptr, loc := (wholeAcc x size 0 0).loc, val := readInp e ib x.lane,
                                             sat := false, link := x.link } : WaitLane))
            let (lanes, s) := waitvLanes e.actor g.ctx.ops { rel := false, sc := m.ord == .sc, scope := m.scope } cmp size lanes s
            if lanes.all (fun x => x.sat) then
              advance (match m.ord with | .acqrel | .sc => acquireAt s e.g.place m.scope | _ => s) e g
            else
              let first := match ls with | x :: _ => x.ptr | [] => 0
              let val := match lanes with | x :: _ => x.val | [] => 0
              let code := (match cmp with | .eq => 0 | .ne => 1 | .ge => 2 | .lt => 3) + (if wide then 8 else 0)
              let cont : Cont := .word lanes size cmp m.ord m.scope
              if e.single && fld first 44 20 == 9 && decide (0x8000 ≤ fld first 0 44) then
                beginWait s e g 6 0 (first / 32 * 32) 0 cont
              else beginWait s e g 2 code first val cont))

/-! ### spred -/

/-- A sparse-reduction object (Table 8-3): operation, type, number of elements, pointer. -/
structure SpredObj where
  op    : Nat
  ty    : Nat
  count : Nat
  dest  : Nat
  deriving DecidableEq, Repr

/-- The object in 32 bytes; none for nonzero reserved bits or an unlisted OP or TYPE (R121). -/
def spredOf (x : Nat) : Option SpredObj :=
  if fld x 136 120 != 0 || decide (2 < fld x 128 4) || decide (2 < fld x 132 4) then none
  else some { op := fld x 128 4, ty := fld x 132 4, count := fld x 64 64, dest := fld x 0 64 }

/-- The element size of an object's type. -/
def SpredObj.size (o : SpredObj) : Nat := if o.ty = 0 then 4 else 8

/-- The checks of the elements: the index before the limit, then as any access with the A right (R121). -/
def spredElems (e : Env) (ib : Inp) : List (Nat × SpredObj) → State → List (LaneRange) × State
  | [], s => ([], s)
  | (l, o) :: r, s =>
    let i := readInp e ib l
    let seg := fld o.dest 44 20
    let off : Int := (fld o.dest 0 44 + i * o.size : Nat)
    let (c, s) := checkRange s e.view .atomic seg off o.size o.size
    let c := if i < o.count then c
      else match c with
        | .inl (.fail st cause k) => if st < 4 then .inl (.fail st cause k) else .inl (.fail 4 0x09 0)
        | .inl (.dbl x) => .inl (.dbl x)
        | _ => .inl (.fail 4 0x09 0)
    let (rs, s) := spredElems e ib r s
    ((l, seg, off, c) :: rs, s)

/-- The checks of an spred whose objects are known, and the accesses that it makes (R121, R361): one element for each lane,
marked with its object's operation and type. -/
def spredAccs (s : State) (e : Env) (m : MHdr) (b c : Src) (os : List (Nat × SpredObj)) : Passed (List Acc) :=
  let wide := os.filter (fun x => x.2.ty != 0)
  let act := e.active m.guard
  if wide != [] && !c.wf 64 then
    .inl (takeTrap s e { cause := 0x02, lanes := maskOf (fun l => wide.any (fun x => x.1 == l)) })
  else
    match operandFault e m.guard act (if wide = [] then [] else [inX 64 c]) [] [] with
    | some t => .inl (takeTrap s e t)
    | none =>
      let (rs, s) := spredElems e (inX 32 b) os s
      let size (l : Nat) : Nat := match os.find? (fun x => x.1 == l) with | some x => x.2.size | none => 4
      if rs.any rangeDbl then .inl (dblFault s e 0x0C (dblAddr (rs.filter rangeDbl)))
      else
        match failTrap (rs.filterMap rangeFail) 2 false with
        | some t => .inl (takeTrap s e (e.checked t))
        | none =>
          let miss := missingPages s e .atomic size rs
          if miss ≠ [] then .inl (missStall s e .atomic miss)
          else
            let (ps, s) := placeLanes e .atomic size rs (dropMisses s e.view (rs.map (lanePages size)).flatten)
            if ps.any placeDbl then .inl (dblFault s e 0x0C (dblAddr ((ps.filter placeDbl).map (·.1))))
            else
              match failTrap (ps.filterMap (fun x => failOf x.1 x.2)) 2 false with
              | some t => .inl (takeTrap s e (e.checked t))
              | none =>
                .inr (s, (ps.map laneAt).map (fun x =>
                  let o := ((os.find? (fun y => y.1 == x.lane)).map (·.2)).getD ⟨0, 0, 0, 0⟩
                  { wholeAcc x o.size (readInp e (inX (8 * o.size) c) x.lane) 0 with exp := o.op + 16 * o.ty }))

/-- Must the read of an object at issue wait for an older store of its lane (R94)? -/
def objectBlocked (e : Env) (ls : List LaneAt) : Bool :=
  ls.any (fun x => x.locs.any (fun p => blockedBy e.g.ctx.ops x.lane p.1 p.2 { rel := false, sc := false, scope := .group }))

/-- The objects of an spred, read at issue in each active lane after the lane's older stores to them (R361). -/
def spredObjects (s : State) (e : Env) (ls : List LaneAt) : Passed (List (Nat × SpredObj)) :=
  let fails := dataErrors s ls
  if fails ≠ 0 then .inl (takeTrap s e (dataTrap e ls fails))
  else if objectBlocked e ls then .inl (stall s e)
  else
    let s := ls.foldl (fun s x => x.locs.foldl (fun s p => observe s e.actor p.1 p.2) s) s
    let os := ls.map (fun x => (x.lane, spredOf (locsRead s x.locs)))
    let bad := maskOf (fun l => os.any (fun x => x.1 == l && x.2.isNone))
    if bad != 0 then .inl (takeTrap s e { cause := 0x02, lanes := bad })
    else .inr (s, os.filterMap (fun x => x.2.map (fun o => (x.1, o))))

/-- The lanes of accesses, as an issue that soils its team names them. -/
def accLanes (accs : List Acc) : List LaneAt := accs.map (fun a => { lane := a.lane, ptr := a.ptr, locs := [] })

/-- spred (R361). The switch takes whatever is sent: the rules give its input queue no capacity, and the model has no such
queue. (DESIGN CHOICE, log 89) -/
def execSpred (m : MHdr) (b c : Src) (s : State) : Host.Outcome State Fault Refusal :=
  onIssue 0x6E s (fun e s =>
    let act := e.active m.guard
    match operandFault e m.guard act (inX 32 b :: inX 32 c :: addrInp m) [] [] with
    | some t => takeTrap s e t
    | none =>
      if memStalls s e .st || captureFull s e.t then stall s e
      else
        withAccess s e m act 2 .load (fun _ => 32) 32 false (fun s ls =>
          (spredObjects s e ls).go (fun s os =>
            (spredAccs s e m b c os).go (fun s accs =>
              let o := (os.head?.map (·.2)).getD ⟨0, 0, 0, 0⟩
              advance (soilLanes s e (accLanes accs)) e (e.g.addMem .st (.spred o.op o.ty) accs m.ord m.scope e.pc [])))))

end Sys2Proof.Machine
end

