-- ==== Sys2Proof/Machine/Matrix.lean ====
section
/-! DEFINITION. The matrix and tile instructions up to their arrival or issue (R153 to R159, R161 to R164, R170, R332,
R333, R367), and the latch. Passes and tile accesses are performed in Engine.lean. -/

namespace Sys2Proof

/-- The width of an element in bits (Table 12-2). -/
def MatTy.bits (t : MatTy) : Nat :=
  match t with
  | .f64 => 64
  | .f32 => 32
  | .f16 | .bf16 => 16
  | .e2m1 => 4
  | _ => 8

/-- The format of a floating-point input. -/
def MatTy.fmt (t : MatTy) (byte : Nat) : Machine.Fmt :=
  match t with
  | .f64 => .f64
  | .f32 => .f32
  | .f16 => .f16
  | .bf16 => .bf16
  | .e4m3 => .e4m3
  | .e5m2 => .e5m2
  | .e3m2 => .e3m2
  | .e2m3 => .e2m3
  | .e2m1 => .e2m1
  | _ => Machine.Fmt.p3109 byte

/-- The value of an element. -/
def MatTy.val (t : MatTy) (byte x : Nat) : Machine.FV :=
  match t with
  | .i8 => Machine.FV.ofInt (Machine.sint 8 x)
  | .n8 => Machine.FV.ofInt (x : Nat)
  | _ => (t.fmt byte).decode x

/-- K of Table 12-2: 64 bytes of elements. -/
def MatTy.k (t : MatTy) : Nat := 512 / t.bits

/-- The size of an accumulator in bytes. -/
def AccTy.size (t : AccTy) : Nat :=
  match t with
  | .f64 => 8
  | _ => 4

/-- N (R155). -/
def MatF.cols (f : MatF) : Nat := 32 * (f.n.val + 1)

end Sys2Proof

namespace Sys2Proof.Machine

open Sys2Proof

/-! ### Tile ranges -/

/-- A range of the tile store: start and length. -/
abbrev TRange := Nat × Nat

/-- Do two ranges share a byte? -/
def TRange.meets (a b : TRange) : Bool := decide (a.1 < b.1 + b.2) && decide (b.1 < a.1 + a.2)

/-- The B and C ranges of a matrix instruction for a crew of `cnt` (R155). -/
def matRanges (f : MatF) (cnt : Nat) : TRange × TRange :=
  ((f.b.toNat * 256, 64 * f.cols), (f.c.toNat * 256, 32 * cnt * f.cols * f.tyc.size))

/-- The accesses that stand for ranges of the tile store in an operation's record. -/
def rangeAcc (team : Nat) (r : TRange) : Acc :=
  { lane := 0, off := 0, loc := .tile team r.1, size := r.2, val := 0, exp := 0, done := false, posted := false, ptr := 0 }

/-! ### Crews -/

/-- The %crew checks of R153. -/
def crewOk (c ngroups index : Nat) : Bool :=
  let n := fld c 0 3
  let ms := crewMembers c
  decide (2 ≤ n) && decide (n ≤ 6) && ms.eraseDups.length == ms.length && ms.all (fun m => decide (m < ngroups))
    && ms.contains index && fld c (3 + 5 * n) (64 - (3 + 5 * n)) == 0

/-- A matrix instruction as its members compare it: the 96 bits without PN and PG (R157). -/
def latchWord (i : Instr) : BitVec 96 :=
  match encode i with
  | some w => BitVec.ofNat 96 (setFld w.toNat 74 4 0)
  | none => 0

/-- The entries that an engine holds (R165). A set that a running instruction will leave behind stands in that
instruction's entry. (DEDUCED, log 50) -/
def heldEntries (s : State) (die cluster : Nat) : Nat :=
  let inEntry (k : Crew) : Bool := k.st == .kept && s.crews.any (fun x => x.order == k.order && x.st != .kept)
  (s.crews.filter (fun k => k.die == die && k.cluster == cluster && !inEntry k)).length

/-- The rows of a register slice of `n` registers in every lane (R154, R170). -/
def sliceRows (r : RegCtx) (a n : Nat) : List Nat := (List.range 32).map (fun l => r.frame.vs a l n)

/-- The kept set of a crew (R161). -/
def keptOf (s : State) (team : Nat) (crew : BitVec 64) : Option Crew :=
  s.crews.find? (fun k => k.st == .kept && k.team == team && k.crew == crew)

/-- Change one crew entry. -/
def setCrew (s : State) (k : Crew) : State :=
  { s with crews := s.crews.map (fun x => if x.id == k.id then k else x) }

/-- A metadata queue of a cluster. -/
def metaOf (s : State) (die cluster q : Nat) : List (List Byte) :=
  match s.metaq.find? (fun m => m.die == die && m.cluster == cluster && m.q == q) with
  | some m => m.entries
  | none => []

/-- Replace a metadata queue; an empty one is not listed. -/
def setMeta (s : State) (die cluster q : Nat) (es : List (List Byte)) : State :=
  let rest := s.metaq.filter (fun m => !(m.die == die && m.cluster == cluster && m.q == q))
  { s with metaq := if es = [] then rest else { die := die, cluster := cluster, q := q, entries := es } :: rest }

/-- The metadata queue of a latched instruction: bits 10:9 of an mmas (R162). -/
def Crew.metaq (k : Crew) : Option Nat := if fld k.word.toNat 88 8 = 0x81 then some (fld k.word.toNat 9 2) else none

/-- The member count of an entry. -/
def Crew.count (k : Crew) : Nat := fld k.crew.toNat 0 3

/-- RU of a latched instruction. -/
def Crew.reuse (k : Crew) : Bool := bitOf k.word.toNat 73

/-- The members of an assembled entry are released from the latch: each waiting one goes on at the next instruction
(R157). -/
def releaseMembers (s : State) (k : Crew) : State :=
  { s with groups := s.groups.map (fun g =>
      match g.wait with
      | some w =>
        match w.cont with
        | .latch id =>
          if id == k.id then
            (g.setPc ((List.range 8).filter (fun j => bitOf w.slices.toNat j)) (match k.members.find? (fun m => m.place == g.place) with
                | some m => m.pc.next
                | none => ⟨0, 0⟩)).released s.clock
          else g
        | _ => g
      | none => g) }

/-- The latch lets an assembled instruction go (R157, R161): its members are released, a kept set is taken or released,
and the entry waits for its passes. (DEDUCED, log 50) -/
def launch (s : State) (k : Crew) (taken : List (List Byte)) : State :=
  let s := releaseMembers s k
  let k' := { k with st := .running 0 taken, since := s.clock }
  let s := setCrew s k'
  if !k.reuse then { s with crews := releaseKept s.crews (fun x => x.team == k.team && x.crew == k.crew) }
  else if k.fromKept then s
  else
    let kept : Crew := { k with id := s.nextUid, st := .kept, fromKept := false, dropKept := false,
                                members := k.members.map (fun m => { m with sa := [], sb := [], rows := 0 }) }
    { s with nextUid := s.nextUid + 1, crews := s.crews ++ [kept] }

/-- The oldest assembled mmas that waits for entries of a queue (R162). -/
def sparseHead (s : State) (die cluster q : Nat) : Option Crew :=
  leastBy (fun k => [k.order]) (s.crews.filter (fun k =>
    k.die == die && k.cluster == cluster && k.st == .gathering && k.order != 0 && k.metaq == some q))

/-- Release the assembled mmas whose entries are in the queue, in assembly order (R162, R335). -/
def sparseGo (die cluster q : Nat) : Nat → State → State
  | 0, s => s
  | n + 1, s =>
    match sparseHead s die cluster q with
    | none => s
    | some k =>
      let es := metaOf s die cluster q
      if k.count ≤ es.length then
        sparseGo die cluster q n (launch (setMeta s die cluster q (es.drop k.count)) k (es.take k.count))
      else s

/-- The last member has joined (R157): the instruction is assembled and goes at once, or an mmas when its metadata
entries are in the queue (R162). -/
def assembleCrew (s : State) (id : Nat) : State :=
  match s.crews.find? (fun k => k.id == id) with
  | none => s
  | some k =>
    let k := { k with order := s.nextUid + 1 }
    let s := setCrew { s with nextUid := s.nextUid + 1 } k
    match k.metaq with
    | none => launch s k []
    | some q => sparseGo k.die k.cluster q 33 s

/-- A mismatched entry (R157): every member in it and the arriving one take crew mismatch; a tombstone is left for the
others. (DEDUCED, log 50) -/
def mismatch (s : State) (e : Env) (k : Crew) (lanes : Mask) : State :=
  let s := failMembers s k 0x16
  let old := match k.st with | .tombstone l => l | _ => crewMembers k.crew.toNat
  let here := k.members.filterMap (fun m => (crewMembers k.crew.toNat)[m.pos]?)
  let stays (i : Nat) : Bool := s.groups.any (fun g => g.team == k.team && g.index == i && !g.exited)
  let left := old.filter (fun i => i != e.g.index && !here.contains i && stays i)
  let k' := { k with st := .tombstone left, members := [], fromKept := false }
  let s := setCrew s k'
  let s := { s with crews := releaseKept (s.crews.filter (fun x => !(x.id == k.id && left == []))) (fun x => x.dropKept) }
  takeTrap s e { cause := 0x16, lanes := lanes }

/-- The A registers, scales and metadata of a matrix instruction beyond its fields. -/
structure MatUse where
  regs : Nat
  sa   : Option Nat
  sb   : Option Nat
  deriving DecidableEq, Repr

/-- A member joins its crew's entry, or makes it (R157, R161, R170). (DEDUCED, log 46) -/
def joinCrew (s : State) (e : Env) (i : Instr) (f : MatF) (u : MatUse) (act : Mask) (kept : Option Crew)
    (entry : Option Crew) : State :=
  let pos := (crewMembers e.g.crew.toNat).findIdx (fun m => m == e.g.index)
  let rows := match kept with
    | some k => ((k.members.find? (fun m => m.pos == pos)).map (·.a)).getD []
    | none => sliceRows e.g.main f.a.val u.regs
  let sb := match u.sb with
    | some b => if pos = 0 then ((List.range (f.n.val + 1)).map (fun j => sliceRows e.g.main (b + j) 1)).flatten else []
    | none => []
  let sa := match u.sa with
    | some a => sliceRows e.g.main a 1
    | none => []
  let mem : Member := { pos := pos, place := e.g.place, op := e.g.nextOp, pc := e.pc, rows := act, a := rows, sa := sa, sb := sb }
  let cnt := fld e.g.crew.toNat 0 3
  let rs := matRanges f cnt
  let g := e.g.addOp .mat .mat [rangeAcc e.t.uid rs.1, rangeAcc e.t.uid rs.2] .weak .group e.pc []
  let k : Crew := match entry with
    | some k => { k with members := k.members ++ [mem], fromKept := k.fromKept || kept.isSome }
    | none => { id := s.nextUid, die := e.g.place.die, cluster := e.t.cluster, team := e.t.uid, crew := e.g.crew,
                word := latchWord i, st := .gathering, members := [mem], since := s.clock, order := 0,
                fromKept := kept.isSome, dropKept := false }
  let s := match entry with
    | some _ => setCrew s k
    | none => { s with nextUid := s.nextUid + 1, crews := s.crews ++ [k] }
  assembleCrewIf k (beginWait s e g 8 0 0 0 (.latch k.id))
where
  /-- Assemble once every listed member has joined. -/
  assembleCrewIf (k : Crew) (s : State) : State :=
    if k.members.length = k.count then assembleCrew s k.id else s

/-- The arrival at the latch after the checks of R332 (R157, R161, R165). Where two entries of the team list the member under
different crews, it is held against the one that was made first. (DESIGN CHOICE, log 91) -/
def matArrive (s : State) (e : Env) (i : Instr) (f : MatF) (u : MatUse) (act : Mask) (kept : Option Crew) : State :=
  let entry := s.crews.find? (fun k => k.lists e.t.uid e.g.index
    && (match k.st with | .gathering => true | .tombstone _ => true | _ => false))
  if entry.isNone && decide (32 ≤ heldEntries s e.g.place.die e.t.cluster) then stall s e
  else
    let s := { s with crews := releaseKept s.crews (fun k => k.lists e.t.uid e.g.index && k.crew != e.g.crew) }
    match entry with
    | some k =>
      if k.st == .gathering && k.crew == e.g.crew && k.word == latchWord i then joinCrew s e i f u act kept (some k)
      else mismatch s e k (e.raised act)
    | none => joinCrew s e i f u act kept none

/-- The shared issue of mma, mmas and mmx: the checks of R332 in their order, then the arrival. -/
def matIssue (op : Nat) (i : Instr) (f : MatF) (u : MatUse) (s : State) : Host.Outcome State Fault Refusal :=
  onIssue op s (fun e s =>
    let act := e.active f.guard
    let r := e.g.main
    let bad : State := takeTrap s e { cause := 0x02, lanes := e.raised act }
    let inF (a n : Nat) : Bool := decide (a < 384) && r.inFrame a n
    if !crewOk e.g.crew.toNat e.t.ngroups e.g.index then bad
    else if !inF f.a.val u.regs || (match u.sa with | some a => !inF a 1 | none => false)
        || (match u.sb with | some b => !inF b (f.n.val + 1) | none => false) then bad
    else
      let kept := if f.ru then keptOf s e.t.uid e.g.crew else none
      let first := (crewMembers e.g.crew.toNat).head? == some e.g.index
      if e.g.unwaitedPred f.guard.pred.val || (kept.isNone && e.g.unwaited f.a.val u.regs)
          || (match u.sa with | some a => e.g.unwaited a 1 | none => false)
          || (first && (match u.sb with | some b => e.g.unwaited b (f.n.val + 1) | none => false)) then
        takeTrap s e { cause := 0x06, lanes := e.raised act }
      else
        let rs := matRanges f (fld e.g.crew.toNat 0 3)
        let lim := e.t.tileG * 4096
        if lim < rs.1.1 + rs.1.2 ∨ lim < rs.2.1 + rs.2.2 ∨ TRange.meets rs.1 rs.2 then
          takeTrap s e { cause := 0x19, lanes := e.raised act }
        else if e.g.full .mat then stall s e
        else matArrive s e i f u act kept)

/-- mma (R160, R332). -/
def execMma (f : MatF) (s : State) : Host.Outcome State Fault Refusal :=
  matIssue 0x80 (.mma f) f { regs := 16, sa := none, sb := none } s

/-- mmas (R162, R335). -/
def execMmas (f : MatF) (q : Fin 4) (s : State) : Host.Outcome State Fault Refusal :=
  matIssue 0x81 (.mmas f q) f { regs := 8, sa := none, sb := none } s

/-- mmx (R145, R163, R336). -/
def execMmx (f : MatF) (sa : Fin 512) (s : State) : Host.Outcome State Fault Refusal :=
  matIssue 0x82 (.mmx f sa) f { regs := 16, sa := some sa.val, sb := some f.low.toNat } s

/-! ### Tile instructions (R164, R367) -/

/-- The W right that a tst with active lanes needs of segment 3 (R65), after the check of its range, which gives 0x19 alone
(R377): a descriptor that does not pass is 0x08, one without W is 0x0A, a failing segment table a double fault. TRAPADDR
names the row of the lowest active lane, and the kind is that of a store. (DESIGN CHOICE, log 72) -/
def tileWrites (s : State) (e : Env) (act : Mask) (base row : Nat) : Passed Unit :=
  let addr := segPtr 3 (base + (lowestLane act).getD 0 * row)
  let bad (c : Nat) (s : State) : Passed Unit :=
    .inl (takeTrap s e { cause := c, lanes := act, addr := addr, info := dataInfo e.pc 1 c })
  if act = 0 then .inr (s, ())
  else
    match governing s e.view 3 with
    | (.dbl, s) => .inl (dblFault s e 0x0C addr)
    | (.bad c, s) => bad c s
    | (.ok d, s) => if bitOf d 129 then .inr (s, ()) else bad 0x0A s

/-- The shared issue of the tile instructions: register span, tile range, the W right of a tst, and the operation. A range of
no length is judged by its start, so that a tzero of length 0 beyond the tile store raises 0x19.
(DESIGN CHOICE, log 92) -/
def tileIssue (op : Nat) (gd : Guard) (span : Option (Nat × Nat)) (range : TRange) (body : OpBody)
    (accs : Env → Mask → List Acc) (unw : List (Nat × Nat × Bool)) (s : State) : Host.Outcome State Fault Refusal :=
  onIssue op s (fun e s =>
    let act := e.active gd
    let out := match span with | some (a, n) => !(decide (a < 384) && e.g.main.inFrame a n) | none => false
    if out then takeTrap s e { cause := 0x02, lanes := e.raised act }
    else
      match operandFault e gd act [] span.toList [] with
      | some t => takeTrap s e t
      | none =>
        if e.t.tileG * 4096 < range.1 + range.2 then takeTrap s e { cause := 0x19, lanes := e.raised act }
        else if e.g.full .mat then stall s e
        else
          let write (s : State) : Passed Unit := match body with
            | .tst => tileWrites s e act range.1 (range.2 / 32)
            | _ => .inr (s, ())
          (write s).go (fun s _ =>
            advance s e (e.g.addOp .mat body (rangeAcc e.t.uid range :: accs e act) .weak .group e.pc unw)))

/-- The access of one lane's row. -/
def rowAcc (team lane base n val : Nat) : Acc :=
  { lane := lane, off := 0, loc := .tile team (base + lane * (4 * n)), size := 4 * n, val := val, exp := 1, done := false,
    posted := false, ptr := 0 }

/-- tld: the rows of the active lanes (R164). -/
def execTld (gd : Guard) (a : Fin 512) (b : BitVec 18) (n : Fin 8) (s : State) : Host.Outcome State Fault Refusal :=
  let w := 32 * (n.val + 1)
  tileIssue 0x83 gd (some (a.val, w)) (b.toNat * 256, 128 * w) (.tld a.val w)
    (fun e act => (lanesOf act).map (fun l => rowAcc e.t.uid l (b.toNat * 256) w 0)) [(a.val, w, false)] s

/-- tst: its registers are read at issue (R164, R367). -/
def execTst (gd : Guard) (a : Fin 512) (b : BitVec 18) (n : Fin 8) (s : State) : Host.Outcome State Fault Refusal :=
  let w := 32 * (n.val + 1)
  tileIssue 0x84 gd (some (a.val, w)) (b.toNat * 256, 128 * w) .tst
    (fun e act => (lanesOf act).map (fun l => rowAcc e.t.uid l (b.toNat * 256) w (e.g.main.frame.vs a.val l w))) [] s

/-- The mark in an operation's record that its one effect happens: the guard holds in the lowest live lane (R273). -/
def onceAcc (e : Env) (gd : Guard) (range : TRange) : List Acc :=
  if e.once gd = 0 then [] else [{ rangeAcc e.t.uid range with exp := 1 }]

/-- tzero (R164). -/
def execTzero (gd : Guard) (b : BitVec 18) (len : BitVec 18) (s : State) : Host.Outcome State Fault Refusal :=
  let r : TRange := (b.toNat * 256, len.toNat * 256)
  tileIssue 0x85 gd none r (.tzero r.1 r.2) (fun e _ => onceAcc e gd r) [] s

/-- tcvt (R164, R368). -/
def execTcvt (gd : Guard) (dst : MatTy) (src : AccTy) (sat : Bool) (c : BitVec 18) (n : Fin 8) (fmt : BitVec 8)
    (s : State) : Host.Outcome State Fault Refusal :=
  let w := 32 * (n.val + 1)
  let r : TRange := (c.toNat * 256, 32 * w * src.size)
  tileIssue 0x86 gd none r (.tcvt dst src sat r.1 w fmt.toNat) (fun e _ => onceAcc e gd r) [] s

end Sys2Proof.Machine
end

