-- ==== Sys2Proof/Machine/Queue.lean ====
section
/-! DEFINITION. qpush, qpush.task and qpop up to their issue (R171 to R176, R343 to R345). Their grants and entries are
performed in Perform.lean. -/

namespace Sys2Proof.Machine

open Sys2Proof

/-- A user queue as its header describes it (Table 14-1): places of header and ring, entry size, capacity. -/
structure UserQ where
  ptr  : Nat
  head : Nat
  ring : Nat
  esz  : Nat
  cap  : Nat
  deriving DecidableEq, Repr

/-- A range of segment 2 under R172: the steps of R67, then segment 2 itself, for the ring as for the header.
(DESIGN CHOICE, log 94) -/
def queueRange (s : State) (e : Env) (p n align : Nat) : Chk × State :=
  match checkRange s e.view .atomic (fld p 44 20) (fld p 0 44 : Nat) n align with
  | (.inl c, s) => (c, s)
  | (.inr d, s) =>
    if fld p 44 20 ≠ 2 then (.fail 5 0x0A 0, s) else placeRange s e.view .atomic 2 (fld p 0 44) n d

/-- The header of a queue, read at issue with the checks of R172, for the lowest active lane and after its older stores to it
(R94); an older pop does not hold back a later one (R175). The ring is the pointer that the header names.
(DEDUCED, log 30) -/
def headerOf (s : State) (e : Env) (lane : Mask) (p : Nat) (pops : Bool) : Passed UserQ :=
  let pop (o : Op) : Bool := match o.body with | .qpop .. => true | _ => false
  match queueRange s e p 64 64 with
  | (.fail _ c _, s) => .inl (takeTrap s e { cause := c, lanes := lane, addr := p, info := dataInfo e.pc 2 c })
  | (.dbl c, s) => .inl (dblFault s e c p)
  | (.ok ls, s) =>
    if ls.any (fun x => (lanesOf lane).any (fun l =>
        blockedBy (e.g.ctx.ops.filter (fun o => !(pops && pop o))) l x.1 x.2 { rel := false, sc := false, scope := .group })) then
      .inl (stall s e)
    else
      let s := ls.foldl (fun s x => observe s e.actor x.1 x.2) s
      let h := locsRead s ls
      let cap := fld h 192 5
      if fld h 202 310 != 0 || fld h 197 3 != 0 || cap = 0 || 20 < cap then
        .inl (takeTrap s e { cause := 0x02, lanes := lane })
      else
        .inr (s, { ptr := p, head := (match ls with | (x, _) :: _ => x.num | [] => 0), ring := fld h 128 64,
                   esz := 8 * 2 ^ fld h 200 2, cap := cap })

/-- The ring of a queue, checked (R172): the queue with the place of its ring. -/
def ringOf (s : State) (e : Env) (lane : Mask) (q : UserQ) : Passed UserQ :=
  match queueRange s e q.ring (q.esz * 2 ^ q.cap) 1 with
  | (.fail _ c _, s) => .inl (takeTrap s e { cause := c, lanes := lane, addr := q.ring, info := dataInfo e.pc 2 c })
  | (.dbl c, s) => .inl (dblFault s e c q.ring)
  | (.ok rs, s) => .inr (s, { q with ring := (match rs with | (x, _) :: _ => x.num | [] => 0) })

/-- The checks of a register span whose length depends on the header (R172, R106). -/
def spanFault (e : Env) (act : Mask) (n k : Nat) : Option Trap :=
  if !e.g.ctx.inFrame n k then some { cause := 0x02, lanes := act }
  else if e.g.unwaited n k then some { cause := 0x06, lanes := act }
  else none

/-- Go on with a queue whose entries lie in registers from `vN` on, where all checks pass. Illegal and unwaited operands come
before the checks of memory as far as they are known (R183): the two registers that every entry has are among the
instruction's own operands, and the whole span is checked once the header is known, before the ring. (DEDUCED, log 30) -/
def withQueue (s : State) (e : Env) (act : Mask) (n lane p : Nat) (pops : Bool) (k : State → UserQ → State) : State :=
  let low := maskOf (fun j => j == lane)
  (headerOf s e low p pops).go (fun s q =>
    match spanFault e act n (q.esz / 4) with
    | some t => takeTrap s e t
    | none => (ringOf s e low q).go k)

/-- One access of a queue operation for a lane: `val` is the entry. -/
def queueAcc (lane head ptr val : Nat) : Acc :=
  { lane := lane, off := 0, loc := .smem head, size := 16, val := val, exp := 0, done := false, posted := false,
    ptr := ptr }

/-- qpush (R173, R345): the entries are read at issue. -/
def execQpush (gd : Guard) (p : Fin 8) (a b : Fin 384) (s : State) : Host.Outcome State Fault Refusal :=
  onIssue 0x93 s (fun e s =>
    let act := e.active gd
    let ia := inX 64 (.v a)
    match operandFault e gd act [ia, inX 64 (.v b)] [] [p.val] with
    | some t => takeTrap s e t
    | none =>
      match lowestLane act with
      | none => advance s e e.g
      | some l =>
        withQueue s e act b.val l (readInp e ia l) false (fun s q =>
          if e.g.full .task then stall s e
          else
            let accs := (lanesOf act).map (fun l => queueAcc l q.head q.ptr (e.g.main.frame.vs b.val l (q.esz / 4)))
            advance (soil s e.t.uid) e
              (e.g.addOp .task (.qpush p.val q.head q.esz q.cap q.ring) accs .acqrel .device e.pc (predUnw p))))

/-- qpush.task (R173, R345): one record per active lane; a die word with nonzero other bits is an illegal operand (R172). -/
def execQpushTask (gd : Guard) (p : Fin 8) (a b : Fin 384) (s : State) : Host.Outcome State Fault Refusal :=
  onIssue 0x93 s (fun e s =>
    let act := e.active gd
    let ia := inX 32 (.v a)
    match valueFault e gd act [ia] (fun l => decide (32 ≤ readInp e ia l)) (operandFault e gd act [ia] [(b.val, 16)] [p.val]) with
    | some t => takeTrap s e t
    | none =>
      match lowestLane act with
      | none => advance s e e.g
      | some l =>
        let w := readInp e ia l
        if e.g.full .task then stall s e
        else
          let accs := (lanesOf act).map (fun l =>
            { queueAcc l 0 0 (e.g.main.frame.vs b.val l 16) with loc := .tmem e.t.uid 0, size := 0 })
          advance (soil s e.t.uid) e
            (e.g.addOp .task (.qpushTask p.val (w % 4) (w / 4)) accs .acqrel .device e.pc (predUnw p)))

/-- qpop (R343, R175). -/
def execQpop (gd : Guard) (d a : Fin 384) (s : State) : Host.Outcome State Fault Refusal :=
  onIssue 0x94 s (fun e s =>
    let act := e.active gd
    let ia := inX 64 (.v a)
    match operandFault e gd act [ia] [(d.val, 2)] [] with
    | some t => takeTrap s e t
    | none =>
      match lowestLane act with
      | none => advance s e e.g
      | some l =>
        withQueue s e act d.val l (readInp e ia l) true (fun s q =>
          if e.g.full .task || captureFull s e.t then stall s e
          else
            let accs := (lanesOf act).map (fun l => queueAcc l q.head q.ptr 0)
            advance s e
              (e.g.addOp .task (.qpop d.val q.head q.esz q.cap q.ring) accs .weak .device e.pc
                [(d.val, q.esz / 4, false)])))

end Sys2Proof.Machine
end

