-- ==== Sys2Proof/Machine/Perform.lean ====
section
/-! DEFINITION. Performing issued operations (R94 to R115, R121 to R126, R175, R205 to R211, R294, R351, R365): one
access at a time, then the operation's completion, its registers and its place in its class (R104), and failures after
issue (R183, R197). -/

namespace Sys2Proof.Machine

open Sys2Proof

/-! ### Finding operations -/

/-- An operation of a group by name. -/
def Group.findOp (g : Group) (id : Nat) : Option Op := g.allOps.find? (fun o => o.id == id)

/-- Put an operation's record back where it stands, and let completed ones leave their classes (R104). -/
def Group.putOp (g : Group) (o : Op) : Group :=
  let put (r : RegCtx) : RegCtx := RegCtx.retire { r with ops := r.ops.map (fun x => if x.id == o.id then o else x) }
  { g with main := put g.main, handler := g.handler.map (fun h => { h with ctx := put h.ctx }) }

/-- The group that holds an operation: the resident one of the place, one that has left it (R33), or a saved one
(R201). -/
def holderOf (s : State) (p : Place) (id : Nat) : Option Group :=
  let here (g : Group) : Bool := g.place == p && (g.findOp id).isSome
  (s.groups ++ s.departed ++ (s.saved.map (·.groups)).flatten).find? here

/-- Put a resident, departed or saved group back. -/
def putGroup (s : State) (g : Group) : State :=
  let put (x : Group) : Group := if x.place == g.place && x.team == g.team && x.index == g.index then g else x
  { mapGroups s put with departed := s.departed.map put }

/-- The operations of the same register context that are older: a handler's accesses are ordered among themselves and not
after those of the group it serves (R98 names no handler). (DESIGN CHOICE, log 88) -/
def Group.olderOps (g : Group) (id : Nat) : List Op :=
  let mine := if g.main.ops.any (fun o => o.id == id) then g.main.ops
    else match g.handler with | some h => h.ctx.ops | none => []
  mine.filter (fun o => decide (o.id < id))

/-! ### One access -/

/-- Does a write have to wait for the host to give the line up (R216, R217)? -/
def hostBlocks (s : State) (x : Loc) (n : Nat) : Bool :=
  match x with
  | .phys a => hostHolds s (a / 128) || hostHolds s ((a + n - 1) / 128)
  | _ => false

/-- Ask the host for the lines of a range. -/
def askHost (s : State) (x : Loc) (n : Nat) : State :=
  match x with
  | .phys a =>
    let s := if hostHolds s (a / 128) then snoopHost s (a / 128) else s
    if hostHolds s ((a + n - 1) / 128) then snoopHost s ((a + n - 1) / 128) else s
  | _ => s

/-- The contention counter of a line: that of its home slice at physical line-address bits 16:7 XOR 26:17 (R111). -/
def contentionIdx (a : Nat) : Nat := lineHome a * 1024 + ((a / 2 ^ 7 % 1024) ^^^ (a / 2 ^ 17 % 1024))

/-- The value of a contention counter. -/
def contentionAt (s : State) (idx : Nat) : Nat :=
  match s.contention.find? (fun c => c.idx == idx) with
  | some c => c.count
  | none => 0

/-- A contention counter after an atomic of a core with a new value: an atomic of another core than the last restarts its
period of 1,024 clocks (R111). A counter that no atomic has reached is 0. -/
def countAtomic (s : State) (w : Actor) (idx count : Nat) : State :=
  let since := match s.contention.find? (fun c => c.idx == idx) with
    | some c => if c.die == w.die && c.core == w.core then c.since else s.clock
    | none => s.clock
  { s with contention := { idx := idx, count := count, die := w.die, core := w.core, since := since }
      :: s.contention.filter (fun c => c.idx != idx) }

/-- Is a registration of a word of a line revoked for an atomic of another core (R111): one of the words that it
reaches, or one that a die gives up with the line, at the home because the directory names the die, for a grant because
the granted die takes the line exclusive (R209)? -/
def revokedFor (s : State) (w : Actor) (a n : Nat) (granted : Bool) : Bool :=
  s.l1.any (fun y => y.reg && !(y.die == w.die && y.core == w.core)
    && ((decide (a / 4 * 4 ≤ y.addr) && decide (y.addr < a + n))
      || (y.addr / 128 == a / 128
        && (if granted then y.die != w.die
            else s.dir.any (fun d => d.line == a / 128 && d.holder == y.die && d.holder != 4 && d.halves == 0)))))

/-- The former value and the write of a read-modify-write, where R111 places it. The former value of another storer's
shuttered cell is observed before the cell settles (R124). -/
def performRmw (s : State) (w : Actor) (returns atBank : Bool) (ctx : Nat) (x : Loc) (n : Nat) (f : Nat → Nat) :
    Nat × State :=
  let old := locRead s x n
  let s := settleForeign (observe s w x n) w x n
  match x with
  | .phys a =>
    let mine := (List.range ((a + n + 3) / 4 - a / 4)).all (fun k =>
      s.l1.any (fun y => y.reg && y.addr == (a / 4 + k) * 4 && y.die == w.die && y.core == w.core))
    let idx := contentionIdx a
    let c := contentionAt s idx
    let risen := if revokedFor s w a n false then Min.min 3 (c + 1) else c
    let here (s : State) : State := l1Store (dirExclusive (hostFetch s a n) (a / 128) w.die) w.die w.core a n (f old)
    let home (s : State) : State := actWrite (hostFetch s a n) w x n (f old)
    if !registers s a then (old, home s)
    else if 48 ≤ w.core then (old, home s)
    else if atBank || captures s ctx then (old, home (countAtomic s w idx risen))
    else if mine then (old, here (countAtomic s w idx c))
    else if !returns || decide (2 ≤ c) then (old, home (countAtomic s w idx risen))
    else (old, here (countAtomic s w idx (if revokedFor s w a n true then Min.min 3 (c + 1) else c - 1)))
  | _ => (old, actWrite s w x n (f old))

/-- The slice that homes a place (R88, R210). -/
def homeOf (x : Loc) : Nat :=
  match x with
  | .phys a => lineHome a
  | .smem a => a / 256 % 256
  | _ => 256

/-- sts on one cell (R123, R352): the result and the state. -/
def performSts (s : State) (w : Actor) (me : Storer) (x : Loc) (n v : Nat) : Bool × State :=
  let old := locRead s x n
  let s := settleForeign s w x n
  let s := { s with shutters := s.shutters.filter (fun c => !(c.loc.overlaps c.size x n && !(c.loc == x && c.size == n))) }
  if s.shutters.any (fun c => c.loc == x && c.size == n) then (true, actWrite s w x n v)
  else if (s.shutters.filter (fun c => homeOf c.loc == homeOf x)).length < 4096 then
    (true, actWrite { s with shutters := { loc := x, size := n, former := old, owner := me, seen := false } :: s.shutters }
      w x n v)
  else (false, actWrite s w x n v)

/-- retract on one cell (R125, R9): no copy of the value that it withdraws survives (R126). -/
def performRetract (s : State) (me : Storer) (x : Loc) (n : Nat) : Bool × State :=
  match s.shutters.find? (fun c => c.loc == x && c.size == n && c.owner == me) with
  | none => (false, s)
  | some c =>
    let s := { s with shutters := s.shutters.filter (fun y => !(y.loc == x && y.size == n && y.owner == me)) }
    if c.seen then (false, s) else (true, restoreCell s c)

/-- settle on one cell (R125). -/
def performSettle (s : State) (me : Storer) (x : Loc) (n : Nat) : State :=
  { s with shutters := s.shutters.filter (fun y => !(y.loc == x && y.size == n && y.owner == me)) }

/-- cctl on one line (Table 21-1). -/
def performCctl (s : State) (w : Actor) (sub : Nat) (scope : Scope) (line : Nat) : State :=
  let inLine (a : Nat) : Bool := a / 128 == line
  let core := match scope with | .group | .team => false | _ => true
  let sys := match scope with | .system => true | _ => false
  if sub = 3 then { s with held := s.held.filter (fun l => l != line) }
  else
    let wb (s : State) : State :=
      if core then
        (s.l1.filter (fun y => y.reg && inLine y.addr && y.die == w.die && y.core == w.core)).foldl
          (fun s y => revoke s y.addr) s
      else s
    let s1 := if sub = 0 ∨ sub = 2 then (let s := wb s; if sys then aliasWb s line else s) else s
    if sub = 1 ∨ sub = 2 then
      let s2 := if core then
          { s1 with l1 := s1.l1.filter (fun y => y.reg || !inLine y.addr || y.die != w.die || y.core != w.core) }
        else s1
      if sys then
        dirRecall (aliasEvict s2 line) (fun d => d.line == line && d.holder != 4)
      else s2
    else s1

/-! ### Failures after issue -/

/-- Has an operation a value to give back, so that its failure is delivered at the covering waitc (R183)? -/
def OpBody.returns (b : OpBody) : Bool :=
  match b with
  | .load .. | .atom _ _ (some _) | .cas .. | .cpadd _ (some _) | .touch | .tld .. | .qpop .. => true
  | _ => false

/-- Does an access fail as a store does: it reaches an alias window that is not writable (R150)? -/
def deniedWrite (s : State) (a : Acc) : Bool := accessFails s a.loc true && !accessFails s a.loc false

/-- Report the failure of a store, shutter operation or reduction from its replay record (R197). -/
def imprecise (s : State) (t : Team) (g : Group) (o : Op) (a : Acc) : State :=
  postError s t.ctx
    { code := 0x03, cause := 0x20, pc := pcWord o.pc, addr := a.ptr, who := whoWord t g, team := t.index,
      grid := t.grid.toNat, paddr := (match a.loc with | .phys p => p | _ => 0), exited := g.exited }

/-- An access fails: it is over. The failure of a store, of an operation that returns nothing, or of an atomic that may
not write is reported from its replay record (R150, R197); that of another operation with a result waits for its waitc
(R183). -/
def failAcc (s : State) (t : Team) (g : Group) (o : Op) (a : Acc) : Acc × Op × State :=
  let plain := match o.body with | .load .. | .touch | .tld .. => true | _ => false
  if o.body.returns && (plain || !deniedWrite s a) then
    ({ a with done := true, posted := true },
      { o with fail := some { cause := 0x21, addr := 0, info := BitVec.ofNat 64 (o.pc.idx % 2 ^ 28) } }, s)
  else
    let s := if o.fail.isSome then s else imprecise s t g o a
    ({ a with done := true, posted := o.body.returns, exp := Config.choice s.fresh % 2 },
      { o with fail := some (o.fail.getD { cause := 0x20, addr := 0, info := 0 }) }, { s with fresh := s.fresh + 1 })

/-- Record an operation that a capturing task orders (R233): 16 bytes of the area, whose contents nothing states.
(DESIGN CHOICE, log 10) -/
def recordCap (s : State) (t : Team) (g : Group) (o : Op) (lane : Nat) : State :=
  if recordsTask s t then
    captureStore { s with
      capture := s.capture ++ [{ ctx := t.ctx, task := t.task, team := t.index, group := g.index, op := o.id % 2 ^ 32, lane := lane }] }
      t.ctx 16 (Config.choice s.fresh)
  else s

/-- Does a store's unit touch DOORBELL (R190, Table 15-3)? (DEDUCED, log 49) -/
def ringsBell (a : Acc) : Bool :=
  let off := fld a.ptr 0 44
  fld a.ptr 44 20 == 9 && decide (off < 0x20) && decide (0x18 < off + a.size)

/-- Perform one access of an operation. An sts of a team that has been killed or flushed is performed, and its cell
settles with the team's other ones. (DESIGN CHOICE, log 103) -/
def performAcc (s : State) (t : Team) (g : Group) (o : Op) (a : Acc) : Acc × Op × State :=
  let w := groupActor t g
  let me := storerOf t g
  let write := match o.body with | .load .. | .cctl .. | .settle => false | _ => true
  let bad := a.size != 0 && ((a.posted && (o.body.returns || o.body == .store))
    || (match o.body with | .cctl .. => false | _ => accessFails s a.loc write))
  if bad then failAcc s t g o a
  else if write && hostBlocks s a.loc a.size then (a, o, askHost s a.loc a.size)
  else
    let fin (v : Nat) (s : State) : Acc × Op × State := ({ a with done := true, val := v }, o, watchAll s)
    let acq (s : State) : State := if o.acquires then acquireAt s g.place o.scope else s
    match o.body with
    | .load _ _ stream =>
      if a.size = 0 then fin 0 (acq s)
      else
        let r := performLoad s w (o.ord == .weak) stream a.loc a.size
        ({ a with done := true, val := r.1 }, o, acq r.2)
    | .store =>
      if a.size = 0 then fin a.val s
      else
        let s := performStore s w a.loc a.size a.val
        fin a.val (if ringsBell a then { s with irqs := s.irqs ++ [.doorbell t.ctx] } else s)
    | .atom op ty d =>
      let r := performRmw s w d.isSome false t.ctx a.loc a.size (fun x => atomNew op ty x a.val)
      fin r.1 (acq (recordCap r.2 t g o a.lane))
    | .cas _ _ =>
      let r := performRmw s w true false t.ctx a.loc a.size (fun x => if x = a.exp then a.val else x)
      fin r.1 (acq (recordCap r.2 t g o a.lane))
    | .cpadd wide _ =>
      let r := performRmw s w true true t.ctx a.loc a.size (fun x => cpaddNew wide x a.val)
      fin r.1 (acq (recordCap r.2 t g o a.lane))
    | .sts _ =>
      let r := performSts s w me a.loc a.size a.val
      let s := if (teamOf r.2 t.uid).isSome then r.2 else performSettle r.2 me a.loc a.size
      ({ a with done := true, exp := if r.1 then 1 else 0 }, o, watchAll s)
    | .retract _ =>
      let r := performRetract s me a.loc a.size
      ({ a with done := true, exp := if r.1 then 1 else 0 }, o, watchAll r.2)
    | .settle => fin 0 (performSettle s me a.loc a.size)
    | .cctl sub scope => fin 0 (performCctl s w sub scope (a.loc.num / 128))
    | _ => (a, o, s)

/-! ### Completion -/

/-- Change the frame that an operation writes: that of its depth, when it still exists and stands in the register file. -/
def Group.mapFrameAt (g : Group) (o : Op) (h : Frame → Frame) : Group :=
  let f (x : Frame) : Frame := if x.spilled then x else h x
  if g.main.ops.any (fun x => x.id == o.id) then
    if g.exited then g
    else if o.depth = g.calls.length then { g with main := { g.main with frame := f g.main.frame } }
    else if o.depth < g.calls.length then
      { g with calls := modAt g.calls (g.calls.length - 1 - o.depth) (fun c => { c with frame := f c.frame }) }
    else g
  else { g with handler := g.handler.map (fun h => { h with ctx := { h.ctx with frame := f h.ctx.frame } }) }

/-- Write a result predicate in the lanes of an operation (R8). -/
def Group.setPredOf (g : Group) (o : Op) (p : Nat) (v : Nat → Bool) : Group :=
  let m := maskOf (fun l => o.accs.any (fun a => a.lane == l))
  let set (r : RegCtx) : RegCtx := if r.ops.any (fun x => x.id == o.id) then r.setPred p m v else r
  { g with main := set g.main, handler := g.handler.map (fun h => { h with ctx := set h.ctx }) }

/-- The lanes of an operation, each once. -/
def Op.lanes (o : Op) : List Nat := (o.accs.map (·.lane)).eraseDups

/-- The value that the accesses of a lane have brought. -/
def Op.laneVal (o : Op) (l : Nat) : Nat :=
  (o.accs.filter (fun a => a.lane == l)).foldl (fun v a => v + a.val * 256 ^ a.off) 0

/-- Did an access of a lane fail? -/
def Op.laneFailed (o : Op) (l : Nat) : Bool := o.accs.any (fun a => a.lane == l && a.posted)

/-- Write `k` registers from `vD` in each lane: its value through `conv`, or where an access failed a free value (the
spec states none). (DEDUCED, log 40) -/
def Group.deliver (g : Group) (o : Op) (d k fresh : Nat) (conv : Nat → Nat) : Group :=
  g.mapFrameAt o (fun f => o.lanes.foldl (fun f l =>
    if o.laneFailed l then (List.range k).foldl (fun f j => f.setV (d + j) l (Config.choice (fresh + 32 * j + l))) f
    else f.setVs d l k (conv (o.laneVal l))) f)

/-- What a completed operation leaves in its group's registers. (DESIGN CHOICE, log 17) -/
def Group.landOp (g : Group) (o : Op) (fresh : Nat) : Group :=
  match o.body with
  | .load ty d _ => g.deliver o d (ty.width / 32) fresh (widen ty)
  | .atom _ ty (some d) => g.deliver o d (ty.width / 32) fresh id
  | .cas d words => g.deliver o d words fresh id
  | .cpadd wide (some d) => g.deliver o d (if wide then 4 else 2) fresh id
  | .qpop d _ esz _ _ => g.deliver o d (esz / 4) fresh id
  | .tld d n =>
    { o with accs := o.accs.filter (fun a => a.exp == 1) } |> fun o' => g.deliver o' d n fresh id
  | .sts p | .retract p => g.setPredOf o p (fun l => o.accs.any (fun a => a.lane == l && a.exp == 1))
  | .qpush p .. | .qpushTask p .. => g.setPredOf o p (fun l => o.accs.any (fun a => a.lane == l && a.exp == 1))
  | _ => g

/-- Does the frame that an operation of a group writes lie in the hatch area? -/
def Group.landsSpilled (g : Group) (o : Op) : Bool :=
  !g.exited && g.main.ops.any (fun x => x.id == o.id) && decide (o.depth ≤ g.calls.length)
    && (if o.depth = g.calls.length then g.main.frame.spilled
        else match g.calls[g.calls.length - 1 - o.depth]? with
          | some c => c.frame.spilled
          | none => false)

/-- What a pop brings to a spilled frame goes to its blocks in the area; no load is outstanding when the hatch spills
(R57, R187). -/
def landSpilled (s : State) (t : Team) (g : Group) (o : Op) : Option Nat × State :=
  match o.body with
  | .qpop d _ esz _ _ =>
    if g.landsSpilled o then
      let base := g.spillOff (g.calls.length - o.depth) + 128 * d
      areaPuts g.place t.ctx 7 4 ((o.lanes.map (fun l => (List.range (esz / 4)).map (fun j =>
        (base + 128 * j + 4 * l, fld (o.laneVal l) (32 * j) 32)))).flatten) s
    else (none, s)
  | _ => (none, s)

/-- An operation's record goes back; with all its accesses performed it completes (R104). A lane that waits for a word
behind one of them is tested again (R115). -/
def settleOp (s : State) (t : Team) (g : Group) (o : Op) : State :=
  if o.accs.all (fun a => a.done) && !o.done then
    match landSpilled s t g o with
    | (some c, s) => areaFault s t g (pcWord o.pc) 7 c
    | (none, s) =>
      let g := g.landOp o s.fresh
      let fail := match o.fail with | some f => if f.cause = 0x21 ∨ f.cause = 0x22 then some f else none | none => none
      watchAll (putGroup { s with fresh := if o.fail.isSome then s.fresh + 32 * 384 else s.fresh }
        (g.putOp { o with done := true, fail := fail }))
  else watchAll (putGroup s (g.putOp o))

/-- May an access of an operation be performed now (R94, R98, R113)? -/
def mayPerform (g : Group) (o : Op) (a : Acc) : Bool :=
  !a.done && !blockedBy (g.olderOps o.id) a.lane a.loc a.size o.rank
    && (match o.body with
        | .atom _ _ none => !a.posted && !(g.olderOps o.id).any (fun x =>
            match x.body with | .atom _ _ none => x.accs.any (fun b => b.posted && !b.done) | _ => false)
        | _ => true)

/-- Perform the pending accesses of an operation in the lanes of a list, in its order; with `err` they fail. -/
def performLanes (t : Team) (g : Group) (err : Bool) : List Nat → Op → State → Op × State
  | [], o, s => (o, s)
  | l :: r, o, s =>
    let x := (List.range o.accs.length).foldl (fun (x : Op × State) k =>
      match x.1.accs[k]? with
      | some a =>
        if a.lane == l && mayPerform g x.1 a then
          let y := if err then failAcc x.2 t g x.1 a else performAcc x.2 t g x.1 a
          ({ y.2.1 with accs := modAt y.2.1.accs k (fun _ => y.1) }, y.2.2)
        else x
      | none => x) (o, s)
    performLanes t g err r x.1 x.2

/-- The group and team of an operation. -/
def withOp (s : State) (p : Place) (id : Nat) (k : Team → Group → Op → State) : State :=
  match holderOf s p id with
  | none => s
  | some g =>
    match g.findOp id, ownerOf s g.team with
    | some o, some t => if o.done then s else k t g o
    | _, _ => s

/-! ### Queues -/

/-- Give a pushed entry to the lane that its index was recorded for (R175, R344): the lane acquires at device scope
(R176). One for a team that is saved waits at its slot. -/
def giveEntry (s : State) (q : QRes) (v : Nat) : State :=
  match q.waiter with
  | none => s
  | some (p, id, lane) =>
    if s.saved.any (fun x => x.team.uid == id / 2 ^ 32) then { s with qres := s.qres ++ [{ q with entry := some v }] }
    else
      match holderOf s p id with
      | none => s
      | some g =>
        match g.findOp id, ownerOf s g.team with
        | some o, some t =>
          let o := { o with accs := o.accs.map (fun a => if a.lane == lane then { a with val := v, done := true } else a) }
          settleOp (acquireAt s g.place .device) t g o
        | _, _ => s

/-- Write the entries of a push to their slots, filling recorded indices (R173, R175, R344). -/
def pushEntries (w : Actor) (head ring cap esz : Nat) : Nat → List Acc → State → State
  | _, [], s => s
  | i, a :: r, s =>
    let x := slotLoc ring cap esz i
    let s := actWrite s w x esz a.val
    let s := match s.qres.find? (fun q => q.head == head && q.index == i) with
      | some q => giveEntry { s with qres := s.qres.filter (fun q => !(q.head == head && q.index == i)) } q a.val
      | none => s
    pushEntries w head ring cap esz ((i + 1) % 2 ^ 64) r s

/-- qpush at its queue (R173): all lanes or none. -/
def performPush (s : State) (w : Actor) (o : Op) (head esz cap ring : Nat) : Op × State :=
  let tail := memRead s.smem head 8
  let hd := memRead s.smem (head + 8) 8
  let n := o.accs.length
  let ok := decide (diff64 (tail + n) hd ≤ (2 : Int) ^ cap)
  let o := { o with accs := o.accs.map (fun a => { a with done := true, exp := if ok then 1 else 0 }) }
  let s := observe s w (.smem head) 16
  if ok then
    let s := pushEntries w head ring cap esz tail o.accs s
    (o, putWatched s w (.smem head) 8 ((tail + n) % 2 ^ 64))
  else (o, s)

/-- The tasks that a die's queue of a priority holds. -/
def queuedTasks (s : State) (die prio : Nat) : List Task :=
  s.tasks.filter (fun k => k.die == die && k.prio == prio && k.queued)

/-- A task record as it enters a queue (R16, R173). -/
def newTask (id die prio record who src : Nat) : Task :=
  { id := id, record := BitVec.ofNat 512 record, die := die, prio := prio, who := BitVec.ofNat 64 who,
    src := BitVec.ofNat 64 src, valid := false, eligible := false, args := 0, next := 0, requeued := [], lseq := [],
    waitFrom := [], live := 0, failed := false }

/-- Push records behind every one of a die's priority, all or none (R173). -/
def pushRecords (s : State) (die prio : Nat) (rs : List Nat) (who src : Nat) : Bool × State :=
  if (queuedTasks s die prio).length + rs.length ≤ 4096 then
    (true, rs.foldl (fun s r =>
      { s with tasks := s.tasks ++ [newTask s.nextUid die prio r who src], nextUid := s.nextUid + 1 }) s)
  else (false, s)

/-! ### Tile accesses (R164, R166) -/

/-- Must a tile operation wait for an older one of its group whose range meets its own (R166), or for an older acquire (R98,
R101)? -/
def tileBlocked (g : Group) (o : Op) : Bool :=
  (g.olderOps o.id).any (fun x => x.holds true || x.cls == .mat && x.accs.any (fun a => !a.done && o.accs.any (fun b =>
    a.loc.overlaps a.size b.loc b.size)))

/-- tcvt (R368): every source element is rounded, and the results are packed from the start of the range. -/
def tcvtPack (m : Memory) (dst : MatTy) (src : AccTy) (sat : Bool) (off n fmt : Nat) : Nat :=
  let sf := if src == .f64 then Fmt.f64 else Fmt.f32
  (List.range (32 * n)).foldl (fun acc e =>
    acc + (dst.fmt fmt).round .rn sat (sf.decode (memRead m (off + e * (sf.width / 8)) (sf.width / 8))) * 2 ^ (e * dst.bits)) 0

/-- Perform a tile operation whole (R164). -/
def performTile (s : State) (t : Team) (o : Op) : Op × State :=
  let put (m : Memory) : State := setTeam s { t with tile := m }
  let all (o : Op) : Op := { o with accs := o.accs.map (fun a => { a with done := true }) }
  let real := o.accs.filter (fun a => a.exp == 1)
  match o.body with
  | .tld _ _ =>
    (all { o with accs := o.accs.map (fun a => if a.exp == 1 then { a with val := memRead t.tile a.loc.num a.size } else a) }, s)
  | .tst => (all o, put (real.foldl (fun m a => memWrite m a.loc.num a.size a.val) t.tile))
  | .tzero off len => (all o, if real = [] then s else put (memWrite t.tile off len 0))
  | .tcvt dst src sat off n fmt =>
    (all o, if real = [] then s
      else put (memWrite t.tile off (32 * n * dst.bits / 8) (tcvtPack t.tile dst src sat off n fmt)))
  | _ => (o, s)

/-! ### The switch's merge buffer (R122) -/

/-- The combined value of an element and a pair: operation and type of Table 8-3. -/
def spredCombine (op ty a b : Nat) : Nat :=
  let x : AtomOp := match op, ty with
    | 0, 2 => .add | 1, 2 => .min | 2, 2 => .max | 0, _ => .fadd | 1, _ => .fmin | _, _ => .fmax
  let y : AnyTy := match ty with | 0 => .f .f32 | 1 => .f .f64 | _ => .i .i64
  atomNew x y a b

/-- The size of an element's type. -/
def spredSize (ty : Nat) : Nat := if ty = 0 then 4 else 8

/-- Perform a value at the element's bank unit, for the groups whose pairs it combines: a cell that is foreign to one of
them is observed and settles (R124, R361). -/
def spredBank (s : State) (ws : List Storer) (x : Loc) (op ty v : Nat) : State :=
  let n := spredSize ty
  let s := ws.foldl (fun s w => settleForeign (observe s { outsider with storer := some w } x n) { outsider with storer := some w } x n) s
  watchAll (performRmw s { outsider with storer := ws.head? } false true 64 x n (fun a => spredCombine op ty a v)).2

/-- A pair enters the merge buffer: it joins the entry of its element, makes one, or goes straight to the bank when the
buffer is full. Says whether it is performed already. Pairs of one element that differ in operation or type stand in
separate entries. (DESIGN CHOICE, log 70) -/
def mergePair (s : State) (w : Storer) (x : Loc) (op ty v : Nat) : Bool × State :=
  match s.merge.find? (fun m => m.loc == x && m.op == op && m.ty == ty) with
  | some _ =>
    (false, { s with merge := s.merge.map (fun m =>
      if m.loc == x && m.op == op && m.ty == ty then { m with val := spredCombine op ty m.val v } else m) })
  | none =>
    if s.merge.length < 65536 then
      (false, { s with merge := s.merge ++ [{ loc := x, op := op, ty := ty, val := v, since := s.clock }] })
    else (true, spredBank s [w] x op ty v)

/-- One lane of a spred sends its pair to the switch (R122). -/
def sendPair (s : State) (t : Team) (g : Group) (o : Op) (a : Acc) : Acc × Op × State :=
  if accessFails s a.loc true then failAcc s t g o a
  else if hostBlocks s a.loc a.size then (a, o, askHost s a.loc a.size)
  else
    let r := mergePair (l1Forget (recordCap s t g o a.lane) (groupActor t g) a.loc a.size) (storerOf t g) a.loc (a.exp % 16) (a.exp / 16) a.val
    (if r.1 then { a with done := true } else { a with posted := true }, o, r.2)

/-- The pairs of an operation's lanes go to the switch, in the order of a list. -/
def sendPairs (t : Team) (g : Group) : List Nat → Op → State → Op × State
  | [], o, s => (o, s)
  | l :: r, o, s =>
    let x := (List.range o.accs.length).foldl (fun (x : Op × State) k =>
      match x.1.accs[k]? with
      | some a =>
        if a.lane == l && !a.posted && mayPerform g x.1 a then
          let y := sendPair x.2 t g x.1 a
          ({ y.2.1 with accs := modAt y.2.1.accs k (fun _ => y.1) }, y.2.2)
        else x
      | none => x) (o, s)
    sendPairs t g r x.1 x.2

/-- Does an operation of a group have pairs in an entry of the merge buffer? -/
def Op.merged (o : Op) (m : Merge) : Bool :=
  match o.body with
  | .spred _ _ => o.accs.any (fun a => a.posted && !a.done && a.loc == m.loc && a.exp == m.op + 16 * m.ty)
  | _ => false

/-- The groups whose pairs an entry combines, with their teams and those operations; saved teams' among them. -/
def Merge.parts (m : Merge) (s : State) : List (Team × Group × List Op) :=
  ((s.groups ++ s.departed).filterMap (fun g => (ownerOf s g.team).map (fun t => (t, g)))
      ++ (s.saved.map (fun v => v.groups.map (fun g => (v.team, g)))).flatten).filterMap (fun x =>
    match x.2.allOps.filter (fun o => o.merged m) with
    | [] => none
    | os => some (x.1, x.2, os))

/-- The identities of those groups. -/
def Merge.storers (m : Merge) (s : State) : List Storer := (m.parts s).map (fun x => storerOf x.1 x.2.1)

/-- The pairs that an entry stands for are performed: in every group, their accesses are done (R122), and its core gives
up its copies of the element (R104). -/
def mergedDone (s : State) (m : Merge) : State :=
  let s := (s.groups ++ s.departed).foldl (fun s g =>
    if g.allOps.any (fun o => o.accs.any (fun a => a.posted && !a.done && a.loc == m.loc)) then
      l1Forget s { outsider with die := g.place.die, core := g.place.core } m.loc (spredSize m.ty) else s) s
  let fix (g : Group) : Group :=
    (g.allOps.filter (fun o => o.merged m)).foldl (fun g o =>
      let o : Op := { o with accs := o.accs.map (fun (a : Acc) =>
        if a.posted && a.loc == m.loc && a.exp == m.op + 16 * m.ty then { a with done := true } else a) }
      g.putOp (if o.accs.all (fun a => a.done) then { o with done := true, fail := none } else o)) g
  { mapGroups s fix with departed := s.departed.map fix }

/-! ### The events -/

/-- The lanes to perform: those named, or every lane of the operation. -/
def lanesOr (o : Op) (lanes : List Nat) : List Nat := if lanes = [] then o.lanes else lanes

/-- Does the task of a team record its ordered operations, or replay a record (R233, R234)? -/
def Op.ordered (o : Op) : Bool :=
  match o.body with
  | .atom .. | .cas .. | .cpadd .. | .spred .. | .qpop .. => true
  | _ => false

/-- Does a team's launch run in replay mode (R234)? (DESIGN CHOICE, log 48) -/
def replaying (s : State) (t : Team) : Bool := s.replays.contains t.task

/-- Perform an operation as far as its order allows. An older qpop does not hold back the indices of a later one (R175).
(DEDUCED, log 30) -/
def performOp (s : State) (p : Place) (id : Nat) (lanes : List Nat) (err : Bool) : State :=
  withOp s p id (fun t g o =>
    let back (r : Op × State) : State :=
      match holderOf r.2 p id with
      | some g => settleOp r.2 t g r.1
      | none => r.2
    let pop (x : Op) : Bool := match x.body with | .qpop .. => true | _ => false
    let older := (g.olderOps o.id).filter (fun x => !(pop o && pop x))
    let free (l : Nat) (a : Acc) : Bool := !blockedBy older l a.loc a.size o.rank
    match o.body with
    | .copy | .mat | .touch => s
    | .tld .. | .tst | .tzero .. | .tcvt .. => if tileBlocked g o then s else back (performTile s t o)
    | .spred _ _ =>
      if err then back (performLanes t g true (lanesOr o lanes) o s) else back (sendPairs t g (lanesOr o lanes) o s)
    | .qpush _ head esz cap ring =>
      if o.accs.all (fun a => free a.lane a) then back (performPush s (groupActor t g) o head esz cap ring) else s
    | .qpushTask _ die prio =>
      if o.accs.all (fun a => free a.lane a) then
        let r := pushRecords s die prio (o.accs.map (·.val)) (whoWord t g) 0
        back ({ o with accs := o.accs.map (fun a => { a with done := true, exp := if r.1 then 1 else 0 }) }, r.2)
      else s
    | .qpop .. =>
      if o.accs.all (fun a => a.exp == 1 || free a.lane a) then
        let s := match o.accs.find? (fun a => a.exp == 0) with
          | some a => recordCap s t g o a.lane
          | none => s
        let r := popGrant s (groupActor t g) g.place true o
        let s := if r.1.accs.any (fun a => a.done) then acquireAt r.2 g.place .device else r.2
        back (r.1, s)
      else s
    | _ => back (performLanes t g err (lanesOr o lanes) o s))

/-- OPERATION_COMPLETE (R104): an outstanding operation is performed in some of its lanes, in that order, and completes
with the last; `err` makes them fail. A replayed operation waits for REPLAY_RELEASE. (DESIGN CHOICE, log 66) -/
def execOperationComplete (p : Place) (op : Nat) (lanes : List Nat) (err : Bool) (s : State) :
    Host.Outcome State Fault Refusal :=
  .next (withOp s p op (fun t _ o =>
    if o.ordered && replaying s t then s else performOp s p op lanes err))

/-- A copy engine's snapshot of an input segment of a task is taken; one whose segment cannot be read is empty. -/
def takeSnapshot (s : State) (ctx task ptr : Nat) (bytes : List (BitVec 8)) : State :=
  captureStore { s with capIn := s.capIn ++ [.snapshot ctx task ptr bytes] } ctx bytes.length (bytesVal bytes)

/-- CAPTURE_RECORD (R233): an ordered operation of a capturing task is performed and recorded, or a copy engine takes a
snapshot of an input segment before the task, which waits on that die, is placed. (DESIGN CHOICE, log 10) -/
def execCaptureRecord (p : Place) (what : CapWhat) (s : State) : Host.Outcome State Fault Refusal :=
  match what with
  | .op op => .next (withOp s p op (fun t _ o =>
      if o.ordered && recordsTask s t && !replaying s t then performOp s p op [] false else s))
  | .snapshot task ptr n =>
    match taskOf s task with
    | none => .next s
    | some k =>
      let ctx := k.f 10 6
      if bitOf k.record.toNat 5 && k.next == 0 && k.requeued == [] && k.die == p.die then
        match hubRead s false ctx (fld ptr 44 20) (fld ptr 0 44) n with
        | (.ok x, s) => .next (takeSnapshot s ctx task ptr (valBytes n x))
        | (.fail _, s) => .next (takeSnapshot s ctx task ptr [])
        | (.dbl c, s) => .next (doubleFault s ctx c 0 ptr { code := 5 })
      else .next s

/-- Has an operation been performed in a lane? -/
def laneOver (s : State) (p : Place) (id lane : Nat) : Bool :=
  match holderOf s p id with
  | none => true
  | some g =>
    match g.findOp id with
    | none => true
    | some o => o.accs.all (fun a => a.lane != lane || a.done
        || (match o.body with | .qpop .. => a.exp == 1 | .spred _ _ => a.posted | _ => false))

/-- Does a record name an operation of a group? Records of lanes from 32 on are of the arrival of a merged entry. -/
def recNames (r : CapRec) (t : Team) (g : Group) (o : Op) : Bool :=
  r.ctx == t.ctx && r.task == t.task && r.team == t.index && r.group == g.index && r.op == o.id % 2 ^ 32

/-- REPLAY_RELEASE (R234): the operation whose record comes next in its launch is performed in that record's lane; one
without a place in the record fails the grid, and its team ends. -/
def execReplayRelease (p : Place) (op : Nat) (s : State) : Host.Outcome State Fault Refusal :=
  .next (withOp s p op (fun t g o =>
    if !(o.ordered && replaying s t) then s
    else if !s.replay.any (fun r => recNames r t g o && decide (r.lane < 32)) && o.accs.any (fun a => !laneOver s p op a.lane) then
      killTeamOp s t.uid false
    else
      match s.replay.find? (fun r => r.task == t.task) with
      | some h =>
        if recNames h t g o && decide (h.lane < 32) then
          let s := performOp s p op [h.lane] false
          if laneOver s p op h.lane then { s with replay := s.replay.erase h } else s
        else s
      | none => s))

/-- The first spilled record of a group's reductions in the order posted: its operation and access. -/
def firstPosted (g : Group) : Option (Op × Nat) :=
  g.allOps.findSome? (fun o =>
    match o.body with
    | .atom _ _ none =>
      ((List.range o.accs.length).find? (fun k => match o.accs[k]? with | some a => a.posted && !a.done | none => false)).map
        (fun k => (o, k))
    | _ => none)

/-- The buffer performs a spilled record, whose operand it reads back from the area (R113). A launch in replay mode
holds it until its predecessor has been performed (R234). -/
def replayPosted (s : State) (t : Team) (g : Group) (o : Op) (k : Nat) (a : Acc) : State :=
  let head := s.replay.find? (fun r => r.task == t.task)
  let mine := match head with | some h => recNames h t g o && h.lane == a.lane | none => false
  if replaying s t && !mine then s
  else if blockedBy (g.olderOps o.id) a.lane a.loc a.size o.rank then s
  else
    match areaGet s g.place t.ctx 7 (0x400 + 32 * a.exp) 32 with
    | (.inr c, s) => areaFault s t g (pcWord o.pc) 7 c
    | (.inl x, s) =>
      let y := performAcc s t g o { a with
        val := fld x 64 64 % 256 ^ a.size
        posted := false }
      let a' := if y.1.done then y.1 else a
      let s := match head with
        | some h => if replaying s t && y.1.done then { y.2.2 with replay := y.2.2.replay.erase h } else y.2.2
        | none => y.2.2
      match holderOf s g.place o.id with
      | some g => settleOp s t g { y.2.1 with accs := modAt o.accs k (fun _ => a') }
      | none => s

/-- POSTING_REPLAY (R113): the first spilled record of a group's reductions is performed. -/
def execPostingReplay (p : Place) (s : State) : Host.Outcome State Fault Refusal :=
  match ((s.groups ++ s.departed).filter (fun g => g.place == p)).find? (fun g => (firstPosted g).isSome) with
  | none => .next s
  | some g =>
    match firstPosted g, ownerOf s g.team with
    | some (o, k), some t => (match o.accs[k]? with | some a => .next (replayPosted s t g o k a) | none => .next s)
    | _, _ => .next s

/-- SPRED_MERGE (R122): one lane's pair merges into the switch's buffer. -/
def execSpredMerge (p : Place) (op lane : Nat) (s : State) : Host.Outcome State Fault Refusal :=
  .next (withOp s p op (fun t _ o =>
    match o.body with
    | .spred _ _ => if replaying s t then s else performOp s p op [lane] false
    | _ => s))

/-- The accesses of an operation that a test selects fail, those that its order lets be performed now. -/
def failWhere (s : State) (p : Place) (id : Nat) (sel : Acc → Bool) : State :=
  withOp s p id (fun t g o =>
    let x := (List.range o.accs.length).foldl (fun (x : Op × State) k =>
      match x.1.accs[k]? with
      | some a =>
        if sel a && (a.posted || mayPerform g x.1 a) && !a.done then
          let y := failAcc x.2 t g x.1 a
          ({ y.2.1 with accs := modAt y.2.1.accs k (fun _ => y.1) }, y.2.2)
        else x
      | none => x) (o, s)
    match holderOf x.2 p id with
    | some g => settleOp x.2 t g x.1
    | none => x.2)

/-- Some entries of the merge buffer fail with the pairs that they combine; a pair of a saved team is sent again once
the team is restored. -/
def failPairs (s : State) (sel : Merge → Bool) : State :=
  let gone := s.merge.filter sel
  let mine (o : Op) (a : Acc) : Bool := gone.any (fun m => o.merged m && a.posted && !a.done && a.loc == m.loc && a.exp == m.op + 16 * m.ty)
  let again (g : Group) : Group :=
    let put (o : Op) : Op := { o with accs := o.accs.map (fun a => if mine o a then { a with posted := false } else a) }
    { g with main := { g.main with ops := g.main.ops.map put } }
  let s := { s with
    merge := s.merge.filter (fun m => !sel m)
    saved := s.saved.map (fun (v : Save) => { v with groups := v.groups.map again }) }
  (s.groups ++ s.departed).foldl (fun s g => g.allOps.foldl (fun s o => failWhere s g.place o.id (mine o)) s) s

/-- The record of an entry's arrival at its bank, for each capturing task whose pairs it combines (R144, R233): that of
the first of the task's operations, under its lane and 32. (DESIGN CHOICE, log 106) -/
def recordArrival (s : State) (ps : List (Team × Group × List Op)) (m : Merge) : State :=
  (ps.foldl (fun (x : State × List Nat) p =>
    match p.2.2 with
    | o :: _ =>
      if x.2.contains p.1.task then x
      else (recordCap x.1 p.1 p.2.1 o (32 + (((o.accs.find? (fun a => a.loc == m.loc)).map (·.lane)).getD 0)), p.1.task :: x.2)
    | [] => x) (s, [])).1

/-- Does a record stand for the arrival of an entry? -/
def arrivalOf (r : CapRec) (ps : List (Team × Group × List Op)) (m : Merge) : Bool :=
  ps.any (fun p => p.2.2.any (fun o => recNames r p.1 p.2.1 o && o.accs.any (fun a => a.lane + 32 == r.lane && a.loc == m.loc)))

/-- The launches in replay mode whose pairs an entry combines (R234). -/
def replayTasks (s : State) (ps : List (Team × Group × List Op)) : List Nat :=
  (((ps.map (·.1)).filter (replaying s)).map (·.task)).eraseDups

/-- The record that comes next in a launch. -/
def nextRecord (s : State) (task : Nat) : Option CapRec := s.replay.find? (fun r => r.task == task)

/-- Must an entry's arrival wait on replay (R144, R234): it has a record in a launch, and another one comes next there? -/
def arrivalHeld (s : State) (ps : List (Team × Group × List Op)) (m : Merge) : Bool :=
  (replayTasks s ps).any (fun k => s.replay.any (fun r => r.task == k && arrivalOf r ps m)
    && !(nextRecord s k).any (fun h => arrivalOf h ps m))

/-- The records of an entry's arrival are used up; a launch that has none for it fails its grid, and its teams end (R234). -/
def takeArrival (s : State) (ps : List (Team × Group × List Op)) (m : Merge) : State :=
  (replayTasks s ps).foldl (fun s k =>
    match (nextRecord s k).filter (fun h => arrivalOf h ps m) with
    | some h => { s with replay := s.replay.erase h }
    | none => ((ps.map (·.1)).filter (fun t => t.task == k)).foldl (fun s t => killTeamOp s t.uid false) s) s

/-- MERGE_ENTRY_FLUSH (R122): an entry is written to its bank, and its pairs are performed; they fail where the bank cannot be
reached any more (R230). -/
def execMergeEntryFlush (k : Nat) (s : State) : Host.Outcome State Fault Refusal :=
  match s.merge[k]? with
  | none => .next s
  | some m =>
    let ps := m.parts s
    if accessFails s m.loc true then .next (failPairs s (fun x => x == m))
    else if arrivalHeld s ps m then .next s
    else if hostBlocks s m.loc (spredSize m.ty) then .next (askHost s m.loc (spredSize m.ty))
    else
      let s1 := recordArrival (takeArrival { s with merge := s.merge.erase m } ps m) ps m
      .next (mergedDone (spredBank s1 (m.storers s) m.loc m.op m.ty m.val) m)

/-- Does an access go to host memory? -/
def Acc.toHost (a : Acc) : Bool :=
  match a.loc with
  | .phys x => (match prange x with | .host => true | _ => false)
  | _ => false

/-- Does an access go to a peer device? -/
def Acc.toPeer (a : Acc) (n : Nat) : Bool :=
  match a.loc with
  | .phys x => (match prange x with | .peer m => m == n | _ => false)
  | _ => false

/-- POISON_RECEIVED (R220): host data of an operation arrive as poison; its host accesses fail. -/
def execPoisonReceived (p : Place) (op : Nat) (s : State) : Host.Outcome State Fault Refusal :=
  .next (failWhere s p op Acc.toHost)

/-- PEER_LINK_FAILURE (R222): every access that is outstanding over the link fails, pairs in the merge buffer too. -/
def execPeerLinkFailure (peer : Nat) (s : State) : Host.Outcome State Fault Refusal :=
  let far (m : Merge) : Bool := match m.loc with
    | .phys x => (match prange x with | .peer n => n == peer | _ => false)
    | _ => false
  .next ((s.groups ++ s.departed).foldl
    (fun s g => g.allOps.foldl (fun s o => failWhere s g.place o.id (fun a => a.toPeer peer)) s) (failPairs s far))

end Sys2Proof.Machine
end

