-- ==== Sys2Proof/Machine/Tasks.lean ====
section
/-! DEFINITION. Tasks, the dispatcher, and the life of teams and grids: push ports, validation, eligibility, placement,
reservation, slot release, retirement and grid failure (R16 to R22, R33, R34, R56, R174, R177, R178, R204). -/

namespace Sys2Proof.Machine

open Sys2Proof

/-! ### The hub's own reads -/

/-- A dispatcher's read through a segmented pointer. -/
def hubGetPtr (s : State) (ctx p n : Nat) : HubRes × State := hubRead s false ctx (fld p 44 20) (fld p 0 44) n

/-! ### Order and reservation (R177, R178) -/

/-- A task's place in a die's order: higher priority first, then the die's own queue and those of the following dies,
then push order (R177). -/
def taskOrder (s : State) (die : Nat) (k : Task) : List Nat :=
  [7 - k.prio, (k.die + 4 - die) % 4, s.tasks.findIdx (fun x => x.id == k.id)]

/-- Does a die's reservation let a task's next team be placed (R178)? One held for a requeued team keeps every other task of
its priority out (R236). -/
def reservationAllows (s : State) (die : Nat) (k : Task) : Bool :=
  match (s.dies.getD die Die.reset).reserved with
  | [] => true
  | (h, urgent) :: _ =>
    match taskOf s h with
    | none => true
    | some t => k.id == t.id
        || (if urgent then decide (t.prio < k.prio) else decide (taskOrder s die k < taskOrder s die t))

/-- Does a die's reservation let a saved team of a task be restored? One held for a requeued team keeps every other team of
its task's priority out, those of its own task too (R236). (DEDUCED, log 38) -/
def reservationRestores (s : State) (die : Nat) (k : Task) : Bool :=
  match (s.dies.getD die Die.reset).reserved with
  | (h, true) :: _ => (match taskOf s h with | none => true | some t => decide (t.prio < k.prio))
  | _ => reservationAllows s die k

/-- The task of a requeued team takes its die's reservation at once, behind the tasks of higher priority that hold it;
the holder before takes it back afterwards (R178, R236). (DEDUCED, log 38) -/
def requeueReserve (s : State) (die id : Nat) : State :=
  match taskOf s id with
  | none => s
  | some k =>
    let higher (h : Nat × Bool) : Bool := match taskOf s h.1 with | some t => decide (k.prio < t.prio) | none => false
    setDie s die (fun d =>
      let rest := d.reserved.filter (fun h => h.1 != id)
      { d with reserved := rest.takeWhile higher ++ (id, true) :: rest.dropWhile higher })

/-- A team of a task has been placed: its reservations end, one for requeued teams with the last of them (R178, R236).
(DEDUCED, log 38) -/
def endReservations (s : State) (k : Task) : State :=
  let stays (h : Nat × Bool) : Bool := h.1 != k.id || (h.2 && k.requeued != [])
  { s with dies := s.dies.map (fun d => { d with reserved := d.reserved.filter stays }) }

/-- A task leaves the device. -/
def dropTask (s : State) (id : Nat) : State :=
  let s := freeReservations s (fun h => h == id)
  { s with tasks := s.tasks.filter (fun k => k.id != id), preStop := s.preStop.filter (fun x => x != id) }

/-- A task whose last team had been placed re-enters at the front of its priority (R200). -/
def frontOfQueue (s : State) (id : Nat) : State :=
  match taskOf s id with
  | none => s
  | some k =>
    let rest := s.tasks.filter (fun x => x.id != id)
    let i := rest.findIdx (fun x => x.die == k.die && x.prio == k.prio)
    { s with tasks := rest.take i ++ k :: rest.drop i }

/-- A team ends as at a kill, and its index is requeued ahead of its task's unplaced teams (R167, R178, R200). -/
def requeueTeam (s : State) (uid : Nat) : State :=
  match teamOf s uid with
  | none => s
  | some t =>
    let left := match taskOf s t.task with | some k => !k.queued | none => false
    let s := killTeamOp s uid true
    let s := if left then frontOfQueue s t.task else s
    requeueReserve s t.die t.task

/-! ### Validation (R18) -/

/-- The launch error of a task (R18): the task is discarded, and the error goes to its context's ring, or to the
double-fault log where the context is not resident. -/
def launchError (s : State) (k : Task) (cause addr : Nat) : State :=
  let pc := pcWord ⟨k.f 44 20, k.f 16 28⟩
  let ctx := k.f 10 6
  let s := dropTask s k.id
  match ctxOf s ctx with
  | none =>
    { s with dfLog := s.dfLog ++ [{ ctx := ctx, cause := cause, pc := BitVec.ofNat 64 pc, addr := BitVec.ofNat 64 addr }],
             irqs := s.irqs ++ [.launchError ctx] }
  | some _ =>
    postError s ctx { code := 0x01, cause := cause, pc := pc, addr := addr, who := k.who.toNat, grid := k.f 384 64,
                      src := k.src.toNat }

/-- The role of group `g` (Table 3-1). -/
def Task.role (k : Task) (g : Nat) : Nat := k.f (192 + 2 * g) 2

/-- The initial frame of a role, in blocks. -/
def Task.frame (k : Task) (role : Nat) : Nat := k.f (140 + 5 * role) 5

/-- Is a pointer of a record outside the segments that exist only for an executing group (R18)? -/
def pointerOk (p align : Nat) : Bool :=
  let seg := fld p 44 20
  seg == 0 || (seg != 1 && seg != 3 && seg != 4 && seg != 5 && fld p 0 44 % align == 0)

/-- The conditions of R18 on the record's own fields and its context. -/
def recordOk (s : State) (k : Task) : Bool :=
  k.f 128 1 == 0 && k.f 64 2 == 0 && k.f 0 3 == 0
    && k.f 112 16 != 0 && k.f 96 16 != 0 && k.f 80 16 != 0 && k.f 74 6 != 0 && k.f 6 4 != 0 && decide (k.f 74 6 ≤ 32)
    && decide (k.f 66 8 ≤ 128) && decide (k.f 129 11 ≤ 1024)
    && (List.range (k.f 74 6)).all (fun g => decide (1 ≤ k.frame (k.role g)) && decide (k.frame (k.role g) ≤ 24))
    && (ctxOf s (k.f 10 6)).isSome
    && pointerOk (k.f 384 64) 8 && pointerOk (k.f 448 64) 1 && pointerOk (k.f 256 64) 8

/-- A dispatcher's access for a task meets a translation failure in a pinned segment or in the segment table: a double fault
of the task's context (R68, R195), which names the record's entry and the pointer of the access. The task is discarded.
(DESIGN CHOICE, log 77) -/
def taskDouble (s : State) (k : Task) (cause addr : Nat) : State :=
  doubleFault (dropTask s k.id) (k.f 10 6) cause (pcWord ⟨k.f 44 20, k.f 16 28⟩) addr { code := 5, grid := k.f 384 64 }

/-- The check of a record's entry (R18): the slot is a marked target of a code segment with the execute right, the record is
malformed, the read of its line word fails, or the segment table's own read does. -/
def entryCheck (s : State) (k : Task) : Target × State :=
  let v := hubView (k.f 10 6) false
  let seg := k.f 44 20
  let r : Target × State :=
    match descFor s v seg with
    | (.ok d, s) => if dKind d ≠ 1 ∨ !bitOf d 130 then (.illegal, s) else checkTarget s v seg (k.f 16 28 : Nat)
    | (.bad c, s) => (if c = 0x21 then .trap c 0 else .illegal, s)
    | (.dbl, s) => (.dbl, s)
  (r.1, { r.2 with tlb := s.tlb, descs := s.descs })

/-- VALIDATE_TASK_RECORD (R18): the record at the head of a die's priority. -/
def execValidateTaskRecord (die prio : Nat) (s : State) : Host.Outcome State Fault Refusal :=
  match s.tasks.find? (fun k => k.die == die && k.prio == prio && !k.valid) with
  | none => .next s
  | some k =>
    if !recordOk s k then .next (launchError s k 0 0)
    else
      let at_ := segPtr (k.f 44 20) (lineOff (k.f 16 28))
      match entryCheck s k with
      | (.ok, s) => .next (setTask s { k with valid := true })
      | (.illegal, s) => .next (launchError s k 0 0)
      | (.trap c _, s) => .next (launchError s k c at_)
      | (.dbl, s) => .next (taskDouble s k 0x0C at_)

/-- A task becomes eligible: the argument block is read once (R19), and capture mode keeps the record (R233). -/
def makeEligible (s : State) (k : Task) : State :=
  let p := k.f 448 64
  let s := if k.f 5 1 = 1 then captureStore { s with capIn := s.capIn ++ [.task (k.f 10 6) k.record] } (k.f 10 6) 64 k.record.toNat
    else s
  if fld p 44 20 = 0 then setTask s { k with eligible := true, args := 0 }
  else
    match hubGetPtr s (k.f 10 6) p 64 with
    | (.ok v, s) => setTask s { k with eligible := true, args := BitVec.ofNat 512 v }
    | (.fail c, s) => launchError s k c p
    | (.dbl c, s) => taskDouble s k c p

/-- TASK_ELIGIBLE (R19): the dispatcher reads the dependence word of a validated task. -/
def execTaskEligible (task : Nat) (s : State) : Host.Outcome State Fault Refusal :=
  match taskOf s task with
  | none => .next s
  | some k =>
    if !k.valid || k.eligible then .next s
    else
      let p := k.f 256 64
      if fld p 44 20 = 0 then .next (makeEligible s k)
      else
        match hubGetPtr s (k.f 10 6) p 8 with
        | (.ok v, s) => if k.f 320 64 ≤ v then .next (makeEligible s k) else .next s
        | (.fail c, s) => .next (launchError s k c p)
        | (.dbl c, s) => .next (taskDouble s k c p)

/-! ### The push port (R174) -/

/-- A register of the push port of general core `h`. -/
def portReg (s : State) (h r : Nat) : Nat := (tabGet s.hub.ports (0x70000 + 0x100 * h + r)).toNat

/-- PUSH_PORT_GO (R174): the record of a port whose GO is set is pushed; OK or FULL says how it ended, and GO reads 0
again. -/
def execPushPortGo (port : Nat) (s : State) : Host.Outcome State Fault Refusal :=
  if 16 ≤ port ∨ !bitOf (portReg s port 0x48) 63 then .next s
  else
    let r := (List.range 8).foldl (fun v i => v + portReg s port (8 * i) * 2 ^ (64 * i)) 0
    let t := portReg s port 0x40
    let x := pushRecords s (fld t 0 2) (fld t 2 3) [r] 0 (0x70000 + 0x100 * port)
    .next { x.2 with hub := { x.2.hub with
      ports := tabSet x.2.hub.ports (0x70000 + 0x100 * port + 0x48) (BitVec.ofNat 64 (if x.1 then 2 ^ 62 else 2 ^ 61)) } }

/-! ### Placement (R22, R56, R177) -/

/-- The cluster that a logical core of a die belongs to (R15). -/
def clusterOf (s : State) (die core : Nat) : Nat := if s.spareCores.contains (die, core) then 12 else core / 4

/-- Free granules of a core's team memory. -/
def freeTmem (s : State) (die core : Nat) : Nat :=
  128 - ((s.teams.filter (fun t => t.die == die && t.core == core)).map (·.tmemG)).sum

/-- Free granules of a cluster's tile store. -/
def freeTile (s : State) (die cluster : Nat) : Nat :=
  1024 - ((s.teams.filter (fun t => t.die == die && t.cluster == cluster)).map (·.tileG)).sum

/-- A partition as the dispatcher sees it: number, free general blocks, free slots. -/
abbrev PartFree := Nat × Nat × List Nat

/-- The partitions of a core that may receive groups: none of their groups waits on a frame (R56). -/
def partsFree (s : State) (die core : Nat) : List PartFree :=
  (List.range 8).filterMap (fun q =>
    let p : Place := ⟨die, core, q, 0⟩
    if (frameWaiter s p).isSome then none
    else
      some (q, freeGeneral s p,
        (List.range 24).filter (fun k => !(inPart s p).any (fun g => g.place.slot == k))))

/-- Send each demand to the partition with the most free blocks, the lowest number first (R177): its place, or none when
one does not fit. (DESIGN CHOICE, log 39) -/
def assignGroups : List PartFree → List Nat → Option (List (Nat × Nat))
  | _, [] => some []
  | ps, n :: r =>
    match leastBy (fun (p : PartFree) => [104 - p.2.1, p.1]) (ps.filter (fun p => p.2.2 != [])) with
    | none => none
    | some (q, b, slots) =>
      if b < n then none
      else
        match assignGroups (ps.map (fun p => if p.1 == q then (q, b - n, slots.tail) else p)) r with
        | none => none
        | some xs => some ((q, slots.headD 0) :: xs)

/-- The places on a core for groups with given frame demands, when everything fits at once (R22). -/
def fitCore (s : State) (die core tmemG tileG : Nat) (frames : List Nat) : Option (List (Nat × Nat)) :=
  if s.fenced.contains (die, core) || s.gated.contains (die, clusterOf s die core) || freeTmem s die core < tmemG
      || freeTile s die (clusterOf s die core) < tileG then none
  else assignGroups (partsFree s die core) frames

/-- The core that takes a team: the fewest resident groups, then the lowest number (R177). (DESIGN CHOICE, log 39) -/
def pickCore (s : State) (die tmemG tileG : Nat) (frames : List Nat) : Option (Nat × List (Nat × Nat)) :=
  let fits := (List.range 48).filterMap (fun c => (fitCore s die c tmemG tileG frames).map (fun x => (c, x)))
  leastBy (fun x => [(s.groups.filter (fun g => g.place.die == die && g.place.core == x.1)).length, x.1]) fits

/-- The input segments of a capturing task of which no snapshot has been taken yet (R233). -/
def openSnapshots (s : State) (k : Task) : List (Nat × Nat) :=
  if k.f 5 1 = 0 then []
  else (Config.captureInputs k.record).filter (fun x => !s.capIn.any (fun c =>
    match c with | .snapshot _ t p _ => t == k.id && p == x.1 | _ => false))

/-- May the dispatcher of a die place teams of a task now (R177, R178, R189, R198, R202, R233)? -/
def placeable (s : State) (die : Nat) (k : Task) : Bool :=
  k.valid && k.eligible && k.queued && bitOf (k.f 6 4) die && !s.preStop.contains k.id
    && (match ctxOf s (k.f 10 6) with | some c => !c.stopped && !c.noPlace | none => false)
    && reservationAllows s die k && (openSnapshots s k).isEmpty

/-- The frame demands of a task's groups in index order. -/
def Task.frames (k : Task) : List Nat := (List.range (k.f 74 6)).map (fun g => k.frame (k.role g))

/-- A group as it starts (R20). -/
def newGroup (k : Task) (uid g now : Nat) (place : Place) : Group :=
  { place := place, team := uid, index := g, role := k.role g,
    slices := List.replicate 8 { pc := ⟨k.f 44 20, k.f 16 28⟩, run := 15, stack := [], arrived := false, held := none },
    join := none, main := RegCtx.fresh (List.replicate (k.frame (k.role g)) false), calls := [], crew := 0,
    trap := ⟨0, 0, 0, 0, 0, 0⟩, trapSlices := 0, handler := none, wait := none, active := false, placedAt := now,
    readyAt := now, lastIssue := 0, claim := none, hatched := false, under := none, due := [], spillBlk := 0,
    nextOp := uid * 2 ^ 32, turn := List.range 8, stalled := 0, exited := false }

/-- The argument words in b0 to b15 (R20). -/
def argTable (args : BitVec 512) : Tab 32 :=
  (List.range 16).foldl (fun t i => tabSet t i (BitVec.ofNat 32 (fld args.toNat (32 * i) 32))) []

/-- Place a team of a task on a core (R20, R22): everything is taken in one step. -/
def placeOn (s : State) (die : Nat) (k : Task) (core : Nat) (at_ : List (Nat × Nat)) : State :=
  let uid := s.nextUid
  let d := s.dies.getD die Die.reset
  let lseq := match k.lseq.find? (fun x => x.1 == die) with | some x => x.2 | none => d.nextLseq
  let newSeq := !(k.lseq.any (fun x => x.1 == die))
  let index := k.requeued.headD k.next
  let team : Team :=
    { uid := uid, task := k.id, ctx := k.f 10 6, index := index, die := die, core := core, cluster := clusterOf s die core,
      lseq := lseq, ngroups := k.f 74 6, prio := k.prio, grid := BitVec.ofNat 64 (k.f 384 64), tmemG := k.f 66 8, tileG := k.f 129 11, breg := argTable k.args,
      bwriter := [], late := [], tmem := [], tile := [], issuedN := 0, clean := true, drain := none,
      saving := false }
  let groups := (List.range at_.length).map (fun g =>
    let a := at_.getD g (0, 0)
    newGroup k uid g s.clock ⟨die, core, a.1, a.2⟩)
  let k' := { k with
    next := if k.requeued = [] then k.next + 1 else k.next, requeued := k.requeued.tail,
    lseq := if newSeq then (die, lseq) :: k.lseq else k.lseq,
    waitFrom := (die, s.clock) :: (k.waitFrom.filter (fun x => x.1 != die)).map (fun x => (x.1, s.clock)),
    live := k.live + 1 }
  let s := setDie s die (fun d => { d with nextLseq := if newSeq then (d.nextLseq + 1) % 65536 else d.nextLseq })
  let s := setTask (endReservations s k') k'
  let s := { s with teams := s.teams ++ [team], groups := s.groups ++ groups, nextUid := uid + 1 }
  { s with groups := s.groups.map (fun g =>
      if g.team == uid then { g with active := decide (((inPart s g.place).filter (fun x => x.active)).length
        + ((inPart s g.place).filter (fun x => x.team == uid && decide (x.index < g.index))).length < 8) } else g) }

/-- The tasks of a die in its order, the placement of the first that fits; the wait clock of each that does not fit
starts (R177, R178). -/
def placeFirst (die : Nat) : List Task → State → State
  | [], s => s
  | k :: r, s =>
    match pickCore s die (k.f 66 8) (k.f 129 11) k.frames with
    | some (c, at_) => placeOn s die k c at_
    | none =>
      placeFirst die r
        (if k.waitFrom.any (fun x => x.1 == die) then s
          else setTask s { k with waitFrom := (die, s.clock) :: k.waitFrom })

/-- Sort by a key, the least first; at most `n` elements. -/
def sortBy {α : Type} [BEq α] (key : α → List Nat) : Nat → List α → List α
  | 0, _ => []
  | n + 1, l =>
    match leastBy key l with
    | none => []
    | some a => a :: sortBy key n (l.erase a)

/-- PLACE_TEAM (R177): one clock of a die's dispatcher. -/
def execPlaceTeam (die : Nat) (s : State) : Host.Outcome State Fault Refusal :=
  let ks := s.tasks.filter (placeable s die)
  .next (placeFirst die (sortBy (taskOrder s die) ks.length ks) s)

/-- DIE_RESERVATION (R178): the first task in the die's order that has waited 100,000 clocks takes the reservation,
unless a higher or older one holds it. -/
def execDieReservation (die : Nat) (s : State) : Host.Outcome State Fault Refusal :=
  let due (k : Task) : Bool := k.valid && k.eligible && k.queued && bitOf (k.f 6 4) die
    && k.waitFrom.any (fun x => x.1 == die && decide (x.2 + 100000 ≤ s.clock))
  match leastBy (taskOrder s die) (s.tasks.filter due) with
  | none => .next s
  | some k =>
    let held := match (s.dies.getD die Die.reset).reserved with
      | (h, urgent) :: _ =>
        (match taskOf s h with
          | some t => if urgent then decide (k.prio ≤ t.prio) else decide (taskOrder s die t ≤ taskOrder s die k)
          | none => false)
      | [] => false
    if held then .next s
    else .next (setDie s die (fun d =>
      let rest := match d.reserved with
        | (_, false) :: r => r
        | l => l
      { d with reserved := (k.id, false) :: rest.filter (fun h => h.1 != k.id) }))

/-! ### Leaving -/

/-- Has a die's copy engine a command of a team that a test selects? -/
def teamCopies (s : State) (uid : Nat) (p : CopyCmd → Bool) : Bool :=
  s.dies.any (fun d => d.engines.any (fun q => q.any (fun c => c.team == uid && p c)))

/-- What has left its slot or its core and has nothing outstanding is forgotten (R33, R34). -/
def dropSettled (s : State) : State :=
  let left := s.departed.filter (fun g => g.allOps != [])
  { s with
    departed := left
    retired := s.retired.filter (fun t => (s.groups ++ left).any (fun g => g.team == t.uid && g.allOps != [])
      || teamCopies s t.uid (fun _ => true)) }

/-- GROUP_SLOT_RELEASE (R33): the slot of an exited group is returned once its ld, mat and task counters are zero; its
stores and copies go on. (DESIGN CHOICE, log 51) -/
def execGroupSlotRelease (p : Place) (s : State) : Host.Outcome State Fault Refusal :=
  match groupAt s p with
  | none => .next s
  | some g =>
    if !g.exited || g.allOps.any (fun o => o.returns) then .next s
    else
      .next (dropSettled { s with groups := s.groups.filter (fun x => x.place != p), departed := s.departed ++ [g] })

/-- Does a copy command read or write the team memory or the tile store (R34)? -/
def CopyCmd.onTeam (c : CopyCmd) : Bool :=
  let near (seg : Nat) : Bool := seg == 1 || seg == 3
  near (fld c.dst.toNat 44 20) || near (fld c.src.toNat 44 20)
    || (match c.kind with | .gather | .scatter => near (fld c.rcd.toNat 108 20) | _ => false)

/-- May a team retire (R34): every group has exited, and no operation of an engine on its team memory or tile store is
left? (DEDUCED, log 37) -/
def teamDone (s : State) (uid : Nat) : Bool :=
  (s.groups ++ s.departed).all (fun g => g.team != uid || (g.exited && g.allOps.all (fun o => o.cls != .mat)))
    && !teamCopies s uid CopyCmd.onTeam
    && !(s.crews.any (fun k => k.team == uid && (match k.st with | .running .. => true | _ => false)))

/-- TEAM_RETIRE (R34, R127): the team's memory is scrubbed and its granules return in one step. What its groups have
outstanding goes on. -/
def execTeamRetire (team : Nat) (s : State) : Host.Outcome State Fault Refusal :=
  match teamOf s team with
  | none => .next s
  | some t =>
    if !teamDone s team then .next s
    else
      let s := dropShutters s team true
      .next (dropSettled { s with
        teams := s.teams.filter (fun x => x.uid != team)
        retired := s.retired ++ [{ t with
          tmemG := 0
          tileG := 0
          tmem := []
          tile := [] }]
        crews := s.crews.filter (fun k => k.team != team)
        parts := s.parts.filter (fun p => match p.obj with | .tmem u _ => u != team | _ => true)
        tasks := s.tasks.map (fun k => if k.id == t.task then { k with live := k.live - 1 } else k)
        preStop := if t.drain.isSome then s.preStop.filter (fun x => x != t.task) else s.preStop })

/-- Is everything performed that R21 waits for: no store, shutter operation, reduction, copy or queue push of a task's
retired teams is outstanding? -/
def gridSettled (s : State) (task : Nat) : Bool :=
  (s.retired.filter (fun t => t.task == task)).all (fun t =>
    (s.groups ++ s.departed).all (fun g => g.team != t.uid || g.allOps.all (fun o => o.cls == .ld))
      && !teamCopies s t.uid (fun _ => true))

/-- Are all teams of a task placed and retired? -/
def Task.isOver (k : Task) : Bool := k.valid && k.eligible && !k.queued && k.live == 0

/-- GRID_RETIRE (R21): once everything is performed, the completion word is incremented as an atomic at system scope; a
fault goes to the error word. The dispatcher is no instruction of R65's list, so the increment needs the rights of a
write. (DEDUCED, log 52) -/
def execGridRetire (task : Nat) (s : State) : Host.Outcome State Fault Refusal :=
  match taskOf s task with
  | none => .next s
  | some k =>
    if k.failed || !k.isOver || !gridSettled s task then .next s
    else
      let p := k.f 384 64
      let ctx := k.f 10 6
      let fail (s : State) (c : Nat) : State :=
        postError (dropTask s task) ctx { code := 0x02, cause := c, addr := p, grid := p }
      if fld p 44 20 = 0 then .next (dropTask s task)
      else
        match hubAccess s false ctx .store (fld p 44 20) (fld p 0 44) 8 8 with
        | (.ok ((x, _) :: _), s) =>
          if accessFails s x true then .next (fail s 0x21)
          else if hostBlocks s x 8 then .next (askHost s x 8)
          else
            .next (watchAll (performRmw (dropTask s task) outsider false true ctx x 8 (fun v => (v + 1) % 2 ^ 64)).2)
        | (.fail _ c _, s) => .next (fail s c)
        | (.dbl c, s) => .next (taskDouble s k c p)
        | (_, s) => .next (fail s 0x0C)

/-- GRID_FAIL (R204): a grid with a killed team, once its last placed team is gone. -/
def execGridFail (task : Nat) (s : State) : Host.Outcome State Fault Refusal :=
  match taskOf s task with
  | none => .next s
  | some k =>
    if k.failed && k.live == 0 then .next (postError (dropTask s task) (k.f 10 6) { code := 0x08, grid := k.f 384 64 })
    else .next s

end Sys2Proof.Machine
end

