-- ==== Sys2Proof/Machine/Coherence.lean ====
section
/-! DEFINITION. Events of the coherence hardware, of power and of repair: contention, registrations, the directory, alias
lines, cluster gating, scrubbing and spares (R14, R111, R149, R150, R205 to R212, R231, R232). -/

namespace Sys2Proof.Machine

open Sys2Proof

/-- CONTENTION_DECAY (R111): a counter falls by one once 1,024 clocks have passed with no atomic of a second core. -/
def execContentionDecay (idx : Nat) (s : State) : Host.Outcome State Fault Refusal :=
  .next { s with contention := s.contention.map (fun c =>
    if c.idx == idx && decide (c.since + 1024 ≤ s.clock) then
      { c with
        count := c.count - 1
        since := s.clock }
    else c) }

/-! ### Registrations (R205 to R207) -/

/-- A core registers a word without having written it: no byte of its mask is set. -/
def registerWord (s : State) (die core w : Nat) : State :=
  l1Add s { die := die, core := core, addr := w, val := 0, mask := 0, reg := true, pair := false }

/-- WORD_REGISTRATION (R205, R209, R216): the answering slice grants a word to a core. A host-held line is asked for
first; the die takes the line exclusive; a full table revokes its oldest word; another registrant writes back. A core of a
gated cluster is granted nothing (R212), and neither is one of a word that a store does not reach (R150, R230). -/
def execWordRegistration (die core addr : Nat) (s : State) : Host.Outcome State Fault Refusal :=
  let w := addr / 4 * 4
  let has (x : L1Word) : Bool := x.reg && x.addr == w && x.die == die && x.core == core
  if !registers s w || accessFails s (.phys w) true || s.gated.contains (die, clusterOf s die core) || s.l1.any has then .next s
  else if hostHolds s (w / 128) then .next (snoopHost s (w / 128))
  else .next (registerWord (revoke (makeRoom (dirExclusive (hostFetch s w 4) (w / 128) die) die w) w) die core w)

/-- REGISTRATION_REVOKE (R207): the registrant writes its masked bytes back, and the word is free. -/
def execRegistrationRevoke (addr : Nat) (s : State) : Host.Outcome State Fault Refusal := .next (revoke s (addr / 4 * 4))

/-- FORWARDED_READ (R207): the registrant of a word returns its current bytes to another core and keeps its
registration. No copy of another storer's shuttered cell is kept (R124). -/
def execForwardedRead (die core addr : Nat) (s : State) : Host.Outcome State Fault Refusal :=
  match regOf s (addr / 4 * 4) with
  | some x =>
    if x.die == die && x.core == core then .next s
    else .next (l1Keep s { outsider with die := die, core := core } (addr / 4 * 4) 4)
  | none => .next s

/-! ### Lines between dies (R209, R211) -/

/-- The home recalls a line from every other die: their registered words are written back and they hold the line no more.
A response for a line that its die is evicting is that write-back (R209, R211). -/
def recallLine (s : State) (line : Nat) : State :=
  let s := revokeWhere s (fun x => x.addr / 128 == line && x.die != homeDie (line * 128))
  { s with dir := s.dir.filter (fun d => d.line != line || d.holder == 4 || d.holder == homeDie (line * 128)) }

/-- EXCLUSIVE_EVICT (R211): a die that holds a line exclusive sends its data home and keeps answering for it; the next
such event is the home's acknowledgement, and the die holds the line no more. -/
def execExclusiveEvict (die line : Nat) (s : State) : Host.Outcome State Fault Refusal :=
  match s.dir.find? (fun d => d.line == line && d.holder == die && d.excl) with
  | none => .next s
  | some d =>
    let mine (x : DirEntry) : Bool := x.line == line && x.holder == die
    if d.evicting then .next { s with dir := s.dir.filter (fun x => !mine x) }
    else
      let s := revokeWhere s (fun x => x.addr / 128 == line && x.die == die)
      .next { s with dir := s.dir.map (fun x => if mine x then { x with evicting := true } else x) }

/-! ### Alias lines (R149, R150) -/

/-- ALIAS_LINE_FILL (R149). -/
def execAliasLineFill (line : Nat) (s : State) : Host.Outcome State Fault Refusal := .next (aliasFill s line)

/-- ALIAS_WRITE_BACK (R150): a line is written back, and leaves the cache when it is evicted (`line.2`); a held line
stays (R89). -/
def execAliasWriteBack (line : Nat × Bool) (s : State) : Host.Outcome State Fault Refusal :=
  .next (if line.2 && !s.held.contains line.1 then aliasEvict s line.1 else aliasWb s line.1)

/-! ### Gating (R212) and power (R14) -/

/-- Does a core belong to a cluster of a die (R15)? -/
def inCluster (s : State) (die cluster d c : Nat) : Bool := d == die && decide (c < 48) && clusterOf s d c == cluster

/-- Are the accesses that a cluster's groups have issued performed? -/
def clusterQuiet (s : State) (die cluster : Nat) : Bool :=
  (s.groups ++ s.departed).all (fun g => !inCluster s die cluster g.place.die g.place.core || g.performed (fun _ => true) .system)

/-- The lines of a list that a die holds and no registered word of the die needs go back to their homes (R212). -/
def returnLines (s : State) (die : Nat) (lines : List Nat) : State :=
  { s with dir := s.dir.filter (fun d =>
      !(d.holder == die && lines.contains d.line && !(s.l1.any (fun x => x.reg && x.die == die && x.addr / 128 == d.line)))) }

/-- CLUSTER_GATE (R212): the cluster writes back and releases its registrations and returns their lines; once the accesses
of its groups are performed it is gated, and nothing of it issues. (DEDUCED, log 56) -/
def execClusterGate (die cluster : Nat) (s : State) : Host.Outcome State Fault Refusal :=
  let mine (x : L1Word) : Bool := inCluster s die cluster x.die x.core
  let lines := (s.l1.filter (fun x => x.reg && mine x)).map (fun x => x.addr / 128)
  let t := returnLines (revokeWhere s mine) die lines
  if clusterQuiet s die cluster && !s.gated.contains (die, cluster) then .next { t with gated := (die, cluster) :: t.gated }
  else .next t

/-- A core's L1 words, translations, descriptors and lookaside copies are invalid. -/
def dropCaches (s : State) (p : Nat → Nat → Bool) : State :=
  { s with l1 := s.l1.filter (fun x => !p x.die x.core), tlb := s.tlb.filter (fun x => !p x.die x.core),
           descs := s.descs.filter (fun x => !p x.die x.core), blb := s.blb.filter (fun x => !p x.die x.core) }

/-- CLUSTER_WAKE (R212): a cluster wakes from retention with its caches invalid. -/
def execClusterWake (die cluster : Nat) (s : State) : Host.Outcome State Fault Refusal :=
  if s.gated.contains (die, cluster) then
    .next (dropCaches { s with gated := s.gated.filter (fun x => x != (die, cluster)) } (inCluster s die cluster))
  else .next s

/-- POWER_LIMIT (R14): the arithmetic clock of all four dies is lowered together. (DESIGN CHOICE, log 14) -/
def execPowerLimit (mhz : Nat) (s : State) : Host.Outcome State Fault Refusal :=
  .next { s with hub := { s.hub with mhz := Min.min mhz s.hub.mhz } }

/-! ### Staying in service (R231, R232) -/

/-- DRAM_SCRUB (R231): the scrubber visits a line; an error of DRAM or SRAM that was corrected in place is counted
(Table 17-2), and one of a core's SRAM is reported by the core (R232). (DEDUCED, log 65) -/
def execDramScrub (_line : Nat) (err : Corrected) (s : State) : Host.Outcome State Fault Refusal :=
  let c := s.hub.ecccnt.toNat
  let count (lo : Nat) : State :=
    { s with hub := { s.hub with ecccnt := BitVec.ofNat 64 (setFld c lo 32 (fld c lo 32 + 1)) } }
  .next (match err with
    | .clean => s
    | .dram => count 32
    | .sram none => count 0
    | .sram (some (die, core)) =>
      let s := count 0
      { s with coreErrs := s.coreErrs ++ [(die, core, s.clock)] })

/-- The cores that have reported 64 corrected errors within 2^30 clocks (R232). -/
def wornCores (s : State) : List (Nat × Nat) :=
  ((s.coreErrs.map (fun x => (x.1, x.2.1))).eraseDups).filter (fun c =>
    decide (64 ≤ (s.coreErrs.filter (fun x => x.1 == c.1 && x.2.1 == c.2 && decide (s.clock < x.2.2 + 2 ^ 30))).length))

/-- A spare of kind `k` (0 core, 1 slice, 2 channel) comes into use (SPARES, Table 17-2). -/
def countSpare (s : State) (k : Nat) : State :=
  let x := s.hub.spares.toNat
  { s with hub := { s.hub with spares := BitVec.ofNat 64 (setFld x (8 * k) 8 (fld x (8 * k) 8 + 1)) } }

/-- SPARE_REMAP (R15, R232): a failing slice or channel of a die is remapped to a spare, its contents copied; a die has two
spare slices, a stack one spare channel. (DEDUCED, log 65) -/
def execSpareRemap (die : Nat) (channel : Bool) (unit : Nat) (s : State) : Host.Outcome State Fault Refusal :=
  let used := (s.remapped.filter (fun r => r.1 == die && r.2.1 == channel)).length
  if (if channel then 1 else 2) ≤ used then .next s
  else .next (countSpare { s with remapped := s.remapped ++ [(die, channel, unit)] } (if channel then 2 else 1))

end Sys2Proof.Machine
end

