-- ==== Sys2Proof/Machine/Boot.lean ====
section
/-! DEFINITION. Cold reset, the boot steps and their record, measurements, and the SPDM responder (R223 to R229). -/

namespace Sys2Proof.Machine

open Sys2Proof

/-! ### Step bytes (R228) -/

/-- A step byte: state, failure count, done another way. -/
def stepByte (st count : Nat) (alt : Bool) : Byte := BitVec.ofNat 8 (st + 4 * count + (if alt then 16 else 0))

/-- State and failure count of a step. -/
def stepState (b : Boot) (k : Nat) : Nat := fld (b.steps.getD k 0).toNat 0 2
def stepFails (b : Boot) (k : Nat) : Nat := fld (b.steps.getD k 0).toNat 2 2

/-- Write a step byte; the whole record goes to flash after it. -/
def writeStep (b : Boot) (k : Nat) (x : Byte) : Boot :=
  let steps := modAt b.steps k (fun _ => x)
  { b with steps := steps, flashCopy := (b.attempts, steps) }

/-- Steps with another way (Table 17-1). -/
def hasAlternative (k : Nat) : Bool := k == 3 || k == 5 || k == 6 || k == 8 || k == 11

/-- The one optional step (Table 17-1). -/
def isOptional (k : Nat) : Bool := k == 9

/-- The start of an attempt (R228): the record comes from always-on memory, or from flash when that lost power; a step
found running counts as failed. (DEDUCED, log 61) -/
def startAttempt (b : Boot) : Boot :=
  let r := if b.lostPower then b.flashCopy else (b.attempts, b.steps)
  let steps := r.2.map (fun x =>
    if fld x.toNat 0 2 = 1 then BitVec.ofNat 8 (setFld (setFld x.toNat 0 2 3) 2 2 (Min.min 3 (fld x.toNat 2 2 + 1))) else x)
  let n := (r.1 + 1) % 2 ^ 64
  { b with attempts := n, steps := steps, flashCopy := (n, steps), meas := List.replicate 8 0, attest := none, cert := [],
           asked := [], working := none, ready := false, recovery := false, lostPower := false, out := [] }

/-! ### Measurement and selection (R224, R225, R227) -/

/-- Extend a measurement register by a digest (R225). -/
def extend (b : Boot) (k : Nat) (d : List Byte) : Boot :=
  { b with meas := modAt b.meas k (fun m => BitVec.ofNat 512 (bytesVal (Config.shake256 (valBytes 64 m.toNat ++ d) 64))) }

/-- Does the ROM accept a slot (R224)? The header that the signature covers carries the version, the digests and the key.
(DESIGN CHOICE, log 9) -/
def slotAccepted (b : Boot) (x : FlashSlot) : Bool :=
  Config.shake256 x.pubkey 64 == valBytes 64 b.fuseKey.toNat && Config.slhDsaVerify x.pubkey x.header x.sig
    && x.header == Config.slotHeader x.version x.digests x.pubkey
    && x.images.map (fun i => Config.shake256 i 64) == x.digests.map (fun d => valBytes 64 d.toNat)
    && decide (b.rollback ≤ x.version)

/-- The slots in the order in which they are tried: the higher version first, or the other one first (R224, R229). -/
def slotOrder (b : Boot) (other : Bool) : List Nat :=
  match b.slots with
  | [x, y] => if (x.version < y.version) == other then [0, 1] else [1, 0]
  | l => List.range l.length

/-- The slot that the ROM accepts: the first of an order. -/
def pickSlot (b : Boot) (ks : List Nat) : Option (Nat × FlashSlot) :=
  ks.findSome? (fun k => match b.slots[k]? with | some x => if slotAccepted b x then some (k, x) else none | none => none)

/-- The digests of an accepted slot extend register 1 (R225), and its Mihus image is the one that runs. -/
def takeSlot (b : Boot) (x : Nat × FlashSlot) : Boot :=
  { (x.2.digests.foldl (fun b d => extend b 1 (valBytes 64 d.toNat)) b) with mihus := x.1 }

/-- The keys that the ROM derives after image selection (R227): the attestation key and its certificate, signed with the
identity key; then the secret and the identity key leave the working memory. -/
def issueCert (b : Boot) : Boot :=
  match b.working with
  | none => b
  | some (secret, identity) =>
    let key := Config.attestationKey secret (b.meas.getD 1 0)
    { b with
      attest := some key
      cert := Config.factoryCertificates
        ++ Config.attestationCertificate identity (Config.publicKey key) (b.meas.getD 0 0) (b.meas.getD 1 0)
      working := none }

/-- The work of a step: none where it fails of itself. The other slot's Mihus image is accepted and measured like the
first one's. (DESIGN CHOICE, log 9) -/
def stepWork (b : Boot) (k : Nat) (alt : Bool) : Option Boot :=
  if k = 1 then some { (extend b 0 b.fuseState) with working := some (b.secret, Config.identityKey b.secret) }
  else if k = 3 then (pickSlot b (slotOrder b alt)).map (fun x => issueCert (takeSlot b x))
  else if k = 10 then some { b with ready := true }
  else if k = 11 ∧ alt then (pickSlot b ((List.range b.slots.length).filter (fun i => i != b.mihus))).map (takeSlot b)
  else some b

/-! ### The attempt (R223, R229) -/

/-- Recovery: SPDM still answers. -/
def enterRecovery (b : Boot) : Boot := { b with recovery := true, ready := true }

/-- The steps from `k` on, `n` of them. `fails` are those that fail in this attempt; power is lost in the middle of
`powerLost`. (DEDUCED, log 61) -/
def bootSteps (fails : List Nat) (powerLost : Option Nat) : Nat → Nat → Boot → Boot
  | 0, _, b => b
  | n + 1, k, b =>
    let failed := stepState b k == 3
    let c := stepFails b k
    if failed && isOptional k then
      bootSteps fails powerLost n (k + 1) (writeStep b k (stepByte 3 c true))
    else if failed && c == 3 && !isOptional k then enterRecovery b
    else
      let alt := failed && hasAlternative k
      let b := writeStep b k (stepByte 1 c alt)
      if powerLost = some k then { b with lostPower := true }
      else
        match (if fails.contains k then none else stepWork b k alt) with
        | some b => bootSteps fails powerLost n (k + 1) (writeStep b k (stepByte 2 0 alt))
        | none =>
          let c := Min.min 3 (c + 1)
          let b := writeStep b k (stepByte 3 c alt)
          if isOptional k then bootSteps fails powerLost n (k + 1) b
          else if c = 3 then enterRecovery b
          else b

/-- COLD_RESET_BOOT (R223): the device is as after reset, and the boot ROM runs steps 0 to 11. Fuses, flash and the
progress record outlast the reset; the model's own counters run on. `fails` are the steps that fail,
`env` what the reset meets outside. Each stack has one spare channel, so step 6 fails where two channels of a stack do. -/
def execColdResetBoot (fails : List Nat) (env : BootEnv) (s : State) : Host.Outcome State Fault Refusal :=
  let used := (env.channels.map (·.1)).eraseDups
  let fails := if used.length < env.channels.length then 6 :: fails else fails
  let b := bootSteps fails env.powerLost 12 0 (startAttempt s.boot)
  let r := State.reset
  let s1 : State := { r with
    boot := b
    agenda := s.agenda
    fresh := s.fresh
    nextUid := s.nextUid
    hub := { r.hub with cxl := env.cxl && stepState b 8 == 2 } }
  let spare := stepState b 6 == 2 && bitOf (b.steps.getD 6 0).toNat 4
  .next (if spare then env.channels.foldl (fun s c => countSpare { s with remapped := s.remapped ++ [(c.1, true, c.2)] } 2) s1 else s1)

/-! ### The SPDM responder (R226, R227) -/

/-- Answer a request with its code, parameter and nonce (R226): before step 10 it is not ready. The request joins the
transcript. The codes are those of SPDM. (PRESUMED, log 79) -/
def spdm (s : State) (code param : Nat) (nonce : BitVec 256) (x : Boot → Spdm) : Host.Outcome State Fault Refusal :=
  let b := s.boot
  if !b.ready then .next { s with boot := { b with out := b.out ++ [.notReady] } }
  else
    let b := { b with asked := b.asked ++ [(code, param, nonce)] }
    .next { s with boot := { b with out := b.out ++ [x b] } }

/-- A signature with the attestation key over the SHA-384 of the transcript: the requests and responses since reset and
the body of this response (R227). (DESIGN CHOICE, log 9) -/
def spdmSign (b : Boot) (body : List Byte) : List Byte :=
  Config.ecdsaSign (b.attest.getD 0) (valBytes 48 (Config.sha384 (Config.spdmTranscript b.asked b.out body)).toNat)

/-- GET_VERSION (R226): 1.2 and 1.3. -/
def execGetVersion (s : State) : Host.Outcome State Fault Refusal := spdm s 0x84 0 0 (fun _ => .version [0x12, 0x13])

/-- GET_CAPABILITIES (R226): the seven requests. -/
def execGetCapabilities (s : State) : Host.Outcome State Fault Refusal :=
  spdm s 0xE1 0 0 (fun _ => .capabilities [0x84, 0xE1, 0xE3, 0x81, 0x82, 0x83, 0xE0])

/-- NEGOTIATE_ALGORITHMS (R226): ECDSA over P-384, and SHA-384. -/
def execNegotiateAlgorithms (s : State) : Host.Outcome State Fault Refusal := spdm s 0xE3 0 0 (fun _ => .algorithms 384 384)

/-- GET_DIGESTS (R227): slot 0 alone. -/
def execGetDigests (s : State) : Host.Outcome State Fault Refusal :=
  spdm s 0x81 0 0 (fun b => .digests (Config.sha384 b.cert))

/-- GET_CERTIFICATE (R227). -/
def execGetCertificate (slot : Nat) (s : State) : Host.Outcome State Fault Refusal :=
  spdm s 0x82 slot 0 (fun b => if slot = 0 then .certificate b.cert else .invalidRequest)

/-- CHALLENGE (R227). -/
def execChallenge (slot : Nat) (nonce : BitVec 256) (s : State) : Host.Outcome State Fault Refusal :=
  spdm s 0x83 slot nonce (fun b =>
    if slot = 0 then .challenge (spdmSign b (valBytes 48 (Config.sha384 b.cert).toNat)) else .invalidRequest)

/-- GET_MEASUREMENTS (R226, R227): block k is register k. -/
def execGetMeasurements (block : Nat) (sign : Bool) (nonce : BitVec 256) (s : State) : Host.Outcome State Fault Refusal :=
  spdm s 0xE0 block nonce (fun b =>
    match b.meas[block]? with
    | some m => .measurements block m (if sign then some (spdmSign b (valBytes 64 m.toNat)) else none)
    | none => .invalidRequest)

end Sys2Proof.Machine
end

