-- ==== Sys2Proof/Machine/Control.lean ====
section
/-! DEFINITION. The control instructions (format B): nop, bra, brx, call, calli, ret, unwind, regang, exit, yield, trap,
assert, brk (R24 to R32, R50 to R52, R277, R287, R289 to R292, R304, R305, R339, R349, R350, R371, R372, R376). -/

namespace Sys2Proof.Machine

open Sys2Proof

/-- The trap of a failed target check, or what follows when it passes (R238, R241). (DEDUCED, log 19) -/
def withTarget (s : State) (e : Env) (act : Mask) (seg : Nat) (idx : Int) (k : State → State) : State :=
  match checkTarget s e.view seg idx with
  | (.ok, s) => k s
  | (.illegal, s) => takeTrap s e { cause := 0x03, lanes := e.raised act }
  | (.trap c a, s) =>
    takeTrap s e { cause := c, lanes := e.raised act, addr := a, info := if c = 0x21 then 0 else 4 }
  | (.dbl, s) => dblFault s e 0x0C (segPtr seg (lineOff idx.toNat))

/-- A guard that must hold in all or none of the active lanes (R291, R350, R372, R376): none of them, all, or a trap. The
operands are read in the lowest one. -/
def allOrNone (s : State) (e : Env) (gd : Guard) (ins : List Inp) (k : State → State) : State :=
  let act := e.active gd
  match operandFault e gd (lowMask act) ins [] [] with
  | some t => takeTrap s e t
  | none =>
    if act = 0 then advance s e e.g
    else if act ≠ e.live then takeTrap s e { cause := 0x03, lanes := act }
    else k s

/-- Where the lanes of one slice go, in the order in which the paths run: index and lanes. -/
abbrev Plan := List (Nat × BitVec 4)

/-- The first path of a slice runs and the others are pushed as divergence entries, the last-ranked lowest (R24, R290). -/
def slicePlan (seg rcv : Nat) (sl : Slice) (p : Plan) : Slice :=
  match p with
  | [] => sl
  | (i, m) :: rest =>
    let entry (x : Nat × (Nat × BitVec 4)) : DivEntry :=
      { rcv := rcv, pc := ⟨seg, x.2.1⟩, mask := x.2.2, merged := 0, before := sl.run, started := false,
        linked := decide (0 < x.1) }
    { sl with pc := ⟨seg, i⟩, run := m, stack := (List.range rest.length).zip rest |>.map entry |>.append <| sl.stack }

/-- Carry out a branch whose targets have been checked (R24 to R27): the plan of each issuing slice. A refused one is raised
by the active lanes. (DEDUCED, log 19) -/
def branch (s : State) (e : Env) (act : Mask) (rcv : BitVec 18) (plan : Nat → Plan) : State :=
  let plans := e.slices.map plan
  let split := plans.any (fun p => decide (1 < p.length))
    || plans.any (fun p => p.head?.map (·.1) != (plans.headD []).head?.map (·.1))
  let r := e.pc.at (sint 18 rcv.toNat)
  let (ok, s) := if split then (if rcv = 0 then (false, s) else isRegang s e r) else (true, s)
  let depth (k : Nat) : Nat := (match e.g.slices[k]? with | some sl => sl.stack.length | none => 0) + (plan k).length - 1
  let deepest := e.slices.foldl (fun m k => if 1 < (plan k).length then Max.max m (depth k) else m) 0
  if !ok then takeTrap s e { cause := 0x03, lanes := e.raised act }
  else if deepest > 64 then takeTrap s e { cause := 0x11, lanes := e.raised act }
  else
    let (room, s) := if deepest ≤ 4 then (.inl (2 ^ 44), s) else areaSize s e.g.place e.t.ctx 7
    let (n, cause) := match room with | .inl n => (n, 0x09) | .inr c => (0, c)
    if n < (deepest - 4) * 16 then
      dblFault s e cause (segPtr 7 (areaIndex e.g.place * n + (deepest - 5) * 16))
    else
      let g := e.g.mapSlices (fun k sl => if e.slices.contains k then slicePlan e.pc.seg r.toNat sl (plan k) else sl)
      let alive (k : Nat) : Bool := match e.g.slices[k]? with | some sl => sl.live | none => false
      let livek := (List.range 8).filter alive
      let ganged := e.g.join.isNone && livek.all (fun k => e.slices.contains k)
      let parts := plans.any (fun p => p.head?.map (·.1) != (plans.headD []).head?.map (·.1))
      match areaPuts e.g.place e.t.ctx 7 16 (divSpills e.g g) s with
      | (some c, s) => areaFault s e.t e.g (pcWord e.pc) 7 c
      | (none, s) =>
        commit s e (if ganged && parts then { g with join := some { pc := ⟨e.pc.seg, r.toNat⟩, count := livek.length } } else g)

/-- The lanes of slice `k` in a mask. -/
def sliceLanes (m : Mask) (k : Nat) : BitVec 4 := BitVec.ofNat 4 (fld m.toNat (4 * k) 4)

/-- The number of lanes in a slice mask. -/
def laneCount (m : BitVec 4) : Nat := ((List.range 4).filter (fun j => bitOf m.toNat j)).length

/-- nop (R339): the guard is not evaluated. -/
def execNop (_seven : Bool) (s : State) : Host.Outcome State Fault Refusal :=
  onIssue 0x00 s (fun e s => advance s e e.g)

/-- bra (R287). -/
def execBra (gd : Guard) (rcv : BitVec 18) (off : BitVec 32) (s : State) : Host.Outcome State Fault Refusal :=
  onIssue 0x01 s (fun e s =>
    let t := e.active gd
    match operandFault e gd t [] [] [] with
    | some x => takeTrap s e x
    | none =>
      if t = 0 then advance s e e.g
      else
        let tgt := e.pc.at (sint 32 off.toNat)
        withTarget s e t e.pc.seg tgt (fun s =>
          if e.single then commit s e (e.g.setPc e.slices { e.pc with idx := tgt.toNat })
          else
            branch s e t rcv (fun k =>
              let a := sliceLanes t k
              let b := sliceLanes (e.live ^^^ t) k
              if b = 0 then [(tgt.toNat, a)]
              else if a = 0 then [(e.pc.idx + 1, b)]
              else if laneCount b < laneCount a then [(tgt.toNat, a), (e.pc.idx + 1, b)]
              else [(e.pc.idx + 1, b), (tgt.toNat, a)])))

/-- The distinct targets of a slice's lanes, ranked: more lanes first, then the lower index (R290). -/
def rankTargets (ts : List (Nat × Nat)) : Nat → Plan
  | 0 => []
  | n + 1 =>
    let idxs := (ts.map (·.2)).eraseDups
    match leastBy (fun i => [4 - (ts.filter (fun p => p.2 == i)).length, i]) idxs with
    | none => []
    | some i =>
      (i, BitVec.ofNat 4 ((ts.filter (fun p => p.2 == i)).foldl (fun m p => m + 2 ^ p.1) 0))
        :: rankTargets (ts.filter (fun p => p.2 != i)) n

/-- The lanes whose brx target fails its check, or another failure of a line-word read. -/
def brxBad (e : Env) (a : Nat) : List Nat → State → (List Nat ⊕ Target) × State
  | [], s => (.inl [], s)
  | l :: r, s =>
    match checkTarget s e.view e.pc.seg ((e.g.ctx.frame.v a l : Nat) : Int) with
    | (.ok, s) => brxBad e a r s
    | (.illegal, s) =>
      match brxBad e a r s with
      | (.inl ls, s) => (.inl (l :: ls), s)
      | x => x
    | (t, s) => (.inr t, s)

/-- brx (R290). -/
def execBrx (gd : Guard) (a : Fin 384) (rcv : BitVec 18) (s : State) : Host.Outcome State Fault Refusal :=
  onIssue 0x02 s (fun e s =>
    let act := e.active gd
    match operandFault e gd act [inX 32 (.v a)] [] [] with
    | some x => takeTrap s e x
    | none =>
      match brxBad e a.val (lanesOf act) s with
      | (.inr (.trap c ad), s) => takeTrap s e { cause := c, lanes := act, addr := ad, info := if c = 0x21 then 0 else 4 }
      | (.inr _, s) => dblFault s e 0x0C (segPtr e.pc.seg 0)
      | (.inl (l :: ls), s) => takeTrap s e { cause := 0x03, lanes := maskOf (fun k => (l :: ls).contains k) }
      | (.inl [], s) =>
        branch s e act rcv (fun k =>
          let js := (List.range 4).filter (fun j => hasLane e.live (4 * k + j))
          rankTargets (js.map (fun j =>
            (j, if hasLane act (4 * k + j) then e.g.main.frame.v a.val (4 * k + j) else e.pc.idx + 1))) 4))

/-- Steps 2 to 7 of R50: the fence, the blocks or the wait for them, and the call. -/
def doCall (s : State) (e : Env) (demand : Nat) (target : Pc) : State :=
  let args := e.g.capture e.slices
  let g := e.g.fence e.slices
  match takeBlocks s e.g demand with
  | some bs =>
    match recordRoom s e.t g with
    | (.inl g, s) => commit s e (g.callNow e.slices e.pc target bs args)
    | (.inr c, s) => areaFault s e.t e.g (pcWord e.pc) 8 c
  | none => beginWait s e g 7 0 demand 0 (.call demand target args)

/-- The last check of step 1 of R50: room for the record that the hatch would spill. -/
def callRoom (s : State) (e : Env) (demand : Nat) (target : Pc) : State :=
  match callFits s e.g e.t.ctx with
  | (.inl true, s) => doCall s e demand target
  | (.inl false, s) => takeTrap s e { cause := 0x11, lanes := e.live }
  | (.inr c, s) => areaFault s e.t e.g (pcWord e.pc) 8 c

/-- call (R291, R50). -/
def execCall (gd : Guard) (fb : BitVec 6) (off : BitVec 32) (s : State) : Host.Outcome State Fault Refusal :=
  onIssue 0x03 s (fun e s =>
    allOrNone s e gd [] (fun s =>
      if fb.toNat < 1 ∨ 24 < fb.toNat then takeTrap s e { cause := 0x10, lanes := e.live }
      else if e.g.calls.length ≥ 255 then takeTrap s e { cause := 0x11, lanes := e.live }
      else
        let tgt := e.pc.at (sint 32 off.toNat)
        withTarget s e e.live e.pc.seg tgt (fun s => callRoom s e fb.toNat { e.pc with idx := tgt.toNat })))

/-- Search `n` frame-table entries for an index (R269, R271): its demand, or the cause of a read that fails. -/
def frameEntry (s : State) (v : View) (base : Nat) (idx : Nat) : Nat → Nat → (Option Nat ⊕ Nat) × State
  | 0, _ => (.inl none, s)
  | n + 1, k =>
    match linRead s v (base + 8 * k) 8 with
    | (.inr c, s) => (.inr c, s)
    | (.inl x, s) => if fld x 0 28 = idx then (.inl (some (fld x 32 5)), s) else frameEntry s v base idx n (k + 1)

/-- The demand that a code segment's frame table gives an index (R271), or the cause of a read that fails. -/
def frameDemand (s : State) (v : View) (d idx : Nat) : (Option Nat ⊕ Nat) × State :=
  if dLimit d < 8 then (.inl none, s)
  else
    match linRead s v (dBase d + dLimit d - 8) 8 with
    | (.inr c, s) => (.inr c, s)
    | (.inl t, s) =>
      if fld t 0 32 + 8 * fld t 32 32 > dLimit d then (.inl none, s)
      else frameEntry s v (dBase d + fld t 0 32) idx (fld t 32 32) 0

/-- calli (R292). (DEDUCED, log 21) -/
def execCalli (gd : Guard) (fb : BitVec 6) (a : Src) (s : State) : Host.Outcome State Fault Refusal :=
  onIssue 0x04 s (fun e s =>
    allOrNone s e gd [inX 64 a] (fun s =>
      let p := readInp e (inX 64 a) ((lowestLane e.live).getD 0)
      let seg := if fld p 44 20 = 5 then e.pc.seg else fld p 44 20
      let idx := fld p 0 44
      match governing s e.view (fld p 44 20) with
      | (.dbl, s) => dblFault s e 0x0C p
      | (.bad c, s) => takeTrap s e { cause := c, lanes := e.live, addr := p, info := dataInfo e.pc 4 c }
      | (.ok d, s) =>
        if dKind d ≠ 1 ∨ !bitOf d 130 then takeTrap s e { cause := 0x0A, lanes := e.live, addr := p, info := 4 }
        else
          withTarget s e e.live seg (idx : Nat) (fun s =>
            match frameDemand s e.view d idx with
            | (.inr c, s) =>
              takeTrap s e { cause := c, lanes := e.live, addr := segPtr seg (dLimit d - 8), info := dataInfo e.pc 4 c }
            | (.inl none, s) => takeTrap s e { cause := 0x03, lanes := e.live }
            | (.inl (some n), s) =>
              if n > fb.toNat ∨ n < 1 ∨ 24 < n then takeTrap s e { cause := 0x10, lanes := e.live }
              else if e.g.calls.length ≥ 255 then takeTrap s e { cause := 0x11, lanes := e.live }
              else callRoom s e n ⟨seg, idx⟩)))

/-- May the fragment return from the record (R350, check 3)? -/
def retAllowed (e : Env) (c : CallRec) : Bool :=
  (List.range 8).all (fun k =>
    match e.g.slices[k]? with
    | some sl =>
      (!(bitOf c.exec.toNat k && sl.live) || e.slices.contains k)
        && (!e.slices.contains k || decide (sl.stack.length ≤ c.depths.getD k 0))
    | none => true)

/-- ret from the topmost record, which stands on chip (R51): its frame may be spilled. -/
def retFrom (s : State) (e : Env) (n : Nat) : State :=
  match e.g.calls with
  | [] => takeTrap s e { cause := 0x11, lanes := e.live }
  | c :: _ =>
    if !retAllowed e c then takeTrap s e { cause := 0x03, lanes := e.live }
    else if c.frame.spilled then
      match takeBlocks s e.g c.frame.count with
      | some bs =>
        match refillCaller s e.t e.g bs with
        | (.inl g, s) => commit s e (g.retNow n)
        | (.inr c, s) => areaFault s e.t e.g (pcWord e.pc) 7 c
      | none => beginWait s e e.g 7 0 c.frame.count 0 (.ret n)
    else commit s e (e.g.retNow n)

/-- ret (R350, R51). (DEDUCED, log 24) -/
def execRet (gd : Guard) (n : Fin 9) (s : State) : Host.Outcome State Fault Refusal :=
  onIssue 0x05 s (fun e s =>
    match operandFault e gd (e.active gd) [] [] [] with
    | some t => takeTrap s e t
    | none =>
      if e.g.calls = [] then takeTrap s e { cause := 0x11, lanes := e.raised (e.active gd) }
      else
        allOrNone s e gd [] (fun s =>
          match loadRecord s e.t e.g 0 with
          | (.inl g, s) => retFrom s { e with g := g } n.val
          | (.inr c, s) => areaFault s e.t e.g (pcWord e.pc) 8 c))

/-- Does unwinding to a record leave out one of its slices that is live (R372)? -/
def unwindLacks (e : Env) (c : CallRec) : Bool :=
  (List.range 8).any (fun k =>
    bitOf c.exec.toNat k && !e.slices.contains k && (match e.g.slices[k]? with | some sl => sl.live | none => false))

/-- unwind to depth `d`; `g` is the group with the record of that depth on chip, and a trap leaves the group as it stood
(R52). A current frame that is spilled is waited for (R58). -/
def unwindTo (s : State) (e : Env) (g : Group) (d : Nat) (land : Int) : State :=
  let depth := g.calls.length
  let lacks := match g.calls[depth - d - 1]? with
    | some c => decide (d < depth) && unwindLacks e c
    | none => false
  if lacks then takeTrap s e { cause := 0x03, lanes := e.live }
  else
    withTarget s e e.live e.pc.seg land (fun s =>
      withRefill s { e with g := g } (g.unwindNow e.slices d (some { e.pc with idx := land.toNat })) (fun s g =>
        commit s e (g.settleFrame s.clock)))

/-- unwind (R372, R52). -/
def execUnwind (gd : Guard) (a : Src) (off : BitVec 32) (s : State) : Host.Outcome State Fault Refusal :=
  onIssue 0x06 s (fun e s =>
    allOrNone s e gd [inX 32 a] (fun s =>
      let d := readInp e (inX 32 a) ((lowestLane e.live).getD 0)
      let land := e.pc.at (sint 32 off.toNat)
      let depth := e.g.calls.length
      if d > depth then takeTrap s e { cause := 0x11, lanes := e.live }
      else if d = depth then unwindTo s e e.g d land
      else
        match loadRecord s e.t e.g (depth - d - 1) with
        | (.inl g, s) => unwindTo s e g d land
        | (.inr c, s) => areaFault s e.t e.g (pcWord e.pc) 8 c))

/-- The accesses of some lanes, other than those of engines, are all performed. -/
def Group.lanesDone (g : Group) (ks : List Nat) : Bool :=
  g.ctx.ops.all (fun o =>
    match o.cls with
    | .copy | .mat => true
    | _ => o.accs.all (fun a => !o.pend a || !ks.contains (a.lane / 4)))

/-- regang (R349): it stalls at issue until the accesses before it are performed, those of the whole group at a merge.
(DEDUCED, log 18) -/
def execRegang (s : State) : Host.Outcome State Fault Refusal :=
  onIssue 0x07 s (fun e s =>
    let old (g : Group) : Group := g.mapCtx (fun r => r.mapCas e.slices (fun _ a => invalidate a 1 16))
    if e.single then
      if e.g.lanesDone [0] then advance s e (old e.g) else stall s e
    else
      let before (k : Nat) : Bool := match e.g.slices[k]? with | some sl => sl.arrived | none => true
      let g := e.g.mapSlices (fun k sl =>
        if e.slices.contains k then
          (match sl.stack with
            | x :: _ => if x.rcv = e.pc.idx ∧ x.pc.seg = e.pc.seg then sliceReach e.g e.pc sl else slicePast e.g e.pc sl
            | [] => slicePast e.g e.pc sl)
        else sl)
      let n := ((List.range 8).filter (fun k =>
        !before k && (match g.slices[k]? with | some sl => sl.arrived | none => false))).length
      let merges := match e.g.join with | some j => decide (0 < n) && decide (j.count ≤ n) | none => false
      if !(if merges then e.g.performed (fun _ => true) .system else e.g.lanesDone e.slices) then stall s e
      else withRefill s e g (fun s g => commit s e (if n = 0 then old g else (old g).joinArrive n)))

/-- The innermost call that suspends a live slice, when no other slice is left to run (R305). -/
def Group.strandedAt (g : Group) : Option Nat :=
  let live := g.slices.filter (fun sl => sl.live)
  if live.all (fun sl => sl.held.isSome) then (live.filterMap (fun sl => sl.held)).max? else none

/-- exit (R304, R305, R32, R33). A slice that takes up a deferred path does so as at its regang: the exit stalls at issue
until that slice's accesses are performed, or those of the whole group where it completes a merge, and the slice's ages
go (R28). (DEDUCED, log 20) -/
def execExit (gd : Guard) (s : State) : Host.Outcome State Fault Refusal :=
  onIssue 0x08 s (fun e s =>
    let act := e.active gd
    match operandFault e gd act [] [] [] with
    | some t => takeTrap s e t
    | none =>
      let g1 := e.g.dropLanes act
      let empties := e.slices.filter (fun k =>
        match g1.slices[k]? with
        | some sl => sl.run == 0 && sl.stack != []
        | none => false)
      let g2 := g1.mapSlices (fun k sl =>
        if !e.slices.contains k then sl
        else if empties.contains k then sliceResume g1 65 sl
        else if sl.run = 0 then sl
        else { sl with pc := e.pc.next })
      let died := (e.slices.filter (fun k =>
        match g2.slices[k]? with
        | some sl => !sl.live || sl.arrived
        | none => false)).length
      let merges := match e.g.join with | some j => decide (0 < died) && decide (j.count ≤ died) | none => false
      let rest := g2.slices.any (fun sl => sl.live)
      if !(if merges && rest then e.g.performed (fun _ => true) .system else e.g.lanesDone empties) then stall s e
      else withRefill s e g2 (fun s g2 =>
        let g3 := { g2 with main := g2.main.mapCas empties (fun _ a => invalidate a 1 16) }
        let g4 := if died = 0 then g3 else g3.joinArrive died
        let s := commit s e g4
        if g4.slices.all (fun sl => !sl.live) then exitGroup s g4
        else
          match g4.strandedAt with
          | some k =>
            let g5 := (e.issued g4 s.clock).unwindNow [] (k - 1) none
            setGroup s ({ g5 with main := g5.main.mapCas (List.range 8) (fun _ a => invalidate a 1 16) }.settleFrame s.clock)
          | none => s))

/-- yield (R376): RCV and the continuation are checked before the guard decides; the wait is recorded even when the
thresholds are met (R91). (DEDUCED, log 28) -/
def execYield (gd : Guard) (rcv : BitVec 18) (th : BitVec 30) (s : State) : Host.Outcome State Fault Refusal :=
  onIssue 0x09 s (fun e s =>
    match operandFault e gd (e.active gd) [] [] [] with
    | some t => takeTrap s e t
    | none =>
      let c := e.pc.at (sint 18 rcv.toNat)
      if rcv = 0 then takeTrap s e { cause := 0x03, lanes := e.live }
      else
        withTarget s e e.live e.pc.seg c (fun s =>
          allOrNone s e gd [] (fun s =>
            let g := (e.g.fence e.slices).setPc e.slices { e.pc with idx := c.toNat }
            beginWait s e g 1 0 th.toNat c.toNat (.counters th true))))

/-- trap (R371). -/
def execTrap (gd : Guard) (code : BitVec 32) (s : State) : Host.Outcome State Fault Refusal :=
  onIssue 0x0A s (fun e s =>
    let act := e.active gd
    match operandFault e gd act [] [] [] with
    | some t => takeTrap s e t
    | none => if act = 0 then advance s e e.g else takeTrap s e { cause := 0x1C, lanes := act, info := code.toNat })

/-- Stop a context with an error record (R189). -/
def contextStop (s : State) (ctx : Nat) (r : ErrRec) : State :=
  let s := { s with ctxs := s.ctxs.map (fun c => if c.num == ctx then { c with stopped := true } else c) }
  postError s ctx { r with code := 0x07, cause := 0x1D }

/-- assert (R277, R189). -/
def execAssert (gd : Guard) (t : Fin 8) (m : Fin 16) (s : State) : Host.Outcome State Fault Refusal :=
  onIssue 0x0B s (fun e s =>
    let act := e.active gd
    match operandFault e gd act [] [] [t.val] with
    | some x => takeTrap s e x
    | none =>
      match (lanesOf act).find? (fun l => !e.g.ctx.predAt t.val l) with
      | none => advance s e e.g
      | some l =>
        contextStop (advance s e e.g) e.t.ctx
          { e.errRec with addr := (tabGet e.g.ctx.sreg m.val).toNat, lane := l })

/-- brk (R289). -/
def execBrk (gd : Guard) (code : BitVec 32) (s : State) : Host.Outcome State Fault Refusal :=
  onIssue 0x0C s (fun e s =>
    let act := e.active gd
    match operandFault e gd act [] [] [] with
    | some t => takeTrap s e t
    | none => if act = 0 then advance s e e.g else takeTrap s e { cause := 0x1E, lanes := act, info := code.toNat })

end Sys2Proof.Machine
end

