-- ==== Sys2Proof/Machine/CopyI.lean ====
section
/-! DEFINITION. The copy instructions up to their posting on an engine (R90, R169, R182, R296, R297, R300). What the
engines do stands in Engine.lean. -/

namespace Sys2Proof.Machine

open Sys2Proof

/-- Does a kind take a copy record (R296)? -/
def copyHasRecord (k : CopyKind) : Bool := match k with | .linear | .fill | .metaq => false | _ => true

/-- Rows and planes of a strided record, 1 and 1 for the kinds without one (Table 21-2). -/
structure Rows where
  xb  : Nat
  yr  : Nat
  zp  : Nat
  srs : Nat
  drs : Nat
  sps : Nat
  dps : Nat
  deriving DecidableEq, Repr

/-- The rows of a command: `n` bytes in one row, or those of its record. -/
def rowsOf (kind : CopyKind) (n r : Nat) : Rows :=
  match kind with
  | .strided2 | .strided3 =>
    { xb := fld r 0 32, yr := fld r 32 32, zp := fld r 128 32, srs := fld r 64 32, drs := fld r 96 32,
      sps := fld r 160 32, dps := fld r 192 32 }
  | _ => { xb := n, yr := 1, zp := 1, srs := 0, drs := 0, sps := 0, dps := 0 }

/-- The bytes from the first touched to the last, with the strides of one side; 0 where nothing is touched. -/
def Rows.span (r : Rows) (row plane : Nat) : Nat :=
  if r.xb = 0 ∨ r.yr = 0 ∨ r.zp = 0 then 0 else (r.zp - 1) * plane + (r.yr - 1) * row + r.xb

/-- The element size of an indexed or combining record (Table 21-2). -/
def recElem (kind : CopyKind) (r : Nat) : Nat :=
  match kind with
  | .combine => if bitOf r 36 then 8 else 4
  | _ => 2 ^ fld r 32 4

/-- Are a record's reserved fields zero and its values allowed (R296, Table 21-2)? -/
def recOk (kind : CopyKind) (r : Nat) : Bool :=
  match kind with
  | .strided2 => fld r 224 32 == 0 && fld r 128 32 == 1
  | .strided3 => fld r 224 32 == 0
  | .gather | .scatter => decide (fld r 32 4 ≤ 4) && fld r 36 28 == 0 && fld r 128 128 == 0
  | .combine =>
    fld r 34 2 == 0 && fld r 38 26 == 0 && fld r 128 128 == 0 && (fld r 32 2 == 3 || fld r 64 64 == 0)
      && (bitOf r 36 || fld r 96 32 == 0)
  | _ => true

/-- A range that a copy checks at issue (R296): its need, pointer, length, alignment, whether an alignment fault is
already due, and whether its limit is checked; the elements of an indexed range are not. -/
structure CopyRange where
  nd    : Need
  ptr   : Nat
  len   : Nat
  align : Nat
  bad   : Bool
  kind  : Nat
  whole : Bool
  deriving DecidableEq, Repr

/-- The ranges of a command in the order of their checks, after its record (R296, R298). -/
def copyRanges (kind : CopyKind) (a b n r : Nat) : List CopyRange :=
  let src (p len : Nat) : CopyRange := { nd := .copySrc, ptr := p, len := len, align := 1, bad := false, kind := 0, whole := true }
  let dst (p len : Nat) : CopyRange := { nd := .copyDst, ptr := p, len := len, align := 1, bad := false, kind := 1, whole := true }
  let rows := rowsOf kind n r
  let e := recElem kind r
  let k := fld r 0 32
  match kind with
  | .linear => [src b n, dst a n]
  | .strided2 | .strided3 => [src b (rows.span rows.srs rows.sps), dst a (rows.span rows.drs rows.dps)]
  | .gather => [src (fld r 64 64) (4 * k), { src b 0 with whole := false }, dst a (k * e)]
  | .scatter => [src (fld r 64 64) (4 * k), src b (k * e), { dst a 0 with whole := false }]
  | .fill => [{ dst a n with bad := n % 4 != 0 || fld a 0 44 % 4 != 0 }]
  | .combine => [src b (k * e), { dst a (k * e) with nd := .combine }]
  | .metaq =>
    [src b n, { dst a 256 with bad := fld a 44 20 != 4 || fld a 0 44 % 4096 != 0 || decide (16384 ≤ fld a 0 44) }]

/-- Steps 2 to 5 of R67 for one range of a copy. (DEDUCED, log 47) -/
def checkCopyRange (s : State) (v : View) (x : CopyRange) : Chk × State :=
  let seg := fld x.ptr 44 20
  match governing s v seg with
  | (.dbl, s) => (.dbl 0x0C, s)
  | (.bad c, s) => (.fail 2 c 0, s)
  | (.ok d, s) =>
    if !x.whole then (if rightsOk v seg d x.nd then (.ok [], s) else (.fail 5 0x0A 0, s))
    else if x.bad then (.fail 3 0x0B 0, s)
    else
      match checkRange s v x.nd seg (fld x.ptr 0 44 : Nat) x.len x.align with
      | (.inl c, s) => (c, s)
      | (.inr _, s) => (.ok [], s)

/-- The ranges one at a time: the first failure is taken (R296). -/
def rangesOf (s : State) (e : Env) (lane : Mask) : List CopyRange → Passed Unit
  | [] => .inr (s, ())
  | x :: r =>
    match checkCopyRange s e.view x with
    | (.ok _, s) => rangesOf s e lane r
    | (.fail _ c _, s) => .inl (takeTrap s e { cause := c, lanes := lane, addr := x.ptr, info := dataInfo e.pc x.kind c })
    | (.dbl c, s) => .inl (dblFault s e c x.ptr)

/-- The copy record, checked and read at issue, after the lane's older stores to it (R94); reserved or forbidden values
are illegal operands (R296, R297), and one whose page misses stalls the instruction (R70). -/
def recordOf (s : State) (e : Env) (lane : Nat) (kind : CopyKind) (p : Nat) : Passed Nat :=
  let lanes := maskOf (fun j => j == lane)
  if !copyHasRecord kind then .inr (s, 0)
  else
    match checkMissing s e.view .copySrc (fld p 44 20) (fld p 0 44 : Nat) 32 8 with
    | (.inl ps, s) => .inl (missStall s e .copySrc ps)
    | (.inr (.ok ls), s) =>
      if ls.any (fun x => blockedBy e.g.ctx.ops lane x.1 x.2 { rel := false, sc := false, scope := .group }) then .inl (stall s e)
      else if ls.any (fun x => accessFails s x.1 false) then
        .inl (takeTrap s e { cause := 0x21, lanes := lanes, addr := p, info := e.pc.idx % 2 ^ 28 })
      else
        let s := ls.foldl (fun s x => observe s e.actor x.1 x.2) s
        let r := locsRead s ls
        if recOk kind r then .inr (s, r) else .inl (takeTrap s e { cause := 0x02, lanes := lanes })
    | (.inr (.fail _ c _), s) => .inl (takeTrap s e { cause := c, lanes := lanes, addr := p, info := dataInfo e.pc 0 c })
    | (.inr (.dbl c), s) => .inl (dblFault s e c p)

/-- A command's record, then its ranges: what the record holds (R296). -/
def checkedCopy (s : State) (e : Env) (lane : Nat) (kind : CopyKind) (a b c : Nat) : Passed Nat :=
  match recordOf s e lane kind c with
  | .inl t => .inl t
  | .inr (s, r) =>
    match rangesOf s e (maskOf (fun j => j == lane)) (copyRanges kind a b c r) with
    | .inl t => .inl t
    | .inr (s, _) => .inr (s, r)

/-- The engine with the fewest queued commands, the lowest number first; none when all eight queues are full (R182). A command
that its engine has started counts until it ends. (DESIGN CHOICE, log 95) -/
def pickEngine (d : Die) : Option Nat :=
  match leastBy (fun k => [(d.engines.getD k []).length, k]) (List.range d.engines.length) with
  | some k => if (d.engines.getD k []).length < 64 then some k else none
  | none => none

/-- Queue a command on an engine of a die. -/
def postCommand (s : State) (die k : Nat) (c : CopyCmd) : State :=
  { s with dies := modAt s.dies die (fun d => { d with engines := modAt d.engines k (fun q => q ++ [c]) }) }

/-- The shared issue of the copy instructions; `yields` holds the thresholds of the yield form (R296, R300). -/
def copyIssue (kind : CopyKind) (yields : Option (BitVec 30)) (gd : Guard) (a b c : Src) (s : State) :
    Host.Outcome State Fault Refusal :=
  onIssue 0x90 s (fun e s =>
    let act := e.active gd
    let ia := inX 64 a
    let ib := inX kind.widths.1 b
    let ic := inX kind.widths.2 c
    match valueFault e gd act [ic] (fun l => kind == .metaq && readInp e ic l % 256 != 0)
        (operandFault e gd (lowMask act) [ia, ib, ic] [] []) with
    | some t => takeTrap s e t
    | none =>
      match lowestLane act with
      | none => advance s e e.g
      | some l =>
        let pa := readInp e ia l
        let pb := readInp e ib l
        let pc := readInp e ic l
        if e.g.full .copy then stall s e
        else
          (checkedCopy s e l kind pa pb pc).go (fun s r =>
            let post (s : State) : State :=
              match pickEngine (s.dies.getD e.g.place.die Die.reset) with
              | none => stall s e
              | some k =>
                let cmd : CopyCmd :=
                  { place := e.g.place, team := e.t.uid, ctx := e.t.ctx, op := e.g.nextOp, pc := e.pc, kind := kind,
                    cseg := e.pc.seg, dst := BitVec.ofNat 64 pa, src := BitVec.ofNat 64 pb, cnt := pc,
                    rcd := BitVec.ofNat 256 r, pos := 0, since := s.clock, prio := e.t.prio,
                    seq := e.g.ctx.issued.copy, fault := none, delivered := false }
                let s := postCommand s e.g.place.die k cmd
                let seg := fld pa 44 20
                let s := if seg = 1 ∨ seg = 3 then s else soil s e.t.uid
                let g := e.g.addOp .copy .copy [] .weak .device e.pc []
                match yields with
                | none => advance s e g
                | some th =>
                  beginWait s e ((g.fence e.slices).setPc e.slices e.pc.next) 1 0 th.toNat (e.pc.idx + 1)
                    (.counters th true)
            match yields with
            | none => post s
            | some _ => withTarget s e (lowMask act) e.pc.seg (e.pc.at 1) post))

/-- copy.linear (R169). -/
def execCopyLinear (gd : Guard) (a b c : Src) (s : State) : Host.Outcome State Fault Refusal :=
  copyIssue .linear none gd a b c s

/-- copy.strided2 (R298). -/
def execCopyStrided2 (gd : Guard) (a b c : Src) (s : State) : Host.Outcome State Fault Refusal :=
  copyIssue .strided2 none gd a b c s

/-- copy.strided3 (R298). -/
def execCopyStrided3 (gd : Guard) (a b c : Src) (s : State) : Host.Outcome State Fault Refusal :=
  copyIssue .strided3 none gd a b c s

/-- copy.gather (R298). -/
def execCopyGather (gd : Guard) (a b c : Src) (s : State) : Host.Outcome State Fault Refusal :=
  copyIssue .gather none gd a b c s

/-- copy.scatter (R298). -/
def execCopyScatter (gd : Guard) (a b c : Src) (s : State) : Host.Outcome State Fault Refusal :=
  copyIssue .scatter none gd a b c s

/-- copy.fill (R298). -/
def execCopyFill (gd : Guard) (a b c : Src) (s : State) : Host.Outcome State Fault Refusal :=
  copyIssue .fill none gd a b c s

/-- copy.combine (R298). -/
def execCopyCombine (gd : Guard) (a b c : Src) (s : State) : Host.Outcome State Fault Refusal :=
  copyIssue .combine none gd a b c s

/-- copy.meta (R298). -/
def execCopyMeta (gd : Guard) (a b c : Src) (s : State) : Host.Outcome State Fault Refusal :=
  copyIssue .metaq none gd a b c s

/-- The yield form of copy (R300). -/
def execCopyYield (gd : Guard) (kind : CopyKind) (th : BitVec 30) (a b c : Src) (s : State) :
    Host.Outcome State Fault Refusal :=
  copyIssue kind (some th) gd a b c s

end Sys2Proof.Machine
end

