-- ==== Sys2Proof/Machine/Engine.lean ====
section
/-! DEFINITION. The engines: copy engines performing commands (R90, R182, R298, R299), and the matrix engine's passes,
broken crews and metadata underruns (R143, R145, R158, R160 to R168). -/

namespace Sys2Proof.Machine

open Sys2Proof

/-! ### Copy elements (R298) -/

/-- What one element of a command meets: it is performed, it has to wait, it fails with a reason and the failing byte's
pointer (R299), its write is answered with an error (R220), or an access is a double fault. -/
inductive ElemRes where
  | done (s : State)
  | wait (s : State)
  | fail (reason ptr : Nat) (s : State)
  | lost (ptr : Nat) (s : State)
  | dbl (ptr : Nat) (s : State)
  deriving DecidableEq, Repr

/-- Why an engine's range cannot be accessed: a copy fault with its reason and the failing byte (R299), a write that is
answered with an error (R197, R220), or a double fault. -/
inductive EngineFail where
  | fault (reason ptr : Nat)
  | lost (ptr : Nat)
  | dbl (ptr : Nat)
  deriving DecidableEq, Repr

/-- The outcome of an element whose range cannot be accessed. -/
def EngineFail.res (f : EngineFail) (s : State) : ElemRes :=
  match f with
  | .fault r p => .fail r p s
  | .lost p => .lost p s
  | .dbl p => .dbl p s

/-- The reason of an access that is answered with an error: the host or a peer, else data (R299). -/
def answerReason (x : Loc) : Nat :=
  match x with
  | .phys a => (match prange a with | .host | .peer _ => 3 | _ => 1)
  | _ => 1

/-- The places of `n` bytes that an engine accesses, with the checks of R67 against the present descriptor (R299). A limit
failure of an indexed element has its own reason. (DEDUCED, log 32) -/
def enginePlaces (s : State) (v : View) (nd : Need) (seg off n : Nat) (indexed : Bool) :
    (List (Loc × Nat) ⊕ EngineFail) × State :=
  if n = 0 then (.inl [], s)
  else
    match checkAccess s v nd seg (off : Int) n 1 with
    | (.ok ls, s) =>
      let bad := (List.range ls.length).find? (fun k => match ls[k]? with | some x => accessFails s x.1 nd.writes | none => false)
      match bad with
      | some k =>
        let p := segPtr seg (off + ((ls.take k).map (·.2)).sum)
        (.inr (if nd.writes then .lost p else .fault (answerReason (match ls[k]? with | some x => x.1 | none => .phys 0)) p), s)
      | none => (.inl ls, s)
    | (.fail st c skip, s) =>
      (.inr (.fault (if c = 0x21 then 1 else if st = 6 then 0 else if indexed && st == 4 then 2 else 4) (segPtr seg (off + skip))), s)
    | (.dbl _, s) => (.inr (.dbl (segPtr seg off)), s)

/-- Choose, byte by byte, between two values of `n` bytes where they differ (R298). -/
def blend (s : State) (old cur : Nat) : Nat → Nat × State
  | 0 => (0, s)
  | n + 1 =>
    let (r, s) := blend s old cur n
    let a := fld old (8 * n) 8
    let b := fld cur (8 * n) 8
    if a = b then (r + b * 256 ^ n, s)
    else
      let (c, s) := choose s
      (r + (if c then a else b) * 256 ^ n, s)

/-- An engine reads `n` bytes: each is the present one or the one that stood there when the command's run began, `s0`. -/
def engineRead (s0 s : State) (v : View) (seg off n : Nat) (indexed : Bool) : (Nat ⊕ EngineFail) × State :=
  match enginePlaces s v .copySrc seg off n indexed with
  | (.inr f, s) => (.inr f, s)
  | (.inl ls, s) =>
    let s := ls.foldl (fun s x => observe s outsider x.1 x.2) s
    let (x, s) := blend s (locsRead s0 ls) (locsRead s ls) n
    (.inl x, s)

/-- An engine writes `n` bytes, as a function of their former value. -/
def engineWrite (s : State) (v : View) (nd : Need) (seg off n : Nat) (indexed : Bool) (f : Nat → Nat) : ElemRes :=
  match enginePlaces s v nd seg off n indexed with
  | (.inr x, s) => x.res s
  | (.inl ls, s) =>
    if ls.any (fun x => hostBlocks s x.1 x.2) then .wait (ls.foldl (fun s x => askHost s x.1 x.2) s)
    else .done (watchAll (locsWrite { outsider with die := v.die, core := v.core } s ls (f (locsRead s ls))))

/-- Read, then write. -/
def engineMove (s0 s : State) (v : View) (src : Nat × Nat) (dst : Nat × Nat) (n : Nat) (srcIdx dstIdx : Bool) (nd : Need)
    (f : Nat → Nat → Nat) : ElemRes :=
  match engineRead s0 s v src.1 src.2 n srcIdx with
  | (.inr x, s) => x.res s
  | (.inl x, s) => engineWrite s v nd dst.1 dst.2 n dstIdx (fun old => f old x)

/-- The number of elements of a command. A row of bytes is cut at the destination's multiples of 8. -/
def CopyCmd.total (c : CopyCmd) : Nat :=
  let r := c.rcd.toNat
  match c.kind with
  | .linear | .fill => if c.cnt = 0 then 0 else c.cnt / 8 + 2
  | .strided2 | .strided3 =>
    let w := rowsOf c.kind 0 r
    if w.xb = 0 then 0 else w.zp * w.yr * (w.xb / 8 + 2)
  | .metaq => c.cnt / 256
  | _ => fld r 0 32

/-- Piece `j` of a row of `n` bytes whose destination starts at offset `off`: distance and length. -/
def rowPiece (off n j : Nat) : Nat × Nat :=
  let a := off % 8
  let lo := 8 * j - a
  let hi := Min.min n (8 * (j + 1) - a)
  (lo, hi - lo)

/-- Row and piece of element `k`: source offset, destination offset, distance in the row, length. -/
def CopyCmd.piece (c : CopyCmd) (k : Nat) : Nat × Nat × Nat × Nat :=
  let w := rowsOf c.kind c.cnt c.rcd.toNat
  let p := w.xb / 8 + 2
  let z := k / p / w.yr
  let y := k / p % w.yr
  let so := fld c.src.toNat 0 44 + z * w.sps + y * w.srs
  let d := fld c.dst.toNat 0 44 + z * w.dps + y * w.drs
  let x := rowPiece d w.xb (k % p)
  (so + x.1, d + x.1, x.1, x.2)

/-- Four repetitions of a 32-bit pattern from a byte distance on, as `n` bytes. -/
def patternAt (pat dist n : Nat) : Nat := (List.range n).foldl (fun v i => v + fld pat (8 * ((dist + i) % 4)) 8 * 256 ^ i) 0

/-- The operation of a combining copy on an element (Table 21-3): RoundTo(a + b), minimumNumber, maximumNumber, or
RoundTo(a + scalar × b); integers wrap. -/
def combineFn (op ty scalar a b : Nat) : Nat :=
  if ty < 2 then
    let f := if ty = 0 then Fmt.f32 else Fmt.f64
    let t : FpTy := if ty = 0 then .f32 else .f64
    if op = 0 then f.round .rn false (FV.add false (f.decode a) (f.decode b))
    else if op = 3 then
      f.round .rn false (FV.add false (f.decode a) (FV.mul (f.decode scalar) (f.decode b)))
    else fpCombine t (FV.minNum (op == 2)) a b
  else
    let w := if ty = 2 then 32 else 64
    if op = 0 then (a + b) % 2 ^ w
    else if op = 3 then (a + scalar * b) % 2 ^ w
    else if op = 1 then wrapN w (Min.min (sint w a) (sint w b))
    else wrapN w (Max.max (sint w a) (sint w b))

/-- The units of a scatter element that an earlier element with the same index has written already: each keeps its value
or takes the new one (R298). -/
def scatterKeep (s : State) (old new : Nat) (u : Nat) : Nat → Nat × State
  | 0 => (0, s)
  | n + 1 =>
    let (r, s) := scatterKeep s old new u n
    let (c, s) := choose s
    (r + (if c then fld old (8 * u * n) (8 * u) else fld new (8 * u * n) (8 * u)) * 256 ^ (u * n), s)

/-- Perform element `k` of a command. -/
def copyElem (s0 : State) (c : CopyCmd) (v : View) (k : Nat) (s : State) : ElemRes :=
  let r := c.rcd.toNat
  let sseg := fld c.src.toNat 44 20
  let soff := fld c.src.toNat 0 44
  let dseg := fld c.dst.toNat 44 20
  let doff := fld c.dst.toNat 0 44
  let e := recElem c.kind r
  let lseg := fld r 108 20
  let loff := fld r 64 44
  let plain (_ b : Nat) : Nat := b
  match c.kind with
  | .linear | .strided2 | .strided3 =>
    let p := c.piece k
    engineMove s0 s v (sseg, p.1) (dseg, p.2.1) p.2.2.2 false false .copyDst plain
  | .fill =>
    let p := c.piece k
    engineWrite s v .copyDst dseg p.2.1 p.2.2.2 false (fun _ => patternAt (c.src.toNat % 2 ^ 32) p.2.2.1 p.2.2.2)
  | .gather =>
    match engineRead s0 s v lseg (loff + 4 * k) 4 false with
    | (.inr x, s) => x.res s
    | (.inl i, s) => engineMove s0 s v (sseg, soff + i * e) (dseg, doff + k * e) e true false .copyDst plain
  | .scatter =>
    match engineRead s0 s v lseg (loff + 4 * k) 4 false with
    | (.inr x, s) => x.res s
    | (.inl i, s) =>
      let again := (List.range k).any (fun j =>
        match engineRead s s v lseg (loff + 4 * j) 4 false with | (.inl x, _) => x == i | _ => false)
      if !again then engineMove s0 s v (sseg, soff + k * e) (dseg, doff + i * e) e false true .copyDst plain
      else
        match engineRead s0 s v sseg (soff + k * e) e false, enginePlaces s v .copyDst dseg (doff + i * e) e true with
        | (.inl x, s), (.inl ls, _) =>
          let u := Min.min e 8
          let (w, s) := scatterKeep s (locsRead s ls) x u (e / u)
          engineWrite s v .copyDst dseg (doff + i * e) e true (fun _ => w)
        | _, _ => engineMove s0 s v (sseg, soff + k * e) (dseg, doff + i * e) e false true .copyDst plain
  | .combine =>
    engineMove s0 s v (sseg, soff + k * e) (dseg, doff + k * e) e false false .combine
      (combineFn (fld r 32 2) (fld r 36 2) (fld r 64 64))
  | .metaq =>
    let q := fld c.dst.toNat 12 2
    let cluster := match ownerOf s c.team with | some t => t.cluster | none => 0
    if 32 ≤ (metaOf s c.place.die cluster q).length then .wait s
    else
      match engineRead s0 s v sseg (soff + 256 * k) 256 false with
      | (.inr x, s) => x.res s
      | (.inl x, s) =>
        let s := setMeta s c.place.die cluster q (metaOf s c.place.die cluster q ++ [valBytes 256 x])
        .done (sparseGo c.place.die cluster q 33 s)

/-! ### Commands -/

/-- The view of an engine for a command: the issuing core's lookups, the rights of the issuing instruction. -/
def engineView (s : State) (c : CopyCmd) : View :=
  let t := ownerOf s c.team
  { die := c.place.die, core := c.place.core, ctx := c.ctx, team := c.team,
    tmemG := match t with | some t => t.tmemG | none => 0, tileG := match t with | some t => t.tileG | none => 0,
    single := false, codeSeg := c.cseg }

/-- Change a command in its engine's queue. -/
def setCmd (s : State) (die engine : Nat) (c : CopyCmd) : State :=
  setDie s die (fun d => { d with engines := modAt d.engines engine (fun q =>
    q.map (fun x => if x.place == c.place && x.team == c.team && x.seq == c.seq then c else x)) })

/-- Remove a command from its engine's queue. -/
def dropCmd (s : State) (die engine : Nat) (c : CopyCmd) : State :=
  setDie s die (fun d => { d with engines := modAt d.engines engine (fun q =>
    q.filter (fun x => !(x.place == c.place && x.team == c.team && x.seq == c.seq))) })

/-- The copy operation of a command completes, perhaps with a failure for the waitc that covers it (R104, R299). -/
def finishCopyOp (s : State) (c : CopyCmd) (fail : Option OpFail) : State :=
  withOp s c.place c.op (fun t g o => settleOp s t g { o with fail := fail })

/-- The fields of an error record that name a command's issuer. -/
def cmdRec (s : State) (c : CopyCmd) (cause ptr : Nat) (exited : Bool) : ErrRec :=
  let r : ErrRec := { code := 0x03, cause := cause, pc := pcWord c.pc, addr := ptr, exited := exited }
  match holderOf s c.place c.op, ownerOf s c.team with
  | some g, some t => { r with
      who := whoWord t g
      team := t.index
      grid := t.grid.toNat }
  | _, _ => r

/-- The command of an issuer that has exited is abandoned and reported (R299, R196). (DEDUCED, log 32) -/
def abandonCmd (s : State) (die engine : Nat) (c : CopyCmd) (ptr : Nat) : State :=
  let r := cmdRec s c 0x22 ptr true
  postError (finishCopyOp (dropCmd s die engine c) c none) c.ctx r

/-- Has the issuer of a command exited? A saved one has not (R201). -/
def issuerGone (s : State) (c : CopyCmd) : Bool :=
  !(s.groups ++ (s.saved.map (·.groups)).flatten).any (fun g => g.place == c.place && g.team == c.team && !g.exited)

/-- A command meets a failure (R299): it stops at the failing element and waits for the handler, or is abandoned. -/
def copyFails (s : State) (die engine : Nat) (c : CopyCmd) (reason ptr : Nat) : State :=
  if issuerGone s c then abandonCmd s die engine c ptr
  else
    let f : OpFail := { cause := 0x22, addr := BitVec.ofNat 64 ptr,
                        info := BitVec.ofNat 64 (c.pc.idx % 2 ^ 28 + reason % 16 * 2 ^ 28) }
    finishCopyOp (setCmd s die engine { c with fault := some f }) c (some f)

/-- A write of a command that cannot be performed is reported as a store's is, and the command goes on (R197, R220).
(DEDUCED, log 73) -/
def lostWrite (s : State) (c : CopyCmd) (ptr : Nat) : State := postError s c.ctx (cmdRec s c 0x20 ptr (issuerGone s c))

/-- Perform elements of a command from its position on: at most `n`. (DESIGN CHOICE, log 31) -/
def runCmd (s0 : State) (die engine : Nat) (c : CopyCmd) : Nat → Nat → State → State
  | 0, pos, s => if c.total ≤ pos then finishCopyOp (dropCmd s die engine c) c none else setCmd s die engine { c with pos := pos }
  | n + 1, pos, s =>
    if c.total ≤ pos then finishCopyOp (dropCmd s die engine c) c none
    else
      match copyElem s0 c (engineView s c) pos s with
      | .done s => runCmd s0 die engine c n (pos + 1) s
      | .wait s => setCmd s die engine { c with pos := pos }
      | .fail r p s => copyFails s die engine { c with pos := pos } r p
      | .lost p s => runCmd s0 die engine c n (pos + 1) (lostWrite s c p)
      | .dbl p s =>
        doubleFault (finishCopyOp (dropCmd s die engine c) c none) c.ctx 0x0C (pcWord c.pc) p
          { cmdRec s c 0x0C p (issuerGone s c) with code := 5 }

/-- Does a command's source meet its destination, so that its elements are performed together (R298)? -/
def CopyCmd.selfMeets (c : CopyCmd) : Bool :=
  match c.kind with
  | .fill | .metaq => false
  | _ => fld c.src.toNat 44 20 == fld c.dst.toNat 44 20

/-- Are the accesses that the issuing group made before the copy performed, so that the engine may start (R90)? -/
def cmdReady (s : State) (c : CopyCmd) : Bool :=
  match holderOf s c.place c.op with
  | some g => (g.olderOps c.op).all (fun o => o.engine || !o.open_)
  | none => true

/-- The command that an engine performs next (R182): one that it has started, then any that has waited 512 clocks, oldest
first, then the highest task priority, then the oldest. -/
def pickCmd (s : State) (q : List CopyCmd) : Option CopyCmd :=
  let ok := q.filter (fun c => c.fault.isNone && cmdReady s c)
  match ok.find? (fun c => decide (0 < c.pos)) with
  | some c => some c
  | none =>
    match leastBy (fun (c : CopyCmd) => [c.since]) (ok.filter (fun c => decide (c.since + 512 ≤ s.clock))) with
    | some c => some c
    | none => leastBy (fun (c : CopyCmd) => [7 - c.prio, c.since]) ok

/-- COPY_ENGINE_START (R182): an engine performs `units` elements of its next command, or all where `units` is 0. A
command that failed and whose issuer has exited since is abandoned. -/
def execCopyEngineStart (die engine units : Nat) (s : State) : Host.Outcome State Fault Refusal :=
  let q := ((s.dies.getD die Die.reset).engines).getD engine []
  match q.find? (fun c => c.fault.isSome && issuerGone s c) with
  | some c => .next (abandonCmd s die engine c (match c.fault with | some f => f.addr.toNat | none => 0))
  | none =>
    match pickCmd s q with
    | none => .next s
    | some c => .next (runCmd s die engine c (if units = 0 ∨ c.selfMeets then c.total + 1 else units) c.pos s)

/-- The entry of the index list that an element of a gather or scatter uses. -/
def CopyCmd.indexAt (c : CopyCmd) (s : State) : Option Nat :=
  match engineRead s s (engineView s c) (fld c.rcd.toNat 108 20) (fld c.rcd.toNat 64 44 + 4 * c.pos) 4 false with
  | (.inl i, _) => some i
  | _ => none

/-- What the next element of a command reads of one part: segment, offset and length; none where it reads nothing of it. -/
def CopyCmd.readOf (c : CopyCmd) (s : State) (part : CopyPart) : Option (Nat × Nat × Nat) :=
  let p := c.piece c.pos
  let sseg := fld c.src.toNat 44 20
  let soff := fld c.src.toNat 0 44
  let e := recElem c.kind c.rcd.toNat
  let real (x : Nat × Nat × Nat) : Option (Nat × Nat × Nat) := if x.2.2 = 0 then none else some x
  match part, c.kind with
  | .index, .gather | .index, .scatter => some (fld c.rcd.toNat 108 20, fld c.rcd.toNat 64 44 + 4 * c.pos, 4)
  | .source, .linear | .source, .strided2 | .source, .strided3 => real (sseg, p.1, p.2.2.2)
  | .source, .gather => (c.indexAt s).map (fun i => (sseg, soff + i * e, e))
  | .source, .scatter | .source, .combine => some (sseg, soff + c.pos * e, e)
  | .source, .metaq => some (sseg, soff + 256 * c.pos, 256)
  | .dest, .combine => some (fld c.dst.toNat 44 20, fld c.dst.toNat 0 44 + c.pos * e, e)
  | _, _ => none

/-- A read of the next element of a command fails at one of its bytes: TRAPADDR names that byte (R299). -/
def readFails (s : State) (die engine : Nat) (c : CopyCmd) (reason : Nat) (part : CopyPart) (b : Nat) : State :=
  match c.readOf s part with
  | some (seg, off, n) => copyFails s die engine c reason (segPtr seg (off + b % n))
  | none => s

/-- The pointer to which the next element of a command writes. -/
def CopyCmd.writeAt (c : CopyCmd) (s : State) : Nat :=
  let p := c.piece c.pos
  let doff := fld c.dst.toNat 0 44
  let e := recElem c.kind c.rcd.toNat
  segPtr (fld c.dst.toNat 44 20)
    (match c.kind with
      | .linear | .strided2 | .strided3 | .fill => p.2.1
      | .combine | .gather => doff + c.pos * e
      | .scatter => doff + (c.indexAt s).getD 0 * e
      | .metaq => doff)

/-- COPY_FAULT (R299): the next element of an engine's command meets uncorrectable data, or an error of the host or of a
peer, at a byte that it reads; or its write cannot be performed (R220). -/
def execCopyFault (die engine : Nat) (err : EngineErr) (s : State) : Host.Outcome State Fault Refusal :=
  match pickCmd s (((s.dies.getD die Die.reset).engines).getD engine []) with
  | none => .next s
  | some c =>
    if c.total ≤ c.pos then .next s
    else
      match err with
      | .data part b => .next (readFails s die engine c 1 part b)
      | .hostOrPeer part b => .next (readFails s die engine c 3 part b)
      | .write =>
        if c.kind == .metaq then .next s
        else .next (runCmd s die engine c 0 (c.pos + 1) (lostWrite s c (c.writeAt s)))

/-! ### Matrix passes -/

/-- The fields of a latched matrix instruction. -/
def Crew.fields (k : Crew) : Option MatF :=
  match decode k.word with
  | .ok (.mma f) => some f
  | .ok (.mmas f _) => some f
  | .ok (.mmx f _) => some f
  | _ => none

/-- Is a latched instruction an mmas, an mmx? -/
def Crew.isSparse (k : Crew) : Bool := fld k.word.toNat 88 8 == 0x81
def Crew.isScaled (k : Crew) : Bool := fld k.word.toNat 88 8 == 0x82

/-- Element `e` of a row of packed elements of `w` bits. -/
def packed (row w e : Nat) : Nat := fld row (w * e) w

/-- The exact products of a row of A and a column of B (R160, R162), in increasing k. -/
def rowTerms (f : MatF) (sparse : Bool) (arow meta_ : Nat) (b : Nat → Nat) : List FV :=
  let w := f.tya.bits
  let val (x : Nat) : FV := f.tya.val f.low.toNat x
  let prod (e k : Nat) : FV := FV.mul (val (packed arow w e)) (val (b k))
  if sparse then
    ((List.range (f.tya.k / 4)).map (fun g =>
      [prod (2 * g) (4 * g + fld meta_ (4 * g) 2), prod (2 * g + 1) (4 * g + fld meta_ (4 * g + 2) 2)])).flatten
  else (List.range f.tya.k).map (fun k => prod k k)

/-- The terms with the block scales of mmx applied (R145): none where a scale is NaN. -/
def scaleTerms (ts : List FV) (sa sb : Nat) : Option (List FV) :=
  let blocks := (ts.length + 31) / 32
  if (List.range blocks).any (fun b => fld sa (8 * b) 8 == 0xFF || fld sb (8 * b) 8 == 0xFF) then none
  else
    some ((List.range ts.length).map (fun k =>
      (ts.getD k .nan).scale ((fld sa (8 * (k / 32)) 8 : Nat) + (fld sb (8 * (k / 32)) 8 : Nat) - 254)))

/-- The number that an exact integer sum stands for. -/
def FV.toInt (x : FV) : Int :=
  match x with
  | .fin n m e => (if n then -1 else 1) * ((m * 2 ^ e.toNat : Nat) : Int)
  | _ => 0

/-- An accumulator element after the pass (R143): the exact sum with the former value, rounded once, or an integer that
wraps or clamps. -/
def accResult (c : AccTy) (sat : Bool) (acc : Nat) (ts : List FV) : Nat :=
  match c with
  | .i32 =>
    let x : Int := ts.foldl (fun v t => v + t.toInt) (sint 32 acc)
    wrapN 32 (if sat then Max.max (-(2 : Int) ^ 31) (Min.min ((2 : Int) ^ 31 - 1) x) else x)
  | t =>
    let f := if t == .f64 then Fmt.f64 else Fmt.f32
    f.round .rn sat (ts.foldl (FV.add false) (f.decode acc))

/-- The canonical NaN of an accumulator type. -/
def accNan (c : AccTy) : Nat := if c == .f64 then Fmt.f64.nanCode else Fmt.f32.nanCode

/-- One row of a pass: its N elements, packed (R154, R160). -/
def passRow (k : Crew) (f : MatF) (m : Member) (sb0 : List Nat) (entry : List Byte) (btile old i : Nat) : Nat :=
  let n := f.cols
  let cw := 8 * f.tyc.size
  if !hasLane m.rows i then (if f.acc then old else 0)
  else
    let w := f.tya.bits
    let meta_ := bytesVal ((entry.drop (8 * i)).take 8)
    (List.range n).foldl (fun row j =>
      let ts := rowTerms f k.isSparse (m.a.getD i 0) meta_ (fun kk => packed btile w (kk * n + j))
      let acc := if f.acc then fld old (cw * j) cw else 0
      let x := if k.isScaled then
          (match scaleTerms ts (m.sa.getD i 0) (sb0.getD j 0) with
            | some ts => accResult f.tyc f.sat acc ts
            | none => accNan f.tyc)
        else accResult f.tyc f.sat acc ts
      row + x * 2 ^ (cw * j)) 0

/-- One pass: the 32 rows of the member at position `pos` (R160). -/
def passRows (tile : Memory) (k : Crew) (f : MatF) (pos : Nat) (taken : List (List Byte)) : Memory :=
  match k.members.find? (fun m => m.pos == pos) with
  | none => tile
  | some m =>
    let rs := matRanges f k.count
    let btile := memRead tile rs.1.1 rs.1.2
    let len := f.cols * f.tyc.size
    let sb0 := match k.members.find? (fun x => x.pos == 0) with | some x => x.sb | none => []
    (List.range 32).foldl (fun t i =>
      let at_ := rs.2.1 + (32 * pos + i) * len
      memWrite t at_ len (passRow k f m sb0 (taken.getD pos []) btile (memRead tile at_ len) i)) tile

/-- May the next pass of an instruction run (R166)? Before its first pass, the older operations of its members on the
same tile bytes must be performed, and their older acquires (R98, R101). -/
def passReady (s : State) (k : Crew) : Bool :=
  match k.st with
  | .running d _ =>
    decide (0 < d) || k.members.all (fun m =>
      match holderOf s m.place m.op with
      | some g => (match g.findOp m.op with | some o => !tileBlocked g o | none => true)
      | none => true)
  | _ => false

/-- The instruction whose pass the arbiter grants (R165). Of those that have waited 512 clocks, it is the one that has waited
longest since its release or last grant, then the first assembled. (DESIGN CHOICE, log 93) -/
def pickPass (s : State) (die cluster : Nat) : Option Crew :=
  let ok := s.crews.filter (fun k => k.die == die && k.cluster == cluster && passReady s k)
  match leastBy (fun (k : Crew) => [k.since, k.order]) (ok.filter (fun k => decide (k.since + 512 ≤ s.clock))) with
  | some k => some k
  | none =>
    leastBy (fun (k : Crew) => [7 - (match teamOf s k.team with | some t => t.prio | none => 0), k.order]) ok

/-- An instruction completes for every member together (R157), and its entry and a kept set that waited for it go. -/
def finishCrew (s : State) (k : Crew) : State :=
  let s := { s with crews := s.crews.filter (fun x => x.id != k.id) }
  let s := { s with crews := releaseKept s.crews (fun x => x.dropKept) }
  k.members.foldl (fun s m =>
    withOp s m.place m.op (fun t g o => settleOp s t g { o with accs := o.accs.map (fun a => { a with done := true }) })) s

/-- MATRIX_PASS_GRANT (R165): the arbiter grants the next pass, in the instruction's crew order. -/
def execMatrixPassGrant (die cluster : Nat) (s : State) : Host.Outcome State Fault Refusal :=
  match pickPass s die cluster with
  | none => .next s
  | some k =>
    match k.st, k.fields, teamOf s k.team with
    | .running d taken, some f, some t =>
      let s := setTeam s { t with tile := passRows t.tile k f d taken }
      if d + 1 < k.count then .next (setCrew s { k with st := .running (d + 1) taken, since := s.clock })
      else .next (finishCrew s k)
    | _, _, _ => .next s

/-- MATRIX_PASS_ERROR (R167): a pass meets an uncorrectable error. The team is killed; a restartable clean one is
requeued, else the context takes matrix-operand fault, with the counter at which the member that arrived first issued the
instruction; several members may have issued it, so the record names no issuer in WHO and none as EXITED.
(DESIGN CHOICE, log 90) -/
def execMatrixPassError (die cluster : Nat) (s : State) : Host.Outcome State Fault Refusal :=
  match pickPass s die cluster with
  | none => .next s
  | some k =>
    match teamOf s k.team with
    | none => .next s
    | some t =>
      let restart := t.clean && (match taskOf s t.task with | some x => bitOf x.record.toNat 4 | none => false)
      if restart then .next (requeueTeam s t.uid)
      else
        let pc := match k.members with | m :: _ => pcWord m.pc | [] => 0
        .next (postError (killTeamOp s t.uid false) t.ctx
          { code := 0x04, cause := 0x1A, pc := pc, team := t.index, grid := t.grid.toNat })

/-- CREW_BROKEN (R158): the members that wait in a broken entry take crew broken, and the entry is freed. -/
def execCrewBroken (crew : Nat) (s : State) : Host.Outcome State Fault Refusal :=
  match s.crews.find? (fun k => k.id == crew && k.st == .broken) with
  | none => .next s
  | some k =>
    let s := failMembers s k 0x17
    .next { s with crews := releaseKept (s.crews.filter (fun x => x.id != crew)) (fun x => x.dropKept) }

/-- Is a copy of the metadata kind that targets a queue outstanding from a group of the cluster (R162)? -/
def metaCopyPending (s : State) (die cluster q : Nat) : Bool :=
  (s.dies.getD die Die.reset).engines.any (fun l => l.any (fun c =>
    (match c.kind with | .metaq => true | _ => false) && fld c.dst.toNat 12 2 == q
      && (match ownerOf s c.team with | some t => t.cluster == cluster | none => false)))

/-- METADATA_UNDERRUN (R162): the oldest assembled mmas of a queue finds too few entries and no copy that brings more. One
that finds its entries goes. -/
def execMetadataUnderrun (crew : Nat) (s : State) : Host.Outcome State Fault Refusal :=
  match s.crews.find? (fun k => k.id == crew && k.st == .gathering && k.order != 0) with
  | none => .next s
  | some k =>
    match k.metaq with
    | none => .next s
    | some q =>
      let head := (sparseHead s k.die k.cluster q).map (·.id) == some k.id
      if !head then .next s
      else if k.count ≤ (metaOf s k.die k.cluster q).length then .next (sparseGo k.die k.cluster q 33 s)
      else if metaCopyPending s k.die k.cluster q then .next s
      else
        let s := failMembers s k 0x18
        let s := { s with crews := releaseKept (s.crews.filter (fun x => x.id != crew)) (fun x => x.dropKept) }
        .next (sparseGo k.die k.cluster q 33 s)

end Sys2Proof.Machine
end

