-- ==== Sys2Proof/Machine/Hatch.lean ====
section
/-! DEFINITION. Frame grants and the hatch (R55, R57, R58, R59, R321, R322): granting freed blocks to handlers and to
frame waiters, choosing and spilling victims, and refilling a hatched frame. -/

namespace Sys2Proof.Machine

open Sys2Proof

/-! ### Spilling -/

/-- Blocks of a group's frames that stand in the register file, its handler's included. -/
def Group.resident (g : Group) : Nat := (g.frames.map (fun f => f.general + f.reserve)).sum

/-- The size in blocks of the frame that the hatch would spill next: the oldest caller's that is resident, else the
current one (R57). -/
def Group.nextSpill (g : Group) : Option Nat :=
  match g.calls.reverse.find? (fun c => !c.frame.spilled) with
  | some c => some c.frame.blocks.length
  | none => if g.hatched then none else some g.main.frame.blocks.length

/-- The oldest caller whose frame is resident, as an index of the list, which holds the newest first. -/
def oldestResident (cs : List CallRec) : Option Nat :=
  (List.range cs.length).reverse.find? (fun i => match cs[i]? with | some c => !c.frame.spilled | none => false)

/-- A frame whose registers stand in the area. -/
def Frame.stub (f : Frame) : Frame :=
  { f with
    regs := []
    spilled := true }

/-- A group whose next frame has been spilled (R57, R58). One whose current frame goes is hatched; if it waits for blocks, it
waits for that frame first. (DESIGN CHOICE, log 33) -/
def Group.spillOne (g : Group) (now : Nat) : Group :=
  match oldestResident g.calls with
  | some i =>
    { g with
      spillBlk := g.spillBlk + (match g.calls[i]? with | some c => c.frame.blocks.length | none => 0)
      calls := modAt g.calls i (fun c => { c with frame := c.frame.stub }) }
  | none =>
    if g.hatched then g
    else
      let g' := { g with
        spillBlk := g.spillBlk + g.main.frame.blocks.length
        main := { g.main with frame := g.main.frame.stub }
        hatched := true }
      if g.frameDemand.isSome then g'.waitRefill g.wait now else g'

/-- The image of the frame that is spilled next. -/
def Group.nextImage (g : Group) : Nat :=
  match oldestResident g.calls with
  | some i => (match g.calls[i]? with | some c => c.frame.image | none => 0)
  | none => g.main.frame.image

/-- Spill a group's next frame into its area, on top of those spilled before (R57, R60), or the cause of a double fault. -/
def spillNext (s : State) (t : Team) (g : Group) : (Group ⊕ Nat) × State :=
  match g.nextSpill with
  | none => (.inl g, s)
  | some n =>
    match areaPut s g.place t.ctx 7 (0x10000 + 2048 * g.spillBlk) (2048 * n) g.nextImage with
    | (some c, s) => (.inr c, s)
    | (none, s) => (.inl (g.spillOne s.clock), s)

/-- Has a group's area in segment 7 room for `n` more blocks (R59, R60)? A cause stands for a failure of the segment table. -/
def spillFits (s : State) (g : Group) (n : Nat) : (Bool ⊕ Nat) × State :=
  match teamOf s g.team with
  | none => (.inl false, s)
  | some t =>
    match areaSize s g.place t.ctx 7 with
    | (.inl size, s) => (.inl (decide (0x10000 + 2048 * (g.spillBlk + n) ≤ size)), s)
    | (.inr c, s) => (.inr c, s)

/-- May the hatch take a group as a victim (R57, R321): it waits, is not in single-lane mode, and its ld and mat counters
are zero? -/
def Group.spillable (g : Group) : Bool :=
  !g.exited && g.wait.isSome && g.handler.isNone && g.main.count .ld == 0 && g.main.count .mat == 0

/-- What the hatch makes of a waiting request: freed blocks cover it, no victim qualifies now, none has room, or a double
fault. -/
inductive HatchRes where
  | covered (s : State)
  | later (s : State)
  | noRoom (s : State)
  | dbl (s : State)
  deriving DecidableEq, Repr

/-- Spill frames of victims until `n` blocks can be taken for the group in place `p` (R57): the victim in progress first,
then the one with the most blocks, the youngest among equals; `skip` are victims without room. -/
def hatchSpillFor (p : Place) (n : Nat) : Nat → Option Place → List Place → State → HatchRes
  | 0, _, _, s => .later s
  | fuel + 1, cur, skip, s =>
    match groupAt s p with
    | none => .later s
    | some g =>
      if (takeBlocks s g n).isSome then .covered s
      else
        let able := (inPart s p).filter (fun v => v.place != p && v.spillable && v.nextSpill.isSome)
        let left := able.filter (fun v => !skip.contains v.place)
        let pick := match left.find? (fun v => cur == some v.place) with
          | some v => some v
          | none => leastBy (fun (v : Group) =>
              [128 - v.resident, (left.filter (fun (u : Group) => decide (v.age < u.age))).length]) left
        match pick with
        | none => if able = [] then .later s else .noRoom s
        | some v =>
          match spillFits s v (v.nextSpill.getD 0), teamOf s v.team with
          | (.inr c, s), some t => .dbl (areaFault s t v 0 7 c)
          | (.inl true, s), some t =>
            match spillNext s t v with
            | (.inl v', s) => hatchSpillFor p n fuel (some v.place) skip (setGroup s v')
            | (.inr c, s) => .dbl (areaFault s t v 0 7 c)
          | (_, s), _ => hatchSpillFor p n fuel none (v.place :: skip) s

/-- The hatch serves a waiting request (R57): when no victim has room, it raises frame fault in its own group. -/
def hatchServe (s : State) (g : Group) (n : Nat) : State :=
  match hatchSpillFor g.place n 6500 none [] s with
  | .covered s => s
  | .later s => s
  | .noRoom s => breakWait s g.place 0x10
  | .dbl s => s

/-- The oldest frame waiter of a partition that has a property. -/
def frameWaiterWhere (s : State) (p : Place) (ok : Group → Bool) : Option (Group × Nat) :=
  match leastBy Group.age ((inPart s p).filter (fun g => g.frameDemand.isSome && ok g)) with
  | some g => g.frameDemand.map (fun n => (g, n))
  | none => none

/-- HATCH_ACT (R57): the oldest group's request is not covered, or every resident group of the partition waits. -/
def execHatchAct (die core part : Nat) (s : State) : Host.Outcome State Fault Refusal :=
  let p : Place := ⟨die, core, part, 0⟩
  let all := ((inPart s p).filter (fun g => !g.exited)).all (fun g => g.wait.isSome)
  let isOldest (g : Group) : Bool := match oldestIn s p with | some o => o.place == g.place | none => false
  match frameWaiterWhere s p (fun g => all || isOldest g) with
  | some (g, n) => .next (hatchServe s g n)
  | none => .next s

/-- HATCH_WAIT_TIMEOUT (R57): a request that has waited 4,096 clocks makes the hatch act. -/
def execHatchWaitTimeout (die core part : Nat) (s : State) : Host.Outcome State Fault Refusal :=
  let old (g : Group) : Bool := match g.wait with | some w => decide (w.since + 4096 ≤ s.clock) | none => false
  match frameWaiterWhere s ⟨die, core, part, 0⟩ old with
  | some (g, n) => .next (hatchServe s g n)
  | none => .next s

/-! ### Granting -/

/-- A hatched group's current frame stands in the register file again, in granted blocks (R58), or the cause of a double
fault. A group that waited for it alone goes on as it stood. -/
def refillCurrent (s : State) (t : Team) (g : Group) (blocks : List Bool) : (Group ⊕ Nat) × State :=
  match areaGet s g.place t.ctx 7 (g.spillOff 0) (2048 * blocks.length) with
  | (.inr c, s) => (.inr c, s)
  | (.inl x, s) =>
    let alone : Bool := match g.wait with | some w => w.cont == .refill | none => false
    (.inl { g with
      main := { g.main with frame := { blocks := blocks, regs := imageRegs blocks.length x, spilled := false } }
      hatched := false
      wait := if alone then g.under else g.wait
      under := none
      readyAt := s.clock
      spillBlk := g.spillBlk - blocks.length }, s)

/-- The slices that wait, and the program counter at which they do. -/
def Group.waiting (g : Group) (w : Wait) : List Nat × Pc :=
  let ks := (List.range 8).filter (fun k => bitOf w.slices.toNat k)
  (ks, match ks with
    | k :: _ => (match g.slices[k]? with | some sl => sl.pc | none => ⟨0, 0⟩)
    | [] => ⟨0, 0⟩)

/-- A granted request is carried out (R50, R51, R54, R58). -/
def grantFrame (s : State) (g : Group) (blocks : List Bool) : State :=
  match g.wait, teamOf s g.team with
  | some w, some t =>
    let (ks, pc) := g.waiting w
    let done (r : (Group ⊕ Nat) × State) (seg : Nat) (k : Group → Group) : State :=
      match r with
      | (.inl g, s) => setGroup s (k g)
      | (.inr c, s) => areaFault s t g (pcWord pc) seg c
    match w.cont with
    | .refill => done (refillCurrent s t g blocks) 7 id
    | .call _ target args =>
      done (recordRoom s t g) 8 (fun g => (g.callNow ks pc target blocks args).released s.clock)
    | .claim _ => setGroup s (((g.claimNow blocks).setPc ks pc.next).released s.clock)
    | .ret n => done (refillCaller s t g blocks) 7 (fun g => (g.retNow n).released s.clock)
    | _ => s
  | _, _ => s

/-- FRAME_GRANT (R57): the freed blocks go to the oldest group that waits on a frame, once they cover its request. -/
def execFrameGrant (die core part : Nat) (s : State) : Host.Outcome State Fault Refusal :=
  match frameWaiter s ⟨die, core, part, 0⟩ with
  | none => .next s
  | some (g, n) =>
    match takeBlocks s g n with
    | some bs => .next (grantFrame s g bs)
    | none => .next s

/-- Does a group wait for its own spilled frame (R58)? -/
def Group.waitsRefill (g : Group) : Bool :=
  match g.wait with
  | some w => w.cont == .refill && w.broken.isNone
  | none => false

/-- HATCH_REFILL (R58): a hatched group's current frame is refilled before it runs again. -/
def execHatchRefill (p : Place) (s : State) : Host.Outcome State Fault Refusal :=
  match groupAt s p with
  | none => .next s
  | some g =>
    if g.hatched && g.waitsRefill then
      match takeBlocks s g g.main.frame.blocks.length with
      | some bs => .next (grantFrame s g bs)
      | none => .next s
    else .next s

/-- HANDLER_FRAME_GRANT (R55, R184): two free reserve blocks go to the group that has waited longest for a handler
frame. -/
def execHandlerFrameGrant (die core part : Nat) (s : State) : Host.Outcome State Fault Refusal :=
  let p : Place := ⟨die, core, part, 0⟩
  let since (g : Group) : Nat := match g.wait with | some w => w.since | none => 0
  match leastBy (fun g => since g :: g.age) ((inPart s p).filter Group.waitsHandler) with
  | none => .next s
  | some g =>
    match teamOf s g.team with
    | some t => if handlerFree s p then .next (enterHandler s t g) else .next s
    | none => .next s

/-! ### The hatch instruction (R321, R322) -/

/-- What a hatch command did (R321): whether it acted, or the cause of a double fault of the group's area. -/
abbrev HatchDone := (Bool ⊕ Nat) × State

/-- Spill every resident frame of a group: at most 256. -/
def spillAll (t : Team) : Nat → Group → State → (Group ⊕ Nat) × State
  | 0, g, s => (.inl g, s)
  | n + 1, g, s =>
    match spillNext s t g with
    | (.inl g, s) => spillAll t n g s
    | r => r

/-- hatch.spill of a place (R321). -/
def hatchSpillPlace (s : State) (ctx : Nat) (p : Place) : HatchDone :=
  match groupAt s p with
  | none => (.inl false, s)
  | some g =>
    match teamOf s g.team with
    | none => (.inl false, s)
    | some t =>
      if !g.spillable || g.hatched || t.ctx != ctx then (.inl false, s)
      else
        match spillFits s g g.resident with
        | (.inl true, s) =>
          match spillAll t 256 g s with
          | (.inl g, s) => (.inl true, setGroup s g)
          | (.inr c, s) => (.inr c, s)
        | (.inl false, s) => (.inl false, s)
        | (.inr c, s) => (.inr c, s)

/-- hatch.fill of a place (R321). -/
def hatchFillPlace (s : State) (ctx : Nat) (p : Place) : HatchDone :=
  match groupAt s p with
  | none => (.inl false, s)
  | some g =>
    let n := g.main.frame.blocks.length
    match teamOf s g.team with
    | none => (.inl false, s)
    | some t =>
      if !g.hatched || t.ctx != ctx || freeGeneral s p - blocksOwed s p < n then (.inl false, s)
      else
        match refillCurrent s t g (List.replicate n false) with
        | (.inl g, s) => (.inl true, setGroup s g)
        | (.inr c, s) => (.inr c, s)

/-- The status word of a place (Table 22-5). -/
def hatchStatusWord (s : State) (ctx : Nat) (p : Place) : Nat :=
  match groupAt s p with
  | none => 0
  | some g =>
    if g.exited || (match teamOf s g.team with | some t => t.ctx != ctx | none => true) then 0
    else
      2 ^ 63 + (if g.hatched then 2 ^ 62 else 0) + g.calls.length % 256 * 2 ^ 48 + g.resident % 256 * 2 ^ 40
        + g.main.frame.blocks.length % 32 * 2 ^ 35 + g.spillBlk % 65536 * 2 ^ 16
        + (g.calls.filter (fun c => c.spilled)).length % 256 * 2 ^ 8
        + ((g.slices.map (fun sl => sl.stack.length - 4)).foldl (fun a b => Max.max a b) 0) % 256

end Sys2Proof.Machine
end

