-- ==== Sys2Proof/Machine/HostPort.lean ====
section
/-! DEFINITION. The outside agents: the host under bias, bias flips, general cores, peers and management controllers (R93,
R102, R209, R216 to R222, R229, R230, R233, R235). -/

namespace Sys2Proof.Machine

open Sys2Proof

/-! ### The bias table (R216) -/

/-- Is an address in a range of host-managed device memory (R215)? -/
def isHdm (a : Nat) : Bool := match prange a with | .bonded | .moduleMem => true | _ => false

/-- The bias bit of a physical page, for a page of device memory (R216). -/
def biasIndex (page : Nat) : Option Nat :=
  match prange (page * 4096) with
  | .bonded => some page
  | .moduleMem => some (2 ^ 26 + (page - 2 ^ 27))
  | _ => none

/-- The byte that holds bias bit `i` (R216). -/
def biasByte (s : State) (i : Nat) : Nat := fld s.hub.biasbase.toNat 12 40 * 4096 + i / 8

/-- Does a page have host bias? -/
def hostBias (s : State) (page : Nat) : Bool :=
  match biasIndex page with
  | some i => bitOf (curRead s (biasByte s i) 1) (i % 8)
  | none => false

/-- Set a page's bias bit. -/
def setBias (s : State) (i v : Nat) : State :=
  let a := biasByte s i
  watchAll (deviceWrite s a 1 (setFld (curRead s a 1) (i % 8) 1 v))

/-! ### Contexts that map a page -/

/-- Does a table of the level above `l` map a physical page (R69)? -/
def tableMaps (s : State) (pfn : Nat) : Nat → Nat → Bool
  | 0, _ => false
  | l + 1, table =>
    (List.range 512).any (fun i =>
      let e := curRead s (table + 8 * i) 8
      bitOf e 0 && fld e 52 12 == 0
        && (if l = 0 || bitOf e 7 then decide (l < 3) && fld e 12 40 / 2 ^ (9 * l) == pfn / 2 ^ (9 * l)
          else tableMaps s pfn l (fld e 12 40 * 4096)))

/-- The resident contexts that map a physical page. -/
def mappers (s : State) (pfn : Nat) : List Nat :=
  (s.ctxs.filter (fun c => c.resident && tableMaps s pfn 5 c.root)).map (·.num)

/-! ### The host's hold on lines (R217) -/

/-- Record the host as holder of a line, and of some halves as their owner. -/
def addHost (s : State) (line : Nat) (halves : BitVec 2) : State :=
  let mine (d : DirEntry) : Bool := d.line == line && d.holder == 4
  let old := match s.dir.find? mine with | some d => d.halves | none => 0
  { s with dir := { line := line, holder := 4, excl := (old ||| halves) != 0, evicting := false, halves := old ||| halves }
      :: s.dir.filter (fun d => !mine d) }

/-- Shared ownership (R217): the other dies give the line up, the home die's registrations are written back and kept.
(DEDUCED, log 57) -/
def hostShare (s : State) (line : Nat) : State := addHost (cleanRange (recallLine s line) (line * 128) 128) line 0

/-- Ownership of a half (R217): every registration in the line is revoked, every other die gives the line up, the host is
granted the half. -/
def hostOwn (s : State) (half : Nat) : State :=
  let line := half / 2
  addHost (recallLine (revokeRange s (line * 128) 128) line) line (BitVec.ofNat 2 (2 ^ (half % 2)))

/-- What waits for the host to give a line up is performed (R217). -/
def lateRmws (s : State) (line : Nat) : State :=
  let due (r : HostRmw) : Bool := r.addr / 128 == line
  if s.hostRmw.any due then (s.hostRmw.filter due).foldl rmwNow { s with hostRmw := s.hostRmw.filter (fun r => !due r) } else s

/-- The host no longer holds a line: the device's own accesses that wait for that are performed. -/
def hostDrop (s : State) (line : Nat) : State :=
  lateRmws { s with
    dir := s.dir.filter (fun d => !(d.line == line && d.holder == 4))
    hostLate := s.hostLate.filter (fun a => a / 128 != line)
    hostOut := s.hostOut.filter (fun o => o != .backInvalidate line) } line

/-- A context that captures records what the host writes to its pages (R233). -/
def recordHost (s : State) (a : Nat) (bytes : List Byte) : State :=
  let pages := (List.range ((a + bytes.length - 1) / 4096 + 1 - a / 4096)).map (fun k => a / 4096 + k)
  let cs := s.ctxs.filter (fun c => c.resident && captures s c.num && pages.any (fun p => tableMaps s p 5 c.root))
  cs.foldl (fun s c => captureStore { s with capIn := s.capIn ++ [.hostWrite c.num a bytes] } c.num bytes.length (bytesVal bytes)) s

/-- The host writes back bytes of a half that it owns: a write of an agent that is foreign to every storer (R124).
Others are not its to write, and a byte that the device has written since is newer than the host's. (DEDUCED, log 85) -/
def hostBack (s : State) (dirty : List (Nat × Byte)) : State :=
  dirty.foldl (fun s d =>
    if s.dir.any (fun x => x.holder == 4 && x.line == d.1 / 128 && bitOf x.halves.toNat (d.1 / 64 % 2))
        && !s.hostLate.contains d.1 then
      homeWrite (settleForeign (recordHost s d.1 [d.2]) outsider (.phys d.1) 1) d.1 1 d.2.toNat
    else s) s

/-- An answer leaves the device. (DESIGN CHOICE, log 68) -/
def answer (s : State) (o : HostOut) : State := { s with hostOut := s.hostOut ++ [o] }

/-- The lines of a range. -/
def linesOf (a n : Nat) : List Nat := (List.range ((a + n - 1) / 128 + 1 - a / 128)).map (fun k => a / 128 + k)

/-- Does the port offer configuration space alone: isolated (R230), or in recovery (R229)? (DEDUCED, log 62) -/
def portClosed (s : State) : Bool := s.hub.isolated || s.boot.recovery

/-- Is a CXL.mem request turned away: the port is closed or was trained without CXL (R214), or the range lies outside
device memory? -/
def hostRefused (s : State) (a n : Nat) : Bool :=
  portClosed s || !s.hub.cxl || n == 0 || !isHdm a || prange (a + n - 1) != prange a

/-- The data of a range for an outside agent, who is foreign to every shutter cell (R124). -/
def giveData (s : State) (a n : Nat) : State :=
  answer (observe s outsider (.phys a) n) (.data a (valBytes n (curRead s a n)))

/-! ### CXL.mem and CXL.cache -/

/-- Uncorrectable data for the host (R220): an error response, a log entry, and an error record to every context that maps
the page. -/
def hostDataError (s : State) (a : Nat) : State :=
  let s := answer { s with eccLog := s.eccLog ++ [a] } (.error a)
  (mappers s (a / 4096)).foldl (fun s c => postError s c { code := 0x03, paddr := a }) s

/-- Is a line served as in host bias: its page has host bias, or a flip to host bias has flushed it already (R218)? -/
def servedHost (s : State) (line : Nat) : Bool :=
  hostBias s (line / 32)
    || (match s.hub.flip with
        | some f => f.host && line / 32 == f.page && !f.left.contains line
        | none => false)

/-- A host request under the bias of its lines (R216 to R218). A capturing context records a write to its pages (R233). -/
def hostServe (s : State) (r : HostReq) : State :=
  match r with
  | .read a n => giveData ((linesOf a n).foldl (fun s l => if servedHost s l then hostShare s l else s) s) a n
  | .write a bytes =>
    let n := bytes.length
    watchAll (homeWrite (settleForeign (recordHost s a bytes) outsider (.phys a) n) a n (bytesVal bytes))
  | .own half excl =>
    let s := if servedHost s (half / 2) then (if excl then hostOwn s half else hostShare s (half / 2)) else s
    answer (giveData s (half * 64) 64) (.granted half)

/-- The range of a request. -/
def hostRange (r : HostReq) : Nat × Nat :=
  match r with
  | .read a n => (a, n)
  | .write a bytes => (a, bytes.length)
  | .own half _ => (half * 64, 64)

/-- Does a flip to host bias hold a request, because a line of it is not flushed yet (R218)? -/
def flipHolds (s : State) (r : HostReq) : Bool :=
  match s.hub.flip with
  | some f => f.host && (linesOf (hostRange r).1 (hostRange r).2).any (fun l => f.left.contains l)
  | none => false

/-- A host request is turned away, held by a flip, or served. -/
def hostRequest (s : State) (r : HostReq) (err : Bool) : State :=
  let (a, n) := hostRange r
  if hostRefused s a n then answer s (.error a)
  else if err then hostDataError s a
  else if flipHolds s r then { s with hub := { s.hub with waiting := s.hub.waiting ++ [r] } }
  else hostServe s r

/-- HOST_MEM_READ (R216, R217, R220): the host reads under the page's bias; with `err` the device cannot correct the
data. -/
def execHostMemRead (addr n : Nat) (err : Bool) (s : State) : Host.Outcome State Fault Refusal :=
  .next (hostRequest s (.read addr n) err)

/-- HOST_MEM_WRITE (R216): overlapping registrations are revoked, and the write is performed at the home. -/
def execHostMemWrite (addr : Nat) (bytes : List Byte) (s : State) : Host.Outcome State Fault Refusal :=
  .next (hostRequest s (.write addr bytes) false)

/-- HOST_OWNERSHIP_REQUEST (R217): in host bias the request for a half is one step at the home; in device bias the host
gets the data and is not recorded (R216). With `err` the data cannot be corrected (R220). (DEDUCED, log 57) -/
def execHostOwnershipRequest (half : Nat) (ask : OwnAsk) (s : State) : Host.Outcome State Fault Refusal :=
  .next (hostRequest s (.own half ask.own) ask.err)

/-- HOST_SNOOP (R221): the slices answer a snoop of one 64-byte half of a line of host memory; registered words of the line
are revoked first, and the other dies give it up. -/
def execHostSnoop (half : Nat) (s : State) : Host.Outcome State Fault Refusal :=
  let line := half / 2
  match prange (half * 64) with
  | .host =>
    if portClosed s || !s.hub.cxl then .next (answer s (.error (half * 64)))
    else
      let s := recallLine (revokeRange s (line * 128) 128) line
      let fix (d : DirEntry) : Option DirEntry :=
        if d.line == line && d.holder != 4 then
          (let h := BitVec.ofNat 2 (setFld d.halves.toNat (half % 2) 1 0)
           if h = 0 then none else some { d with halves := h })
        else some d
      .next (answer { s with dir := s.dir.filterMap fix } (.snoop half))
  | _ => .next s

/-! ### Flips (R218, R219) -/

/-- The lines of a page, in ascending order. -/
def pageLines (page : Nat) : List Nat := (List.range 32).map (fun k => page * 32 + k)

/-- BIASFLIP after a write that starts a flip: PAGE, TGT, GO, and ERR unless the write clears it (Table 16-3, R4). -/
def flipWord (cur v : Nat) (go : Bool) : Nat :=
  (if go then 2 ^ 63 else 0) + (if bitOf cur 62 && !bitOf v 62 then 2 ^ 62 else 0) + fld v 12 40 * 2 ^ 12 + fld v 0 1

/-- Is a write with GO = 1 refused (R218): GO is 1 already, or PAGE lies outside device memory? -/
def flipRefused (s : State) (page : Nat) : Bool := bitOf s.hub.biasflip.toNat 63 || (biasIndex page).isNone

/-- The refusal: ERR = 1. PAGE and TGT keep what they held. (DESIGN CHOICE, log 75) -/
def refuseFlip (s : State) : State :=
  { s with hub := { s.hub with biasflip := BitVec.ofNat 64 (setFld s.hub.biasflip.toNat 62 1 1) } }

/-- The last line is flushed or answered: the bias bit changes and GO clears (R218, R219). -/
def endFlip (s : State) (page : Nat) (host : Bool) : State :=
  let s := setBias s ((biasIndex page).getD 0) (if host then 1 else 0)
  { s with hub := { s.hub with
      flip := none
      biasflip := BitVec.ofNat 64 (setFld s.hub.biasflip.toNat 63 1 0) } }

/-- A write to BIASFLIP with GO = 1: refused, complete at once where the page has the bias already, or the start of a flip
over the lines that `left` gives. -/
def flipWrite (s : State) (v : Nat) (left : List Nat) (start : State → State) : State :=
  let page := fld v 12 40
  let host := bitOf v 0
  if flipRefused s page then refuseFlip s
  else
    let put (go : Bool) (f : Option Flip) : State := { s with hub := { s.hub with
      flip := f
      biasflip := BitVec.ofNat 64 (flipWord s.hub.biasflip.toNat v go) } }
    if hostBias s page == host then put false none
    else if left = [] then endFlip (put true none) page host
    else start (put true (some { page := page, host := host, left := left }))

/-- The value of a write to BIASFLIP with GO (Table 16-3): page number, target, and ERR written 1 to clear it. -/
def flipVal (page : Nat) (host clear : Bool) : Nat :=
  page % 2 ^ 40 * 2 ^ 12 + (if host then 1 else 0) + (if clear then 2 ^ 62 else 0) + 2 ^ 63

/-- BIAS_FLIP_TO_HOST (R218): a write to BIASFLIP with GO and TGT 1 begins the flush of the page's lines, which goes on at
LINE_RECALL. Nothing of it is accepted in recovery (R229). (DEDUCED, log 57) -/
def execBiasFlipToHost (ask : Nat × Bool) (s : State) : Host.Outcome State Fault Refusal :=
  let v := flipVal ask.1 true ask.2
  if s.boot.recovery then .next s else .next (flipWrite s v (pageLines (fld v 12 40)) id)

/-- The lines of a page that the host may hold. -/
def hostLines (s : State) (page : Nat) : List Nat := (pageLines page).filter (hostHolds s)

/-- BIAS_FLIP_TO_DEVICE (R219): a write to BIASFLIP with GO 1 and TGT 0 snoops every line that the host may hold; the
responses end the flip. -/
def execBiasFlipToDevice (page : Nat) (clear : Bool) (s : State) : Host.Outcome State Fault Refusal :=
  let v := flipVal page false clear
  let left := hostLines s (fld v 12 40)
  if s.boot.recovery then .next s else .next (flipWrite s v left (fun s => left.foldl snoopHost s))

/-- Has the home nothing to write back for a line: no registered word, no other die that holds it? -/
def lineClean (s : State) (line : Nat) : Bool :=
  !s.l1.any (fun x => x.reg && x.addr / 128 == line)
    && !s.dir.any (fun d => d.line == line && d.holder != 4 && d.holder != homeDie (line * 128))

/-- A request that was held is served, or turned away where the port has closed since (R230). -/
def serveOne (s : State) (r : HostReq) : State := if portClosed s then answer s (.error (hostRange r).1) else hostServe s r

/-- Serve the held requests whose lines are all flushed, in their order (R218). -/
def serveHeld (s : State) : State :=
  let ready := s.hub.waiting.filter (fun r => !flipHolds s r)
  ready.foldl serveOne { s with hub := { s.hub with waiting := s.hub.waiting.filter (flipHolds s) } }

/-- LINE_RECALL (R209, R218): the home recalls a line from every other die; the host is sent a back-invalidate snoop. A line
of a page that is flipped to host bias is flushed so, and the lines before it that have nothing to write back are too. -/
def execLineRecall (line : Nat) (s : State) : Host.Outcome State Fault Refusal :=
  match s.hub.flip with
  | some f =>
    if f.host && f.left.contains line then
      let s := recallLine (revokeRange s (line * 128) 128) line
      let left := f.left.filter (fun l => l != line && !(decide (l < line) && lineClean s l))
      let s := serveHeld { s with hub := { s.hub with flip := some { f with left := left } } }
      .next (if left = [] then endFlip s f.page true else s)
    else .next (plain s)
  | none => .next (plain s)
where
  /-- A recall outside a flip. -/
  plain (s : State) : State :=
    let s := recallLine s line
    if hostHolds s line then snoopHost s line else s

/-- BACK_INVALIDATE_RESPONSE (R217, R219): the host answers a snoop of a line, with the bytes of a modified half; whoever
waits for the line may then have it, and with the last response of its page a flip to device bias ends. -/
def execBackInvalidateResponse (line : Nat) (dirty : List (Nat × Byte)) (s : State) : Host.Outcome State Fault Refusal :=
  if s.hostOut.contains (.backInvalidate line) then
    let s := watchAll (hostDrop (hostBack s (dirty.filter (fun d => d.1 / 128 == line))) line)
    match s.hub.flip with
    | some f =>
      if f.host then .next s
      else
        let left := hostLines s f.page
        let s := left.foldl snoopHost { s with hub := { s.hub with flip := some { f with left := left } } }
        .next (if left = [] then endFlip s f.page false else s)
    | none => .next s
  else .next s

/-! ### General cores, peers and management controllers (R93, R222, R235) -/

/-- Is an access of an outside agent answered with an error? -/
def outsideFails (s : State) (a n : Nat) (write : Bool) : Bool :=
  accessFails s (.phys a) write
    || (match prange a with | .unassigned => true | .host => !hostAllowed s a n | _ => false)

/-- A management register (Table 17-2). -/
def mgmtReg (s : State) (o : Nat) : Option Nat :=
  let bootrec := s.boot.attempts % 2 ^ 64 + bytesVal s.boot.steps * 2 ^ 64
  if 0x60000 ≤ o ∧ o < 0x60028 then (if o % 8 = 0 then some (fld bootrec (8 * (o - 0x60000)) 64) else none)
  else if o = 0x60040 then some s.hub.thermal.toNat
  else if o = 0x60048 then some s.hub.power.toNat
  else if o = 0x60050 then some s.hub.mhz
  else if o = 0x60058 then some s.hub.ecccnt.toNat
  else if o = 0x60060 then some s.hub.spares.toNat
  else if o = 0x60068 then some s.hub.watchdog
  else none

/-- A hub register by offset (R64, R146, R174, R218, R235); none for an offset that no rule names, a read of which is answered
with an error. (DESIGN CHOICE, log 107) -/
def hubReg (s : State) (o : Nat) : Option Nat :=
  if 0x40000 ≤ o ∧ o < 0x40400 then some (tabGet s.hub.fw o).toNat
  else if o = 0x50000 then some s.hub.biasflip.toNat
  else if o = 0x50008 then some s.hub.biasbase.toNat
  else if o = 0x50100 then some s.hub.smcarve.toNat
  else if 0x51000 ≤ o ∧ o < 0x51200 ∧ o % 8 = 0 then some (tabGet s.hub.smwin ((o - 0x51000) / 8)).toNat
  else if 0x70000 ≤ o ∧ o < 0x71000 then some (tabGet s.hub.ports o).toNat
  else mgmtReg s o

/-- A read, a write or a read-modify-write by an agent that is foreign to every storer, performed at the home; a write to
a line that the host holds asks for it first. -/
def outsideAccess (s : State) (a : Nat) (acc : OutAccess) : State :=
  match acc with
  | .read n => if outsideFails s a n false then answer s (.error a) else giveData s a n
  | .write bytes =>
    let n := bytes.length
    if outsideFails s a n true then answer s (.error a)
    else if hostBlocks s (.phys a) n then askHost s (.phys a) n
    else watchAll (homeWrite (settleForeign s outsider (.phys a) n) a n (bytesVal bytes))
  | .atom op ty b =>
    let n := ty.width / 8
    if outsideFails s a n true then answer s (.error a)
    else if hostBlocks s (.phys a) n then askHost s (.phys a) n
    else
      let r := performRmw s outsider true true 64 (.phys a) n (fun x => atomNew op ty x b)
      answer (watchAll r.2) (.data a (valBytes n r.1))
  | .hub => (match hubReg s a with | some x => answer s (.value x) | none => answer s (.error a))
  | .window k => (match s.hub.hostWin[k]? with | some w => answer s (.window w.1 w.2) | none => answer s (.error k))

/-- GENERAL_CORE_MEMORY_ACCESS (R93, R230, R235): one of the sixteen general cores reads or writes memory, a hub register
or a host window; requester 16 is a management controller, which reads the registers of Table 17-2. In recovery none of them
is answered (R229). (DESIGN CHOICE, log 11) -/
def execGeneralCoreMemoryAccess (core addr : Nat) (acc : OutAccess) (s : State) : Host.Outcome State Fault Refusal :=
  .next (if core < 16 then (if s.boot.recovery then s else outsideAccess s addr acc)
    else if core = 16 ∧ acc = .hub ∧ s.boot.recovery = false then
      (match mgmtReg s addr with | some x => answer s (.value x) | none => answer s (.error addr))
    else s)

/-- PEER_LINK_REQUEST (R222): an access from a peer device is performed at this device's home slice. -/
def execPeerLinkRequest (peer addr : Nat) (acc : OutAccess) (s : State) : Host.Outcome State Fault Refusal :=
  let mem : Bool := match acc with | .hub | .window _ => false | _ => true
  .next (if 32 ≤ peer ∨ s.boot.recovery then s
    else if isHdm addr && mem then outsideAccess s addr acc
    else answer s (.error addr))

end Sys2Proof.Machine
end

