-- ==== Sys2Proof/Machine/HubRegs.lean ====
section
/-! DEFINITION. Writes to the hub's registers: format windows, slice memory, the watchdog, host windows, and the registers
that only hold a value (R4, R64, R69, R146, R147, R174, R184, R230, R235, R255). -/

namespace Sys2Proof.Machine

open Sys2Proof

/-! ### Format windows (R146, R147) -/

/-- The offset of register `r` of window `k` of die `d`. -/
def fwOff (d k r : Nat) : Nat := 0x40000 + 0x100 * d + 0x20 * k + r

/-- The fields of FWCTL that a write sets while the window is disabled: WR, NPG, LFMT, PFMT and EFMT. -/
def fwFields (v : Nat) : Nat :=
  fld v 62 1 * 2 ^ 62 + fld v 24 24 * 2 ^ 24 + fld v 16 1 * 2 ^ 16 + fld v 8 8 * 2 ^ 8 + fld v 0 3

/-- Write FWCTL. -/
def setFwCtl (s : State) (d k v : Nat) : State :=
  { s with hub := { s.hub with fw := tabSet s.hub.fw (fwOff d k 0) (BitVec.ofNat 64 v) } }

/-- CFGERR after a write that does not raise it: writing 1 clears it (R4). -/
def fwErr (cur v : Nat) : Nat := if bitOf cur 61 && !bitOf v 61 then 2 ^ 61 else 0

/-- Is a write of EN = 1 refused (R147)? PFMT is judged only where EFMT 0 uses it (Table 10-8). (DESIGN CHOICE, log 76)
Bit 51 of ABASE is not checked: a window whose base lies below the aperture is accepted and covers no access.
(DESIGN CHOICE, log 104) -/
def fwBad (s : State) (w : Win) : Bool :=
  decide (6 ≤ w.efmt) || (w.efmt == 0 && !p3109Ok w.pfmt) || w.npg == 0
    || (allWins s).any (fun x => x.en && decide (x.abase < w.abase + w.npg * 4096) && decide (w.abase < x.abase + x.npg * 4096))

/-- FORMAT_WINDOW_ENABLE (R147): a write of FWCTL with EN = 1. An enabled window ignores it; a refused one leaves EN = 0 and
CFGERR = 1. (DEDUCED, log 58) -/
def execFormatWindowEnable (die win : Nat) (val : BitVec 64) (s : State) : Host.Outcome State Fault Refusal :=
  let cur := fwReg s die win 0
  if 4 ≤ die ∨ 8 ≤ win ∨ bitOf cur 63 ∨ s.boot.recovery then .next s
  else
    let new := fwFields val.toNat
    if fwBad s (winOf new (fwReg s die win 8) (fwReg s die win 0x10) (fwReg s die win 0x18)) then
      .next (setFwCtl s die win (new + 2 ^ 61))
    else .next (setFwCtl s die win (new + 2 ^ 63 + fwErr cur val.toNat))

/-- Every line of a window's alias range is written back and invalidated on every die (R147). -/
def flushWindow (s : State) (w : Win) : State :=
  let inside (line : Nat) : Bool := decide (w.abase ≤ line * 128) && decide (line * 128 < w.abase + w.npg * 4096)
  let s := revokeWhere s (fun x => inside (x.addr / 128))
  let s := (s.aliases.filter (fun l => inside l.line)).foldl (fun s l => aliasDrop (aliasWb s l.line) l.line) s
  { s with dir := s.dir.filter (fun d => !inside d.line) }

/-- FORMAT_WINDOW_DISABLE (R147): a write of FWCTL with EN = 0. It changes EN alone of an enabled window, after the flush;
of a disabled one it writes the fields. -/
def execFormatWindowDisable (die win : Nat) (val : BitVec 64) (s : State) : Host.Outcome State Fault Refusal :=
  let cur := fwReg s die win 0
  if 4 ≤ die ∨ 8 ≤ win ∨ s.boot.recovery then .next s
  else if bitOf cur 63 then .next (setFwCtl (flushWindow s (winAt s die win)) die win (cur - 2 ^ 63))
  else .next (setFwCtl s die win (fwFields val.toNat + fwErr cur val.toNat))

/-! ### Slice memory (R64) -/

/-- Is a context's window enabled? -/
def anyWindow (s : State) : Bool := s.hub.smwin.any (fun x => bitOf x.2.toNat 63)

/-- Alias lines that lie in the cache capacity that moves are written back and dropped; which do is the device's, among
them at least as many as no longer fit. (DESIGN CHOICE, log 7) -/
def dropMoved (s : State) : State :=
  s.aliases.foldl (fun s l =>
    let (c, s) := choose s
    if c then aliasDrop (aliasWb s l.line) l.line else s) s

/-- A slice holds no more than its capacity (R11, R13): of the lines that it holds the first ones stay, up to a quarter
(R89), and the lines that no longer fit leave it. (DESIGN CHOICE, log 83) -/
def fitSlices (s : State) : State :=
  let keep (l : Nat) (acc : List Nat) : List Nat :=
    if sliceLines s / 4 ≤ (acc.filter (fun x => lineHome (x * 128) == lineHome (l * 128))).length then acc else l :: acc
  let s := { s with held := s.held.foldr keep [] }
  if fewLines s (sliceLines s) then s
  else (List.range 256).foldl (fun s k => sliceFit k (sliceLines s) (s.aliases.length + s.dir.length) s) s

/-- SMCARVE_WRITE (R64): SIZE above 4 is refused, and so is a change while a window is enabled.
(DESIGN CHOICE, log 59) -/
def execSmcarveWrite (val : BitVec 64) (s : State) : Host.Outcome State Fault Refusal :=
  let size := fld val.toNat 0 3
  if 4 < size ∨ size = s.hub.smcarve.toNat ∨ anyWindow s ∨ s.boot.recovery then .next s
  else
    let s := dropMoved s
    .next (fitSlices { s with hub := { s.hub with smcarve := BitVec.ofNat 64 size } })

/-- Does a window's range overlap that of another enabled one? -/
def smOverlaps (s : State) (ctx base len : Nat) : Bool :=
  s.hub.smwin.any (fun x => x.1 != ctx && bitOf x.2.toNat 63 && decide (fld x.2.toNat 0 24 < base + len)
    && decide (base < fld x.2.toNat 0 24 + fld x.2.toNat 24 24))

/-- SMWIN after a write (R64): ERR is cleared by writing 1; an enabled window changes EN alone; an enable is checked.
(DEDUCED, log 58) -/
def smwinNext (s : State) (ctx cur v : Nat) : Nat :=
  let err := if bitOf cur 62 && !bitOf v 62 then 2 ^ 62 else 0
  let len := fld v 24 24
  let base := fld v 0 24
  if bitOf cur 63 then fld cur 0 48 + err + (if bitOf v 63 then 2 ^ 63 else 0)
  else if !bitOf v 63 then fld v 0 48 + err
  else if len % 256 ≠ 0 ∨ base % 256 ≠ 0 ∨ len = 0 ∨ s.hub.smcarve.toNat * 65536 < base + len
      ∨ smOverlaps s ctx base len then fld v 0 48 + 2 ^ 62
  else fld v 0 48 + err + 2 ^ 63

/-- SMWIN_WRITE (R64). -/
def execSmwinWrite (ctx : Nat) (val : BitVec 64) (s : State) : Host.Outcome State Fault Refusal :=
  if 64 ≤ ctx ∨ s.boot.recovery then .next s
  else
    let new := smwinNext s ctx (tabGet s.hub.smwin ctx).toNat val.toNat
    .next { s with hub := { s.hub with smwin := tabSet s.hub.smwin ctx (BitVec.ofNat 64 new) } }

/-! ### Bounds on firmware (R230) -/

/-- WATCHDOG_WRITE (R230, R235): the watchdog starts again; in recovery nothing answers (R229). -/
def execWatchdogWrite (s : State) : Host.Outcome State Fault Refusal :=
  if s.boot.recovery then .next s else .next { s with hub := { s.hub with watchdog := s.clock } }

/-- WATCHDOG_EXPIRY (R230): 100 ms at the arithmetic clock have passed since the last write; the port is isolated until a cold
reset. (DEDUCED, log 60) -/
def execWatchdogExpiry (s : State) : Host.Outcome State Fault Refusal :=
  if s.hub.watchdog + s.hub.mhz * 100000 ≤ s.clock then .next { s with hub := { s.hub with isolated := true } } else .next s

/-- HOST_WINDOW_WRITE (R230): the host programs one of the eight windows. -/
def execHostWindowWrite (win base size : Nat) (s : State) : Host.Outcome State Fault Refusal :=
  .next { s with hub := { s.hub with hostWin := modAt s.hub.hostWin win (fun _ => (base, size)) } }

/-! ### Registers that hold a value (R4) and what Mihus does to the controller -/

/-- An entry of the context table that nothing has been written to. (DESIGN CHOICE, log 4) -/
def Ctx.blank (n : Nat) : Ctx :=
  { num := n, resident := false, root := 0, handlers := 0, btBase := 0, segTable := 0, nameRules := 0, capture := 0, save := 0,
    stopped := false, noPlace := false }

/-- Write a field of a context's entry, of contexts 0 to 63. -/
def setCtx (s : State) (n : Nat) (f : Ctx → Ctx) : State :=
  if 64 ≤ n then s
  else if s.ctxs.any (fun c => c.num == n) then { s with ctxs := s.ctxs.map (fun c => if c.num == n then f c else c) }
  else { s with ctxs := s.ctxs ++ [f (Ctx.blank n)] }

/-- A write by hub offset: the fields of the register that have storage; a register with behaviour of its own has its own
event, and a read-only one ignores the write. (DEDUCED, log 63) -/
def setHubOff (s : State) (o v : Nat) : State :=
  if 0x40000 ≤ o ∧ o < 0x40400 then
    let d := (o - 0x40000) / 0x100
    let k := o % 0x100 / 0x20
    let r := o % 0x20
    if bitOf (fwReg s d k 0) 63 then s
    else
      let put (x : Nat) : State := { s with hub := { s.hub with fw := tabSet s.hub.fw o (BitVec.ofNat 64 x) } }
      if r = 8 ∨ r = 0x10 then put (fld v 12 40 * 2 ^ 12) else if r = 0x18 then put (fld v 6 46 * 2 ^ 6) else s
  else if o = 0x50000 then
    let c := s.hub.biasflip.toNat
    if bitOf v 63 then s
    else
      let err := if bitOf c 62 && !bitOf v 62 then 2 ^ 62 else 0
      let x := fld c 63 1 * 2 ^ 63 + err + fld v 12 40 * 2 ^ 12 + fld v 0 1
      { s with hub := { s.hub with biasflip := BitVec.ofNat 64 x } }
  else if o = 0x50008 then { s with hub := { s.hub with biasbase := BitVec.ofNat 64 (fld v 12 40 * 2 ^ 12) } }
  else s

/-- A write to the push port of general core `h`, which other agents' writes do not reach (R174): RECORD and TQTGT hold the
value, GO = 1 starts a push, and is ignored while GO reads 1. (DEDUCED, log 63) -/
def setPort (s : State) (h o v : Nat) : State :=
  let r := o % 0x100
  let put (x : Nat) : State := { s with hub := { s.hub with ports := tabSet s.hub.ports o (BitVec.ofNat 64 x) } }
  if o / 0x100 ≠ 0x700 + h then s
  else if r < 0x40 ∧ r % 8 = 0 then put v
  else if r = 0x40 then put (fld v 0 5)
  else if r = 0x48 ∧ bitOf v 63 then put (setFld (tabGet s.hub.ports o).toNat 63 1 1)
  else s

/-- Does the hub take a register write of an agent: the host's comes through the port and reaches the bias registers
alone (R146, R218, R230), and nobody's in recovery (R229)? A management controller writes the watchdog alone (R235). -/
def hubTakes (s : State) (w : Agent) (o : Nat) : Bool :=
  match w with
  | .general h => decide (h < 16) && !s.boot.recovery
  | .host => !s.boot.recovery && !s.hub.isolated && (o == 0x50000 || o == 0x50008)
  | .manager => false

/-- A register write by hub offset. -/
def setHub (s : State) (w : Agent) (o v : Nat) : State :=
  if !hubTakes s w o then s
  else if 0x70000 ≤ o ∧ o < 0x71000 then (match w with | .general h => setPort s h o v | _ => s)
  else setHubOff s o v

/-- Write the record of the controller: a step of Mihus, 12 to 31 (R223). -/
def setStep (b : Boot) (k v : Nat) : Boot := if 12 ≤ k ∧ k < 32 then writeStep b k (BitVec.ofNat 8 (fld v 0 5)) else b

/-- A flash slot is updated (R229). -/
def setSlot (b : Boot) (k : Nat) (x : FlashSlot) : Boot :=
  if k < b.slots.length then { b with slots := modAt b.slots k (fun _ => x) }
  else if k < 2 then { b with slots := b.slots ++ [x] }
  else b

/-- HUB_REGISTER_WRITE (R4): a register by offset, a field of a context's entry, or what Mihus does through the security
controller: a step byte, a measurement of registers 2 to 7 (R225), the increment of the rollback counter (R230), a flash
update, which recovery allows (R229), space freed in a capture area (R233), and the record of a launch in replay mode
(R234). (DESIGN CHOICE, log 80) -/
def execHubRegisterWrite (reg : HubReg) (val : BitVec 64) (s : State) : Host.Outcome State Fault Refusal :=
  match reg with
  | .offset o w => .next (setHub s w o val.toNat)
  | .flash k x => .next { s with boot := setSlot s.boot k x }
  | reg =>
    if s.boot.recovery then .next s
    else
      match reg with
      | .stepByte k => .next { s with boot := setStep s.boot k val.toNat }
      | .measure k d => .next (if 2 ≤ k ∧ k < 8 then { s with boot := extend s.boot k d } else s)
      | .rollback => .next { s with boot := { s.boot with rollback := s.boot.rollback + 1 } }
      | .captureFree n k => .next { s with capture := freeFirst n k s.capture }
      | .replayLoad n recs =>
        .next { s with
          replay := s.replay.filter (fun r => r.task != n) ++ recs.filter (fun r => r.task == n)
          replays := if val = 0 then s.replays.filter (fun x => x != n) else n :: s.replays.filter (fun x => x != n) }
      | .ctxRoot n => .next (setCtx s n (fun c => { c with root := fld val.toNat 12 40 * 4096 }))
      | .ctxResident n => .next (setCtx s n (fun c => { c with resident := bitOf val.toNat 0, noPlace := false }))
      | .ctxHandlers n => .next (setCtx s n (fun c => { c with handlers := val }))
      | .ctxBtBase n => .next (setCtx s n (fun c => { c with btBase := val }))
      | .ctxSegTable n => .next (setCtx s n (fun c => { c with segTable := val }))
      | .ctxNameRules n => .next (setCtx s n (fun c => { c with nameRules := val }))
      | .ctxCapture n => .next (setCtx s n (fun c => { c with capture := val }))
      | .ctxSave n => .next (setCtx s n (fun c => { c with save := val }))
      | .offset _ _ => .next s
      | .flash _ _ => .next s
where
  /-- Drop the first records of a context. -/
  freeFirst (ctx : Nat) : Nat → List CapRec → List CapRec
    | _, [] => []
    | 0, l => l
    | n + 1, r :: l => if r.ctx == ctx then freeFirst ctx n l else r :: freeFirst ctx (n + 1) l

end Sys2Proof.Machine
end

