-- ==== Sys2Proof/Machine/Lane.lean ====
section
/-! DEFINITION. Lane exchange (shfl, vote, redux, scan; R142, R348, R354, R358, R373), lea (R326, R327), mov (R337) and
smov (R254, R360). -/

namespace Sys2Proof.Machine

open Sys2Proof

/-- The source lane of shfl, when it lies in the segment (R358). -/
def shflLane (mode : ShflMode) (w l b : Nat) : Option Nat :=
  let base := l - l % w
  match mode with
  | .idx => if b < w then some (base + b) else none
  | .up => if b ≤ l - base then some (l - b) else none
  | .down => if l + b < base + w then some (l + b) else none
  | .xor => if b < 32 ∧ (l ^^^ b) / w = l / w then some (l ^^^ b) else none

/-- shfl (R358): the value of the named lane and the predicate, in each active lane. -/
def execShfl (h : Hdr) (mode : ShflMode) (ty : IntTy) (d : Dst) (a b : Src) (p : Fin 8) (s : State) :
    Host.Outcome State Fault Refusal :=
  onIssue 0x52 s (fun e s =>
    let act := e.active h.guard
    let ia := inX ty.width a
    let ib := inX 32 b
    match destFault e h.guard act [ia, ib] d ty.width [p.val] with
    | some t => takeTrap s e t
    | none =>
      let w := h.imm.toNat % 64
      let from_ (l : Nat) : Option Nat :=
        match shflLane mode w l (readInp e ib l) with
        | some j => if hasLane act j then some j else none
        | none => none
      let g := e.g.mapCtx (fun r => r.setPred p.val act (fun l => (from_ l).isSome))
      finish s { e with g := g } false act d ty.width (fun l => readInp e ia ((from_ l).getD l)))

/-- vote (R373). -/
def execVote (h : Hdr) (form : VoteForm) (wide : Bool) (a : Src) (s : State) : Host.Outcome State Fault Refusal :=
  let i := if wide then in64 h a else in32 h a
  let ls (act : Mask) (rd : Nat → List Nat) : List (Nat × Nat) := (lanesOf act).map (fun l => (l, (rd l).headD 0))
  match form with
  | .all p => predOp 0x53 h.guard p.val [i] [] (fun _ rd act _ => (ls act rd).all (fun x => x.2 != 0)) s
  | .any p => predOp 0x53 h.guard p.val [i] [] (fun _ rd act _ => (ls act rd).any (fun x => x.2 != 0)) s
  | .eq p => predOp 0x53 h.guard p.val [i] []
      (fun _ rd act _ => (ls act rd).all (fun x => (ls act rd).all (fun y => x.2 == y.2))) s
  | .ballot d => vectorOp 0x53 h d 32 [i] []
      (fun _ rd act _ => (maskOf (fun l => (ls act rd).any (fun x => x.1 == l && x.2 != 0))).toNat) s

/-- One level of the tree of R142 at distance `d`. -/
def reduxStep (f : Nat → Nat → Nat) (d : Nat) (t : List Nat) : List Nat :=
  (List.range d).map (fun i => f (t.getD i 0) (t.getD (i + d) 0))

/-- The tree of R142 over 32 lanes. -/
def reduxTree (f : Nat → Nat → Nat) (t : List Nat) : Nat :=
  (([16, 8, 4, 2, 1].foldl (fun t d => reduxStep f d t) t)).headD 0

/-- The value of redux over the active lanes (R348, Table 23-4). -/
def reduxVal (op : ReduxOp) (ty : AnyTy) (sat : Bool) (act : Mask) (v : Nat → Nat) : Nat :=
  let ls := lanesOf act
  match ty with
  | .i t =>
    let xs := ls.map (fun l => t.elem (v l) 0)
    let lo : Int := if t.signed then -(2 ^ (t.width - 1)) else 0
    let hi : Int := if t.signed then 2 ^ (t.width - 1) - 1 else 2 ^ t.width - 1
    match op with
    | .add => intFit sat t.signed t.width (xs.foldl (· + ·) 0)
    | .min => wrapN t.width (xs.foldl Min.min hi)
    | .max => wrapN t.width (xs.foldl Max.max lo)
    | .and => ls.foldl (fun acc l => acc &&& v l) (2 ^ t.width - 1)
    | .or => ls.foldl (fun acc l => acc ||| v l) 0
    | .xor => ls.foldl (fun acc l => acc ^^^ v l) 0
    | _ => 0
  | .f t =>
    let f := (fpFmt t 0).1
    let two (g : FV → FV → FV) (x y : Nat) : Nat := f.round .rn false (g (f.decode x) (f.decode y))
    let run (g : FV → FV → FV) (ident : Nat) : Nat :=
      reduxTree (two g) ((List.range 32).map (fun l => if hasLane act l then v l else ident))
    match op with
    | .fadd => run (FV.add false) (f.zeroCode true)
    | .fmin => run (FV.minNum false) (f.infCode false false)
    | .fmax => run (FV.minNum true) (f.infCode true false)
    | _ => 0

/-- redux (R348). -/
def execRedux (h : Hdr) (op : ReduxOp) (ty : AnyTy) (sat : Bool) (d : Dst) (a : Src) (s : State) :
    Host.Outcome State Fault Refusal :=
  let i := match ty with
    | .i t => inI h t a
    | .f t => inF h t a
  vectorOp 0x54 h d ty.width [i] [] (fun _ rd act _ => reduxVal op ty sat act (fun l => (rd l).headD 0)) s

/-- scan (R354): the exact sum of the active lanes before `l`, and of `l` itself for the inclusive form. -/
def execScan (h : Hdr) (excl : Bool) (ty : IntTy) (sat : Bool) (d : Dst) (a : Src) (s : State) :
    Host.Outcome State Fault Refusal :=
  vectorOp 0x55 h d ty.width [inI h ty a] []
    (fun _ rd act l =>
      let ls := (lanesOf act).filter (fun k => if excl then decide (k < l) else decide (k ≤ l))
      intFit sat ty.signed ty.width (ls.foldl (fun t k => t + ty.elem ((rd k).headD 0) 0) 0)) s

/-- An offset of a type, as a number (R326). -/
def leaOff (ty : IntTy) (x : Nat) : Int := ty.elem x 0

/-- lea.ptr (R326). -/
def execLeaPtr (h : Hdr) (ty : IntTy) (d : Dst) (a b : Src) (s : State) : Host.Outcome State Fault Refusal :=
  alu 0x29 h d 64 [in32 h a, inI h ty b]
    (bits2 (fun x y => segPtr x (wrapN 44 (leaOff ty y)))) s

/-- lea.add (R326). -/
def execLeaAdd (h : Hdr) (ty : IntTy) (d : Dst) (a b : Src) (s : State) : Host.Outcome State Fault Refusal :=
  alu 0x29 h d 64 [in64 h a, inI h ty b]
    (bits2 (fun x y => segPtr (fld x 44 20) (wrapN 44 ((fld x 0 44 : Nat) + leaOff ty y)))) s

/-- lea.seg (R327). -/
def execLeaSeg (h : Hdr) (g : Fin 16) (a : Src) (s : State) : Host.Outcome State Fault Refusal :=
  onIssue 0x29 s (fun e s =>
    let act := e.active h.guard
    match operandFault e h.guard (lowMask act) [in32 h a] [] [] with
    | some t => takeTrap s e t
    | none =>
      match lowestLane act with
      | none => advance s e e.g
      | some l =>
        let n := readInp e (in32 h a) l
        match governing s e.view n with
        | (.dbl, s) => dblFault s e 0x0C (segPtr n 0)
        | (.bad c, s) => takeTrap s e { cause := c, lanes := act, addr := segPtr n 0, info := dataInfo e.pc 0 c }
        | (.ok _, s) =>
          advance s e (e.g.mapCtx (fun r => { r with greg := tabSet r.greg g.val (BitVec.ofNat 20 n) })))

/-- lea.chk in the lanes of a list: the lanes in which it holds, or the first lane whose descriptor cannot be read, with
the cause and its pointer. -/
def leaChkLanes (e : Env) (h : Hdr) (a b : Src) : List Nat → State → (List Nat ⊕ Nat × Nat × Nat) × State
  | [], s => (.inl [], s)
  | l :: r, s =>
    let p := readInp e (in64 h a) l
    let n := readInp e (in32 h b) l
    match governing s e.view (fld p 44 20) with
    | (.dbl, s) => (.inr (l, 0x0C, p), s)
    | (.bad 0x21, s) => (.inr (l, 0x21, p), s)
    | (d, s) =>
      let ok := match d with
        | .ok d => decide (1 ≤ n) && decide (fld p 0 44 + n ≤ segLimit s e.view (fld p 44 20) d)
        | _ => false
      match leaChkLanes e h a b r s with
      | (.inl ls, s) => (.inl (if ok then l :: ls else ls), s)
      | x => x

/-- lea.chk (R327). -/
def execLeaChk (h : Hdr) (p : Fin 8) (a b : Src) (s : State) : Host.Outcome State Fault Refusal :=
  onIssue 0x29 s (fun e s =>
    let act := e.active h.guard
    match operandFault e h.guard act [in64 h a, in32 h b] [] [p.val] with
    | some t => takeTrap s e t
    | none =>
      match leaChkLanes e h a b (lanesOf act) s with
      | (.inr (l, c, p), s) =>
        if c = 0x0C then dblFault s e 0x0C p
        else takeTrap s e { cause := c, lanes := maskOf (fun k => k == l), addr := p, info := dataInfo e.pc 0 c }
      | (.inl ls, s) => advance s e (e.g.mapCtx (fun r => r.setPred p.val act (fun l => ls.contains l))))

/-- mov (R337). -/
def execMov (h : Hdr) (ty : IntTy) (d : Dst) (a : Src) (s : State) : Host.Outcome State Fault Refusal :=
  alu 0x2A h d ty.width [inI h ty a] (bits1 id) s

/-- The number of teams of a team's grid, GX·GY·GZ (R17). -/
def nteams (s : State) (t : Team) : Nat :=
  match taskOf s t.task with
  | some k => k.total
  | none => 0

/-- %active: the live lanes of the group that are in their slice's running mask (R360). -/
def Group.activeLanes (g : Group) : Mask := lanesRun g (List.range 8)

/-- A special register as lane `l` reads it (Table 19-13, R360). -/
def specialReg (s : State) (e : Env) (n l : Nat) : Nat :=
  match n with
  | 0 => l
  | 1 => l / 4
  | 2 => e.g.index
  | 3 => e.t.index
  | 4 => e.t.lseq
  | 5 => e.g.role
  | 6 => e.g.place.part
  | 7 => e.g.place.core
  | 8 => e.t.cluster
  | 9 => e.g.place.die
  | 10 => e.t.ngroups
  | 11 => nteams s e.t
  | 12 => s.clock % 2 ^ 64
  | 13 => e.g.crew.toNat
  | 14 => e.g.calls.length
  | 15 => e.g.main.frame.count
  | 16 => e.g.main.counts
  | 17 => e.t.ctx
  | _ => e.g.activeLanes.toNat

/-- smov, reading (R254, R360). -/
def execSmovRead (gd : Guard) (wide : Bool) (d : Dst) (reg : Fin 19) (s : State) : Host.Outcome State Fault Refusal :=
  let w := if wide then 64 else 32
  onIssue 0x2B s (fun e s =>
    let act := e.active gd
    match destFault e gd act [] d w [] with
    | some t => takeTrap s e t
    | none => finish s e false act d w (fun l => specialReg s e reg.val l % 2 ^ w))

/-- smov %crew (R360): the value is not checked here. -/
def execSmovWriteCrew (gd : Guard) (a : Src) (s : State) : Host.Outcome State Fault Refusal :=
  onIssue 0x2B s (fun e s =>
    let act := e.active gd
    match operandFault e gd (lowMask act) [inX 64 a] [] [] with
    | some t => takeTrap s e t
    | none =>
      match lowestLane act with
      | none => advance s e e.g
      | some l => advance s e { e.g with crew := BitVec.ofNat 64 (readInp e (inX 64 a) l) })

end Sys2Proof.Machine
end

