-- ==== Sys2Proof/Machine/Priv.lean ====
section
/-! DEFINITION. The system instructions of single-lane mode (R77 to R82, R186 to R188, R254, R255, R284 to R286, R321, R325,
R355, R362, R363, R366, R369). -/

namespace Sys2Proof.Machine

open Sys2Proof

/-- The shared issue of a system instruction: the operand checks, then its effect where the guard holds in lane 0. -/
def privOp (op : Nat) (gd : Guard) (ins : List Inp) (spans : List (Nat × Nat)) (preds : List Nat)
    (k : Env → Mask → State → State) (s : State) : Host.Outcome State Fault Refusal :=
  onIssue op s (fun e s =>
    let act := e.active gd
    match operandFault e gd act ins spans preds with
    | some t => takeTrap s e t
    | none => if act = 0 then advance s e e.g else k e act s)

/-! ### Frozen registers (R187) -/

/-- The frame that FDEP selects: 0 the current one, `k` that of `k` calls below. -/
def Group.frameBelow (g : Group) (k : Nat) : Option Frame :=
  if k = 0 then some g.main.frame else (g.calls[k - 1]?).map (·.frame)

/-- Does a FRZSEL value name no register (R187)? -/
def frzBad (g : Group) (x : Nat) : Bool :=
  let space := fld x 24 2
  let fdep := fld x 14 8
  let code := fld x 0 9
  if space = 1 then decide (6 < code) || fdep != 0
  else if space ≠ 0 then true
  else if code < 384 then
    match g.frameBelow fdep with
    | some f => decide (f.blocks.length ≤ code / 16)
    | none => true
  else if code < 400 then decide (g.calls.length < fdep) || (fdep != 0 && decide (code < 392))
  else if code < 496 then fdep != 0
  else true

/-- FRZSEL after a write (Table 15-2): its fields, and ERR as the selection gives it. (DEDUCED, log 35) -/
def frzSelect (g : Group) (x : Nat) : Nat :=
  let y := fld x 0 22 + fld x 24 2 * 2 ^ 24
  if frzBad g y then y + 2 ^ 63 else y

/-- What an access to a frozen register gives: its result, or the cause of the double fault that it is
(R59). -/
abbrev FrzRes (α : Type) := (α ⊕ Nat) × State

/-- The place of register `vK` of a lane of a spilled frame in the group's area (R60). -/
def Group.spilledAt (g : Group) (fdep code lane : Nat) : Nat := g.spillOff fdep + 128 * code + 4 * lane

/-- A v register of the frame that FDEP selects, from the area where the frame is spilled (R60, R187). -/
def frzV (s : State) (g : Group) (t : Team) (fdep code lane : Nat) : FrzRes Nat :=
  match g.frameBelow fdep with
  | none => (.inl 0, s)
  | some f =>
    if !f.spilled then (.inl (f.v code lane), s)
    else
      match areaGet s g.place t.ctx 7 (g.spilledAt fdep code lane) 4 with
      | (.inl x, s) => (.inl x, s)
      | (.inr c, s) => (.inr c, s)

/-- The place of the call record `fdep` calls below in the group's area of segment 8 (R60). -/
def Group.recordAt (g : Group) (fdep : Nat) : Nat := (g.calls.length - fdep) * 1152

/-- The call record `fdep` calls below, read from its place where it lies there. -/
def frzRecord (s : State) (g : Group) (t : Team) (fdep : Nat) : FrzRes (Option CallRec) :=
  match g.calls[fdep - 1]? with
  | none => (.inl none, s)
  | some c =>
    if !c.spilled then (.inl (some c), s)
    else
      match areaGet s g.place t.ctx 8 (g.recordAt fdep) 1152 with
      | (.inl x, s) => (.inl (some (c.load x)), s)
      | (.inr c, s) => (.inr c, s)

/-- The age that a c selection names (R187): the current casement, or ages 9 to 16 of a call record. -/
def frzAge (s : State) (g : Group) (t : Team) (sel : Nat) : FrzRes (Option Age) :=
  let lane := fld sel 9 5
  let k := fld sel 0 9 - 384
  let fdep := fld sel 14 8
  if fdep = 0 then (.inl ((g.main.cas.getD (lane / 4) [])[k]?), s)
  else
    match frzRecord s g t fdep with
    | (.inl c, s) => (.inl (c.bind (fun c => (c.ages.getD (lane / 4) [])[k - 8]?)), s)
    | (.inr f, s) => (.inr f, s)

/-- A read of FRZDATA: the value, and FRZSEL after it; a read of an invalid age returns zero with ERR set. -/
def frzRead (s : State) (g : Group) (t : Team) (sel : Nat) : FrzRes (Nat × Nat) :=
  let lane := fld sel 9 5
  let code := fld sel 0 9
  let plain (v : Nat) : FrzRes (Nat × Nat) := (.inl (v, sel), s)
  if bitOf sel 63 then plain 0
  else if fld sel 24 2 = 1 then plain (if g.main.predAt code lane then 1 else 0)
  else if code < 384 then
    match frzV s g t (fld sel 14 8) code lane with
    | (.inl v, s) => (.inl (v, sel), s)
    | (.inr f, s) => (.inr f, s)
  else if code < 400 then
    match frzAge s g t sel with
    | (.inl (some a), s) => (.inl (if a.valid then (fld a.data.toNat (32 * (lane % 4)) 32, sel) else (0, sel + 2 ^ 63)), s)
    | (.inl none, s) => (.inl (0, sel + 2 ^ 63), s)
    | (.inr f, s) => (.inr f, s)
  else if code < 464 then plain (t.seen g.index (code - 400)).toNat
  else if code < 480 then plain (tabGet g.main.sreg (code - 464)).toNat
  else plain (tabGet g.main.greg (code - 480)).toNat

/-- A written age: the word of one lane, and valid (R187). -/
def setAgeLane (lane v : Nat) (a : Age) : Age :=
  { valid := true, data := BitVec.ofNat 128 (setFld a.data.toNat (32 * (lane % 4)) 32 v) }

/-- A write of FRZDATA while ERR is clear (R187). g0 reads zero whatever is written (R37). -/
def frzPut (s : State) (g : Group) (t : Team) (sel v : Nat) : FrzRes Group :=
  let lane := fld sel 9 5
  let code := fld sel 0 9
  let fdep := fld sel 14 8
  let main (r : RegCtx) : FrzRes Group := (.inl { g with main := r }, s)
  let age (cas : List (List Age)) (k : Nat) : List (List Age) := modAt cas (lane / 4) (fun l => modAt l k (setAgeLane lane v))
  if fld sel 24 2 = 1 then main (g.main.setPred code (maskOf (fun l => l == lane)) (fun _ => v % 2 == 1))
  else if code < 384 then
    match g.frameBelow fdep with
    | none => (.inl g, s)
    | some f =>
      if f.spilled then
        match areaPut s g.place t.ctx 7 (g.spilledAt fdep code lane) 4 (v % 2 ^ 32) with
        | (none, s) => (.inl g, s)
        | (some c, s) => (.inr c, s)
      else if fdep = 0 then main { g.main with frame := f.setV code lane (v % 2 ^ 32) }
      else (.inl { g with calls := modAt g.calls (fdep - 1) (fun c => { c with frame := f.setV code lane (v % 2 ^ 32) }) }, s)
  else if code < 400 then
    if fdep = 0 then main { g.main with cas := age g.main.cas (code - 384) }
    else
      match frzRecord s g t fdep with
      | (.inr f, s) => (.inr f, s)
      | (.inl none, s) => (.inl g, s)
      | (.inl (some c), s) =>
        let c' : CallRec := { c with ages := age c.ages (code - 392) }
        if (g.calls[fdep - 1]?).any (fun x => x.spilled) then
          match areaPut s g.place t.ctx 8 (g.recordAt fdep) 1152 c'.image with
          | (none, s) => (.inl g, s)
          | (some c, s) => (.inr c, s)
        else (.inl { g with calls := modAt g.calls (fdep - 1) (fun _ => c') }, s)
  else if code < 464 then (.inl g, setTeam s (t.putB g.index (code - 400) v))
  else if code < 480 then main { g.main with sreg := tabSet g.main.sreg (code - 464) (BitVec.ofNat 64 v) }
  else if code = 480 then (.inl g, s)
  else main { g.main with greg := tabSet g.main.greg (code - 480) (BitVec.ofNat 20 v) }

/-- A write of FRZDATA: nothing while ERR is set (R187). -/
def frzWrite (s : State) (g : Group) (t : Team) (sel v : Nat) : FrzRes Group :=
  if bitOf sel 63 then (.inl g, s) else frzPut s g t sel v

/-! ### srd, swr -/

/-- A system register as srd reads it (Table 19-14): the value, and FRZSEL after the read. -/
def sysRead (s : State) (e : Env) (h : Handler) (reg : Nat) : FrzRes (Nat × Nat) :=
  let sel := h.frzsel.toNat
  let c := ctxOf s e.t.ctx
  let area (seg : Nat) : FrzRes (Nat × Nat) :=
    match areaSize s e.g.place e.t.ctx seg with
    | (.inl n, s) => (.inl (segPtr seg (areaIndex e.g.place * n), sel), s)
    | (.inr c, s) => (.inr c, s)
  let plain (v : Nat) : FrzRes (Nat × Nat) := (.inl (v, sel), s)
  match reg with
  | 0x00 => plain e.g.trap.cause.toNat
  | 0x01 => plain e.g.trap.pc.toNat
  | 0x02 => plain e.g.trap.lanes.toNat
  | 0x03 => plain e.g.trap.addr.toNat
  | 0x04 => plain e.g.trap.info.toNat
  | 0x05 => plain e.g.trap.who.toNat
  | 0x08 => plain (match c with | some c => c.btBase.toNat | none => 0)
  | 0x09 => plain (match c with | some c => c.segTable.toNat | none => 0)
  | 0x0A => plain (segPtr 9 0)
  | 0x0B => area 7
  | 0x0C => area 8
  | 0x0D => plain (match c with | some c => c.nameRules.toNat | none => 0)
  | 0x10 => plain sel
  | 0x11 => frzRead s e.g e.t sel
  | 0x12 => plain h.resume.toNat
  | _ => plain 0

/-- srd (R362): a system register into an s register or lane 0 of a v pair. -/
def execSrd (gd : Guard) (d : Dst) (reg : BitVec 8) (s : State) : Host.Outcome State Fault Refusal :=
  privOp 0xA1 gd [] (dstSpan d 64).toList [] (fun e act s =>
    match e.g.handler with
    | none => s
    | some h =>
      match sysRead s e h reg.toNat with
      | (.inr f, s) => dblFault s e f 0
      | (.inl x, s) =>
        let g := { e.g with handler := some { h with frzsel := BitVec.ofNat 64 x.2 } }
        let r := writeDst s { e with g := g } g act d 64 (fun _ => x.1)
        advance r.1 e r.2) s

/-- swr (R362): Op(A) in lane 0 to FRZSEL, FRZDATA or RESUME; any other register ignores it. -/
def execSwr (gd : Guard) (a : Src) (reg : BitVec 8) (s : State) : Host.Outcome State Fault Refusal :=
  let ia := inX 64 a
  privOp 0xA2 gd [ia] [] [] (fun e _ s =>
    match e.g.handler with
    | none => s
    | some h =>
      let v := readInp e ia 0
      match reg.toNat with
      | 0x10 => advance s e { e.g with handler := some { h with frzsel := BitVec.ofNat 64 (frzSelect e.g v) } }
      | 0x11 =>
        match frzWrite s e.g e.t h.frzsel.toNat v with
        | (.inl g, s) => advance s e g
        | (.inr f, s) => dblFault s e f 0
      | 0x12 =>
        let h' := { h with resume := BitVec.ofNat 64 (fld v 0 2 + fld v 8 8 * 2 ^ 8) }
        advance s e { e.g with handler := some h' }
      | _ => advance s e e.g) s

/-! ### sret (R188, R363) -/

/-- The copy commands whose failure this handler saw: with `again` each resumes as an outstanding operation of its
group at its old place in the class, else it is abandoned (R299). -/
def resumeCopies (s : State) (p : Place) (team : Nat) (again : Bool) : State :=
  let mine (c : CopyCmd) : Bool := c.place == p && c.team == team && c.delivered
  let cmds := (s.dies.map (fun d => (d.engines.map (fun q => q.filter mine)).flatten)).flatten
  if !again then
    { s with dies := s.dies.map (fun d => { d with engines := d.engines.map (fun q => q.filter (fun c => !mine c)) }) }
  else
    cmds.reverse.foldl (fun s c =>
      match groupAt s p with
      | none => s
      | some g =>
        let op : Op := { id := g.nextOp, cls := .copy, seq := c.seq, depth := g.calls.length, body := .copy, accs := [],
                         ord := .weak, scope := .device, pc := c.pc, done := false, fail := none }
        let s := setGroup s { g with nextOp := g.nextOp + 1, main := { g.main with ops := op :: g.main.ops } }
        { s with dies := s.dies.map (fun d => { d with engines := d.engines.map (fun q => q.map (fun (x : CopyCmd) =>
            if mine x && x.seq == c.seq then { x with fault := none, delivered := false, op := op.id, since := s.clock }
            else x)) }) }) s

/-- The end of a context by its handler (R188): an error record with the trap as the handler saw it, and the kill.
(DEDUCED, log 34) -/
def endContext (s : State) (e : Env) (code : Nat) : State :=
  let c := if 1 ≤ code ∧ code ≤ 0x0A then code else 0x0A
  let s := postError s e.t.ctx
    { code := c, cause := e.g.trap.cause.toNat, pc := e.g.trap.pc.toNat, addr := e.g.trap.addr.toNat,
      who := e.g.trap.who.toNat, team := e.t.index, grid := e.t.grid.toNat }
  killContext s e.t.ctx

/-- The group goes on in its frozen state, its handler gone, first waiting for its frame if that is spilled (R58); with
`skip` the trapping fragment at the next index. -/
def resumeGroup (g : Group) (now : Nat) (skip : Bool) : Group :=
  let g := { g with handler := none, claim := none, wait := none, readyAt := now }
  let g :=
    if skip then
      g.setPc ((List.range 8).filter (fun k => bitOf g.trapSlices.toNat k))
        ⟨fld g.trap.pc.toNat 44 20, fld g.trap.pc.toNat 0 28 + 1⟩
    else g
  g.settleFrame now

/-- sret (R363): it stalls until the handler's operations have left their counters, then acts on RESUME (R188). -/
def execSret (gd : Guard) (s : State) : Host.Outcome State Fault Refusal :=
  privOp 0xA0 gd [] [] [] (fun e _ s =>
    match e.g.handler with
    | none => s
    | some h =>
      if h.ctx.ops ≠ [] then stall s e
      else
        let s := releaseClaim s e.g
        let act := fld h.resume.toNat 0 2
        let back (skip : Bool) : State :=
          resumeCopies (commit s e (resumeGroup e.g s.clock skip)) e.g.place e.t.uid (!skip)
        if act = 0 then back false
        else if act = 1 then back true
        else if act = 2 then endContext s e (fld h.resume.toNat 8 8)
        else dblFault s e e.g.trap.cause.toNat e.g.trap.addr.toNat) s

/-! ### bind (R77 to R82, R284, R285) -/

/-- The checks of a binding-entry pointer before its translation, in the order of R67 (R284): the descriptor, or the cause. -/
def bindCheck (s : State) (v : View) (p : Nat) : (Nat ⊕ Nat) × State :=
  let seg := fld p 44 20
  let off := fld p 0 44
  match governing s v seg with
  | (.dbl, s) => (.inr 0x0C, s)
  | (.bad c, s) => (.inr c, s)
  | (.ok d, s) =>
    if off % 32 ≠ 0 then (.inr 0x0B, s)
    else if segLimit s v seg d < off + 32 then (.inr 0x09, s)
    else if seg ≠ 6 then (.inr 0x0A, s)
    else (.inl d, s)

/-- The pages of a binding entry that miss in the TLBs (R70). -/
def bindMisses (s : State) (v : View) (nd : Need) (p : Nat) : List Nat :=
  match bindCheck s v p with
  | (.inl d, s) => (rangePages 6 (fld p 0 44) 32 d).filter (fun n => pageMisses s v n nd.writes)
  | _ => []

/-- All checks of a binding-entry pointer (R284): the entry's physical address, or the cause. An entry that cannot be read is
a data error (R148, R230). -/
def bindEntryAt (s : State) (v : View) (nd : Need) (p : Nat) : (Nat ⊕ Nat) × State :=
  match bindCheck s v p with
  | (.inr c, s) => (.inr c, s)
  | (.inl d, s) =>
    match placeRange (dropMisses s v (rangePages 6 (fld p 0 44) 32 d)) v nd 6 (fld p 0 44) 32 d with
    | (.ok ((.phys a, _) :: _), s) => if accessFails s (.phys a) false then (.inr 0x21, s) else (.inl a, s)
    | (.fail _ c _, s) => (.inr c, s)
    | (.dbl c, s) => (.inr c, s)
    | (_, s) => (.inr 0x0C, s)

/-- The 32-bit identity of a claimant (Table 5-4). -/
def claimWord (t : Team) (g : Group) : Nat := placeWord g.place * 2 ^ 16 + t.lseq % 2 ^ 16

/-- An entry with GEN one higher; at the wrap every lookaside buffer is invalidated first (R82). -/
def bumpGen (s : State) (x : Nat) : Nat × State :=
  let g := fld x 66 30
  (setFld x 66 30 (g + 1), if g + 1 = 2 ^ 30 then { s with blb := [] } else s)

/-- A bind form on the entry at `x`: it stalls until the accesses that it is ordered after are performed, a writing one also
while the host owns the line (R217), then acts in one step, its read of a shuttered cell observed (R124, R285). -/
def bindAct (s : State) (e : Env) (act : Mask) (nd : Need) (rel : Bool) (x : Nat) (k : Env → Mask → Nat → Nat → State → State) : State :=
  if !(if rel then e.g.performed (fun _ => true) .device
      else e.g.ctx.ops.all (fun o => o.accs.all (fun b => b.done || !b.loc.overlaps b.size (.phys x) 32))) then stall s e
  else if nd.writes && hostBlocks s (.phys x) 32 then stall (askHost s (.phys x) 32) e
  else k e act x (curRead s x 32) (observe s e.actor (.phys x) 32)

/-- A bind form: the checks of its operands and of its pointer, a stall while the entry's page misses (R70), then its action.
`early` is an illegal operand of the form's own, which comes before an unwaited one (R183); `nd` says whether the entry is
read alone or written (R69); `k` is given the entry's address and value. (DEDUCED, log 36) -/
def bindOp (gd : Guard) (a : Src) (ins : List Inp) (preds : List Nat) (nd : Need) (rel : Bool)
    (early : Env → Bool) (k : Env → Mask → Nat → Nat → State → State) (s : State) :
    Host.Outcome State Fault Refusal :=
  let ia := inX 64 a
  onIssue 0xA3 s (fun e s =>
    let act := e.active gd
    match valueFault e gd act [] (fun _ => early e) (operandFault e gd act (ia :: ins) [] preds) with
    | some t => takeTrap s e t
    | none =>
      let p := readInp e ia 0
      let miss := bindMisses s e.view nd p
      if act = 0 then advance s e e.g
      else if miss ≠ [] then missStall s e nd miss
      else
        match bindEntryAt s e.view nd p with
        | (.inr c, s) => takeTrap s e { cause := c, lanes := act, addr := p, info := dataInfo e.pc 0 c }
        | (.inl x, s) => bindAct s e act nd rel x k)

/-- Write a binding entry: whoever waits for it sees the new state (R75, R80). A window that is not writable answers with an
error, which is reported as a store's is (R150). -/
def entryPut (s : State) (e : Env) (x v : Nat) : State :=
  if accessFails s (.phys x) true then postError s e.t.ctx { e.errRec with code := 0x03, cause := 0x20, paddr := x }
  else putWatched s e.actor (.phys x) 32 v

/-- A form has no illegal operand of its own. -/
def noEarly (_ : Env) : Bool := false

/-- Write the result predicate and go on. -/
def bindDone (s : State) (e : Env) (g : Group) (p : Fin 8) (act : Mask) (r : Bool) : State :=
  advance s e (g.mapCtx (fun c => c.setPred p.val act (fun _ => r)))

/-- bind.claim (R77, R78): an acquire at device scope. A claim held already is an illegal operand, which comes before the
pointer's checks (R183, R284). -/
def execBindClaim (gd : Guard) (p : Fin 8) (a : Src) (s : State) : Host.Outcome State Fault Refusal :=
  bindOp gd a [] [p.val] .atomic false (fun e => e.g.claim.isSome) (fun e act x v s =>
    let s := acquireAt s e.g.place .device
    if fld v 64 2 = 0 then
      let s := entryPut s e x (setFld (setFld v 64 2 1) 96 32 (claimWord e.t e.g))
      bindDone s e { e.g with claim := some x } p act true
    else bindDone s e e.g p act false) s

/-- bind.set (R80): a release at device scope. -/
def execBindSet (gd : Guard) (p : Fin 8) (a b : Src) (s : State) : Host.Outcome State Fault Refusal :=
  let ib := inX 64 b
  bindOp gd a [ib] [p.val] .atomic true noEarly (fun e act x v s =>
    if fld v 64 2 = 1 && fld v 96 32 == claimWord e.t e.g then
      let r := bumpGen s (setFld (setFld (setFld v 0 64 (readInp e ib 0)) 64 2 2) 96 32 0)
      bindDone (entryPut r.2 e x r.1) e { e.g with claim := none } p act true
    else bindDone s e e.g p act false) s

/-- bind.fail (R80): a release at device scope. -/
def execBindFail (gd : Guard) (p : Fin 8) (a : Src) (s : State) : Host.Outcome State Fault Refusal :=
  bindOp gd a [] [p.val] .atomic true noEarly (fun e act x v s =>
    if fld v 64 2 = 1 && fld v 96 32 == claimWord e.t e.g then
      let r := bumpGen s (setFld (setFld v 64 2 3) 96 32 0)
      bindDone (entryPut r.2 e x r.1) e { e.g with claim := none } p act true
    else bindDone s e e.g p act false) s

/-- bind.unbind (R81): a release at device scope. -/
def execBindUnbind (gd : Guard) (p : Fin 8) (a : Src) (s : State) : Host.Outcome State Fault Refusal :=
  bindOp gd a [] [p.val] .atomic true noEarly (fun e act x v s =>
    if fld v 64 2 = 2 then
      let r := bumpGen s (setFld v 64 2 0)
      bindDone (entryPut r.2 e x r.1) e e.g p act true
    else bindDone s e e.g p act false) s

/-- bind.read (R285): the entry's four words into sD to sD + 3, an acquire at device scope. -/
def execBindRead (gd : Guard) (d : Fin 4) (a : Src) (s : State) : Host.Outcome State Fault Refusal :=
  bindOp gd a [] [] .load false noEarly (fun e _ _ v s =>
    let s := acquireAt s e.g.place .device
    advance s e (e.g.mapCtx (fun c => { c with
      sreg := (List.range 4).foldl (fun t i => tabSet t (4 * d.val + i) (BitVec.ofNat 64 (fld v (64 * i) 64))) c.sreg }))) s

/-! ### Invalidations (R68, R71, R81) -/

/-- Have all groups of a context, or of every context, performed the accesses that they have issued: resident, departed and
saved ones (R201)? -/
def ctxQuiet (s : State) (ctx : Option Nat) : Bool :=
  let other (n : Nat) : Bool := match ctx with | some c => n != c | none => false
  (s.groups ++ s.departed).all (fun g =>
      (match ownerOf s g.team with | some t => other t.ctx | none => false) || g.performed (fun _ => true) .system)
    && s.saved.all (fun v => other v.team.ctx || v.groups.all (fun g => g.performed (fun _ => true) .system))

/-- An invalidation drops its copies at once and stalls until the accesses that used them are performed.
(DEDUCED, log 36) -/
def invalidateOp (e : Env) (ctx : Option Nat) (drop : State → State) (s : State) : State :=
  if ctxQuiet s ctx then advance (drop s) e e.g else stall (drop s) e

/-- Drop lookaside copies of a context's entries. -/
def dropBlb (s : State) (ctx : Nat) (p : Nat → Bool) : State :=
  { s with blb := s.blb.filter (fun b => !(b.ctx == ctx && p b.idx)) }

/-- The place of the word that a waiting lane watches, checked again (R68, R71, R115), or the failure of its check. -/
def rewatchLane (s : State) (v : View) (size : Nat) (x : WaitLane) : (WaitLane ⊕ Chk) × State :=
  if x.sat then (.inl x, s)
  else
    match checkAccess s v .load (fld x.ptr 44 20) (fld x.ptr 0 44 : Nat) size 1 with
    | (.ok ls, s) => (.inl { x with loc := match ls with | (y, _) :: _ => y | [] => x.loc }, s)
    | (c, s) => (.inr c, s)

/-- The lanes of a word wait after an invalidation, or the pointer and the failure of the first that has no place any more. -/
def rewatchLanes (v : View) (size : Nat) : List WaitLane → State → (List WaitLane ⊕ Nat × Chk) × State
  | [], s => (.inl [], s)
  | x :: r, s =>
    match rewatchLane s v size x with
    | (.inr c, s) => (.inr (x.ptr, c), s)
    | (.inl y, s) =>
      match rewatchLanes v size r s with
      | (.inl l, s) => (.inl (y :: l), s)
      | f => f

/-- What a waiting group watches after translations or descriptors have been dropped: its pointers are checked again, and one
that fails ends the wait with the cause of its check, or in a double fault. (DEDUCED, log 36) -/
def rewatch (s : State) (g : Group) : State :=
  match g.wait, teamOf s g.team with
  | some w, some t =>
    match w.cont with
    | .word lanes size cmp ord scope =>
      let v : View := { die := g.place.die, core := g.place.core, ctx := t.ctx, team := t.uid, tmemG := t.tmemG, tileG := t.tileG,
                        single := g.handler.isSome, codeSeg := (g.waiting w).2.seg }
      match rewatchLanes v size lanes s with
      | (.inl ls, s) => setGroup s { g with wait := some { w with cont := .word ls size cmp ord scope } }
      | (.inr (_, .fail _ c _), s) => breakWait s g.place c
      | (.inr (p, .dbl c), s) =>
        doubleFault s t.ctx c (pcWord (g.waiting w).2) p { code := 5, who := whoWord t g, team := t.index, grid := t.grid.toNat }
      | (.inr (_, .ok _), s) => s
    | _ => s
  | _, _ => s

/-- Every group that watches a word checks its pointers again. -/
def rewatchAll (s : State) : State :=
  s.groups.foldl (fun s g => match groupAt s g.place with | some g => rewatch s g | none => s) s

/-- Drop TLB entries of a context, or of all: a core's, a die's, and misses in progress; then every group that watches a word
translates it again (R70, R71). -/
def dropTlb (s : State) (p : TlbEntry → Bool) (m : Miss → Bool) : State :=
  rewatchAll { s with
    tlb := s.tlb.filter (fun t => !p t)
    tlb2 := s.tlb2.filter (fun t => !p t)
    misses := s.misses.filter (fun x => !m x) }

/-- Drop cached descriptors of a context; then every group that watches a word checks it again (R68). -/
def dropDescs (s : State) (ctx : Nat) (p : Nat → Bool) : State :=
  rewatchAll { s with descs := s.descs.filter (fun d => !(d.ctx == ctx && p d.seg)) }

/-- Does a waiting group watch a word through a lookup of some binding entries under an older generation (R81)? -/
def Group.watchesOld (g : Group) (p : Nat → Bool) (gen : Nat → Option Nat) : Bool :=
  match g.wait with
  | some w =>
    match w.cont with
    | .word lanes _ _ _ _ => lanes.any (fun x => !x.sat &&
        (match x.link with
          | some (i, n) => p i && (match gen i with | some m => m != n | none => false)
          | none => false))
    | _ => false
  | none => false

/-- Is no word watched in a context, by a resident or a saved team, through an older generation of some binding entries? -/
def linksQuiet (s : State) (e : Env) (p : Nat → Bool) : Bool :=
  let gen (i : Nat) : Option Nat := (entryNow s e.view i).map (fun x => fld x 66 30)
  let of (t : Option Team) (g : Group) : Bool := (t.any (fun t => t.ctx == e.t.ctx)) && g.watchesOld p gen
  !(s.groups.any (fun g => of (teamOf s g.team) g) || s.saved.any (fun v => v.groups.any (of (some v.team))))

/-- A blbi drops lookaside copies at once and stalls until the accesses that passed such a lookup are performed, a waiting
waitv's among them (R81). (DEDUCED, log 36) -/
def blbiOp (e : Env) (p : Nat → Bool) (s : State) : State :=
  if linksQuiet s e p then invalidateOp e (some e.t.ctx) (fun s => dropBlb s e.t.ctx p) s else stall (dropBlb s e.t.ctx p) e

/-- blbi.entry (R286). -/
def execBlbiEntry (h : Hdr) (a : Src) (s : State) : Host.Outcome State Fault Refusal :=
  let ia := in64 h a
  privOp 0xA4 h.guard [ia] [] [] (fun e act s =>
    let p := readInp e ia 0
    let seg := fld p 44 20
    let off := fld p 0 44
    let bad (s : State) (c : Nat) : State := takeTrap s e { cause := c, lanes := act, addr := p }
    match governing s e.view seg with
    | (.dbl, s) => bad s 0x0C
    | (.bad c, s) => bad s c
    | (.ok _, s) =>
      if off % 32 ≠ 0 then bad s 0x0B
      else if seg ≠ 6 then bad s 0x0A
      else blbiOp e (fun i => i == off / 32) s) s

/-- blbi.module (R286). -/
def execBlbiModule (h : Hdr) (a : Src) (s : State) : Host.Outcome State Fault Refusal :=
  let ia := in32 h a
  privOp 0xA4 h.guard [ia] [] [] (fun e act s =>
    let seg := readInp e ia 0
    let bad (s : State) (c : Nat) : State := takeTrap s e { cause := c, lanes := act, addr := segPtr seg 0 }
    match governing s e.view seg with
    | (.dbl, s) => bad s 0x0C
    | (.bad c, s) => bad s c
    | (.ok d, s) =>
      if dKind d ≠ 1 then bad s 0x0A
      else
        blbiOp e (fun i => decide (dLkBase d ≤ i) && decide (i < dLkBase d + dLkLen d)) s) s

/-- blbi.context (R286). -/
def execBlbiContext (gd : Guard) (s : State) : Host.Outcome State Fault Refusal :=
  privOp 0xA4 gd [] [] [] (fun e _ s => blbiOp e (fun _ => true) s) s

/-- tlbi.page (R369): every entry of the context that maps the address, at the size of its mapping. -/
def execTlbiPage (h : Hdr) (a : Src) (s : State) : Host.Outcome State Fault Refusal :=
  let ia := in64 h a
  privOp 0xA5 h.guard [ia] [] [] (fun e _ s =>
    let lin := readInp e ia 0 % 2 ^ 57
    invalidateOp e (some e.t.ctx)
      (fun s => dropTlb s (fun t => t.ctx == e.t.ctx && t.vpn * 4096 / 2 ^ t.shift == lin / 2 ^ t.shift)
        (fun m => m.ctx == e.t.ctx && m.vpn == lin / 4096)) s) s

/-- tlbi.context (R369). -/
def execTlbiContext (gd : Guard) (s : State) : Host.Outcome State Fault Refusal :=
  privOp 0xA5 gd [] [] [] (fun e _ s => invalidateOp e (some e.t.ctx) (fun s =>
    dropTlb s (fun t => t.ctx == e.t.ctx) (fun m => m.ctx == e.t.ctx)) s) s

/-- tlbi.all (R369). -/
def execTlbiAll (gd : Guard) (s : State) : Host.Outcome State Fault Refusal :=
  privOp 0xA5 gd [] [] [] (fun e _ s => invalidateOp e none (fun s =>
    dropTlb s (fun _ => true) (fun _ => true)) s) s

/-- sdci.entry (R355). -/
def execSdciEntry (h : Hdr) (a : Src) (s : State) : Host.Outcome State Fault Refusal :=
  let ia := in32 h a
  privOp 0xA6 h.guard [ia] [] [] (fun e act s =>
    let seg := readInp e ia 0
    if 2 ^ 20 ≤ seg then takeTrap s e { cause := 0x02, lanes := act }
    else invalidateOp e (some e.t.ctx) (fun s => dropDescs s e.t.ctx (fun i => i == seg)) s) s

/-- sdci.context (R355). -/
def execSdciContext (gd : Guard) (s : State) : Host.Outcome State Fault Refusal :=
  privOp 0xA6 gd [] [] [] (fun e _ s => invalidateOp e (some e.t.ctx) (fun s => dropDescs s e.t.ctx (fun _ => true)) s) s

/-! ### Physical accesses (R325, R366) -/

/-- The physical address: Op(A) + SignExt(OFF). -/
def physAddr (e : Env) (m : MHdr) : Nat :=
  let a : Nat := match m.a with | some a => readInp e (inX 64 a) 0 | none => 0
  match m.addr with
  | .sel _ off => wrapN 64 ((a : Int) + sint 24 off.toNat)
  | .link _ _ => a

/-- The accesses of a physical load or store in lane 0: a unit outside every range has no bytes; one in host memory
outside the host's windows fails (R230). -/
def physAccs (s : State) (a size u val : Nat) : List Acc :=
  (splitLocs u 0 [(.phys a, size)]).map (fun p =>
    let x := a + p.1
    let r := prange x
    let absent := decide (2 ^ 52 ≤ x) || (match r with | .unassigned => true | _ => false)
    { lane := 0, off := p.1, loc := p.2.1, size := if absent then 0 else p.2.2, val := fld val (8 * p.1) (8 * p.2.2), exp := 0,
      done := false, posted := (match r with | .host => !absent && !hostAllowed s x p.2.2 | _ => false), ptr := 0 })

/-- The lines of a physical access take its retention (R89). -/
def retainAccs (s : State) (m : MHdr) (accs : List Acc) : State :=
  retainLocs s m ((accs.filter (fun x => x.size != 0)).map (fun x => (x.loc, x.size)))

/-- ldphys (R325). -/
def execLdphys (m : MHdr) (ty : LdTy) (d : Fin 384) (s : State) : Host.Outcome State Fault Refusal :=
  let n := ty.width / 32
  let size := ldBytes ty
  onIssue 0xA7 s (fun e s =>
    let act := e.active m.guard
    match operandFault e m.guard act (addrInp m) [(d.val, n)] [] with
    | some t => takeTrap s e t
    | none =>
      let a := physAddr e m
      if memStalls s e .ld then stall s e
      else if act != 0 && a % plainAlign m.ord size != 0 then takeTrap s e { cause := 0x0B, lanes := act, addr := a }
      else
        let accs := if act = 0 then [] else physAccs s a size (plainUnit (m.ord == .weak) size a) 0
        advance (retainAccs s m accs) e (e.g.addMem .ld (.load ty d.val (m.evp.val = 0)) accs m.ord m.scope e.pc [(d.val, n, false)]))

/-- stphys (R366): the data are read at issue. (DEDUCED, log 41) -/
def execStphys (m : MHdr) (ty : LdTy) (b : Src) (s : State) : Host.Outcome State Fault Refusal :=
  let ib := inX ty.width b
  let size := ldBytes ty
  onIssue 0xA8 s (fun e s =>
    let act := e.active m.guard
    match operandFault e m.guard act (ib :: addrInp m) [] [] with
    | some t => takeTrap s e t
    | none =>
      let a := physAddr e m
      if memStalls s e .st then stall s e
      else if act != 0 && a % plainAlign m.ord size != 0 then takeTrap s e { cause := 0x0B, lanes := act, addr := a }
      else if act = 0 then advance s e (e.g.addMem .st .store [] m.ord m.scope e.pc [])
      else
        let accs := physAccs s a size (plainUnit (m.ord == .weak) size a) (narrow ty (readInp e ib 0))
        advance (soil (retainAccs s m accs) e.t.uid) e (e.g.addMem .st .store accs m.ord m.scope e.pc []))

/-! ### hatch (R321, R322) -/

/-- The place that a hatch command names; bits 31:16 that are not zero are a double fault (R321). -/
def hatchOp (h : Hdr) (a : Src) (preds : List Nat) (k : Env → Mask → Place → State → State) (s : State) :
    Host.Outcome State Fault Refusal :=
  let ia := in32 h a
  privOp 0xA9 h.guard [ia] [] preds (fun e act s =>
    let w := readInp e ia 0
    if 2 ^ 16 ≤ w then takeTrap s e { cause := 0x02, lanes := act } else k e act (wordPlace w) s) s

/-- The end of a hatch command: its predicate, in the handler's group as the command has left it, or a double fault at
the area (R59). -/
def hatchDone (e : Env) (p : Fin 8) (act : Mask) (r : HatchDone) : State :=
  match r with
  | (.inl b, s) => bindDone s e ((groupAt s e.g.place).getD e.g) p act b
  | (.inr c, s) => dblFault s e c 0

/-- hatch.spill (R321). -/
def execHatchSpill (h : Hdr) (p : Fin 8) (a : Src) (s : State) : Host.Outcome State Fault Refusal :=
  hatchOp h a [p.val] (fun e act pl s => hatchDone e p act (hatchSpillPlace s e.t.ctx pl)) s

/-- hatch.fill (R321). -/
def execHatchFill (h : Hdr) (p : Fin 8) (a : Src) (s : State) : Host.Outcome State Fault Refusal :=
  hatchOp h a [p.val] (fun e act pl s => hatchDone e p act (hatchFillPlace s e.t.ctx pl)) s

/-- hatch.status (R322). -/
def execHatchStatus (h : Hdr) (d : Fin 16) (a : Src) (s : State) : Host.Outcome State Fault Refusal :=
  hatchOp h a [] (fun e _ pl s =>
    advance s e (e.g.mapCtx (fun c =>
      { c with sreg := tabSet c.sreg d.val (BitVec.ofNat 64 (hatchStatusWord s e.t.ctx pl)) }))) s

end Sys2Proof.Machine
end

