-- ==== Sys2Proof/Machine/Preempt.lean ====
section
/-! DEFINITION. Pre-emption and the end of teams from outside: drain, flush, save, restore, context switch, kill, a fenced
core, and the resumption of a stopped context (R15, R168, R189, R198 to R203, R213, R232, R344). -/

namespace Sys2Proof.Machine

open Sys2Proof

/-- CONTEXT_RESUME (R189): Mihus resumes a context that an assertion stopped; its groups that wait for nothing are ready from
now on (R181). -/
def execContextResume (ctx : Nat) (s : State) : Host.Outcome State Fault Refusal :=
  let halted (g : Group) : Bool := g.wait.isNone && !ctxRuns s ctx && (ownerOf s g.team).any (fun t => t.ctx == ctx)
  .next { s with ctxs := s.ctxs.map (fun c => if c.num == ctx then { c with stopped := false } else c)
                 groups := s.groups.map (fun g => if halted g then { g with readyAt := s.clock } else g) }

/-! ### Save (R201) -/

/-- May a team be saved now (R168, R201): no engine still works for it, no assembled instruction is left?
(DEDUCED, log 53) -/
def saveReady (s : State) (uid : Nat) : Bool :=
  !(s.dies.any (fun d => d.engines.any (fun q => q.any (fun c => c.team == uid && c.fault.isNone))))
    && !(s.crews.any (fun k => k.team == uid && (match k.st with
      | .running .. => true
      | .gathering => k.order != 0
      | _ => false)))

/-- The members that wait in a team's gathering entries are withdrawn, to replay their instruction (R168); those of a
broken entry keep the cause that they will take. -/
def withdraw (s : State) (uid : Nat) : State :=
  let s := (s.crews.filter (fun k => k.team == uid && k.st == .broken)).foldl (fun s k => failMembers s k 0x17) s
  let s := (s.crews.filter (fun k => k.team == uid && k.st == .gathering)).foldl (fun s k =>
    k.members.foldl (fun s m =>
      let s := dropOp s m.place m.op
      match groupAt s m.place with
      | some g => setGroup s (g.released s.clock)
      | none => s) s) s
  { s with crews := s.crews.filter (fun k => !(k.team == uid && (k.st == .broken || k.st == .gathering))) }

/-- A team's groups leave the issue slots. -/
def dropIssue (s : State) (uid : Nat) : State :=
  { s with issue := s.issue.filter (fun i => !(s.groups.any (fun g => g.team == uid && g.place == i.place))) }

/-- The bytes of a group's hatch areas that are in use (R60): the fixed regions and the spilled blocks of segment 7, the
spilled records of segment 8, the oldest callers'; none where nothing is spilled. -/
def Group.areaUse (g : Group) (seg : Nat) : Nat :=
  if seg = 7 then
    if g.spillBlk = 0 && g.slices.all (fun sl => decide (sl.stack.length ≤ 4)) && g.allOps.all (fun o => o.accs.all (fun a => !a.posted))
    then 0
    else 0x10000 + 2048 * g.spillBlk
  else (g.calls.filter (fun c => c.spilled)).length * 1152

/-- What a group's areas hold, with its part of an area in a segment; a failing area is a double fault (R59). -/
def areaImage (s : State) (t : Team) (g : Group) (seg : Nat) : Option Nat × State :=
  match g.areaUse seg with
  | 0 => (some 0, s)
  | n + 1 =>
    match areaGet s g.place t.ctx seg 0 (n + 1) with
    | (.inl x, s) => (some x, s)
    | (.inr c, s) => (none, areaFault s t g 0 seg c)

/-- The images of the areas of some groups; none after a double fault. -/
def areaImages (t : Team) : List Group → State → Option (List (Nat × Nat)) × State
  | [], s => (some [], s)
  | g :: r, s =>
    match areaImage s t g 7 with
    | (none, s) => (none, s)
    | (some x, s) =>
      match areaImage s t g 8 with
      | (none, s) => (none, s)
      | (some y, s) =>
        match areaImages t r s with
        | (none, s) => (none, s)
        | (some l, s) => (some ((x, y) :: l), s)

/-- The most bytes that the image of a team and its groups takes (R201); F counts the frame blocks that they hold in the
register file. -/
def imageBytes (t : Team) (gs : List Group) : Nat :=
  let blocks := (gs.map (fun g => (g.frames.map (fun f => f.general + f.reserve)).sum)).sum
  (t.tmemG + t.tileG) * 4096 + blocks * 2048 + t.ngroups * 16384 + 4096

/-- The image of a team is written to the save area that Mihus names for its context (R201): its layout is private, so its
length within the bound and its bytes are free values. (DESIGN CHOICE, log 81) -/
def saveImage (s : State) (t : Team) (gs : List Group) : State :=
  match ctxOf s t.ctx with
  | some c =>
    areaStore { s with fresh := s.fresh + 2 } c.save (Config.choice s.fresh % (imageBytes t gs + 1)) (Config.choice (s.fresh + 1))
  | none => s

/-- A team and its groups go to the save area, with what their hatch areas hold and its kept sets; its core's registered
words are written back and released (R201, R213). (DEDUCED, log 53) -/
def saveNow (s : State) (t : Team) : State :=
  let mine (g : Group) : Bool := g.team == t.uid
  match areaImages t (s.groups.filter mine) s with
  | (none, s) => s
  | (some areas, s) =>
  let s := revokeWhere (withdraw s t.uid) (fun x => x.die == t.die && x.core == t.core)
  let v : Save := { id := s.nextUid, team := { t with drain := none, saving := false }, groups := s.groups.filter mine, areas := areas,
                    kept := s.crews.filter (fun k => k.team == t.uid) }
  saveImage { s with
    saved := s.saved ++ [v], groups := s.groups.filter (fun g => !mine g),
    teams := s.teams.filter (fun x => x.uid != t.uid), crews := s.crews.filter (fun k => k.team != t.uid),
    nextUid := s.nextUid + 1 } t v.groups

/-- A save stops issue, and takes place once the engines have finished for the team (R201). -/
def saveTeam (s : State) (uid : Nat) : State :=
  match teamOf s uid with
  | none => s
  | some t =>
    if saveReady s uid then saveNow (dropIssue s uid) t else setTeam (dropIssue s uid) { t with saving := true }

/-! ### Pre-emption (R198 to R200, R202) -/

/-- May a team be flushed: its task is idempotent and the team is clean (R198)? -/
def flushable (s : State) (t : Team) : Bool :=
  t.clean && (match taskOf s t.task with | some k => bitOf k.record.toNat 3 | none => false)

/-- A flush (R200): the team ends as at a kill and its index is requeued; its task may be placed again. -/
def flushTeam (s : State) (t : Team) : State :=
  let s := requeueTeam s t.uid
  { s with preStop := s.preStop.filter (fun x => x != t.task) }

/-- Has a team issued at least 0.9 × EXPECT instructions, EXPECT not being zero (R198)? -/
def nearEnd (s : State) (t : Team) : Bool :=
  match taskOf s t.task with
  | some k => k.f 160 32 != 0 && decide (9 * k.f 160 32 ≤ 10 * t.issuedN)
  | none => false

/-- Pre-empt a team (R198): placement of its task stops; the team drains for at most 62,500 clocks, is flushed, or is
saved. Of a team whose groups have all ended nothing is left to pre-empt. (DEDUCED, log 53) -/
def preempt (s : State) (uid : Nat) : State :=
  match teamOf s uid with
  | none => s
  | some t =>
    let gone := (s.groups.filter (fun g => g.team == uid)).all (fun g => g.exited)
    let s := if gone || s.preStop.contains t.task then s else { s with preStop := t.task :: s.preStop }
    if gone then s
    else if t.saving then saveTeam s uid
    else if t.drain.isSome then s
    else if nearEnd s t then setTeam s { t with drain := some (s.clock + 62500) }
    else if flushable s t then flushTeam s t
    else saveTeam s uid

/-- PREEMPT_TEAM (R198). -/
def execPreemptTeam (team : Nat) (s : State) : Host.Outcome State Fault Refusal := .next (preempt s team)

/-- DRAIN_TIMEOUT (R198, R201): a draining team that has not retired in time is saved, and so is one whose save has
waited for the engines. -/
def execDrainTimeout (team : Nat) (s : State) : Host.Outcome State Fault Refusal :=
  match teamOf s team with
  | none => .next s
  | some t =>
    let due := match t.drain with | some d => decide (d ≤ s.clock) | none => false
    .next (if due || t.saving then saveTeam s team else s)

/-- CONTEXT_SWITCH (R202): every team of the context is pre-empted, and no task of it is placed on any die. -/
def execContextSwitch (ctx : Nat) (s : State) : Host.Outcome State Fault Refusal :=
  let s : State := { s with ctxs := s.ctxs.map (fun (c : Ctx) => if c.num == ctx then { c with noPlace := true } else c) }
  .next ((s.teams.filter (fun t => t.ctx == ctx)).foldl (fun s t => preempt s t.uid) s)

/-! ### Restore (R201) -/

/-- The general blocks that a saved group holds: those of its frames in the register file but for its handler's. -/
def Group.heldBlocks (g : Group) : Nat :=
  ((g.main.frame :: g.calls.map (·.frame)).map (fun f => if f.spilled then 0 else f.blocks.length)).sum

/-- A frame in general blocks. -/
def Frame.inGeneral (f : Frame) : Frame := { f with blocks := List.replicate f.blocks.length false }

/-- Do the handlers of the saved groups that go to each partition of a core find their reserve blocks there (R55)? -/
def handlersFit (s : State) (die core : Nat) (gs : List Group) (at_ : List (Nat × Nat)) : Bool :=
  (List.range 8).all (fun q =>
    let n := ((gs.zip at_).filter (fun x => x.1.handler.isSome && x.2.1 == q)).length
    let p : Place := ⟨die, core, q, 0⟩
    n == 0 || (decide (handlersIn s p + n ≤ 12) && decide (2 * n ≤ freeReserve s p)))

/-- The core of a die that takes a saved team, and the places (R22, R177); its matrix engine has room for the kept sets
(R165). (DEDUCED, log 54) -/
def restoreCore (s : State) (die : Nat) (v : Save) : Option (Nat × List (Nat × Nat)) :=
  let fits := (List.range 48).filterMap (fun c =>
    match fitCore s die c v.team.tmemG v.team.tileG (v.groups.map Group.heldBlocks) with
    | some at_ =>
      if handlersFit s die c v.groups at_ && decide (heldEntries s die (clusterOf s die c) + v.kept.length ≤ 32) then some (c, at_)
      else none
    | none => none)
  leastBy (fun x => [(s.groups.filter (fun g => g.place.die == die && g.place.core == x.1)).length, x.1]) fits

/-- A saved group in its new place, which TRAPWHO names (R201): it holds its frames in general blocks and goes on where
it stopped. -/
def Group.moved (g : Group) (p : Place) (now : Nat) : Group :=
  let traps := g.handler.isSome || g.waitsHandler
  { g with trap := if traps then { g.trap with who := BitVec.ofNat 64 (setFld g.trap.who.toNat 0 16 (placeWord p)) } else g.trap,
           place := p, main := { g.main with frame := g.main.frame.inGeneral },
           calls := g.calls.map (fun c => { c with frame := c.frame.inGeneral }), active := false, placedAt := now,
           readyAt := now }

/-- The claim of a moved group names its new place. -/
def moveClaim (s : State) (t : Team) (old new : Group) : State :=
  match old.claim with
  | none => s
  | some a =>
    deviceRmw s { addr := a, n := 32, cond := ones 64 2 + ones 96 32, want := 2 ^ 64 + claimWord t old * 2 ^ 96, mask := ones 96 32,
                  put := claimWord t new * 2 ^ 96 }

/-- What a group's area held goes to the area of its new place (R59); a failing area is a double fault. -/
def areaBack (s : State) (t : Team) (g : Group) (seg x : Nat) : State :=
  match g.areaUse seg with
  | 0 => s
  | n + 1 =>
    match areaPut s g.place t.ctx seg 0 (n + 1) x with
    | (none, s) => s
    | (some c, s) => areaFault s t g 0 seg c

/-- The entries that were pushed for a team while it was saved are delivered (R344). -/
def deliverWaiting (s : State) (uid : Nat) : State :=
  let due (q : QRes) : Bool := q.entry.isSome && (match q.waiter with | some (_, id, _) => id / 2 ^ 32 == uid | none => false)
  (s.qres.filter due).foldl (fun s q => giveEntry s q (q.entry.getD 0)) { s with qres := s.qres.filter (fun q => !due q) }

/-- Restore a saved team on a core (R201): what names its groups' places follows them, and the words that its new core
holds unregistered go, so that the team's earlier acquires keep their force. The words that its groups watch are translated
and evaluated again (R71, R180). -/
def restoreOn (s : State) (v : Save) (die core : Nat) (at_ : List (Nat × Nat)) : State :=
  let uid := v.team.uid
  let t := { v.team with die := die, core := core, cluster := clusterOf s die core }
  let pairs := v.groups.zip (at_.map (fun a => (⟨die, core, a.1, a.2⟩ : Place)))
  let gs := pairs.map (fun x => x.1.moved x.2 s.clock)
  let go (p : Place) : Place := match pairs.find? (fun x => x.1.place == p) with | some x => x.2 | none => p
  let s := (v.groups.zip gs).foldl (fun s x => moveClaim s t x.1 x.2) (l1Acquire s die core)
  let s := { s with
    saved := s.saved.filter (fun x => x.id != v.id), teams := s.teams ++ [t], groups := s.groups ++ gs,
    crews := s.crews ++ v.kept.map (fun (k : Crew) =>
      { k with die := die, cluster := t.cluster, members := k.members.map (fun m => { m with place := go m.place }) }),
    qres := s.qres.map (fun (q : QRes) => match q.waiter with
      | some (p, id, l) => if id / 2 ^ 32 == uid then { q with waiter := some (go p, id, l) } else q
      | none => q),
    dies := s.dies.map (fun d => { d with engines := d.engines.map (fun q => q.map (fun (c : CopyCmd) =>
      if c.team == uid then { c with place := go c.place } else c)) }),
    preStop := s.preStop.filter (fun x => x != t.task),
    ctxs := s.ctxs.map (fun c => if c.num == t.ctx then { c with noPlace := false } else c) }
  let s := (gs.zip v.areas).foldl (fun s x => areaBack (areaBack s t x.1 7 x.2.1) t x.1 8 x.2.2) s
  let s := gs.foldl (fun s g => match groupAt s g.place with | some g => rewatch s g | none => s) s
  let s := gs.foldl (fun s g => match groupAt s g.place with | some g => watchGroup s g | none => s) s
  deliverWaiting s uid

/-- RESTORE_TEAM (R201): a saved team is placed on a core of a die in PLACE, where no reservation keeps it out (R178,
R236). -/
def execRestoreTeam (save die : Nat) (s : State) : Host.Outcome State Fault Refusal :=
  match s.saved.find? (fun v => v.id == save) with
  | none => .next s
  | some v =>
    let allowed := match taskOf s v.team.task with | some k => bitOf (k.f 6 4) die && reservationRestores s die k | none => false
    if !allowed || (ctxOf s v.team.ctx).isNone then .next s
    else
      match restoreCore s die v with
      | some (c, at_) => .next (restoreOn s v die c at_)
      | none => .next s

/-! ### Kill and fence (R203, R232) -/

/-- KILL_TEAM (R203): a request from Mihus. -/
def execKillTeam (team : Nat) (s : State) : Host.Outcome State Fault Refusal := .next (killTeamOp s team false)

/-- One team of a fenced core (R232): flushed, saved, or killed with CODE 0x09 when the error took its state. -/
def fenceTeam (s : State) (lost : List Nat) (t : Team) : State :=
  if flushable s t then flushTeam s t
  else if lost.contains t.uid then
    postError (killTeamOp s t.uid false) t.ctx { code := 0x09, team := t.index, grid := t.grid.toNat }
  else saveTeam s t.uid

/-- CORE_FENCE (R15, R232): a core issues nothing more and its teams leave it; `lost` are the teams whose state the error
took. A core of the spare cluster that is not in use takes over its logical number. (DEDUCED, log 55) -/
def execCoreFence (die core : Nat) (lost : List Nat) (s : State) : Host.Outcome State Fault Refusal :=
  if s.fenced.contains (die, core) then .next s
  else
    let mine := s.teams.filter (fun t => t.die == die && t.core == core)
    let s := mine.foldl (fun s t => fenceTeam s lost t) { s with
      fenced := (die, core) :: s.fenced
      coreErrs := s.coreErrs.filter (fun x => !(x.1 == die && x.2.1 == core)) }
    let here (d c : Nat) : Bool := d == die && c == core
    let s := dropCaches (revokeWhere s (fun x => here x.die x.core)) here
    if (s.spareCores.filter (fun x => x.1 == die)).length < 4 then
      .next (countSpare { s with spareCores := s.spareCores ++ [(die, core)],
                                 fenced := s.fenced.filter (fun x => x != (die, core)) } 0)
    else .next s

end Sys2Proof.Machine
end

