-- ==== Sys2Proof/Machine/Sync.lean ====
section
/-! DEFINITION. waitc, the barrier instructions, and the frame instructions fgive and fclaim (R53, R54, R104, R116 to
R120, R280, R281, R308, R315, R374). -/

namespace Sys2Proof.Machine

open Sys2Proof

/-! ### waitc -/

/-- The oldest covered failure of one cause, and the failures that are left (R183, R374). -/
def takeFail (r : RegCtx) (th : BitVec 30) (cause : Nat) : Option (Cls × Nat × OpFail) :=
  r.failed.find? (fun f => r.covers th f.1 f.2.1 && f.2.2.cause == cause)

/-- The failure that a waitc or yield delivers: data errors before copy faults (R374). -/
def firstFail (r : RegCtx) (th : BitVec 30) : Option (Cls × Nat × OpFail) :=
  match takeFail r th 0x21 with
  | some f => some f
  | none => takeFail r th 0x22

/-- The copy command whose failure is being delivered is marked, for the handler's sret (R299). -/
def deliverCopy (s : State) (p : Place) (team seq : Nat) : State :=
  { s with dies := s.dies.map (fun d => { d with engines := d.engines.map (fun q => q.map (fun c =>
      if c.place == p && c.team == team && c.seq == seq && c.fault.isSome then { c with delivered := true } else c)) }) }

/-- The header of an incomplete qpop that the thresholds cover, for the queue kind of wait record (R175). -/
def coveredPop (r : RegCtx) (th : BitVec 30) : Option Nat :=
  (r.ops.find? (fun o => !o.done && r.covers th o.cls o.seq
      && (match o.body with | .qpop .. => true | _ => false))).map
    (fun o => match o.accs with | a :: _ => a.ptr | [] => 0)

/-- A failure that a fragment takes at an instruction: the trap, a copy's command marked for the handler (R183, R299). -/
def failTrapOf (s : State) (e : Env) (act : Mask) (seq : Nat) (f : OpFail) : State :=
  takeTrap (if f.cause = 0x22 then deliverCopy s e.g.place e.t.uid seq else s) e
    { cause := f.cause, lanes := e.raised act, addr := f.addr.toNat, info := f.info.toNat }

/-- A waitc whose thresholds are met: a covered failure is its trap, else the group goes on at the next instruction and the
covered destinations are waited (R104, R106, R374). -/
def countersMet (s : State) (e : Env) (act : Mask) (th : BitVec 30) : State :=
  match firstFail e.g.ctx th with
  | some f => failTrapOf s { e with g := e.g.mapCtx (fun r => { r with failed := r.failed.erase f }) } act f.2.1 f.2.2
  | none => setGroup s ((e.g.mapCtx (fun r => r.release th)).setPc e.slices e.pc.next)

/-- The failures that a yield covers, in the order in which they are delivered: data errors before copy faults (R374). -/
def coveredFails (r : RegCtx) (th : BitVec 30) : List (Cls × Nat × OpFail) :=
  let mine := r.failed.filter (fun f => r.covers th f.1 f.2.1)
  mine.filter (fun f => f.2.2.cause != 0x22) ++ mine.filter (fun f => f.2.2.cause == 0x22)

/-- A yield whose thresholds are met: the covered destinations are waited, and the covered failures stay for the first issue
at the continuation, one after another (R106, R376). -/
def Group.yieldMet (g : Group) (slices : BitVec 8) (th : BitVec 30) : Group :=
  let fs := coveredFails g.main th
  { g with
    main := { (g.main.release th) with failed := g.main.failed.filter (fun f => !fs.contains f) }
    due := g.due ++ fs.map (fun f => { slices := slices, seq := f.2.1, fail := f.2.2 }) }

/-- waitc (R374). (DEDUCED, log 28) -/
def execWaitc (gd : Guard) (th : BitVec 30) (s : State) : Host.Outcome State Fault Refusal :=
  onIssue 0x91 s (fun e s =>
    let act := e.active gd
    match operandFault e gd act [] [] [] with
    | some t => takeTrap s e t
    | none =>
      if act = 0 then advance s e e.g
      else
        let g := e.g.fence e.slices
        if g.ctx.met th then
          countersMet (commit s e g) { e with g := e.issued g s.clock } act th
        else
          match coveredPop g.ctx th with
          | some p => beginWait s e g 4 0 p 0 (.counters th false)
          | none => beginWait s e g 1 0 th.toNat 0 (.counters th false))

/-! ### Barriers -/

/-- Are the group's accesses to the bytes of an object all performed, and its older acquires, a pop's entry included (R98,
R176)? (DEDUCED, log 27) -/
def settledAt (g : Group) (x : Loc) (n : Nat) : Bool :=
  g.ctx.ops.all (fun o => o.engine
    || (o.accs.all (fun a => a.done || !a.loc.overlaps a.size x n) && !o.holds (o.scope.orders x)))

/-- The checks that every bar form makes (R280, R67): `pre` on the values of `ins`, the pointer of the lowest active
lane, then the object. -/
def barIssue (op : Nat) (gd : Guard) (a : Src) (ins : List Inp) (d : Dst) (nd : Need)
    (pre : Env → Nat → Bool) (k : State → Env → Mask → Nat → Nat → Loc → State) (s : State) :
    Host.Outcome State Fault Refusal :=
  onIssue op s (fun e s =>
    let act := e.active gd
    let ia := inX 64 a
    match valueFault e gd act ins (fun l => !pre e l) (destFault e gd (lowMask act) (ia :: ins) d 32 []) with
    | some t => takeTrap s e t
    | none =>
      match lowestLane act with
      | none => advance s e e.g
      | some l =>
        let lane := maskOf (fun j => j == l)
        let p := readInp e ia l
        match checkAccess s e.view nd (fld p 44 20) (fld p 0 44 : Nat) 16 16 with
        | (.fail _ c _, s) => takeTrap s e { cause := c, lanes := lane, addr := p, info := dataInfo e.pc 2 c }
        | (.dbl c, s) => dblFault s e c p
        | (.ok ls, s) => k s e act l p (match ls with | (x, _) :: _ => x | [] => .phys 0))

/-- The acquire of a wait that has seen its phase complete (R100). -/
def barAcquire (s : State) (e : Env) (x : Loc) : State :=
  match x with
  | .smem _ => acquireAt s e.g.place .device
  | _ => s

/-- A wait for the phase after `phase`: over when it differs, else a barrier-phase wait (R117, R281). -/
def barWaitFor (s : State) (e : Env) (g : Group) (p phase : Nat) (x : Loc) : State :=
  let g := g.fence e.slices
  if (barRead s x).phase != phase then advance (barAcquire s e x) e g
  else beginWait s e g 3 0 p phase (.barrier x phase)

/-- bar.init (R117). -/
def execBarInit (h : Hdr) (counted : Bool) (a b : Src) (s : State) : Host.Outcome State Fault Refusal :=
  let ib := in32 h b
  barIssue 0x92 h.guard a [ib] (.none false) .barWrite
    (fun e l => decide (1 ≤ readInp e ib l) && decide (readInp e ib l ≤ 65535))
    (fun s e _ l _ x =>
      if !settledAt e.g x 16 then stall s e
      else advance (barInitAt s e.actor x counted (readInp e ib l)) e e.g) s

/-- The scope at which an object's arrivals release (R100). -/
def barScope (x : Loc) : Scope := if x.isTeam then .team else .device

/-- May a form that changes the object release at its scope: every earlier access is performed, and every older acquire
(R98, R100)? -/
def mayArrive (g : Group) (x : Loc) : Bool :=
  g.performed (fun _ => true) (barScope x) && g.ctx.ops.all (fun o => !o.holds (o.scope.orders x))

/-- The shared arrival of bar.arrive and bar.arrwait: release, the arrival, and the phase to D (R100, R118, R280). -/
def barArriveStep (s : State) (e : Env) (act : Mask) (p : Nat) (x : Loc) (d : Dst)
    (k : State → Group → Nat → State) : State :=
  if !mayArrive e.g x then stall s e
  else
    match barFault (barRead s x) with
    | some c => takeTrap (barSee s e.actor x) e { cause := c, lanes := act, addr := p }
    | none =>
      if !writerOk e d 32 then takeTrap s e { cause := 0x12, lanes := maskOf (fun l => lowestLane act == some l) }
      else
        match barArriveAt s e.actor x e.g.index e.t.uid with
        | .inl (c, i) => takeTrap (barSee s e.actor x) e { cause := c, lanes := act, addr := p, info := i }
        | .inr (phase, s) =>
          let r := writeDst s e e.g act d 32 (fun _ => phase)
          k r.1 r.2 phase

/-- bar.arrive (R117, R280). (DEDUCED, log 27) -/
def execBarArrive (gd : Guard) (d : Dst) (a : Src) (s : State) : Host.Outcome State Fault Refusal :=
  barIssue 0x92 gd a [] d .barWrite (fun _ _ => true)
    (fun s e act _ p x => barArriveStep s e act p x d (fun s g _ => advance s e g)) s

/-- bar.wait (R117, R281). -/
def execBarWait (h : Hdr) (a b : Src) (s : State) : Host.Outcome State Fault Refusal :=
  let ib := in32 h b
  barIssue 0x92 h.guard a [ib] (.none false) .barRead (fun _ _ => true)
    (fun s e act l p x =>
      if !settledAt e.g x 16 then stall s e
      else
        let s := barSee s e.actor x
        match barFault (barRead s x) with
        | some c => takeTrap s e { cause := c, lanes := act, addr := p }
        | none => barWaitFor s e e.g p (readInp e ib l % 65536) x) s

/-- bar.arrwait (R117): an arrival, then a wait for the phase that it counted toward. -/
def execBarArrwait (gd : Guard) (d : Dst) (a : Src) (s : State) : Host.Outcome State Fault Refusal :=
  barIssue 0x92 gd a [] d .barWrite (fun _ _ => true)
    (fun s e act _ p x => barArriveStep s e act p x d (fun s g phase => barWaitFor s e g p phase x)) s

/-- bar.drop (R119). -/
def execBarDrop (gd : Guard) (a : Src) (s : State) : Host.Outcome State Fault Refusal :=
  barIssue 0x92 gd a [] (.none false) .barWrite (fun _ _ => true)
    (fun s e act _ p x =>
      if !mayArrive e.g x then stall s e
      else
        match barFault (barRead s x) with
        | some c => takeTrap (barSee s e.actor x) e { cause := c, lanes := act, addr := p }
        | none => advance (barDropAt s e.actor x e.g.index e.t.uid) e e.g) s

/-! ### Frames -/

/-- fgive (R315, R53). -/
def execFgive (h : Hdr) (a : Src) (s : State) : Host.Outcome State Fault Refusal :=
  onIssue 0x95 s (fun e s =>
    let act := e.active h.guard
    let ia := in32 h a
    match operandFault e h.guard (lowMask act) [ia] [] [] with
    | some t => takeTrap s e t
    | none =>
      match lowestLane act with
      | none => advance s e e.g
      | some l =>
        let n := readInp e ia l
        let k := e.g.main.frame.count
        if n = 0 then advance s e e.g
        else if k ≤ n then takeTrap s e { cause := 0x10, lanes := act }
        else if e.g.unwaited (16 * (k - n)) (16 * n) then takeTrap s e { cause := 0x06, lanes := act }
        else advance s e (e.g.giveNow n))

/-- fclaim (R308, R54). -/
def execFclaim (h : Hdr) (a : Src) (s : State) : Host.Outcome State Fault Refusal :=
  onIssue 0x96 s (fun e s =>
    let act := e.active h.guard
    let ia := in32 h a
    match operandFault e h.guard (lowMask act) [ia] [] [] with
    | some t => takeTrap s e t
    | none =>
      match lowestLane act with
      | none => advance s e e.g
      | some l =>
        let n := readInp e ia l
        if n < 1 ∨ 24 < n + e.g.main.frame.count then takeTrap s e { cause := 0x10, lanes := act }
        else
          let g := e.g.fence e.slices
          match takeBlocks s e.g n with
          | some bs => advance s e (g.claimNow bs)
          | none => beginWait s e g 7 0 n 0 (.claim n))

end Sys2Proof.Machine
end

