-- ==== Sys2Proof/Machine/Run.lean ====
section
/-! DEFINITION. What a step does around an instruction: fetching and decoding the next one of the selected issuer (R238
to R242, R183), and staging an instruction where the next step fetches it. -/

namespace Sys2Proof

/-- Is it an event of the device or of an outside agent, which no program issues? -/
def Instr.isEvent (i : Instr) : Bool :=
  match i with
    | .handlerFrameGrant _ _ _ | .contextResume _ | .pushPortGo _ | .validateTaskRecord _ _ | .taskEligible _
    | .placeTeam _ | .dieReservation _ | .groupSlotRelease _ | .teamRetire _ | .gridRetire _ | .gridFail _
    | .issueSelect _ _ _ _ | .activeSetRefill _ _ _ | .waitRecordRetest _ | .lineDecodeCheck _ _
    | .operationComplete _ _ _ _ | .pageWalkComplete _ _ _ _ _ | .frameGrant _ _ _ | .hatchAct _ _ _
    | .hatchWaitTimeout _ _ _ | .hatchRefill _ | .waitvReevaluate _ | .waitvPeriodicCheck _
    | .contentionDecay _ | .wordRegistration _ _ _ | .registrationRevoke _ | .forwardedRead _ _ _
    | .lineRecall _ | .exclusiveEvict _ _ | .postingReplay _ | .spredMerge _ _ _ | .mergeEntryFlush _
    | .crewBroken _ | .metadataUnderrun _ | .matrixPassGrant _ _ | .matrixPassError _ _
    | .copyEngineStart _ _ _ | .copyFault _ _ _ | .preemptTeam _ | .drainTimeout _ | .restoreTeam _ _
    | .contextSwitch _ | .killTeam _ | .coreFence _ _ _ | .spareRemap _ _ _ | .dramScrub _ _ | .clusterGate _ _
    | .clusterWake _ _ | .powerLimit _ | .biasFlipToHost _ | .biasFlipToDevice _ _ | .hostMemRead _ _ _
    | .hostMemWrite _ _ | .hostOwnershipRequest _ _ | .backInvalidateResponse _ _ | .hostSnoop _
    | .poisonReceived _ _ | .formatWindowEnable _ _ _ | .formatWindowDisable _ _ _ | .aliasLineFill _
    | .aliasWriteBack _ | .smcarveWrite _ | .smwinWrite _ _ | .watchdogWrite | .watchdogExpiry
    | .hostWindowWrite _ _ _ | .hubRegisterWrite _ _ | .coldResetBoot _ _ | .getVersion | .getCapabilities
    | .negotiateAlgorithms | .getDigests | .getCertificate _ | .challenge _ _ | .getMeasurements _ _ _
    | .captureRecord _ _ | .replayRelease _ _ | .generalCoreMemoryAccess _ _ _ | .peerLinkRequest _ _ _
    | .peerLinkFailure _ => true
    | _ => false

end Sys2Proof

namespace Sys2Proof.Machine

open Sys2Proof

/-! ### Writes of b registers that reach a group (R42) -/

/-- Which former values of b registers group `g` no longer reads: a free value decides for each, in the order of the
writes. `kept` are the registers of which an older value stays. -/
def arrive (g : Nat) : List LateB → List Nat → State → List LateB × State
  | [], _, s => ([], s)
  | x :: r, kept, s =>
    if x.group != g || kept.contains x.reg then
      let (l, s) := arrive g r kept s
      (x :: l, s)
    else
      let (c, s) := choose s
      if c then arrive g r kept s
      else
        let (l, s) := arrive g r (x.reg :: kept) s
        (x :: l, s)

/-- Before the selected group issues, any of the writes by other groups may have reached it (R42).
(DESIGN CHOICE, log 42) -/
def seeWrites (s : State) : State :=
  match env? s with
  | none => s
  | some e =>
    if e.t.late.any (fun x => x.group == e.g.index) then
      let r := arrive e.g.index e.t.late [] s
      setTeam r.2 { e.t with late := r.1 }
    else s

/-! ### Fetching the next instruction -/

/-- The trap of a word that decodes to no instruction: illegal instruction first, as which single-lane mode also takes every
opcode that it does not accept, then privileged, then illegal operand (R183, R185, R251). -/
def rejectTrap (e : Env) (w : BitVec 96) (r : Reject) : Trap :=
  let op := opcodeOf w
  { cause :=
      if e.single then (if singleAccepts op then r.cause else 0x01)
      else if r.cause ≠ 0x01 ∧ isPrivileged op then 0x05
      else r.cause,
    lanes := e.live }

/-- The failure that a yield has left for a fragment, and those left for later (R376). -/
def Env.due (e : Env) : Option Due :=
  if e.single then none else e.g.due.find? (fun d => e.slices.any (fun k => bitOf d.slices.toNat k))

/-- The instruction that an issuer issues next, or the state after the trap or double fault that comes first: a failure that a
yield has left for the fragment, or one of the fetch. -/
def issueNext (s : State) (e : Env) : (Instr × State) ⊕ State :=
  match e.due with
  | some d => .inr (failTrapOf (popIssue s) { e with g := { e.g with due := e.g.due.erase d } } 0 d.seq d.fail)
  | none =>
    match fetchWord s e.view e.pc.seg e.pc.idx with
    | (.word w, s) =>
      match decode w with
      | .ok i => .inl (i, s)
      | .error r => .inr (takeTrap (popIssue s) e (rejectTrap e w r))
    | (.trap c a i, s) => .inr (takeTrap (popIssue s) e { cause := c, lanes := e.live, addr := a, info := i })
    | (.dbl, s) => .inr (dblFault (popIssue s) e 0x0C (segPtr e.pc.seg (lineOff e.pc.idx)))

/-! ### Staging an instruction -/

/-- A fetch line whose slot 0 holds a word, every other slot nop, every slot a legal target (R238 to R241). -/
def stageLine (w : BitVec 96) : Nat :=
  0x2000001F + (if parity w.toNat 96 then 2 ^ 24 else 0) + w.toNat * 2 ^ 32

/-- A segment descriptor (Table 5-1): kind, rights, base and limit. -/
def stageDesc (kind rights base limit : Nat) : Nat :=
  base + limit * 2 ^ 64 + rights * 2 ^ 128 + kind * 2 ^ 136 + 2 ^ 151

/-- Page tables at 4 KiB, 8 KiB and 12 KiB that map the first GiB onto itself (R69), the descriptor of code segment 16 in
the segment table at 16 KiB, and its only line at 64 KiB. -/
def stageMem (m : Memory) (w : BitVec 96) : Memory :=
  memWrite (memWrite (memWrite (memWrite (memWrite m 0x1000 8 0x2063) 0x2000 8 0x3063) 0x3000 8 0xE3)
    0x4200 32 (stageDesc 1 5 0x10000 64)) 0x10000 64 (stageLine w)

/-- Context 1, resident, with those tables. -/
def stageCtx : Ctx :=
  { num := 1, resident := true, root := 0x1000, handlers := 0, btBase := 0, segTable := BitVec.ofNat 64 (0x4000 + 5 * 2 ^ 57),
    nameRules := 0, capture := 0, save := 0, stopped := false, noPlace := false }

/-- The team of the staged group: one group, 16 KiB of team memory and of tile store. -/
def stageTeam (uid : Nat) : Team :=
  { uid := uid, task := uid, ctx := 1, index := 0, die := 0, core := 0, cluster := 0, lseq := 0, ngroups := 1, prio := 0, grid := 0,
    tmemG := 4, tileG := 4, breg := [], bwriter := [], late := [], tmem := [], tile := [], issuedN := 0, clean := true, drain := none,
    saving := false }

/-- The staged group: 32 running lanes and 24 blocks at index 0 of segment 16; in single-lane mode for a system opcode. -/
def stageGroup (uid : Nat) (single : Bool) : Group :=
  { place := ⟨0, 0, 0, 0⟩, team := uid, index := 0, role := 0,
    slices := List.replicate 8 { pc := ⟨16, 0⟩, run := 15, stack := [], arrived := false, held := none },
    join := none, main := RegCtx.fresh (List.replicate 24 false), calls := [], crew := 0, trap := ⟨0, 0, 0, 0, 0, 0⟩,
    trapSlices := 0,
    handler := if single then some { ctx := RegCtx.fresh [true, true], pc := ⟨16, 0⟩, frzsel := 0, resume := 0 } else none,
    wait := none, active := true, placedAt := 0, readyAt := 0, lastIssue := 0, claim := none, hatched := false, under := none,
    due := [], spillBlk := 0, nextOp := uid * 2 ^ 32, turn := List.range 8, stalled := 0, exited := false }

/-- A state in which the selected issuer fetches a word next: a program as it stands once a loader has written it and a
dispatcher has placed its team. (DEDUCED, log 5) -/
def stage (s : State) (w : BitVec 96) : State :=
  let p : Place := ⟨0, 0, 0, 0⟩
  { s with
    mem := stageMem s.mem w, ctxs := stageCtx :: s.ctxs.filter (fun c => c.num != 1),
    teams := stageTeam s.nextUid :: s.teams,
    groups := stageGroup s.nextUid (isPrivileged (opcodeOf w)) :: s.groups.filter (fun g => g.place != p),
    issue := { place := p, slices := 255 } :: s.issue, fenced := s.fenced.filter (fun c => c != (0, 0)),
    tlb := s.tlb.filter (fun t => t.ctx != 1), tlb2 := s.tlb2.filter (fun t => t.ctx != 1),
    misses := s.misses.filter (fun m => m.ctx != 1), descs := s.descs.filter (fun d => d.ctx != 1),
    l1 := s.l1.filter (fun x => decide (0x10040 ≤ x.addr)), nextUid := s.nextUid + 1 }

end Sys2Proof.Machine
end

