-- ==== Sys2Proof/Machine/Waits.lean ====
section
/-! DEFINITION. Wait records, the active set and issue selection (R29, R91, R115, R117, R179 to R181, R240, R281, R374):
re-testing a record, evaluating watched words, and choosing what issues in a clock. -/

namespace Sys2Proof.Machine

open Sys2Proof

/-! ### Wait records -/

/-- A waiting group as an issuer: the fragment that waits, at its program counter. -/
def waitEnv (t : Team) (g : Group) (w : Wait) : Env :=
  match g.handler with
  | some h => { g := g, t := t, single := true, slices := [0], live := 1, pc := h.pc }
  | none =>
    let ks := if w.cont == .refill then fragmentOf g 255 else (List.range 8).filter (fun k => bitOf w.slices.toNat k)
    { g := g, t := t, single := false, slices := ks, live := lanesRun g ks,
      pc := match ks with
        | k :: _ => (match g.slices[k]? with | some sl => sl.pc | none => ⟨0, 0⟩)
        | [] => ⟨0, 0⟩ }

/-- The guard of an instruction at which a group can wait. -/
def waitGuard (i : Instr) : Option Guard :=
  match i with
  | .waitc gd _ | .barArrwait gd _ _ | .call gd _ _ | .calli gd _ _ | .ret gd _ => some gd
  | .barWait h _ _ | .fclaim h _ => some h.guard
  | .waitv m _ _ _ => some m.guard
  | .mma f | .mmas f _ | .mmx f _ => some f.guard
  | _ => none

/-- The active lanes of the instruction that a fragment waits at. Its predicates do not change while it waits. -/
def waitActive (s : State) (e : Env) : Mask :=
  match fetchWord s e.view e.pc.seg e.pc.idx with
  | (.word w, _) =>
    match decode w with
    | .ok i => (match waitGuard i with | some gd => e.raised (e.active gd) | none => e.live)
    | .error _ => e.live
  | _ => e.live

/-- Is the condition of a wait record met (R180)? The frame kinds, the latch and the handler frame are ended by those who
grant them. -/
def waitOver (s : State) (g : Group) (w : Wait) : Bool :=
  w.broken.isSome
    || (match w.cont with
        | .counters th _ => g.ctx.met th
        | .word lanes _ _ _ _ => lanes.all (fun x => x.sat)
        | .barrier _ _ => w.signal
        | .bind x => fld (locRead s x 32) 64 2 != 1
        | _ => false)

/-- The lanes of a word wait whose words can no longer be read or whose checks fail with a cause. -/
def lostLanes (s : State) (e : Env) (w : Wait) (cause : Nat) : List WaitLane :=
  match w.cont with
  | .word lanes size _ _ _ => lanes.filter (fun x => !x.sat &&
      (match (checkAccess s e.view .load (fld x.ptr 44 20) (fld x.ptr 0 44 : Nat) size 1).1 with
        | .ok _ => cause == 0x21 && accessFails s x.loc false
        | .fail _ c _ => c == cause
        | .dbl _ => false))
  | _ => []

/-- The trap of a broken wait at the waiting instruction (R59, R117, R148). -/
def brokenTrap (s : State) (e : Env) (w : Wait) (cause : Nat) : Trap :=
  match lostLanes s e w cause with
  | x :: r => { cause := cause, lanes := maskOf (fun l => (x :: r).any (fun y => y.lane == l)), addr := x.ptr,
                info := dataInfo e.pc 0 cause }
  | [] => { cause := cause, lanes := waitActive s e, addr := if cause = 0x15 then w.object.toNat else 0 }

/-- A broken call puts the ages that it had captured back (R50); nothing else of a broken wait has to be undone. -/
def Group.undoCall (g : Group) (w : Wait) : Group :=
  match w.cont with
  | .call _ _ args =>
    { g with main := g.main.mapCas ((List.range 8).filter (fun k => bitOf w.slices.toNat k)) (fun k _ => args.getD k emptyCas) }
  | _ => g

/-- A broken wait is its trap at the waiting instruction. One for a spilled frame alone stands for the wait before it, or for
the instruction that the group would issue next (R59). -/
def breakTrap (s : State) (t : Team) (g : Group) (w : Wait) (cause : Nat) : State :=
  let w := match w.cont with | .refill => g.under.getD w | _ => w
  let g1 := { (g.undoCall w).released s.clock with under := none }
  let e := { waitEnv t g w with g := g1 }
  takeTrap (setGroup s g1) e (brokenTrap s e w cause)

/-- End a wait whose condition is met: a broken record is its trap, else the group goes on. -/
def endWait (s : State) (t : Team) (g : Group) (w : Wait) : State :=
  let e0 := waitEnv t g w
  let g1 := g.released s.clock
  let e := { e0 with g := g1 }
  match w.broken with
  | some c => breakTrap s t g w c
  | none =>
    match w.cont with
    | .counters th true => setGroup s (g1.yieldMet w.slices th)
    | .counters th false => countersMet (setGroup s g1) e (waitActive s e) th
    | .word _ _ _ ord scope =>
      let s := match ord with | .acqrel | .sc => acquireAt s g.place scope | _ => s
      setGroup s (g1.setPc e.slices e.pc.next)
    | .barrier x _ => setGroup (barAcquire s e x) (g1.setPc e.slices e.pc.next)
    | .bind _ => setGroup s g1
    | _ => s

/-- WAIT_RECORD_RETEST (R180): a signalled record is tested again; one whose test fails stays in place. A hatched group
whose wait is over then waits for its frame, with a record of its own (R58). -/
def execWaitRecordRetest (p : Place) (s : State) : Host.Outcome State Fault Refusal :=
  match groupAt s p with
  | none => .next s
  | some g =>
    match g.wait, teamOf s g.team with
    | some w, some t =>
      if g.exited || !waitOver s g w then .next s
      else if g.hatched && g.handler.isNone && w.cont != .refill then .next (setGroup s (g.waitRefill (some w) s.clock))
      else .next (endWait s t g w)
    | _, _ => .next s

/-- WAITV_REEVALUATE (R115): the home re-evaluates the words that a group watches. -/
def execWaitvReevaluate (p : Place) (s : State) : Host.Outcome State Fault Refusal :=
  match groupAt s p with
  | none => .next s
  | some g => .next (watchGroup s g)

/-- WAITV_PERIODIC_CHECK (R375): the home re-evaluates a group's words in host and peer memory, at least every 1,024
clocks. -/
def execWaitvPeriodicCheck (p : Place) (s : State) : Host.Outcome State Fault Refusal :=
  match groupAt s p with
  | none => .next s
  | some g =>
    match g.wait with
    | some w =>
      let far (x : WaitLane) : Bool := match x.loc with
        | .phys a => (match prange a with | .host | .peer _ => true | _ => false)
        | _ => false
      match w.cont with
      | .word lanes _ _ _ _ => if lanes.any far then .next (watchGroup s g) else .next s
      | _ => .next s
    | none => .next s

/-! ### The active set (R179) -/

/-- May a resident group be in the active set: it waits for nothing? A spilled frame does not keep a handler back, which
has its own. -/
def Group.runnable (g : Group) : Bool := !g.exited && g.wait.isNone && (!g.hatched || g.handler.isSome)

/-- ACTIVE_SET_REFILL (R179): with fewer than eight active groups, the oldest ready pending group of a partition joins. -/
def execActiveSetRefill (die core part : Nat) (s : State) : Host.Outcome State Fault Refusal :=
  let here := inPart s ⟨die, core, part, 0⟩
  if 8 ≤ (here.filter (fun g => g.active && !g.exited)).length then .next s
  else
    match leastBy Group.age (here.filter (fun g => g.runnable && !g.active)) with
    | some g => .next (setGroup s { g with active := true })
    | none => .next s

/-! ### Issue selection (R29, R181) -/

/-- The fragment of a group that takes this turn: that of the first ready slice, in the order of its turn, whose
fragment has not stalled (R29). -/
def turnSlices (g : Group) : List Nat :=
  match g.turn.find? (fun k => !bitOf g.stalled.toNat k && (match g.slices[k]? with | some sl => sl.ready | none => false)) with
  | none => []
  | some k => (List.range 8).filter (fun j =>
      match g.slices[j]?, g.slices[k]? with
      | some a, some b => a.ready && a.pc == b.pc
      | _, _ => false)

/-- A group that may issue in this clock, with its fragment: active, and not stalled (R180). -/
def issuerOf (s : State) (g : Group) : Option Env :=
  if g.active && (g.handler.isNone || g.stalled == 0) then envAt s g.place (sliceBits (turnSlices g)).toNat else none

/-- The rank of an issuer (R181): ready for 64 clocks without issuing, oldest first; then the queue's priority; then the
group that issued in the previous clock; then the oldest. -/
def issueRank (now : Nat) (e : Env) : List Nat :=
  if Max.max e.g.readyAt e.g.lastIssue + 64 ≤ now then 0 :: e.g.age
  else 1 :: (7 - e.t.prio) :: (if e.g.lastIssue = now ∧ 0 < now then 0 else 1) :: e.g.age

/-- The line and word of an issuer's next instruction, without the lookups' traces. -/
def peekWord (s : State) (e : Env) : Option (Line × Nat) :=
  match fetchLine s e.view e.pc.seg e.pc.idx with
  | (.inl line, _) => some (line, lineSlot line (e.pc.idx % 5))
  | _ => none

/-- The pipe class of an issuer's next instruction (Table 19-2). -/
def classOf (s : State) (e : Env) : Option Nat := (peekWord s e).bind (fun x => pipeClass x.2)

/-- The meanings of the instructions that can stall at issue (R180): at a full counter (R105), a full request queue (R12), a
full capture area (R233), a page that misses (R70), a full reservation table (R165) or engine queues (R182), or accesses
that have to be performed first. -/
def stallable (i : Instr) : Option (State → Host.Outcome State Fault Refusal) :=
  match i with
  | .regang => some execRegang
  | .exit gd => some (execExit gd)
  | .ld m ty d => some (execLd m ty d)
  | .st m ty b => some (execSt m ty b)
  | .pf m => some (execPf m)
  | .touch m b => some (execTouch m b)
  | .fence gd kind scope => some (execFence gd kind scope)
  | .cctlWb m => some (execCctlWb m)
  | .cctlInv m => some (execCctlInv m)
  | .cctlWbinv m => some (execCctlWbinv m)
  | .cctlUnhold m => some (execCctlUnhold m)
  | .sts m wide p b => some (execSts m wide p b)
  | .retract m wide p => some (execRetract m wide p)
  | .settle m wide => some (execSettle m wide)
  | .atom m op ty d b => some (execAtom m op ty d b)
  | .red m op ty b => some (execRed m op ty b)
  | .cas m ty d b c => some (execCas m ty d b c)
  | .cpadd m wide d b => some (execCpadd m wide d b)
  | .waitv m cmp wide b => some (execWaitv m cmp wide b)
  | .spred m b c => some (execSpred m b c)
  | .mma f => some (execMma f)
  | .mmas f q => some (execMmas f q)
  | .mmx f sa => some (execMmx f sa)
  | .tld gd a b n => some (execTld gd a b n)
  | .tst gd a b n => some (execTst gd a b n)
  | .tzero gd b len => some (execTzero gd b len)
  | .tcvt gd dst src sat c n fmt => some (execTcvt gd dst src sat c n fmt)
  | .copyLinear gd a b c => some (execCopyLinear gd a b c)
  | .copyStrided2 gd a b c => some (execCopyStrided2 gd a b c)
  | .copyStrided3 gd a b c => some (execCopyStrided3 gd a b c)
  | .copyGather gd a b c => some (execCopyGather gd a b c)
  | .copyScatter gd a b c => some (execCopyScatter gd a b c)
  | .copyFill gd a b c => some (execCopyFill gd a b c)
  | .copyCombine gd a b c => some (execCopyCombine gd a b c)
  | .copyMeta gd a b c => some (execCopyMeta gd a b c)
  | .copyYield gd kind th a b c => some (execCopyYield gd kind th a b c)
  | .barInit h counted a b => some (execBarInit h counted a b)
  | .barArrive gd d a => some (execBarArrive gd d a)
  | .barArrwait gd d a => some (execBarArrwait gd d a)
  | .barDrop gd a => some (execBarDrop gd a)
  | .qpush gd p a b => some (execQpush gd p a b)
  | .qpushTask gd p a b => some (execQpushTask gd p a b)
  | .qpop gd d a => some (execQpop gd d a)
  | .sret gd => some (execSret gd)
  | .bindClaim gd p a => some (execBindClaim gd p a)
  | .bindSet gd p a b => some (execBindSet gd p a b)
  | .bindFail gd p a => some (execBindFail gd p a)
  | .bindUnbind gd p a => some (execBindUnbind gd p a)
  | .bindRead gd d a => some (execBindRead gd d a)
  | .blbiEntry h a => some (execBlbiEntry h a)
  | .blbiModule h a => some (execBlbiModule h a)
  | .blbiContext gd => some (execBlbiContext gd)
  | .tlbiPage h a => some (execTlbiPage h a)
  | .tlbiContext gd => some (execTlbiContext gd)
  | .tlbiAll gd => some (execTlbiAll gd)
  | .sdciEntry h a => some (execSdciEntry h a)
  | .sdciContext gd => some (execSdciContext gd)
  | .ldphys m ty d => some (execLdphys m ty d)
  | .stphys m ty b => some (execStphys m ty b)
  | _ => none

/-- What an issue slot leads to where its instruction stalls at issue: the fragment is marked, and what the attempt has asked
for (a walk, a line of the host) stands. None where the instruction would issue or trap. -/
def attempt (s : State) (x : Issuer) : Option State :=
  let s1 := seeWrites { s with issue := [x] }
  (env? s1).bind (fun e =>
    match issueNext s1 e with
    | .inl (i, t) =>
      match (stallable i).map (fun f => f t) with
      | some (Host.Outcome.next t) =>
        match groupAt t x.place with
        | some g =>
          if g.stalled &&& sliceBits e.slices = 0 then none
          else
            some (stall { t with
              groups := s.groups
              issue := s.issue
              clock := s.clock } { e with g := { e.g with walked := g.walked } })
        | none => none
      | _ => none
    | .inr _ => none)

/-- The groups of a partition that may issue, the fragment of each that takes its turn. -/
def issuers (s : State) (p : Place) : List Env := (inPart s p).filterMap (issuerOf s)

/-- The issue slot of an issuer. -/
def Env.slot (e : Env) : Issuer := { place := e.g.place, slices := sliceBits e.slices }

/-- Would an issuer's next instruction stall? -/
def Env.wouldStall (s : State) (e : Env) : Bool := (attempt s e.slot).isSome

/-- Fragments whose next instruction would stall are not ready in this clock (R180): they are passed over as those that have
tried, and the next fragment of their group takes the turn. -/
def passOver (p : Place) : Nat → State → State
  | 0, s => s
  | n + 1, s =>
    match (issuers s p).filter (fun e => e.wouldStall s) with
    | [] => s
    | es => passOver p n (es.foldl (fun s e => (attempt s e.slot).getD s) s)

/-- Does the line word pair an issuer's next instruction with the one after it, and is that one ready too: would it not stall
(R180, R181)? It is judged with the registers as they are before the first. (DESIGN CHOICE, log 96) -/
def pairedNext (s : State) (e : Env) : Bool :=
  match peekWord s e with
  | some (line, _) =>
    decide (e.pc.idx % 5 < 4) && bitOf line (5 + e.pc.idx % 5)
      && (attempt (setGroup s (e.g.setPc e.slices e.pc.next)) e.slot).isNone
  | none => false

/-- Has a partition issued in this clock? -/
def issuedNow (s : State) (p : Place) : Bool :=
  (s.groups ++ s.departed).any (fun g =>
    g.place.die == p.die && g.place.core == p.core && g.place.part == p.part && g.lastIssue == s.clock + 1)

/-- ISSUE_SELECT (R181): once in a clock, a partition ranks its ready active groups and fills its two issue slots; `dt` clocks
pass first. The fragments of a group take its turns in rotation (R29). -/
def execIssueSelect (die core part dt : Nat) (s : State) : Host.Outcome State Fault Refusal :=
  let p : Place := ⟨die, core, part, 0⟩
  let s := { s with clock := s.clock + dt }
  if issuedNow s p then .next s
  else
    let s := passOver p 8 s
    let es := issuers s p
    match leastBy (issueRank s.clock) es with
    | none => .next s
    | some e =>
      let second : List Issuer :=
        if pairedNext s e then [{ e.slot with pc := some e.pc.next }]
        else
          match leastBy (issueRank s.clock) (es.filter (fun x =>
            x.g.place != e.g.place && (classOf s x).isSome && classOf s x != classOf s e)) with
          | some x => [x.slot]
          | none => []
      .next { s with issue := s.issue ++ e.slot :: second }

/-! ### First decode (R240) -/

/-- LINE_DECODE_CHECK (R240): the next line of a group arrives with the bits of `transit.1` flipped. A parity mismatch
makes the front end fetch it once more, and it arrives with those of `transit.2` flipped; a second mismatch, or a
line-format fault, is taken at the first instruction of the line that the fragment issues. -/
def execLineDecodeCheck (p : Place) (transit : BitVec 512 × BitVec 512) (s : State) : Host.Outcome State Fault Refusal :=
  match groupAt s p with
  | none => .next s
  | some g =>
    match envAt s p (sliceBits (turnSlices g)).toNat with
    | none => .next s
    | some e =>
      match fetchLine s e.view e.pc.seg e.pc.idx with
      | (.inl line, s) =>
        let seen (flips : BitVec 512) : Nat := (BitVec.ofNat 512 line ^^^ flips).toNat
        let used := if parityOk (seen transit.1) then seen transit.1 else seen transit.2
        if !parityOk used then .next (takeTrap s e { cause := 0x21, lanes := e.live })
        else if !formatOk used then .next (takeTrap s e { cause := 0x04, lanes := e.live })
        else .next s
      | _ => .next s

/-- PAGE_WALK_COMPLETE (R70): a walk of one of a die's 16 walkers, which serve the oldest misses of its table, completes. Its
translation enters the second-level TLB and the TLB of a core that waits for it, or the miss stays with its failure for those
who wait. -/
def execPageWalkComplete (die core ctx linear : Nat) (write : Bool) (s : State) : Host.Outcome State Fault Refusal :=
  let vpn := linear / 4096
  let same (m : Miss) : Bool := m.die == die && m.ctx == ctx && m.vpn == vpn
  if ((s.misses.filter (fun m => m.die == die && !m.failed)).take 16).any (fun m => same m && m.write == write) then
    match walk s ctx (vpn * 4096) write with
    | (.inl r, s) =>
      let v : View := { hubView ctx false with die := die, core := core % 48 }
      let x := tlbEntryOf v vpn write r
      .next { tlbFill (tlb2Fill s x) x with misses := s.misses.filter (fun m => !same m) }
    | (.inr _, s) => .next { s with misses := s.misses.map (fun m => if same m then { m with failed := true } else m) }
  else .next s

end Sys2Proof.Machine
end

