-- ==== Sys2Proof/Machine/Dispatch.lean ====
section
/-! DEFINITION. The meaning of every instruction and event, one arm per constructor of `Instr`. -/

namespace Sys2Proof.Machine

open Sys2Proof

/-- The effect of an instruction of the selected issuer, or of an event. -/
def exec (i : Instr) (s : State) : Host.Outcome State Fault Refusal :=
  match i with
  | .nop seven => Sys2Proof.Machine.execNop seven s
  | .bra gd rcv off => Sys2Proof.Machine.execBra gd rcv off s
  | .brx gd a rcv => Sys2Proof.Machine.execBrx gd a rcv s
  | .call gd fb off => Sys2Proof.Machine.execCall gd fb off s
  | .calli gd fb a => Sys2Proof.Machine.execCalli gd fb a s
  | .ret gd n => Sys2Proof.Machine.execRet gd n s
  | .unwind gd a off => Sys2Proof.Machine.execUnwind gd a off s
  | .regang => Sys2Proof.Machine.execRegang s
  | .exit gd => Sys2Proof.Machine.execExit gd s
  | .yield gd rcv th => Sys2Proof.Machine.execYield gd rcv th s
  | .trap gd code => Sys2Proof.Machine.execTrap gd code s
  | .assert gd t m => Sys2Proof.Machine.execAssert gd t m s
  | .brk gd code => Sys2Proof.Machine.execBrk gd code s
  | .add h ty sat d a b => Sys2Proof.Machine.execAdd h ty sat d a b s
  | .sub h ty sat d a b => Sys2Proof.Machine.execSub h ty sat d a b s
  | .mul h ty sat d a b => Sys2Proof.Machine.execMul h ty sat d a b s
  | .mulhi h ty d a b => Sys2Proof.Machine.execMulhi h ty d a b s
  | .mad h ty sat d a b c => Sys2Proof.Machine.execMad h ty sat d a b c s
  | .mulwide h ty d a b => Sys2Proof.Machine.execMulwide h ty d a b s
  | .min h ty d a b => Sys2Proof.Machine.execMin h ty d a b s
  | .max h ty d a b => Sys2Proof.Machine.execMax h ty d a b s
  | .abs h ty sat d a => Sys2Proof.Machine.execAbs h ty sat d a s
  | .neg h ty sat d a => Sys2Proof.Machine.execNeg h ty sat d a s
  | .and h ty d a b => Sys2Proof.Machine.execAnd h ty d a b s
  | .or h ty d a b => Sys2Proof.Machine.execOr h ty d a b s
  | .xor h ty d a b => Sys2Proof.Machine.execXor h ty d a b s
  | .not h ty d a => Sys2Proof.Machine.execNot h ty d a s
  | .lop3 h ty d a b c => Sys2Proof.Machine.execLop3 h ty d a b c s
  | .shl h ty d a b => Sys2Proof.Machine.execShl h ty d a b s
  | .shr h ar ty d a b => Sys2Proof.Machine.execShr h ar ty d a b s
  | .fsh h right d a b c => Sys2Proof.Machine.execFsh h right d a b c s
  | .popc h ty d a => Sys2Proof.Machine.execPopc h ty d a s
  | .clz h ty d a => Sys2Proof.Machine.execClz h ty d a s
  | .brev h ty d a => Sys2Proof.Machine.execBrev h ty d a s
  | .bfe h ty d a b c => Sys2Proof.Machine.execBfe h ty d a b c s
  | .bfi h ty d a b c => Sys2Proof.Machine.execBfi h ty d a b c s
  | .setp h cmp comb ty p a b => Sys2Proof.Machine.execSetp h cmp comb ty p a b s
  | .sel h ty d a b p => Sys2Proof.Machine.execSel h ty d a b p s
  | .leaPtr h ty d a b => Sys2Proof.Machine.execLeaPtr h ty d a b s
  | .leaAdd h ty d a b => Sys2Proof.Machine.execLeaAdd h ty d a b s
  | .leaSeg h g a => Sys2Proof.Machine.execLeaSeg h g a s
  | .leaChk h p a b => Sys2Proof.Machine.execLeaChk h p a b s
  | .mov h ty d a => Sys2Proof.Machine.execMov h ty d a s
  | .smovRead gd wide d reg => Sys2Proof.Machine.execSmovRead gd wide d reg s
  | .smovWriteCrew gd a => Sys2Proof.Machine.execSmovWriteCrew gd a s
  | .prmt h d a b c => Sys2Proof.Machine.execPrmt h d a b c s
  | .fadd h ty rm sat d a b => Sys2Proof.Machine.execFadd h ty rm sat d a b s
  | .fsub h ty rm sat d a b => Sys2Proof.Machine.execFsub h ty rm sat d a b s
  | .fmul h ty rm sat d a b => Sys2Proof.Machine.execFmul h ty rm sat d a b s
  | .fma h ty rm sat d a b c => Sys2Proof.Machine.execFma h ty rm sat d a b c s
  | .fmin h ty d a b => Sys2Proof.Machine.execFmin h ty d a b s
  | .fmax h ty d a b => Sys2Proof.Machine.execFmax h ty d a b s
  | .fsetp h cmp comb ty p a b => Sys2Proof.Machine.execFsetp h cmp comb ty p a b s
  | .frcp h ty rm sat d a => Sys2Proof.Machine.execFrcp h ty rm sat d a s
  | .frsq h ty rm sat d a => Sys2Proof.Machine.execFrsq h ty rm sat d a s
  | .fsqrt h ty rm sat d a => Sys2Proof.Machine.execFsqrt h ty rm sat d a s
  | .fdiv h ty rm sat d a b => Sys2Proof.Machine.execFdiv h ty rm sat d a b s
  | .fex2 h ty rm sat d a => Sys2Proof.Machine.execFex2 h ty rm sat d a s
  | .flg2 h ty rm sat d a => Sys2Proof.Machine.execFlg2 h ty rm sat d a s
  | .fsin h ty rm sat d a => Sys2Proof.Machine.execFsin h ty rm sat d a s
  | .fcos h ty rm sat d a => Sys2Proof.Machine.execFcos h ty rm sat d a s
  | .fscale h ty rm sat d a b => Sys2Proof.Machine.execFscale h ty rm sat d a b s
  | .fclass h ty d a => Sys2Proof.Machine.execFclass h ty d a s
  | .fdot2 h ty rm sat d a b c => Sys2Proof.Machine.execFdot2 h ty rm sat d a b c s
  | .frnd h ty rm d a => Sys2Proof.Machine.execFrnd h ty rm d a s
  | .cvt h src dst rm sat d a => Sys2Proof.Machine.execCvt h src dst rm sat d a s
  | .shfl h mode ty d a b p => Sys2Proof.Machine.execShfl h mode ty d a b p s
  | .vote h form wide a => Sys2Proof.Machine.execVote h form wide a s
  | .redux h op ty sat d a => Sys2Proof.Machine.execRedux h op ty sat d a s
  | .scan h excl ty sat d a => Sys2Proof.Machine.execScan h excl ty sat d a s
  | .ld m ty d => Sys2Proof.Machine.execLd m ty d s
  | .st m ty b => Sys2Proof.Machine.execSt m ty b s
  | .pf m => Sys2Proof.Machine.execPf m s
  | .touch m b => Sys2Proof.Machine.execTouch m b s
  | .fence gd kind scope => Sys2Proof.Machine.execFence gd kind scope s
  | .cctlWb m => Sys2Proof.Machine.execCctlWb m s
  | .cctlInv m => Sys2Proof.Machine.execCctlInv m s
  | .cctlWbinv m => Sys2Proof.Machine.execCctlWbinv m s
  | .cctlUnhold m => Sys2Proof.Machine.execCctlUnhold m s
  | .sts m wide p b => Sys2Proof.Machine.execSts m wide p b s
  | .retract m wide p => Sys2Proof.Machine.execRetract m wide p s
  | .settle m wide => Sys2Proof.Machine.execSettle m wide s
  | .atom m op ty d b => Sys2Proof.Machine.execAtom m op ty d b s
  | .red m op ty b => Sys2Proof.Machine.execRed m op ty b s
  | .cas m ty d b c => Sys2Proof.Machine.execCas m ty d b c s
  | .cpadd m wide d b => Sys2Proof.Machine.execCpadd m wide d b s
  | .waitv m cmp wide b => Sys2Proof.Machine.execWaitv m cmp wide b s
  | .spred m b c => Sys2Proof.Machine.execSpred m b c s
  | .mma f => Sys2Proof.Machine.execMma f s
  | .mmas f q => Sys2Proof.Machine.execMmas f q s
  | .mmx f sa => Sys2Proof.Machine.execMmx f sa s
  | .tld gd a b n => Sys2Proof.Machine.execTld gd a b n s
  | .tst gd a b n => Sys2Proof.Machine.execTst gd a b n s
  | .tzero gd b len => Sys2Proof.Machine.execTzero gd b len s
  | .tcvt gd dst src sat c n fmt => Sys2Proof.Machine.execTcvt gd dst src sat c n fmt s
  | .copyLinear gd a b c => Sys2Proof.Machine.execCopyLinear gd a b c s
  | .copyStrided2 gd a b c => Sys2Proof.Machine.execCopyStrided2 gd a b c s
  | .copyStrided3 gd a b c => Sys2Proof.Machine.execCopyStrided3 gd a b c s
  | .copyGather gd a b c => Sys2Proof.Machine.execCopyGather gd a b c s
  | .copyScatter gd a b c => Sys2Proof.Machine.execCopyScatter gd a b c s
  | .copyFill gd a b c => Sys2Proof.Machine.execCopyFill gd a b c s
  | .copyCombine gd a b c => Sys2Proof.Machine.execCopyCombine gd a b c s
  | .copyMeta gd a b c => Sys2Proof.Machine.execCopyMeta gd a b c s
  | .copyYield gd kind th a b c => Sys2Proof.Machine.execCopyYield gd kind th a b c s
  | .waitc gd th => Sys2Proof.Machine.execWaitc gd th s
  | .barInit h counted a b => Sys2Proof.Machine.execBarInit h counted a b s
  | .barArrive gd d a => Sys2Proof.Machine.execBarArrive gd d a s
  | .barWait h a b => Sys2Proof.Machine.execBarWait h a b s
  | .barArrwait gd d a => Sys2Proof.Machine.execBarArrwait gd d a s
  | .barDrop gd a => Sys2Proof.Machine.execBarDrop gd a s
  | .qpush gd p a b => Sys2Proof.Machine.execQpush gd p a b s
  | .qpushTask gd p a b => Sys2Proof.Machine.execQpushTask gd p a b s
  | .qpop gd d a => Sys2Proof.Machine.execQpop gd d a s
  | .fgive h a => Sys2Proof.Machine.execFgive h a s
  | .fclaim h a => Sys2Proof.Machine.execFclaim h a s
  | .sret gd => Sys2Proof.Machine.execSret gd s
  | .srd gd d reg => Sys2Proof.Machine.execSrd gd d reg s
  | .swr gd a reg => Sys2Proof.Machine.execSwr gd a reg s
  | .bindClaim gd p a => Sys2Proof.Machine.execBindClaim gd p a s
  | .bindSet gd p a b => Sys2Proof.Machine.execBindSet gd p a b s
  | .bindFail gd p a => Sys2Proof.Machine.execBindFail gd p a s
  | .bindUnbind gd p a => Sys2Proof.Machine.execBindUnbind gd p a s
  | .bindRead gd d a => Sys2Proof.Machine.execBindRead gd d a s
  | .blbiEntry h a => Sys2Proof.Machine.execBlbiEntry h a s
  | .blbiModule h a => Sys2Proof.Machine.execBlbiModule h a s
  | .blbiContext gd => Sys2Proof.Machine.execBlbiContext gd s
  | .tlbiPage h a => Sys2Proof.Machine.execTlbiPage h a s
  | .tlbiContext gd => Sys2Proof.Machine.execTlbiContext gd s
  | .tlbiAll gd => Sys2Proof.Machine.execTlbiAll gd s
  | .sdciEntry h a => Sys2Proof.Machine.execSdciEntry h a s
  | .sdciContext gd => Sys2Proof.Machine.execSdciContext gd s
  | .ldphys m ty d => Sys2Proof.Machine.execLdphys m ty d s
  | .stphys m ty b => Sys2Proof.Machine.execStphys m ty b s
  | .hatchSpill h p a => Sys2Proof.Machine.execHatchSpill h p a s
  | .hatchFill h p a => Sys2Proof.Machine.execHatchFill h p a s
  | .hatchStatus h d a => Sys2Proof.Machine.execHatchStatus h d a s
  | .handlerFrameGrant die core part => Sys2Proof.Machine.execHandlerFrameGrant die core part s
  | .contextResume ctx => Sys2Proof.Machine.execContextResume ctx s
  | .pushPortGo port => Sys2Proof.Machine.execPushPortGo port s
  | .validateTaskRecord die prio => Sys2Proof.Machine.execValidateTaskRecord die prio s
  | .taskEligible task => Sys2Proof.Machine.execTaskEligible task s
  | .placeTeam die => Sys2Proof.Machine.execPlaceTeam die s
  | .dieReservation die => Sys2Proof.Machine.execDieReservation die s
  | .groupSlotRelease p => Sys2Proof.Machine.execGroupSlotRelease p s
  | .teamRetire team => Sys2Proof.Machine.execTeamRetire team s
  | .gridRetire task => Sys2Proof.Machine.execGridRetire task s
  | .gridFail task => Sys2Proof.Machine.execGridFail task s
  | .issueSelect die core part dt => Sys2Proof.Machine.execIssueSelect die core part dt s
  | .activeSetRefill die core part => Sys2Proof.Machine.execActiveSetRefill die core part s
  | .waitRecordRetest p => Sys2Proof.Machine.execWaitRecordRetest p s
  | .lineDecodeCheck p transit => Sys2Proof.Machine.execLineDecodeCheck p transit s
  | .operationComplete p op lanes err => Sys2Proof.Machine.execOperationComplete p op lanes err s
  | .pageWalkComplete die core ctx linear write => Sys2Proof.Machine.execPageWalkComplete die core ctx linear write s
  | .frameGrant die core part => Sys2Proof.Machine.execFrameGrant die core part s
  | .hatchAct die core part => Sys2Proof.Machine.execHatchAct die core part s
  | .hatchWaitTimeout die core part => Sys2Proof.Machine.execHatchWaitTimeout die core part s
  | .hatchRefill p => Sys2Proof.Machine.execHatchRefill p s
  | .waitvReevaluate p => Sys2Proof.Machine.execWaitvReevaluate p s
  | .waitvPeriodicCheck p => Sys2Proof.Machine.execWaitvPeriodicCheck p s
  | .contentionDecay idx => Sys2Proof.Machine.execContentionDecay idx s
  | .wordRegistration die core addr => Sys2Proof.Machine.execWordRegistration die core addr s
  | .registrationRevoke addr => Sys2Proof.Machine.execRegistrationRevoke addr s
  | .forwardedRead die core addr => Sys2Proof.Machine.execForwardedRead die core addr s
  | .lineRecall line => Sys2Proof.Machine.execLineRecall line s
  | .exclusiveEvict die line => Sys2Proof.Machine.execExclusiveEvict die line s
  | .postingReplay p => Sys2Proof.Machine.execPostingReplay p s
  | .spredMerge p op lane => Sys2Proof.Machine.execSpredMerge p op lane s
  | .mergeEntryFlush k => Sys2Proof.Machine.execMergeEntryFlush k s
  | .crewBroken crew => Sys2Proof.Machine.execCrewBroken crew s
  | .metadataUnderrun crew => Sys2Proof.Machine.execMetadataUnderrun crew s
  | .matrixPassGrant die cluster => Sys2Proof.Machine.execMatrixPassGrant die cluster s
  | .matrixPassError die cluster => Sys2Proof.Machine.execMatrixPassError die cluster s
  | .copyEngineStart die engine units => Sys2Proof.Machine.execCopyEngineStart die engine units s
  | .copyFault die engine err => Sys2Proof.Machine.execCopyFault die engine err s
  | .preemptTeam team => Sys2Proof.Machine.execPreemptTeam team s
  | .drainTimeout team => Sys2Proof.Machine.execDrainTimeout team s
  | .restoreTeam save die => Sys2Proof.Machine.execRestoreTeam save die s
  | .contextSwitch ctx => Sys2Proof.Machine.execContextSwitch ctx s
  | .killTeam team => Sys2Proof.Machine.execKillTeam team s
  | .coreFence die core lost => Sys2Proof.Machine.execCoreFence die core lost s
  | .spareRemap die channel unit => Sys2Proof.Machine.execSpareRemap die channel unit s
  | .dramScrub line err => Sys2Proof.Machine.execDramScrub line err s
  | .clusterGate die cluster => Sys2Proof.Machine.execClusterGate die cluster s
  | .clusterWake die cluster => Sys2Proof.Machine.execClusterWake die cluster s
  | .powerLimit mhz => Sys2Proof.Machine.execPowerLimit mhz s
  | .biasFlipToHost ask => Sys2Proof.Machine.execBiasFlipToHost ask s
  | .biasFlipToDevice page clear => Sys2Proof.Machine.execBiasFlipToDevice page clear s
  | .hostMemRead addr n err => Sys2Proof.Machine.execHostMemRead addr n err s
  | .hostMemWrite addr bytes => Sys2Proof.Machine.execHostMemWrite addr bytes s
  | .hostOwnershipRequest half ask => Sys2Proof.Machine.execHostOwnershipRequest half ask s
  | .backInvalidateResponse line dirty => Sys2Proof.Machine.execBackInvalidateResponse line dirty s
  | .hostSnoop half => Sys2Proof.Machine.execHostSnoop half s
  | .poisonReceived p op => Sys2Proof.Machine.execPoisonReceived p op s
  | .formatWindowEnable die win val => Sys2Proof.Machine.execFormatWindowEnable die win val s
  | .formatWindowDisable die win val => Sys2Proof.Machine.execFormatWindowDisable die win val s
  | .aliasLineFill line => Sys2Proof.Machine.execAliasLineFill line s
  | .aliasWriteBack line => Sys2Proof.Machine.execAliasWriteBack line s
  | .smcarveWrite val => Sys2Proof.Machine.execSmcarveWrite val s
  | .smwinWrite ctx val => Sys2Proof.Machine.execSmwinWrite ctx val s
  | .watchdogWrite => Sys2Proof.Machine.execWatchdogWrite s
  | .watchdogExpiry => Sys2Proof.Machine.execWatchdogExpiry s
  | .hostWindowWrite win base size => Sys2Proof.Machine.execHostWindowWrite win base size s
  | .hubRegisterWrite reg val => Sys2Proof.Machine.execHubRegisterWrite reg val s
  | .coldResetBoot fails env => Sys2Proof.Machine.execColdResetBoot fails env s
  | .getVersion => Sys2Proof.Machine.execGetVersion s
  | .getCapabilities => Sys2Proof.Machine.execGetCapabilities s
  | .negotiateAlgorithms => Sys2Proof.Machine.execNegotiateAlgorithms s
  | .getDigests => Sys2Proof.Machine.execGetDigests s
  | .getCertificate slot => Sys2Proof.Machine.execGetCertificate slot s
  | .challenge slot nonce => Sys2Proof.Machine.execChallenge slot nonce s
  | .getMeasurements block sign nonce => Sys2Proof.Machine.execGetMeasurements block sign nonce s
  | .captureRecord p what => Sys2Proof.Machine.execCaptureRecord p what s
  | .replayRelease p op => Sys2Proof.Machine.execReplayRelease p op s
  | .generalCoreMemoryAccess core addr acc => Sys2Proof.Machine.execGeneralCoreMemoryAccess core addr acc s
  | .peerLinkRequest peer addr acc => Sys2Proof.Machine.execPeerLinkRequest peer addr acc s
  | .peerLinkFailure peer => Sys2Proof.Machine.execPeerLinkFailure peer s

end Sys2Proof.Machine
end

