-- ==== Sys2Proof/Machine/Schedule.lean ====
section
/-! DEFINITION. Which event happens when nothing is selected and nothing is due: the first of a fixed order of the device's
own events that changes anything. Any other order is had by naming events in `State.agenda`. -/

namespace Sys2Proof.Machine

open Sys2Proof

/-- A list turned by `n`. -/
def turned {α : Type} (l : List α) (n : Nat) : List α :=
  let k := n % Max.max 1 l.length
  l.drop k ++ l.take k

/-- The partitions that hold groups; the first changes with the clock. -/
def partsUsed (s : State) : List Place := turned ((s.groups.map (fun g => { g.place with slot := 0 })).eraseDups) s.clock

/-- Events of one group: its operations, its replays, its wait. -/
def groupEvents (g : Group) : List Instr :=
  (g.allOps.map (fun o => [.replayRelease g.place o.id, .operationComplete g.place o.id [] false])).flatten
    ++ [.postingReplay g.place, .waitvReevaluate g.place, .waitRecordRetest g.place]

/-- Events of one partition's frames. -/
def frameEvents (p : Place) : List Instr :=
  [.handlerFrameGrant p.die p.core p.part, .frameGrant p.die p.core p.part, .hatchAct p.die p.core p.part,
   .hatchWaitTimeout p.die p.core p.part]

/-- Events of tables and ports: walks, push ports that have been told to go, the lines of a bias flip, worn cores, contention
counters that are not 0. -/
def hubEvents (s : State) : List Instr :=
  s.misses.map (fun m => .pageWalkComplete m.die 0 m.ctx (m.vpn * 4096) m.write) ++ (List.range 16).map .pushPortGo
    ++ (match s.hub.flip with | some f => if f.host then (f.left.take 1).map .lineRecall else [] | none => [])
    ++ (wornCores s).map (fun c => .coreFence c.1 c.2 [])
    ++ (s.contention.filter (fun c => c.count != 0)).map (fun c => .contentionDecay c.idx)

/-- Events of the engines. -/
def engineEvents (s : State) : List Instr :=
  (s.crews.map (fun k => [.crewBroken k.id, .matrixPassGrant k.die k.cluster])).flatten
    ++ ((List.range s.dies.length).map (fun d => (List.range 8).map (fun e => Instr.copyEngineStart d e 0))).flatten
    ++ (List.range s.merge.length).map .mergeEntryFlush ++ s.crews.map (fun k => .metadataUnderrun k.id)

/-- Events of tasks and teams; a slot is returned in a clock after its group's last issue. -/
def taskEvents (s : State) : List Instr :=
  (s.groups.filter (fun g => decide (g.lastIssue ≤ s.clock))).map (fun g => .groupSlotRelease g.place) ++ s.teams.map (fun t => .teamRetire t.uid)
    ++ (s.tasks.map (fun k => [.gridRetire k.id, .gridFail k.id, .validateTaskRecord k.die k.prio, .taskEligible k.id])).flatten
    ++ (s.tasks.map (fun k => (openSnapshots s k).map (fun x =>
      Instr.captureRecord ⟨k.die, 0, 0, 0⟩ (.snapshot k.id x.1 x.2)))).flatten
    ++ (if s.tasks = [] then [] else (List.range 4).map .placeTeam ++ (List.range 4).map .dieReservation)
    ++ s.teams.map (fun t => .drainTimeout t.uid)

/-- The device's own events, in the order in which they are tried. Every partition issues once before time passes. -/
def candidates (s : State) : List Instr :=
  ((s.groups ++ s.departed).map groupEvents).flatten ++ ((partsUsed s).map frameEvents).flatten
    ++ s.groups.map (fun g => .hatchRefill g.place) ++ engineEvents s ++ hubEvents s ++ taskEvents s
    ++ (partsUsed s).map (fun p => .activeSetRefill p.die p.core p.part)
    ++ (partsUsed s).map (fun p => .issueSelect p.die p.core p.part 0)

/-- Does an event change anything but the clock? -/
def effective (s : State) (i : Instr) : Bool :=
  match exec i s with
  | .next t => decide ({ t with clock := s.clock } ≠ s)
  | _ => false

/-- The event that the device makes happen. (DESIGN CHOICE, log 1) -/
def nextEvent (s : State) : Option Instr := (candidates s).find? (effective s)

/-- Time passes. (DESIGN CHOICE, log 13) -/
def idle (s : State) : State := { s with clock := s.clock + 1 }

end Sys2Proof.Machine
end

