-- ==== Sys2Proof/Machine/Step.lean ====
section
/-! DEFINITION. One step of the device: the selected issuer issues one instruction, or else an event happens. -/

namespace Sys2Proof.Machine

open Sys2Proof

/-- What follows an event (R180): the groups that have stalled at issue may try again, but for a mere selection. -/
def afterEvent (i : Instr) (t : State) : State :=
  match i with
  | .issueSelect _ _ _ _ => t
  | _ => unstall t

/-- What follows an instruction of the group in place `p`: unless it has stalled itself, the groups that have may try
again. -/
def afterIssue (p : Place) (t : State) : State :=
  if (groupAt t p).any (fun g => g.stalled != 0) then t else unstall t

/-- Something done to the state that an outcome leads to. -/
def onNext (f : State → State) (r : Host.Outcome State Fault Refusal) : Host.Outcome State Fault Refusal :=
  match r with
  | .next t => .next (f t)
  | r => r

/-- One step. With a selection in `State.issue` its issuer, with
the writes of b registers that have reached it (R42), fetches, decodes and executes one instruction; without, the
first event of `State.agenda` happens; without either, the event that the device chooses, or time passes. -/
def step (s : State) : Host.Outcome State Fault Refusal :=
  match s.issue with
  | _ :: _ =>
    let s := seeWrites s
    match env? s with
    | none => .next (popIssue s)
    | some e =>
      match issueNext s e with
      | .inl (i, t) => onNext (afterIssue e.g.place) (exec i t)
      | .inr t => .next (afterIssue e.g.place t)
  | [] =>
    match s.agenda with
    | i :: rest => if i.isEvent then onNext (afterEvent i) (exec i { s with agenda := rest }) else .next { s with agenda := rest }
    | [] =>
      match nextEvent s with
      | some i => if i.isEvent then onNext (afterEvent i) (exec i s) else .next (idle s)
      | none => .next (idle s)

/-- The state in which step fetches and runs the instruction with bits `w` (R242: 96 bits, a word of three). -/
def State.withFetchWord (s : State) (nbits w : Nat) : State := stage s (BitVec.ofNat 96 (w % 2 ^ nbits))

end Sys2Proof.Machine
end

