-- ==== Sys2Proof/Safety.lean ====
section
/-! DEFINITION. The terms in which claims are made: who issues, when the checks of an instruction pass, what a
fixed-latency instruction may change, and the invariant of every state. -/

namespace Sys2Proof.Machine

open Sys2Proof

/-- `e` issues an instruction with opcode `op`: it is what the first issue slot selects, in a mode that accepts the
opcode (R185, R251). -/
def Issues (op : Nat) (s : State) (e : Env) : Prop :=
  env? s = some e ∧ (e.single = true → singleAccepts op = true) ∧ (e.single = false → isPrivileged op = false)

/-- The checks of R183 that come before an instruction's own pass. -/
def Clear (e : Env) (gd : Guard) (act : Mask) (ins : List Inp) (spans : List (Nat × Nat)) (preds : List Nat) : Prop :=
  operandFault e gd act ins spans preds = none

/-- The checks of R67 and R74 pass in every active lane: they leave `s'` and find the bytes at `ls`. -/
def AccessPasses (s : State) (e : Env) (m : MHdr) (act : Mask) (kind : Nat) (nd : Need) (size : Nat → Nat) (align : Nat)
    (exact : Bool) (s' : State) (ls : List LaneAt) : Prop :=
  accessOf s e m act kind nd size align exact = .inr (s', ls)

/-- A transfer target is a marked slot of a reachable line (R238, R241). -/
def TargetOk (s : State) (e : Env) (seg : Nat) (idx : Int) (s' : State) : Prop :=
  checkTarget s e.view seg idx = (.ok, s')

/-- The copy record of R296, where a kind has one, is read as `r` for lane `l`, and every range of the command passes. -/
def CopyPasses (s : State) (e : Env) (l : Nat) (kind : CopyKind) (a b c : Nat) (s' : State) (r : Nat) : Prop :=
  checkedCopy s e l kind a b c = .inr (s', r)

/-- The barrier object under a pointer passes the checks of R67 and lies at `x`. -/
def ObjectAt (s : State) (e : Env) (nd : Need) (p : Nat) (s' : State) (x : Loc) : Prop :=
  ∃ n r, checkAccess s e.view nd (fld p 44 20) (fld p 0 44 : Nat) 16 16 = (.ok ((x, n) :: r), s')

/-- The queue under a pointer passes the checks of R172, header and ring, and is as `q` describes it; `pops` says that a pop
issues. -/
def QueueAt (s : State) (e : Env) (lane : Mask) (p : Nat) (pops : Bool) (s' : State) (q : UserQ) : Prop :=
  ∃ s1 q1, headerOf s e lane p pops = .inr (s1, q1) ∧ q1.esz = q.esz ∧ ringOf s1 e lane q1 = .inr (s', q)

/-- The word of lane `l` that a fixed-latency result of `w` bits leaves in register `n` (R5, R38): its own word of the
result in an active lane of the destination, else what was there. -/
def vAfter (r : RegCtx) (act : Mask) (d : Dst) (w : Nat) (v : Nat → Nat) (n l : Nat) : Nat :=
  match d with
  | .v k => if k.val ≤ n ∧ n < k.val + w / 32 ∧ hasLane act l = true then fld (v l) (32 * (n - k.val)) 32 else r.frame.v n l
  | _ => r.frame.v n l

/-- What it leaves in scalar register `n` (R40): the lowest active lane's value. -/
def sAfter (r : RegCtx) (act : Mask) (d : Dst) (w : Nat) (v : Nat → Nat) (n : Nat) : BitVec 64 :=
  match d, lowestLane act with
  | .s k, some l => if k.val = n then BitVec.ofNat 64 (v l % 2 ^ w) else tabGet r.sreg n
  | _, _ => tabGet r.sreg n

/-- What it leaves in team register `n` (R40, R41): the lowest active lane's word. -/
def bAfter (t : Team) (act : Mask) (d : Dst) (w : Nat) (v : Nat → Nat) (n : Nat) : BitVec 32 :=
  match d, lowestLane act with
  | .b k, some l =>
    if k.val = n then BitVec.ofNat 32 (v l)
    else if w = 64 ∧ k.val + 1 = n then BitVec.ofNat 32 (v l / 2 ^ 32) else tabGet t.breg n
  | _, _ => tabGet t.breg n

/-- The register context after a fixed-latency instruction: frame registers, scalar registers and the casement change as
the rules say (R40, R44, R45); everything else stands. -/
structure CtxDone (r r' : RegCtx) (ks : List Nat) (push : Bool) (act : Mask) (d : Dst) (w : Nat) (v : Nat → Nat) : Prop where
  rest : r' = { r with frame := { r.frame with regs := r'.frame.regs }, sreg := r'.sreg, cas := r'.cas }
  vreg : ∀ n l, l < 32 → r'.frame.v n l = vAfter r act d w v n l
  sreg : ∀ n, tabGet r'.sreg n = sAfter r act d w v n
  kept : push = false → r'.cas = r.cas
  idle : ∀ k, k ∉ ks → r'.cas[k]? = r.cas[k]?
  ages : push = true → 32 ≤ w → ∀ k ∈ ks, ∀ a, r.cas[k]? = some a →
    ∃ ws : List Age, ws.length = w / 32 ∧ r'.cas[k]? = some ((ws ++ a).take 16)
      ∧ ∀ i j x, ws[i]? = some x → j < 4 →
          x.valid = true ∧ fld x.data.toNat (32 * j) 32
            = if hasLane act (4 * k + j) then fld (v (4 * k + j)) (32 * i) 32 else 0

/-- The group after an instruction that changes its register context and goes on at the next index, issued at a clock. -/
structure GroupGoesOn (e : Env) (now : Nat) (g : Group) : Prop where
  rest : g = { (e.issued e.g now) with slices := g.slices, main := g.main, handler := g.handler }
  lanes : g.slices = (e.g.setPc e.slices e.pc.next).slices
  alone : ∀ h, e.g.handler = some h → g.main = e.g.main ∧ g.handler = some { h with ctx := g.ctx, pc := e.pc.next }
  open_ : e.g.handler = none → g.handler = none

/-- The state after a fixed-latency instruction with destination `d`, a width and a value for each lane: the group goes
on, its registers are those of `CtxDone`, the team's b registers those of `bAfter` (which the writer reads at once and
other groups when it has reached them, R42), and nothing else changes; in particular no byte of memory. -/
structure VectorDone (s : State) (e : Env) (uni : Bool) (act : Mask) (d : Dst) (w : Nat) (v : Nat → Nat) (t : State) :
    Prop where
  rest : t = { s with issue := s.issue.tail, groups := t.groups, teams := t.teams }
  others : ∀ p, p ≠ e.g.place → groupAt t p = groupAt s p
  group : ∃ g, groupAt t e.g.place = some g ∧ GroupGoesOn e s.clock g ∧ CtxDone e.g.ctx g.ctx e.slices (!uni && d.isVec) act d w v
  teams : ∀ u, u ≠ e.t.uid → teamOf t u = teamOf s u
  team : ∃ x, teamOf t e.t.uid = some x
    ∧ x = { e.t with issuedN := e.t.issuedN + 1, breg := x.breg, bwriter := x.bwriter, late := x.late }
    ∧ (∀ n, tabGet x.breg n = bAfter e.t act d w v n)
    ∧ (∀ g n, g < e.t.ngroups → g ≠ e.g.index → x.seen g n = e.t.seen g n)
    ∧ (∀ n, x.seen e.g.index n = if act ≠ 0 ∧ n ∈ bSpan d w then tabGet x.breg n else e.t.seen e.g.index n)
    ∧ (∀ n, n ∉ bSpan d w → tabGet x.bwriter n = tabGet e.t.bwriter n)
    ∧ (act ≠ 0 → ∀ n ∈ bSpan d w, tabGet x.bwriter n = BitVec.ofNat 8 (e.g.index + 1))

/-- `i` is a fixed-latency instruction: where its operands pass and a b destination is its group's to write (R41), it
completes with the value `v` in each active lane. -/
def FixedLatency (op : Nat) (i : Instr) (h : Hdr) (d : Dst) (w : Nat) (ins : List Inp) (preds : List Nat)
    (v : Env → Mask → Nat → Nat) : Prop :=
  ∀ s e, Issues op s e → destFault e h.guard (e.acts h) ins d w preds = none →
    (e.acts h = 0 ∨ writerOk e d w = true) →
    ∃ t, exec i s = .next t ∧ VectorDone s e h.uni (e.acts h) d w (v e (e.acts h)) t

/-- The state after an instruction that only writes predicate `p` in the active lanes (R243, R319): p7 discards the write,
no age is pushed, and nothing else changes. -/
structure PredDone (s : State) (e : Env) (act : Mask) (p : Nat) (v : Nat → Bool) (t : State) : Prop where
  rest : t = { s with issue := s.issue.tail, groups := t.groups, teams := t.teams }
  others : ∀ q, q ≠ e.g.place → groupAt t q = groupAt s q
  teams : ∀ u, teamOf t u = (teamOf s u).map (fun x => if x.uid = e.t.uid then { x with issuedN := x.issuedN + 1 } else x)
  group : ∃ g, groupAt t e.g.place = some g ∧ GroupGoesOn e s.clock g
    ∧ g.ctx = { e.g.ctx with pred := g.ctx.pred }
    ∧ ∀ n l, l < 32 → g.ctx.predAt n l = if n = p ∧ n ≠ 7 ∧ hasLane act l = true then v l else e.g.ctx.predAt n l

/-- The canonical form of every storage space (an invariant of the model, kept by every step). -/
def State.memOk (s : State) : Bool :=
  Memory.wf s.mem && Memory.wf s.smem
    && (s.teams ++ s.retired ++ s.saved.map (·.team)).all (fun t => Memory.wf t.tmem && Memory.wf t.tile)

/-- The invariant: canonical storage, and every registered word is aligned to its four bytes (R205). -/
def State.inv (s : State) : Bool := s.memOk && s.l1.all (fun x => !x.reg || x.addr % 4 == 0)

/-- No alias line holds an element that is still to be written through its window, and no core one that could become such:
filling and emptying caches then writes no store byte through a window (R150). -/
def State.aliasQuiet (s : State) : Bool :=
  s.aliases.all (fun l => l.written == 0) && s.l1.all (fun x => !x.reg || decide (x.addr < 2 ^ 51))

/-- Rounding to a format (R130, R133, R136, R137, R139, R140). A nonzero number no larger than the largest finite value
becomes a finite one: in modes 2, 3 and 1 the nearest on its side, in modes 0 and 4 the nearest of all, on a tie that
with the even code or that of the greater magnitude. A larger number is the largest finite value, or has overflowed and
is an infinity or a NaN where the format has one. A zero keeps the sign, but for a P3109 member's. Numbers are compared
as whole multiples of 2^u. Which of two values of a P3109 member with P = 1 a tie gives is not said here (log 74). -/
def RoundsRightly (f : Fmt) : Prop :=
  ∀ (rm : Rnd) (sat neg : Bool) (m : Nat) (e : Int), m ≠ 0 → (f.sgn = true ∨ neg = false) →
    let u : Int := min e (1 - (f.bias : Int) - f.tb)
    let units (x : FV) : Int := match x with
      | .fin n m k => (if n then -1 else 1) * (m * 2 ^ (k - u).toNat : Nat)
      | _ => 0
    let finite (c : Nat) : Prop := ∃ n m k, f.decode c = .fin n m k
    let r := f.round rm sat (.fin neg m e)
    let x := units (.fin neg m e)
    let v := units (f.decode r)
    let top := units (.fin false (f.magVal f.maxMag).1 (f.magVal f.maxMag).2)
    let past := 2 * (x.natAbs : Int) - 2 * top - units (.fin false 1 (f.magVal f.maxMag).2)
    let overflows : Prop := match rm with
      | .rz => False
      | .rd => neg = true
      | .ru => neg = false
      | .rna => 0 ≤ past
      | .rn => 0 < past ∨ (past = 0 ∧ (f.maxMag % 2 = 1 ∨ f.tb = 0))
    let largest : Prop := finite r ∧ v = if neg then -top else top
    let value (y : Int) : Prop := ∃ c, c < 2 ^ f.width ∧ finite c ∧ y = units (f.decode c)
    r < 2 ^ f.width
    ∧ ((x.natAbs : Int) ≤ top → finite r
      ∧ ((rm = .rd ∨ (rm = .rz ∧ neg = false)) → v ≤ x ∧ ∀ y, value y → y ≤ x → y ≤ v)
      ∧ ((rm = .ru ∨ (rm = .rz ∧ neg = true)) → x ≤ v ∧ ∀ y, value y → x ≤ y → v ≤ y)
      ∧ ((rm = .rn ∨ rm = .rna) → ∀ y, value y → (v - x).natAbs ≤ (y - x).natAbs)
      ∧ (rm = .rna → ∀ y, value y → (y - x).natAbs = (v - x).natAbs → y.natAbs ≤ v.natAbs)
      ∧ (rm = .rn → 1 ≤ f.tb → ∀ y, value y → y ≠ v → (y - x).natAbs = (v - x).natAbs → r % 2 = 0)
      ∧ (v = 0 → if (match f.kind with | .p3109 _ => true | _ => false) then r = 0 else bitOf r f.magBits = neg))
    ∧ (top < (x.natAbs : Int) →
      (¬overflows → largest)
      ∧ (overflows → match f.kind with
        | .ieee => if sat then largest else f.decode r = .inf neg
        | .e4m3 => if sat then largest else f.decode r = .nan
        | .p3109 ext => if sat then largest else if ext then f.decode r = .inf neg else f.decode r = .nan
        | _ => largest))

/-- A safe run: each of `n` steps answers a next state, and the invariant holds throughout. -/
def SafeRun (s : State) : Nat → Prop
  | 0 => s.inv = true
  | n + 1 => s.inv = true ∧ ∃ t, step s = .next t ∧ SafeRun t n

/-- Every running lane holds the guard and the operands, which the lowest one reads, pass (R291, R350, R372, R376). -/
def AllLanes (e : Env) (gd : Guard) (ins : List Inp) : Prop :=
  e.active gd = e.live ∧ e.live ≠ 0 ∧ Clear e gd (lowMask e.live) ins [] []

/-- A matrix instruction arrives at the latch (R157, R161, R165): where the engine has room and no entry lists the
member it makes the entry and waits there; in an entry of its own crew and instruction it joins the others and waits,
and the last one assembles the instruction. The member brings its rows, those of a kept set instead of its A registers
with RU, its scales and its one outstanding operation over the B and C ranges. -/
def Arrives (s : State) (e : Env) (i : Instr) (f : MatF) (u : MatUse) : Prop :=
  let entry := s.crews.find? (fun k => k.lists e.t.uid e.g.index
    && (match k.st with | .gathering => true | .tombstone _ => true | _ => false))
  let kept := if f.ru then keptOf s e.t.uid e.g.crew else none
  let rs := matRanges f (fld e.g.crew.toNat 0 3)
  let s1 : State :=
    { s with
      issue := s.issue.tail
      crews := releaseKept s.crews (fun k => k.lists e.t.uid e.g.index && k.crew != e.g.crew) }
  let g := e.g.addOp .mat .mat [rangeAcc e.t.uid rs.1, rangeAcc e.t.uid rs.2] .weak .group e.pc []
  let brings (m : Member) : Prop :=
    m.place = e.g.place ∧ m.op = e.g.nextOp ∧ m.pc = e.pc ∧ m.rows = e.active f.guard
      ∧ (crewMembers e.g.crew.toNat)[m.pos]? = some e.g.index
      ∧ m.a = (match kept with
          | some k => ((k.members.find? (fun x => x.pos == m.pos)).map (·.a)).getD []
          | none => sliceRows e.g.main f.a.val u.regs)
      ∧ m.sa = (match u.sa with | some a => sliceRows e.g.main a 1 | none => [])
      ∧ m.sb = (match u.sb with
          | some b => if m.pos = 0 then ((List.range (f.n.val + 1)).map (fun j => sliceRows e.g.main (b + j) 1)).flatten else []
          | none => [])
  (entry = none → heldEntries s e.g.place.die e.t.cluster < 32 →
    ∃ m, brings m ∧ exec i s = .next (beginWait
      { s1 with
        nextUid := s.nextUid + 1
        crews := s1.crews ++ [{ id := s.nextUid, die := e.g.place.die, cluster := e.t.cluster, team := e.t.uid, crew := e.g.crew,
                                word := latchWord i, st := .gathering, members := [m], since := s.clock, order := 0,
                                fromKept := kept.isSome, dropKept := false }] }
      e g 8 0 0 0 (.latch s.nextUid)))
  ∧ (∀ k, entry = some k → k.st = .gathering → k.crew = e.g.crew → k.word = latchWord i →
    ∃ m, brings m ∧
      let k' : Crew :=
        { k with
          members := k.members ++ [m]
          fromKept := k.fromKept || kept.isSome }
      (k.members.length + 1 ≠ k.count → exec i s = .next (beginWait (setCrew s1 k') e g 8 0 0 0 (.latch k.id)))
      ∧ (k.members.length + 1 = k.count →
        exec i s = .next (assembleCrew (beginWait (setCrew s1 k') e g 8 0 0 0 (.latch k.id)) k.id)))

/-- Does a plan part the lanes of a slice, or send the slices of a fragment to different places? -/
def splits (e : Env) (plan : Nat → Plan) : Bool :=
  e.slices.any (fun k => decide (1 < (plan k).length)) || parts e plan
where
  /-- Do the first paths of the slices differ? -/
  parts (e : Env) (plan : Nat → Plan) : Bool :=
    e.slices.any (fun k => (plan k).head?.map (·.1) != (plan (e.slices.headD 0)).head?.map (·.1))

/-- The entries that a slice holds once a plan is carried out. -/
def newDepth (e : Env) (plan : Nat → Plan) (k : Nat) : Nat :=
  (match e.g.slices[k]? with | some sl => sl.stack.length | none => 0) + (plan k).length - 1

/-- The group whose slices follow a plan (R24, R290). -/
def planned (e : Env) (rcv : BitVec 18) (plan : Nat → Plan) : Group :=
  e.g.mapSlices (fun k sl =>
    if e.slices.contains k then slicePlan e.pc.seg (e.pc.at (sint 18 rcv.toNat)).toNat sl (plan k) else sl)

/-- A branch may be carried out (R25, R26, R59, R290): where it parts lanes its reconvergence point is a regang, no slice
holds more than 64 entries, and entries beyond four go to the group's hatch area. -/
structure BranchFits (s : State) (e : Env) (rcv : BitVec 18) (plan : Nat → Plan) (s' : State) : Prop where
  point : ∃ s1, (if splits e plan then rcv ≠ 0 ∧ isRegang s e (e.pc.at (sint 18 rcv.toNat)) = (true, s1) else s1 = s)
    ∧ ∃ n, n = e.slices.foldl (fun m k => if 1 < (plan k).length then Max.max m (newDepth e plan k) else m) 0 ∧ n ≤ 64
    ∧ ∃ s2, (if n ≤ 4 then s2 = s1 else ∃ a, areaSize s1 e.g.place e.t.ctx 7 = (.inl a, s2) ∧ (n - 4) * 16 ≤ a)
    ∧ areaPuts e.g.place e.t.ctx 7 16 (divSpills e.g (planned e rcv plan)) s2 = (none, s')

/-- The group with the trap registers and the stopped slices of a trap (R31, R183, Table 15-2). -/
def trapped (e : Env) (x : Trap) : Group :=
  { e.g with
    stalled := 0
    walked := []
    trap := { cause := BitVec.ofNat 64 x.cause, pc := BitVec.ofNat 64 (pcWord e.pc),
              lanes := BitVec.ofNat 64 x.lanes.toNat, addr := BitVec.ofNat 64 x.addr, info := BitVec.ofNat 64 x.info,
              who := BitVec.ofNat 64 (whoWord e.t e.g) }
    trapSlices := sliceBits e.slices
    wait := none }

end Sys2Proof.Machine
end

