-- ==== Sys2Proof/Certificates/Slice0/Obligations.lean ====
section
/-! DEFINITION. The statements for the provers. Where a value or a behaviour is the model's own choice, the docstring names
the log entry. -/

open Sys2Proof Sys2Proof.Machine

/-! ### Encoding and decoding -/

/-- Every well-formed program instruction has a word, and that word decodes to it: no bit of an operand, type, guard,
immediate or modifier is lost (R243 to R250). -/
def Obligations.EncodingIsDecoded : Prop :=
  ∀ i : Instr, i.wf = true → i.isEvent = false → ∃ w, encode i = some w ∧ decode w = .ok i

/-- A word that decodes to an instruction is the only word that does, and the instruction is well formed (R256: no reserved
or unused bit is ignored). -/
def Obligations.DecodingIsUnambiguous : Prop :=
  ∀ (w : BitVec 96) (i : Instr), decode w = .ok i → i.wf = true ∧ i.isEvent = false ∧ encode i = some w

/-- Words that the spec prints decode to the instructions that it prints beside them. -/
def Obligations.PrintedWordsDecode : Prop :=
  (decode 0x000000000000000000000000).toOption = some (.nop false)
    ∧ (decode 0x600179067FFFFFF030003000).toOption = some
      (.ld { guard := ⟨7, false⟩, addr := .link 3 0, a := none, ord := .weak, scope := .group, evp := 3 } .b64 12)
    ∧ (decode 0x6B023801FFC03F1A38000000).toOption = some
      (.cas { guard := ⟨7, false⟩, addr := .sel 8 0, a := none, ord := .acqrel, scope := .device, evp := 3 } .b32 3
        (.v 1) .zero)
    ∧ (decode 0x8000FB000400000000400000).toOption = some
      (.mma { guard := ⟨7, false⟩, tya := .bf16, tyc := .f32, ru := true, acc := true, sat := false, a := 16, b := 0,
              c := 16, n := 0, low := 0 })

/-! ### A step -/

/-- Where the word that the selected issuer fetches decodes to an instruction, the step is the meaning of that
instruction in the state that the fetch leaves; the meaning itself moves the program counter and uses up the issue slot.
Afterwards, unless the issuer's own group has stalled, the groups that have stalled at issue may try again, and nothing
else changes. A failure that a yield has left for the fragment comes first (R376). Before the fetch, writes of b
registers by other groups may reach the issuer's group (R42): every group then reads of every register what it read
before, or a later value, and nothing else of the state changes but the counter of free values; with none on their way
the state is as it was. -/
def Obligations.StepRunsTheDecodedInstruction : Prop :=
  (∀ (s s' : State) (e : Env) (w : BitVec 96) (i : Instr),
    env? (seeWrites s) = some e → e.due = none → fetchWord (seeWrites s) e.view e.pc.seg e.pc.idx = (.word w, s') →
    decode w = .ok i →
    step s = onNext (afterIssue e.g.place) (exec i s')
      ∧ (∀ t, exec i s' = .next t → step s = .next (afterIssue e.g.place t)))
  ∧ (∀ (p : Place) (t : State), afterIssue p t = { t with groups := (afterIssue p t).groups }
      ∧ (afterIssue p t).groups.length = t.groups.length
      ∧ (∀ (k : Nat) (g : Group), t.groups[k]? = some g → ∃ h : Group, (afterIssue p t).groups[k]? = some h
          ∧ h = { g with stalled := h.stalled, readyAt := h.readyAt } ∧ (g.stalled = 0 → h = g))
      ∧ ((∀ g, groupAt t p = some g → g.stalled = 0) → ∀ g ∈ (afterIssue p t).groups, g.stalled = 0))
  ∧ (∀ (s : State) (e : Env) (d : Due), env? (seeWrites s) = some e → e.due = some d →
      step s = .next (afterIssue e.g.place (failTrapOf (popIssue (seeWrites s))
        { e with g := { e.g with due := e.g.due.erase d } } 0 d.seq d.fail)))
  ∧ (∀ s : State, seeWrites s = { s with teams := (seeWrites s).teams, fresh := (seeWrites s).fresh })
  ∧ (∀ (s : State) (e : Env), env? s = some e →
      (e.t.late.any (fun x => x.group == e.g.index) = false → seeWrites s = s)
      ∧ ∃ l : List LateB, env? (seeWrites s) = some { e with t := { e.t with late := l } }
          ∧ l.Sublist e.t.late
          ∧ (∀ x ∈ e.t.late, x.group ≠ e.g.index → x ∈ l)
          ∧ ∀ g n, { e.t with late := l : Team }.seen g n = tabGet e.t.breg n
              ∨ ∃ x ∈ e.t.late, x.group = g ∧ x.reg = n ∧ { e.t with late := l : Team }.seen g n = x.val)

/-- An opcode that Table 19-10 leaves unassigned is an illegal instruction, whatever the other bits hold (R256).

A fetched word that decodes to no instruction traps precisely with the cause of Table 19-15; privileged instruction
(0x05) is taken before illegal operand (R183). In single-lane mode an opcode that the mode does not accept is an illegal
instruction (0x01), which comes before illegal operand as well (R183, R185, R251). That the recorded lanes are those that
run (`e.live`) is the model's choice (log 15). -/
def Obligations.RejectedWordsTrap : Prop :=
  (∀ w : BitVec 96,
      (∃ op, opcodeOf w = op ∧ ((0x0D ≤ op ∧ op ≤ 0x0F) ∨ op = 0x2D ∨ op = 0x2E ∨ op = 0x2F ∨ (0x43 ≤ op ∧ op ≤ 0x4F) ∨ op = 0x51
        ∨ (0x56 ≤ op ∧ op ≤ 0x5F) ∨ (0x6F ≤ op ∧ op ≤ 0x7F) ∨ (0x87 ≤ op ∧ op ≤ 0x8F) ∨ (0x97 ≤ op ∧ op ≤ 0x9F) ∨ 0xAA ≤ op)) →
      ∃ r, decode w = .error r ∧ r.cause = 0x01)
  ∧ (∀ (s s' : State) (e : Env) (w : BitVec 96) (r : Reject),
      env? (seeWrites s) = some e → e.due = none → fetchWord (seeWrites s) e.view e.pc.seg e.pc.idx = (.word w, s') →
      decode w = .error r →
      step s = .next (afterIssue e.g.place (takeTrap (popIssue s') e
        { cause :=
            if e.single then (if singleAccepts (opcodeOf w) then r.cause else 0x01)
            else if r.cause ≠ 0x01 ∧ isPrivileged (opcodeOf w) = true then 0x05 else r.cause,
          lanes := e.live })))

/-- In every format PG = 7 with PN = 1 is an illegal instruction, and regang and nop accept only PG = 7 with PN = 0, nop
also the word of zeros (R244). -/
def Obligations.GuardSevenIsNeverNegated : Prop :=
  ∀ w : BitVec 96,
    (w.extractLsb' 75 3 = 7 → w.extractLsb' 74 1 = 1 → ∃ r, decode w = .error r ∧ r.cause = 0x01)
    ∧ (opcodeOf w = 0x07 ∨ opcodeOf w = 0x00 → w ≠ 0 → ¬(w.extractLsb' 75 3 = 7 ∧ w.extractLsb' 74 1 = 0) →
      ∃ r, decode w = .error r ∧ r.cause = 0x01)
    ∧ decode 0 = .ok (.nop false)
    ∧ decode (7 <<< 75) = .ok (.nop true) ∧ decode (0x07 <<< 88 ||| 7 <<< 75 ||| 511 <<< 54) = .ok .regang

/-- What issuing leaves alone: after an instruction that only changes its group (advance, commit), waits (beginWait) or
soils its team, every byte of physical, slice, team memory and tile store is as before, as are all other groups, tasks,
crews, caches, hub registers and the team's b registers; a stall changes nothing but the issue slot and the mark of
the group's own fragment. -/
def Obligations.IssueFrame : Prop :=
  ∀ (s : State) (e : Env) (g : Group) (kind cmp object value : Nat) (cont : Cont), g.place = e.g.place →
    let kept (t : State) : Prop := t = { s with groups := t.groups, teams := t.teams }
      ∧ (∀ p, p ≠ e.g.place → groupAt t p = groupAt s p)
      ∧ (∀ u x, teamOf s u = some x → ∃ y, teamOf t u = some y ∧ y = { x with issuedN := y.issuedN, clean := y.clean })
      ∧ ∀ u b, teamMem t u b = teamMem s u b
    kept (advance s e g) ∧ kept (commit s e g) ∧ kept (beginWait s e g kind cmp object value cont) ∧ kept (soil s e.t.uid)
      ∧ kept (stall s e) ∧ (stall s e).teams = s.teams
      ∧ (∀ g0, groupAt s e.g.place = some g0 → groupAt (stall s e) e.g.place = some { e.g with stalled := e.g.stalled ||| sliceBits e.slices })
      ∧ popIssue s = { s with issue := s.issue.tail }

/-! ### Fixed-latency instructions -/

/-- add, sub, mul, mulhi, mad, min, max, abs and neg complete with the exact result of each element, wrapped or with SAT
clamped, in every active lane, and change nothing but the destination, the casement and the program counter. -/
def Obligations.IntegerArithmetic : Prop :=
  ∀ (h : Hdr) (ty : IntTy) (sat : Bool) (d : Dst) (a b c : Src),
    let val (n : Bool) (f : Int → Int → Int → Int) (xs : List Inp) (e : Env) (_ : Mask) (l : Nat) : Nat :=
      let x (i : Nat) (k : Nat) : Int := ty.elem ((xs.map (fun p => readInp e p l)).getD i 0) k
      (List.range ty.count).foldl (fun acc k => acc + intFit n ty.signed ty.ew (f (x 0 k) (x 1 k) (x 2 k)) * 2 ^ (ty.ew * k)) 0
    FixedLatency 0x10 (.add h ty sat d a b) h d ty.width (ins2 h ty a b) [] (val sat (fun x y _ => x + y) (ins2 h ty a b))
      ∧ FixedLatency 0x11 (.sub h ty sat d a b) h d ty.width (ins2 h ty a b) [] (val sat (fun x y _ => x - y) (ins2 h ty a b))
      ∧ FixedLatency 0x12 (.mul h ty sat d a b) h d ty.width (ins2 h ty a b) [] (val sat (fun x y _ => x * y) (ins2 h ty a b))
      ∧ FixedLatency 0x13 (.mulhi h ty d a b) h d ty.width (ins2 h ty a b) []
          (val false (fun x y _ => x * y / 2 ^ ty.ew) (ins2 h ty a b))
      ∧ FixedLatency 0x14 (.mad h ty sat d a b c) h d ty.width [inI h ty a, inI h ty b, inI h ty c] []
          (val sat (fun x y z => x * y + z) [inI h ty a, inI h ty b, inI h ty c])
      ∧ FixedLatency 0x16 (.min h ty d a b) h d ty.width (ins2 h ty a b) [] (val false (fun x y _ => min x y) (ins2 h ty a b))
      ∧ FixedLatency 0x17 (.max h ty d a b) h d ty.width (ins2 h ty a b) [] (val false (fun x y _ => max x y) (ins2 h ty a b))
      ∧ FixedLatency 0x18 (.abs h ty sat d a) h d ty.width [inI h ty a] []
          (val sat (fun x _ _ => (x.natAbs : Int)) [inI h ty a])
      ∧ FixedLatency 0x19 (.neg h ty sat d a) h d ty.width [inI h ty a] [] (val sat (fun x _ _ => -x) [inI h ty a])

/-- The integer types, and where element k of each lies; a packed integer result holds each element's own result in that
element's bits: no carry passes between elements. With SAT an element is the nearest number of its range, read back as
that type; without, it is the exact number modulo 2^w. add, sub, mul, mad, abs and neg leave such results (R134). -/
def Obligations.IntegerResults : Prop :=
  (∀ (ty : IntTy) (sat : Bool) (f : List Int → Int) (xs : List Nat) (k : Nat), k < ty.count →
      fld (intMap ty sat f xs) (ty.ew * k) ty.ew = intFit sat ty.signed ty.ew (f (xs.map (fun x => ty.elem x k)))
        ∧ intMap ty sat f xs < 2 ^ (ty.ew * ty.count))
  ∧ (∀ (signed : Bool) (w : Nat) (x : Int), 1 ≤ w →
      let lo : Int := if signed then -(2 ^ (w - 1)) else 0
      let hi : Int := if signed then 2 ^ (w - 1) - 1 else 2 ^ w - 1
      let back (n : Nat) : Int := if signed then sint w n else (n : Int)
      intFit true signed w x < 2 ^ w ∧ back (intFit true signed w x) = (if x < lo then lo else if hi < x then hi else x)
        ∧ ((intFit false signed w x : Nat) : Int) = x % 2 ^ w)
  ∧ (∀ x ∈ [(IntTy.i32, true, 32, 1), (.n32, false, 32, 1), (.i64, true, 64, 1), (.n64, false, 64, 1), (.i16x2, true, 16, 2),
        (.n16x2, false, 16, 2), (.i8x4, true, 8, 4), (.n8x4, false, 8, 4)],
      x.1.signed = x.2.1 ∧ x.1.ew = x.2.2.1 ∧ x.1.count = x.2.2.2
      ∧ ∀ n k, x.1.elem n k = if x.2.1 = true then sint x.2.2.1 (fld n (x.2.2.1 * k) x.2.2.1) else (fld n (x.2.2.1 * k) x.2.2.1 : Nat))
  ∧ (∀ (h : Hdr) (ty : IntTy) (sat : Bool) (d : Dst) (a b c : Src),
      let out (f : List Int → Int) (ins : List Inp) (e : Env) (_ : Mask) (l : Nat) : Nat :=
        intMap ty sat f (ins.map (fun p => readInp e p l))
      let ab := ins2 h ty a b
      let abc := [inI h ty a, inI h ty b, inI h ty c]
      FixedLatency 0x10 (.add h ty sat d a b) h d ty.width ab [] (out (fun x => x.getD 0 0 + x.getD 1 0) ab)
      ∧ FixedLatency 0x11 (.sub h ty sat d a b) h d ty.width ab [] (out (fun x => x.getD 0 0 - x.getD 1 0) ab)
      ∧ FixedLatency 0x12 (.mul h ty sat d a b) h d ty.width ab [] (out (fun x => x.getD 0 0 * x.getD 1 0) ab)
      ∧ FixedLatency 0x14 (.mad h ty sat d a b c) h d ty.width abc [] (out (fun x => x.getD 0 0 * x.getD 1 0 + x.getD 2 0) abc)
      ∧ FixedLatency 0x18 (.abs h ty sat d a) h d ty.width [inI h ty a] [] (out (fun x => ((x.getD 0 0).natAbs : Int)) [inI h ty a])
      ∧ FixedLatency 0x19 (.neg h ty sat d a) h d ty.width [inI h ty a] [] (out (fun x => -x.getD 0 0) [inI h ty a]))

/-- The bit instructions complete with these values: and, or, xor, not, shifts with a count of IMM or B modulo 256 whose
full width gives zero or the sign, population count, leading zeros, bit reversal, and the move, selection and wide
multiplication, in every active lane. The three-operand bit instructions complete with these values: the table of lop3
over A, B and the rotated C, the funnel shift, the field extract and insert, and the byte permutation. Bit `k` of lop3
is bit a + 2b + 4c of its table, for the bits of A, B and of C rotated left by r; it agrees with the table 0x96 as the
sum bit and 0xE8 as the majority. Bit `k` of the funnel shift comes from A, or where A has run out from C; that of bfe
from A's field, above it the field's sign or 0; that of bfi from A inside the field and from B outside; byte `k` of prmt
is the byte that its field names, its sign repeated, or 0 (R282, R283, R320, R342). The wide product is that of R329. -/
def Obligations.BitInstructions : Prop :=
  (∀ (h : Hdr) (ty : IntTy) (d : Dst) (a b : Src) (p : Fin 8),
      let w := ty.width
      let A (e : Env) (l : Nat) : Nat := readInp e (inI h ty a) l
      let B (e : Env) (l : Nat) : Nat := readInp e (inI h ty b) l
      let N (e : Env) (l : Nat) : Nat := readInp e (in32 h b) l % 256
      FixedLatency 0x1A (.and h ty d a b) h d w (ins2 h ty a b) [] (fun e _ l => A e l &&& B e l)
        ∧ FixedLatency 0x1B (.or h ty d a b) h d w (ins2 h ty a b) [] (fun e _ l => A e l ||| B e l)
        ∧ FixedLatency 0x1C (.xor h ty d a b) h d w (ins2 h ty a b) [] (fun e _ l => A e l ^^^ B e l)
        ∧ FixedLatency 0x1D (.not h ty d a) h d w [inI h ty a] [] (fun e _ l => 2 ^ w - 1 - A e l)
        ∧ FixedLatency 0x1F (.shl h ty d a b) h d w [inI h ty a, in32 h b] []
            (fun e _ l => if w ≤ N e l then 0 else A e l * 2 ^ N e l % 2 ^ w)
        ∧ FixedLatency 0x20 (.shr h false ty d a b) h d w [inI h ty a, in32 h b] []
            (fun e _ l => if w ≤ N e l then 0 else A e l / 2 ^ N e l)
        ∧ FixedLatency 0x20 (.shr h true ty d a b) h d w [inI h ty a, in32 h b] []
            (fun e _ l => wrapN w (sint w (A e l) / 2 ^ min (N e l) w))
        ∧ FixedLatency 0x22 (.popc h ty d a) h d 32 [inI h ty a] []
            (fun e _ l => ((List.range w).filter (fun k => bitOf (A e l) k)).length)
        ∧ FixedLatency 0x23 (.clz h ty d a) h d 32 [inI h ty a] []
            (fun e _ l => if A e l = 0 then w else w - 1 - Nat.log2 (A e l))
        ∧ FixedLatency 0x24 (.brev h ty d a) h d w [inI h ty a] [] (fun e _ l => bitsOf w (fun k => bitOf (A e l) (w - 1 - k)))
        ∧ FixedLatency 0x2A (.mov h ty d a) h d w [inI h ty a] [] (fun e _ l => A e l)
        ∧ FixedLatency 0x28 (.sel h ty d a b p) h d w (ins2 h ty a b) [p.val]
            (fun e _ l => if e.g.ctx.predAt p.val l then A e l else B e l)
        ∧ FixedLatency 0x15 (.mulwide h ty d a b) h d 64 (ins2 h ty a b) []
            (fun e _ l => wrapN 64 (ty.elem (A e l) 0 * ty.elem (B e l) 0)))
  ∧ (∀ (h : Hdr) (ty : IntTy) (d : Dst) (a b c : Src) (right : Bool),
      let w := ty.width
      let X (i : Inp) (e : Env) (l : Nat) : Nat := readInp e i l
      FixedLatency 0x1E (.lop3 h ty d a b c) h d w [inX w a, inX w b, inX w c] []
          (fun e _ l => lop3Bits w (h.imm.toNat % 256) (fld h.imm.toNat 8 5) (X (inX w a) e l) (X (inX w b) e l) (X (inX w c) e l))
        ∧ FixedLatency 0x21 (.fsh h right d a b c) h d 32 [in32 h a, in32 h b, in32 h c] []
            (fun e _ l => fshBits right (X (in32 h a) e l) (X (in32 h b) e l) (X (in32 h c) e l))
        ∧ FixedLatency 0x25 (.bfe h ty d a b c) h d w [inI h ty a, in32 h b, in32 h c] []
            (fun e _ l => bfeBits ty.signed w (X (inI h ty a) e l) (X (in32 h b) e l) (X (in32 h c) e l))
        ∧ FixedLatency 0x26 (.bfi h ty d a b c) h d w [inI h ty a, inI h ty b, in32 h c] []
            (fun e _ l => bfiBits w (X (inI h ty a) e l) (X (inI h ty b) e l) (X (in32 h c) e l))
        ∧ FixedLatency 0x2C (.prmt h d a b c) h d 32 [in32 h a, in32 h b, in32 h c] []
            (fun e _ l => prmtBits (X (in32 h a) e l) (X (in32 h b) e l) (X (in32 h c) e l)))
  ∧ (∀ (a b c k : Nat), a < 2 ^ 32 → c < 2 ^ 32 →
      let n := b % 32
      (k < 32 → bitOf (fshBits false a b c) k = (if n ≤ k then bitOf a (k - n) else bitOf c (32 + k - n))
        ∧ bitOf (fshBits true a b c) k = if k + n < 32 then bitOf a (k + n) else bitOf c (k + n - 32))
      ∧ fshBits false a b c < 2 ^ 32 ∧ fshBits true a b c < 2 ^ 32)
  ∧ (∀ (signed : Bool) (w a b c k : Nat), w = 32 ∨ w = 64 → a < 2 ^ w → k < w →
      let pos := min (b % 256) w
      let len := min (c % 256) w
      let field (i : Nat) : Bool := if pos + i < w then bitOf a (pos + i) else signed && bitOf a (w - 1)
      bitOf (bfeBits signed w a b c) k = (if len = 0 then false else if k < len then field k else signed && field (len - 1))
        ∧ bfeBits signed w a b c < 2 ^ w)
  ∧ (∀ (w a b c k : Nat), k < w →
      let pos := c % 256
      let len := c / 256 % 256
      bitOf (bfiBits w a b c) k = (if pos ≤ k ∧ k < pos + len then bitOf a (k - pos) else bitOf b k) ∧ bfiBits w a b c < 2 ^ w)
  ∧ (∀ (a b sel k : Nat), k < 4 →
      let j := sel / 2 ^ (3 * k) % 8
      let byte := (if j < 4 then a else b) / 2 ^ (8 * (j % 4)) % 256
      prmtBits a b sel / 2 ^ (8 * k) % 256
          = (if sel.testBit (12 + k) = true then 0 else if sel.testBit (16 + k) = true then (if 128 ≤ byte then 255 else 0) else byte)
        ∧ prmtBits a b sel < 2 ^ 32)
  ∧ ((∀ (w tbl r a b c k : Nat), 0 < w → r < w → c < 2 ^ w → k < w →
      bitOf (lop3Bits w tbl r a b c) k
        = bitOf tbl ((bitOf a k).toNat + 2 * (bitOf b k).toNat + 4 * (bitOf c ((k + w - r) % w)).toNat))
      ∧ (∀ a b c : BitVec 32, lop3Bits 32 0x96 0 a.toNat b.toNat c.toNat = (a ^^^ b ^^^ c).toNat)
      ∧ (∀ a b c : BitVec 32, lop3Bits 32 0xE8 0 a.toNat b.toNat c.toNat = ((a &&& b) ||| (a &&& c) ||| (b &&& c)).toNat))

/-- fadd, fsub, fmul, fma, fmin and fmax complete with each element rounded once from the exact result under the
instruction's rounding mode. That rounding answers the nearest representable value of its mode, an overflow as R133 gives
it; a NaN is the format's canonical one, and an infinity is the largest finite value with SAT (R129, R130, R133).

The one-operand functions and fdiv complete with the correctly rounded result of each element, as the functions of
Machine/Float.lean and Machine/Math.lean give it; the bits of fex2, flg2, fsin and fcos that exact arithmetic does not
decide are free (log 29). -/
def Obligations.FloatInstructions : Prop :=
  (∀ (h : Hdr) (ty : FpTy) (rm : Rnd) (sat : Bool) (d : Dst) (a b c : Src),
      let f := (fpFmt ty 0).1
      let n := (fpFmt ty 0).2
      let w := fpElemBits ty
      let val (r : Rnd) (t : Bool) (g : FV → FV → FV → FV) (xs : List Inp) (e : Env) (_ : Mask) (l : Nat) : Nat :=
        let x (i k : Nat) : FV := f.decode (fld ((xs.map (fun p => readInp e p l)).getD i 0) (w * k) w)
        (List.range n).foldl (fun acc k => acc + f.round r t (g (x 0 k) (x 1 k) (x 2 k)) * 2 ^ (w * k)) 0
      let ab := insF2 h ty a b
      let abc := [inF h ty a, inF h ty b, inF h ty c]
      FixedLatency 0x30 (.fadd h ty rm sat d a b) h d ty.width ab [] (val rm sat (fun x y _ => FV.add (rm == .rd) x y) ab)
        ∧ FixedLatency 0x31 (.fsub h ty rm sat d a b) h d ty.width ab [] (val rm sat (fun x y _ => FV.add (rm == .rd) x y.neg) ab)
        ∧ FixedLatency 0x32 (.fmul h ty rm sat d a b) h d ty.width ab [] (val rm sat (fun x y _ => FV.mul x y) ab)
        ∧ FixedLatency 0x33 (.fma h ty rm sat d a b c) h d ty.width abc []
            (val rm sat (fun x y z => FV.add (rm == .rd) (FV.mul x y) z) abc)
        ∧ FixedLatency 0x34 (.fmin h ty d a b) h d ty.width ab [] (val .rn false (fun x y _ => FV.minNum false x y) ab)
        ∧ FixedLatency 0x35 (.fmax h ty d a b) h d ty.width ab [] (val .rn false (fun x y _ => FV.minNum true x y) ab))
  ∧ (∀ (h : Hdr) (ty : FpTy) (rm : Rnd) (sat : Bool) (d : Dst) (a b : Src),
      let f := (fpFmt ty 0).1
      let n := (fpFmt ty 0).2
      let w := fpElemBits ty
      let ia := [inF h ty a]
      let val (g : FV → Nat) (e : Env) (_ : Mask) (l : Nat) : Nat :=
        (List.range n).foldl (fun acc k => acc + g (f.decode (fld (readInp e (inF h ty a) l) (w * k) w)) * 2 ^ (w * k)) 0
      FixedLatency 0x37 (.frcp h ty rm sat d a) h d ty.width ia [] (val (fun x => f.div rm sat (.fin false 1 0) x))
        ∧ FixedLatency 0x38 (.frsq h ty rm sat d a) h d ty.width ia [] (val (fun x => f.rsqrt rm sat x))
        ∧ FixedLatency 0x39 (.fsqrt h ty rm sat d a) h d ty.width ia [] (val (fun x => f.sqrt rm sat x))
        ∧ FixedLatency 0x3A (.fdiv h ty rm sat d a b) h d ty.width (insF2 h ty a b) []
            (fun e _ l => (List.range n).foldl (fun acc k => acc
              + f.div rm sat (f.decode (fld (readInp e (inF h ty a) l) (w * k) w)) (f.decode (fld (readInp e (inF h ty b) l) (w * k) w))
                * 2 ^ (w * k)) 0)
        ∧ FixedLatency 0x3B (.fex2 h ty rm sat d a) h d ty.width ia [] (val (fun x => fex2Code f rm sat x))
        ∧ FixedLatency 0x3C (.flg2 h ty rm sat d a) h d ty.width ia [] (val (fun x => flg2Code f rm sat x))
        ∧ FixedLatency 0x3D (.fsin h ty rm sat d a) h d ty.width ia [] (val (fun x => fsinCode f rm sat x))
        ∧ FixedLatency 0x3E (.fcos h ty rm sat d a) h d ty.width ia [] (val (fun x => fcosCode f rm sat x))
        ∧ FixedLatency 0x3F (.fscale h ty rm sat d a b) h d ty.width [inF h ty a, in32 h b] []
            (fun e _ l => (List.range n).foldl (fun acc k => acc
              + f.round rm sat ((f.decode (fld (readInp e (inF h ty a) l) (w * k) w)).scale
                  (max (-8192) (min 8192 (sint 32 (readInp e (in32 h b) l))))) * 2 ^ (w * k)) 0)
        ∧ FixedLatency 0x42 (.frnd h ty rm d a) h d ty.width ia [] (val (fun x => frndCode rm f x)))
  ∧ (∀ f : Fmt, f = .f64 ∨ f = .f32 ∨ f = .f16 ∨ f = .bf16 → RoundsRightly f)
  ∧ (∀ (rm : Rnd) (sat neg : Bool),
      Fmt.f64.round rm sat .nan = 0x7FF8000000000000 ∧ Fmt.f32.round rm sat .nan = 0x7FC00000 ∧ Fmt.f16.round rm sat .nan = 0x7E00
      ∧ Fmt.bf16.round rm sat .nan = 0x7FC0
      ∧ ∀ f : Fmt, f = .f64 ∨ f = .f32 ∨ f = .f16 ∨ f = .bf16 →
        f.decode (f.round rm sat (.inf neg)) = if sat then .fin neg (f.magVal f.maxMag).1 (f.magVal f.maxMag).2 else .inf neg)

/-- fclass, fdot2 and cvt complete: the class bit of the operand, the exact sum of two products and an F32 addend
rounded once, and the conversion of every element. A narrow format that cvt rounds to takes the nearest representable
value of its mode, and an overflow as Table 10-6 gives it; a negative number in an unsigned P3109 member is NaN, or with
SAT 0x00, unless it rounds to zero; a positive one in E8M0 is a power of two, a tie the larger in modes 0 and 4, and
every other number is 0xFF (R136, R137, R139, R140). A tie of a P3109 member with P = 1 is left out (log 74). Exactly
one bit of the ten that fclass defines is set, for every code of F32, F16 and BF16. -/
def Obligations.ClassDotAndConversion : Prop :=
  (∀ (h : Hdr) (ty : FpTy) (src dst : AnyTy) (rm : Rnd) (sat : Bool) (d : Dst) (a b c : Src),
      FixedLatency 0x40 (.fclass h ty d a) h d 32 [inF h ty a] []
          (fun e _ l => fclassBits (fpFmt ty 0).1 (readInp e (inF h ty a) l % 2 ^ (fpFmt ty 0).1.width))
        ∧ FixedLatency 0x41 (.fdot2 h ty rm sat d a b c) h d 32 [in32 h a, in32 h b, in32 h c] []
            (fun e _ l =>
              let f := (fpFmt ty 0).1
              let p (k : Nat) : FV := FV.mul (f.decode (fld (readInp e (in32 h a) l) (16 * k) 16))
                (f.decode (fld (readInp e (in32 h b) l) (16 * k) 16))
              Fmt.f32.round rm sat (FV.add (rm == .rd) (FV.add (rm == .rd) (p 0) (p 1)) (Fmt.f32.decode (readInp e (in32 h c) l))))
        ∧ FixedLatency 0x50 (.cvt h src dst rm sat d a) h d (cvtWidth dst (cvtN src dst)) [inX (cvtWidth src (cvtN src dst)) a] []
            (fun e _ l => cvtAll src dst rm sat h.imm.toNat (readInp e (inX (cvtWidth src (cvtN src dst)) a) l)))
  ∧ (∀ (f : Fmt) (code : Nat), f = .f32 ∨ f = .f16 ∨ f = .bf16 ∨ f = .f64 → code < 2 ^ f.width →
      ∃ k, k < 10 ∧ fclassBits f code = 2 ^ k)
  ∧ (∀ f : Fmt, (f = .e4m3 ∨ f = .e5m2 ∨ f = .e3m2 ∨ f = .e2m3 ∨ f = .e2m1 ∨ ∃ b, b < 32 ∧ p3109Ok b = true ∧ f = .p3109 b) →
      RoundsRightly f)
  ∧ (∀ (b m : Nat) (e : Int) (rm : Rnd) (sat : Bool), b < 32 → p3109Ok b = true → bitOf b 3 = true → m ≠ 0 →
      let mirrored : Rnd := match rm with | .rd => .ru | .ru => .rd | x => x
      (Fmt.p3109 b).round rm sat (.fin true m e)
        = if (Fmt.p3109 b).round mirrored sat (.fin false m e) = 0 ∨ sat = true then 0 else 0xFF)
  ∧ (∀ (m : Nat) (e : Int) (rm : Rnd) (sat neg : Bool),
      let n : Int := e + Nat.log2 m
      let up : Bool := match rm with
        | .rz | .rd => false
        | .ru => m != 2 ^ Nat.log2 m
        | _ => decide (3 * 2 ^ Nat.log2 m ≤ 2 * m)
      let n' : Int := if up then n + 1 else n
      (m ≠ 0 → Fmt.e8m0.round rm sat (.fin false m e) = if n' < -127 then 0x00
        else if 127 < n' then (if sat = true ∨ rm = .rz ∨ rm = .rd then 0xFE else 0xFF) else (n' + 127).toNat)
      ∧ Fmt.e8m0.round rm sat (.fin true m e) = 0xFF ∧ Fmt.e8m0.round rm sat (.fin neg 0 e) = 0xFF
      ∧ Fmt.e8m0.round rm sat .nan = 0xFF ∧ Fmt.e8m0.round rm sat (.inf true) = 0xFF
      ∧ Fmt.e8m0.round rm sat (.inf false) = if sat then 0xFE else 0xFF)

/-- vote.ballot, redux and scan complete with values over the active lanes: the mask of lanes whose operand is not zero, the
reduction, and the prefix sum in lane order.

shfl completes: each active lane takes the value of the lane that its mode names, and its own where that lane is outside
the segment or not active; the predicate says which.

setp, fsetp and the three voting predicates complete: the predicate holds the comparison, combined, in every active
lane, and nothing is pushed onto the casement. -/
def Obligations.LaneInstructions : Prop :=
  (∀ (h : Hdr) (ty : IntTy) (any : AnyTy) (op : ReduxOp) (sat excl wide : Bool) (d : Dst) (a : Src),
      let iv := if wide then in64 h a else in32 h a
      let ir := match any with | .i t => inI h t a | .f t => inF h t a
      FixedLatency 0x53 (.vote h (.ballot d) wide a) h d 32 [iv] []
          (fun e act _ => (maskOf (fun l => hasLane act l && readInp e iv l != 0)).toNat)
        ∧ FixedLatency 0x54 (.redux h op any sat d a) h d any.width [ir] []
            (fun e act _ => reduxVal op any sat act (fun l => readInp e ir l))
        ∧ FixedLatency 0x55 (.scan h excl ty sat d a) h d ty.width [inI h ty a] []
            (fun e act l => intFit sat ty.signed ty.width
              (((lanesOf act).filter (fun k => if excl then decide (k < l) else decide (k ≤ l))).foldl
                (fun t k => t + ty.elem (readInp e (inI h ty a) k) 0) 0)))
  ∧ (∀ (s : State) (e : Env) (h : Hdr) (mode : ShflMode) (ty : IntTy) (d : Dst) (a b : Src) (p : Fin 8),
      let act := e.active h.guard
      let from_ (l : Nat) : Option Nat := (shflLane mode (h.imm.toNat % 64) l (readInp e (inX 32 b) l)).filter (hasLane act)
      let g := e.g.mapCtx (fun r => r.setPred p.val act (fun l => (from_ l).isSome))
      Issues 0x52 s e → destFault e h.guard act [inX ty.width a, inX 32 b] d ty.width [p.val] = none →
      (act = 0 ∨ writerOk e d ty.width = true) →
      exec (.shfl h mode ty d a b p) s
        = .next (finish (popIssue s) { e with g := g } false act d ty.width
            (fun l => readInp { e with g := g } (inX ty.width a) ((from_ l).getD l))))
  ∧ (∀ (s : State) (e : Env) (h : Hdr) (cmp : Cmp) (comb : Comb) (ty : IntTy) (ft : FpTy) (p : Fin 8) (a b : Src) (wide : Bool),
      let act := e.active h.guard
      let iv := if wide then in64 h a else in32 h a
      let x (l : Nat) : Nat := readInp e iv l
      let f := (fpFmt ft 0).1
      (Issues 0x27 s e → Clear e h.guard act (ins2 h ty a b) [] (p.val :: comb.preds) →
        ∃ t, exec (.setp h cmp comb ty p a b) s = .next t ∧ PredDone s e act p.val
          (fun l => comb.apply e.g.ctx l
            (cmp.int (ty.elem (readInp e (inI h ty a) l) 0) (ty.elem (readInp e (inI h ty b) l) 0))) t)
      ∧ (Issues 0x36 s e → Clear e h.guard act (insF2 h ft a b) [] (p.val :: comb.preds) →
        ∃ t, exec (.fsetp h cmp comb ft p a b) s = .next t ∧ PredDone s e act p.val
          (fun l => comb.apply e.g.ctx l
            (cmp.fp (f.decode (readInp e (inF h ft a) l)) (f.decode (readInp e (inF h ft b) l)))) t)
      ∧ (Issues 0x53 s e → Clear e h.guard act [iv] [] [p.val] →
        (∃ t, exec (.vote h (.all p) wide a) s = .next t
          ∧ PredDone s e act p.val (fun _ => (lanesOf act).all (fun l => x l != 0)) t)
        ∧ (∃ t, exec (.vote h (.any p) wide a) s = .next t
          ∧ PredDone s e act p.val (fun _ => (lanesOf act).any (fun l => x l != 0)) t)
        ∧ (∃ t, exec (.vote h (.eq p) wide a) s = .next t
          ∧ PredDone s e act p.val (fun _ => (lanesOf act).all (fun l => (lanesOf act).all (fun k => x l == x k))) t)))

/-- lea.ptr joins a segment number and an offset, lea.add moves the offset of a pointer and keeps its segment, both modulo
2^44; smov reads a special register at its width.

lea.seg and lea.chk complete: a g register holds the segment number of the lowest active lane, and a predicate says in each
active lane whether the range lies in the segment. smov to %crew stores the value unchecked. -/
def Obligations.AddressesAndSpecialRegisters : Prop :=
  (∀ (h : Hdr) (ty : IntTy) (d : Dst) (a b : Src) (gd : Guard) (wide : Bool) (reg : Fin 19),
      FixedLatency 0x29 (.leaPtr h ty d a b) h d 64 [in32 h a, inI h ty b] []
          (fun e _ l => segPtr (readInp e (in32 h a) l) (wrapN 44 (ty.elem (readInp e (inI h ty b) l) 0)))
        ∧ FixedLatency 0x29 (.leaAdd h ty d a b) h d 64 [in64 h a, inI h ty b] []
            (fun e _ l => segPtr (fld (readInp e (in64 h a) l) 44 20)
              (wrapN 44 ((fld (readInp e (in64 h a) l) 0 44 : Nat) + ty.elem (readInp e (inI h ty b) l) 0)))
        ∧ (∀ s e, Issues 0x2B s e → destFault e gd (e.active gd) [] d (if wide then 64 else 32) [] = none →
            (e.active gd = 0 ∨ writerOk e d (if wide then 64 else 32) = true) →
            ∃ t, exec (.smovRead gd wide d reg) s = .next t
              ∧ VectorDone s e false (e.active gd) d (if wide then 64 else 32)
                  (fun l => specialReg (popIssue s) e reg.val l % 2 ^ (if wide then 64 else 32)) t))
  ∧ (∀ (s s' : State) (e : Env) (h : Hdr) (g : Fin 16) (p : Fin 8) (a b : Src) (gd : Guard) (l : Nat),
      (∀ d, Issues 0x29 s e → Clear e h.guard (lowMask (e.active h.guard)) [in32 h a] [] [] → lowestLane (e.active h.guard) = some l →
        governing (popIssue s) e.view (readInp e (in32 h a) l) = (.ok d, s') →
        exec (.leaSeg h g a) s = .next (advance s' e (e.g.mapCtx (fun r =>
          { r with greg := tabSet r.greg g.val (BitVec.ofNat 20 (readInp e (in32 h a) l)) }))))
      ∧ (∀ ls, Issues 0x29 s e → Clear e h.guard (e.active h.guard) [in64 h a, in32 h b] [] [p.val] →
        leaChkLanes e h a b (lanesOf (e.active h.guard)) (popIssue s) = (.inl ls, s') →
        exec (.leaChk h p a b) s
          = .next (advance s' e (e.g.mapCtx (fun r => r.setPred p.val (e.active h.guard) (fun l => ls.contains l)))))
      ∧ (Issues 0x2B s e → Clear e gd (lowMask (e.active gd)) [inX 64 a] [] [] → lowestLane (e.active gd) = some l →
        exec (.smovWriteCrew gd a) s
          = .next (advance (popIssue s) e { e.g with crew := BitVec.ofNat 64 (readInp e (inX 64 a) l) })))

/-- A fixed-latency instruction whose operands fail a check of R183 takes that trap and writes nothing: the state after
is that of taking the trap with the issue slot used up. Shown for every instruction of two integer or floating-point
sources and a register destination, and for mov. A v source or destination beyond the frame is an illegal operand
(0x02), whatever the lanes; an invalid age is one in the active lanes that read it; an unwaited register is 0x06 when a
lane is active. An instruction that would write a b or s register in no lane raises nothing but for its guard's
predicate: with that waited it goes on without a write (R40). A write of a b register whose writer field names another
group traps with a b-register conflict (0x12) in the lane whose value would have been written, and writes nothing (R41).
That the frame check comes whatever the lanes and an unwaited register only where a lane is active (log 16), and that a
failure which no lane causes records the lanes that run (log 15), are the model's choice. -/
def Obligations.FailedOperandsTrap : Prop :=
  (∀ (s : State) (e : Env) (h : Hdr) (ty : IntTy) (ft : FpTy) (rm : Rnd) (sat ar : Bool) (d : Dst) (a b : Src) (p : Fin 8),
      let act := e.acts h
      let stopsWith (preds : List Nat) (op : Nat) (i : Instr) (w : Nat) (ins : List Inp) : Prop := Issues op s e →
        (∀ x, destFault e h.guard act ins d w preds = some x → exec i s = .next (takeTrap (popIssue s) e x))
        ∧ (destFault e h.guard act ins d w preds = none → act ≠ 0 → writerOk e d w = false →
          exec i s = .next (takeTrap (popIssue s) e { cause := 0x12, lanes := maskOf (fun l => lowestLane act == some l) }))
      let stops := stopsWith []
      let ab := ins2 h ty a b
      let fab := insF2 h ft a b
      stops 0x10 (.add h ty sat d a b) ty.width ab ∧ stops 0x11 (.sub h ty sat d a b) ty.width ab
      ∧ stops 0x12 (.mul h ty sat d a b) ty.width ab ∧ stops 0x13 (.mulhi h ty d a b) ty.width ab
      ∧ stops 0x15 (.mulwide h ty d a b) 64 ab ∧ stops 0x16 (.min h ty d a b) ty.width ab
      ∧ stops 0x17 (.max h ty d a b) ty.width ab ∧ stops 0x1A (.and h ty d a b) ty.width ab
      ∧ stops 0x1B (.or h ty d a b) ty.width ab ∧ stops 0x1C (.xor h ty d a b) ty.width ab
      ∧ stops 0x1F (.shl h ty d a b) ty.width [inI h ty a, in32 h b] ∧ stops 0x20 (.shr h ar ty d a b) ty.width [inI h ty a, in32 h b]
      ∧ stops 0x2A (.mov h ty d a) ty.width [inI h ty a] ∧ stopsWith [p.val] 0x28 (.sel h ty d a b p) ty.width ab
      ∧ stops 0x30 (.fadd h ft rm sat d a b) ft.width fab ∧ stops 0x31 (.fsub h ft rm sat d a b) ft.width fab
      ∧ stops 0x32 (.fmul h ft rm sat d a b) ft.width fab ∧ stops 0x34 (.fmin h ft d a b) ft.width fab
      ∧ stops 0x35 (.fmax h ft d a b) ft.width fab ∧ stops 0x3A (.fdiv h ft rm sat d a b) ft.width fab
      ∧ stops 0x3F (.fscale h ft rm sat d a b) ft.width [inF h ft a, in32 h b]
      ∧ stops 0x29 (.leaPtr h ty d a b) 64 [in32 h a, inI h ty b] ∧ stops 0x29 (.leaAdd h ty d a b) 64 [in64 h a, inI h ty b])
  ∧ (∀ (e : Env) (d : Dst) (w : Nat), writerOk e d w = true ↔ ∀ n ∈ bSpan d w,
      tabGet e.t.bwriter n = 0 ∨ (tabGet e.t.bwriter n).toNat = e.g.index + 1)
  ∧ (∀ (e : Env) (gd : Guard) (act : Mask) (n : Fin 384) (k : Fin 16) (w : Nat) (spans : List (Nat × Nat)) (preds : List Nat),
      (e.g.ctx.inFrame n.val (w / 32) = false →
        operandFault e gd act [inX w (.v n)] spans preds = some { cause := 0x02, lanes := if act = 0 then e.live else act })
      ∧ (spans = [] → badAges e act (inX w (.c k)) ≠ 0 →
        operandFault e gd act [inX w (.c k)] spans preds = some { cause := 0x02, lanes := badAges e act (inX w (.c k)) })
      ∧ (e.g.ctx.inFrame n.val (w / 32) = true → e.g.unwaited n.val (w / 32) = true → e.g.unwaitedPred gd.pred.val = false →
        operandFault e gd act [inX w (.v n)] [] [] = if act = 0 then none else some { cause := 0x06, lanes := act })
      ∧ (∀ ins d, (act ≠ 0 ∨ Dst.isScalar d = false) → destFault e gd act ins d w preds = operandFault e gd act ins (dstSpan d w).toList preds)
      ∧ (∀ ins d, Dst.isScalar d = true → e.g.unwaitedPred gd.pred.val = false → destFault e gd 0 ins d w preds = none))

/-! ### Control -/

/-- nop completes without looking at a guard, and bra, trap, brk, waitc and fence complete at the next instruction where
no lane is active. That such an instruction looks at its guard alone (log 16) and a bra at no target (log 19) is the model's
choice. -/
def Obligations.NothingToDo : Prop :=
  ∀ (s : State) (e : Env) (gd : Guard) (rcv : BitVec 18) (off : BitVec 32) (th : BitVec 30) (k : FenceKind) (sc : Scope),
    let go : Host.Outcome State Fault Refusal := .next (advance (popIssue s) e e.g)
    (Issues 0x00 s e → ∀ seven, exec (.nop seven) s = go)
    ∧ (e.active gd = 0 → Clear e gd 0 [] [] [] →
      (Issues 0x01 s e → exec (.bra gd rcv off) s = go) ∧ (Issues 0x0A s e → exec (.trap gd off) s = go)
      ∧ (Issues 0x0C s e → exec (.brk gd off) s = go) ∧ (Issues 0x91 s e → exec (.waitc gd th) s = go)
      ∧ (Issues 0x64 s e → exec (.fence gd k sc) s = go))

/-- bra completes: a branch that every running lane takes moves the program counter of its fragment, a handler's moves
its own, and one that part of a slice takes is carried out with two paths: that of more lanes first, on a tie the one
that is not taken (R24, R287). brx completes where the target of every active lane is good: each slice's lanes are
ranked by their targets, inactive ones going on (R290). -/
def Obligations.BranchesComplete : Prop :=
  (∀ (s s' : State) (e : Env) (gd : Guard) (rcv : BitVec 18) (off : BitVec 32),
      let t := e.active gd
      let tgt := e.pc.at (sint 32 off.toNat)
      Issues 0x01 s e → Clear e gd t [] [] [] → t ≠ 0 → TargetOk (popIssue s) e e.pc.seg tgt s' →
      ((e.single = true ∨ t = e.live) →
        exec (.bra gd rcv off) s = .next (commit s' e (e.g.setPc e.slices ⟨e.pc.seg, tgt.toNat⟩)))
      ∧ (e.single = false →
        exec (.bra gd rcv off) s = .next (branch s' e t rcv (fun k =>
          let a := sliceLanes t k
          let b := sliceLanes (e.live ^^^ t) k
          if b = 0 then [(tgt.toNat, a)] else if a = 0 then [(e.pc.idx + 1, b)]
          else if laneCount b < laneCount a then [(tgt.toNat, a), (e.pc.idx + 1, b)]
          else [(e.pc.idx + 1, b), (tgt.toNat, a)]))))
  ∧ (∀ (s s' : State) (e : Env) (gd : Guard) (a : Fin 384) (rcv : BitVec 18),
      Issues 0x02 s e → Clear e gd (e.active gd) [inX 32 (.v a)] [] [] → brxBad e a.val (lanesOf (e.active gd)) (popIssue s) = (.inl [], s') →
      exec (.brx gd a rcv) s = .next (branch s' e (e.active gd) rcv (fun k =>
        rankTargets (((List.range 4).filter (fun j => hasLane e.live (4 * k + j))).map (fun j =>
          (j, if hasLane (e.active gd) (4 * k + j) then e.g.main.frame.v a.val (4 * k + j) else e.pc.idx + 1))) 4)))

/-- Carrying out a plan: the first path of each slice runs, the others are pushed, the last lowest, each with the
reconvergence index and the lanes that ran; a join record of the live slices is made when the slices of a whole ganged
group part (R24 to R27). A plan that parts lanes or slices without a reconvergence point that is a regang traps 0x03,
and no slice moves (R26); that it records the active lanes of its bra or brx is the model's choice (log 15). -/
def Obligations.DivergenceIsRecorded : Prop :=
  (∀ (s s' : State) (e : Env) (act : Mask) (rcv : BitVec 18) (plan : Nat → Plan),
    BranchFits s e rcv plan s' → (∀ k ∈ e.slices, plan k ≠ []) →
    let r := (e.pc.at (sint 18 rcv.toNat)).toNat
    let live := (List.range 8).filter (fun k => match e.g.slices[k]? with | some sl => sl.live | none => false)
    ∃ g, branch s e act rcv plan = commit s' e g
      ∧ g = { e.g with slices := g.slices, join := g.join }
      ∧ (g.slices.length = e.g.slices.length)
      ∧ (∀ k sl, e.g.slices[k]? = some sl →
          if k ∈ e.slices then ∃ i m rest, plan k = (i, m) :: rest
            ∧ g.slices[k]? = some { sl with
                pc := ⟨e.pc.seg, i⟩, run := m,
                stack := (List.range rest.length).zipWith (fun n (x : Nat × BitVec 4) =>
                  ({ rcv := r, pc := ⟨e.pc.seg, x.1⟩, mask := x.2, merged := 0, before := sl.run, started := false,
                     linked := decide (0 < n) } : DivEntry)) rest ++ sl.stack }
          else g.slices[k]? = some sl)
      ∧ g.join = (if e.g.join.isNone ∧ (∀ k ∈ live, k ∈ e.slices) ∧ splits.parts e plan = true
          then some { pc := ⟨e.pc.seg, r⟩, count := live.length } else e.g.join))
  ∧ (∀ (s s1 : State) (e : Env) (act : Mask) (rcv : BitVec 18) (plan : Nat → Plan), splits e plan = true →
      (rcv = 0 → branch s e act rcv plan = takeTrap s e { cause := 0x03, lanes := e.raised act })
      ∧ (rcv ≠ 0 → isRegang s e (e.pc.at (sint 18 rcv.toNat)) = (false, s1) →
        branch s e act rcv plan = takeTrap s1 e { cause := 0x03, lanes := e.raised act })
      ∧ (trapped e { cause := 0x03, lanes := e.raised act }).slices = e.g.slices)

/-- regang completes once the accesses before it are performed: in single-lane mode and where it names no record it only
empties the casement of its slices; a slice whose top entry it names takes up its deferred path, or runs with the merged
lanes again (R24, R28, R349, Table 23-5). Entries that a pop brings back from the hatch area are read from it (R25);
with at most four entries in a slice there are none. At the last arrival of the slices of a join record they all run on
after the regang, ganged; before it the arrived ones wait (R27). With a join record
a slice that comes to its regang with no entry left has arrived and counts once; the last one waits for the whole group's
accesses first. Which rows of Table 23-5 apply after a pop is the model's choice (log 19). -/
def Obligations.RegangCompletes : Prop :=
  (∀ (s s' : State) (e : Env) (g' : Group),
      let old (g : Group) : Group := g.mapCtx (fun r => r.mapCas e.slices (fun _ a => invalidate a 1 16))
      let on (sl : Slice) : Slice := { sl with pc := e.pc.next }
      let arrive (sl : Slice) : Slice :=
        if sl.stack = [] then
          { sl with
            arrived := true
            pc := e.pc }
        else on sl
      let reachedBy (past : Slice → Slice) : Group := e.g.mapSlices (fun k sl =>
        if k ∉ e.slices then sl
        else
          match sl.stack with
          | [] => past sl
          | x :: r =>
            if x.rcv ≠ e.pc.idx ∨ x.pc.seg ≠ e.pc.seg then past sl
            else if x.started = false then
              { sl with pc := x.pc, run := x.mask, stack := { x with merged := sl.run, started := true } :: r }
            else
              match r with
              | y :: r' =>
                if y.linked = true ∧ y.started = false then
                  { sl with pc := y.pc, run := y.mask, stack := { y with merged := x.merged ||| sl.run, started := true } :: r' }
                else past { sl with run := x.merged ||| sl.run, stack := r }
              | [] => past { sl with run := x.merged ||| sl.run, stack := [] })
      let reached : Group := reachedBy on
      Issues 0x07 s e →
      (e.single = true → e.g.lanesDone [0] = true → exec .regang s = .next (advance (popIssue s) e (old e.g)))
      ∧ (e.single = false → e.g.lanesDone e.slices = true → e.g.join = none →
        (refillDiv e.t e.g reached (List.range 8) (popIssue s) = (.inl g', s') → exec .regang s = .next (commit s' e (old g')))
        ∧ ((∀ sl ∈ e.g.slices, sl.stack.length ≤ 4) → exec .regang s = .next (commit (popIssue s) e (old reached))))
      ∧ (e.single = false → e.g.lanesDone e.slices = false → e.g.join = none →
        exec .regang s = .next (stall (popIssue s) e))
      ∧ (∀ j, e.single = false → e.g.join = some j →
        let joined : Group := reachedBy (if j.pc = e.pc then arrive else on)
        let n := ((List.range 8).filter (fun k => (e.g.slices[k]?).any (fun sl => !sl.arrived)
          && (joined.slices[k]?).any (fun sl => sl.arrived))).length
        (refillDiv e.t e.g joined (List.range 8) (popIssue s) = (.inl g', s') →
          (n = 0 → e.g.lanesDone e.slices = true → exec .regang s = .next (commit s' e (old g')))
          ∧ (0 < n → n < j.count → e.g.lanesDone e.slices = true →
            exec .regang s = .next (commit s' e { old g' with join := g'.join.map (fun i => { i with count := i.count - n }) }))
          ∧ (0 < n → j.count ≤ n → e.g.performed (fun _ => true) .system = true →
            ∃ h, exec .regang s = .next (commit s' e h) ∧ h.join = none
              ∧ ∀ (k : Nat) (sl : Slice), g'.slices[k]? = some sl → h.slices[k]? =
                some (if sl.live = true then { sl with arrived := false, pc := j.pc.next } else sl)))
        ∧ ((n = 0 ∨ n < j.count) → e.g.lanesDone e.slices = false → exec .regang s = .next (stall (popIssue s) e))
        ∧ (0 < n → j.count ≤ n → e.g.performed (fun _ => true) .system = false →
          exec .regang s = .next (stall (popIssue s) e))))
  ∧ (∀ (g : Group) (j : Join) (n : Nat), g.join = some j →
      (n < j.count → g.joinArrive n = { g with join := some { j with count := j.count - n } })
      ∧ (j.count ≤ n → (g.joinArrive n).join = none
        ∧ ∀ (k : Nat) (sl : Slice), g.slices[k]? = some sl → (g.joinArrive n).slices[k]? =
            some (if sl.live = true then { sl with arrived := false, pc := j.pc.next } else sl)))

/-- call and calli complete once their checks have passed: with the blocks free the frame, the record and the jump
happen at once, else the group waits for a frame; calli takes the demand of the frame-table entry (R50, R291, R292). The
oldest of four records on chip goes to its place in the area first (R50, R60). ret and unwind complete: the record they
need stands on chip or is read from its place (R51); a return to a frame in the register file restores it at once, one
to a spilled frame first takes blocks or waits for them; unwind discards records down to its operand and goes on at its
landing (R51, R52, R350, R372). That calli through segment 5 goes on in the caller's own segment (log 21) and that a return
to a spilled frame waits for blocks (log 25) are the model's choice. -/
def Obligations.CallsAndReturnsComplete : Prop :=
  (∀ (s s1 s2 s3 s4 s5 : State) (e : Env) (gd : Guard) (fb : BitVec 6) (off : BitVec 32) (a : Src) (d n : Nat) (bs : List Bool)
      (g : Group),
      let tgt := e.pc.at (sint 32 off.toNat)
      let p := readInp e (inX 64 a) ((lowestLane e.live).getD 0)
      let seg := if fld p 44 20 = 5 then e.pc.seg else fld p 44 20
      let args := e.g.capture e.slices
      let fenced := e.g.fence e.slices
      e.g.calls.length < 255 →
      (Issues 0x03 s e → AllLanes e gd [] → 1 ≤ fb.toNat → fb.toNat ≤ 24 → TargetOk (popIssue s) e e.pc.seg tgt s1 →
        callFits s1 e.g e.t.ctx = (.inl true, s2) →
        (takeBlocks s2 e.g fb.toNat = some bs → recordRoom s2 e.t fenced = (.inl g, s5) →
          exec (.call gd fb off) s = .next (commit s5 e (g.callNow e.slices e.pc ⟨e.pc.seg, tgt.toNat⟩ bs args)))
        ∧ (takeBlocks s2 e.g fb.toNat = none → exec (.call gd fb off) s
            = .next (beginWait s2 e fenced 7 0 fb.toNat 0 (.call fb.toNat ⟨e.pc.seg, tgt.toNat⟩ args))))
      ∧ (Issues 0x04 s e → AllLanes e gd [inX 64 a] → governing (popIssue s) e.view (fld p 44 20) = (.ok d, s1) →
        dKind d = 1 → bitOf d 130 = true → TargetOk s1 e seg (fld p 0 44 : Nat) s2 →
        frameDemand s2 e.view d (fld p 0 44) = (.inl (some n), s3) → 1 ≤ n → n ≤ 24 → n ≤ fb.toNat →
        callFits s3 e.g e.t.ctx = (.inl true, s4) →
        (takeBlocks s4 e.g n = some bs → recordRoom s4 e.t fenced = (.inl g, s5) →
          exec (.calli gd fb a) s = .next (commit s5 e (g.callNow e.slices e.pc ⟨seg, fld p 0 44⟩ bs args)))
        ∧ (takeBlocks s4 e.g n = none → exec (.calli gd fb a) s
            = .next (beginWait s4 e fenced 7 0 n 0 (.call n ⟨seg, fld p 0 44⟩ args)))))
  ∧ (∀ (s s1 s2 s3 : State) (e : Env) (gd : Guard) (n : Fin 9) (c : CallRec) (rest : List CallRec) (a : Src) (off : BitVec 32)
      (g g2 : Group) (bs : List Bool),
      let d := readInp e (inX 32 a) ((lowestLane e.live).getD 0)
      let depth := e.g.calls.length
      let land := e.pc.at (sint 32 off.toNat)
      (Issues 0x05 s e → AllLanes e gd [] → loadRecord (popIssue s) e.t e.g 0 = (.inl g, s1) → g.calls = c :: rest →
        retAllowed { e with g := g } c = true →
        (c.frame.spilled = false → exec (.ret gd n) s = .next (commit s1 e (g.retNow n.val)))
        ∧ (c.frame.spilled = true → takeBlocks s1 g c.frame.count = some bs → refillCaller s1 e.t g bs = (.inl g2, s2) →
          exec (.ret gd n) s = .next (commit s2 e (g2.retNow n.val)))
        ∧ (c.frame.spilled = true → takeBlocks s1 g c.frame.count = none →
          exec (.ret gd n) s = .next (beginWait s1 e g 7 0 c.frame.count 0 (.ret n.val))))
      ∧ (Issues 0x06 s e → AllLanes e gd [inX 32 a] →
        ((d = depth ∧ g = e.g ∧ s1 = popIssue s) ∨ (d < depth ∧ loadRecord (popIssue s) e.t e.g (depth - d - 1) = (.inl g, s1))) →
        (∀ c, d < depth → g.calls[depth - d - 1]? = some c → ∀ k sl, k < 8 → bitOf c.exec.toNat k = true →
          g.slices[k]? = some sl → sl.live = true → k ∈ e.slices) →
        TargetOk s1 e e.pc.seg land s2 →
        refillDiv e.t g (g.unwindNow e.slices d (some ⟨e.pc.seg, land.toNat⟩)) (List.range 8) s2 = (.inl g2, s3) →
        exec (.unwind gd a off) s = .next (commit s3 e (g2.settleFrame s3.clock))))
  ∧ (∀ (s s' : State) (t : Team) (g g' : Group) (i : Nat),
      (g.onChip < 4 → recordRoom s t g = (.inl g, s))
      ∧ (recordRoom s t g = (.inl g', s') → g' = { g with calls := g'.calls } ∧ g'.calls.length = g.calls.length
        ∧ (4 ≤ g.onChip → g'.calls[g.onChip - 1]? = (g.calls[g.onChip - 1]?).map CallRec.stub))
      ∧ (∀ c, g.calls[i]? = some c → c.spilled = false → loadRecord s t g i = (.inl g, s))
      ∧ (loadRecord s t g i = (.inl g', s') → g' = { g with calls := g'.calls } ∧ g'.calls.length = g.calls.length
        ∧ ∀ c', g'.calls[i]? = some c' → c'.spilled = false))

/-- A callee finds argument age K in v(K − 1) of every lane, zero where it was invalid, every other register zero, and
an empty casement; the record keeps the caller's frame, older ages and return point (R50). A return straight after a
call undoes it: the caller's frame, call records and program counter are as after the call instruction, the casement
holds the results, eight invalid ages and the caller's older ages (R51). -/
def Obligations.CallsKeepTheCaller : Prop :=
  (∀ (g : Group) (ks : List Nat) (pc target : Pc) (bs : List Bool) (args : List (List Age)),
      let h := g.callNow ks pc target bs args
      (∀ n l, l < 32 → h.main.frame.v n l =
          (if n < 16 then (match (args.getD (l / 4) [])[n]? with
            | some a => if a.valid then fld a.data.toNat (32 * (l % 4)) 32 else 0
            | none => 0) else 0))
      ∧ h.main.frame.blocks = bs ∧ h.main.frame.spilled = false
      ∧ (∀ k, k ∈ ks → k < g.main.cas.length → h.main.cas[k]? = some emptyCas)
      ∧ (∀ k, k ∉ ks → h.main.cas[k]? = g.main.cas[k]?)
      ∧ (∃ c rest, h.calls = c :: rest ∧ c.ret = pc.next ∧ c.frame = g.main.frame
          ∧ c.ages = g.main.cas.map (fun a => a.drop 8) ∧ c.depths = g.slices.map (fun sl => sl.stack.length))
      ∧ (∀ k sl, g.slices[k]? = some sl → k ∈ ks → h.slices[k]? = some { sl with pc := target }))
  ∧ (∀ (g : Group) (ks : List Nat) (pc target : Pc) (bs : List Bool) (args : List (List Age)) (n : Fin 9),
      g.onChip < 4 → g.handler = none → g.slices.length = 8 → ks.Nodup → (∀ k ∈ ks, ∃ sl, g.slices[k]? = some sl ∧ sl.ready = true) →
      (∀ sl ∈ g.slices, ∀ d, sl.held = some d → d ≤ g.calls.length) →
      let h := (g.callNow ks pc target bs args).retNow n.val
      h.main.frame = g.main.frame ∧ h.calls = g.calls ∧ h.slices = (g.setPc ks pc.next).slices
      ∧ (∀ k a, g.main.cas[k]? = some a → k ∈ ks → h.main.cas[k]? = some
          ((emptyCas.take n.val ++ List.replicate 8 ({ valid := false, data := 0 } : Age) ++ a.drop 8).take 16)))

/-- exit completes: active lanes leave every mask, those of deferred paths and call records too, and the rest go on
(R32). A slice that dies while others of the group live lowers the count of their join, the last one that a join waits
for merges the others, and a slice whose running lanes have gone takes up its deferred path as at its regang, its ages
gone, or the union once that path has gone too (R24, R27, R28, R32): that such an exit stalls until the accesses are
performed which that regang would wait for is the model's choice (log 20). The last lanes of a group end it: no call
record, no register block and no live lane is left (R33, R304). -/
def Obligations.ExitsComplete : Prop :=
  (∀ (s : State) (e : Env) (gd : Guard), Issues 0x08 s e → e.single = false → Clear e gd (e.active gd) [] [] [] →
      let act := e.active gd
      let left := e.g.dropLanes act
      let empty (k : Nat) : Bool := sliceLanes (e.live &&& ~~~act) k == 0
      let died := (e.slices.filter empty).length
      let goOn := left.setPc (e.slices.filter (fun k => !empty k)) e.pc.next
      ((∀ k ∈ e.slices, empty k = false) → exec (.exit gd) s = .next (advance (popIssue s) e left))
      ∧ ((∀ k ∈ e.slices, empty k = true → (e.g.slices[k]?).map (·.stack) = some []) →
        (∃ (k : Nat) (sl : Slice), e.g.slices[k]? = some sl ∧ sl.live = true ∧ sl.held = none ∧ (k ∈ e.slices → empty k = false)
          ∧ (left.slices[k]?).any (fun sl => sl.live) = true) →
        ((e.g.join = none ∨ died = 0) → exec (.exit gd) s = .next (commit (popIssue s) e goOn))
        ∧ (∀ j, e.g.join = some j → 0 < died →
          (died < j.count → exec (.exit gd) s
            = .next (commit (popIssue s) e { goOn with join := some { j with count := j.count - died } }))
          ∧ (j.count ≤ died → e.g.performed (fun _ => true) .system = true →
            exec (.exit gd) s = .next (commit (popIssue s) e (goOn.joinArrive died)))
          ∧ (j.count ≤ died → e.g.performed (fun _ => true) .system = false → exec (.exit gd) s = .next (stall (popIssue s) e))))
      ∧ (∀ (k : Nat) (sl : Slice) (x : DivEntry) (r : List DivEntry), e.slices = [k] → act = e.live → left.slices[k]? = some sl →
        sl.stack = x :: r →
        let takes (y : Slice) : Group := (left.mapSlices (fun j z => if j = k then y else z)).mapCtx (fun c =>
          c.mapCas [k] (fun _ a => invalidate a 1 16))
        (e.g.lanesDone [k] = false → (x.started = false → x.mask ≠ 0) → (x.started = true → r = [] ∧ x.merged ≠ 0 ∧ e.g.join = none) →
          exec (.exit gd) s = .next (stall (popIssue s) e))
        ∧ (e.g.lanesDone [k] = true →
          (x.started = false → x.mask ≠ 0 → exec (.exit gd) s = .next (commit (popIssue s) e (takes { sl with
            pc := x.pc
            run := x.mask
            stack := { x with
              merged := 0
              started := true } :: r })))
          ∧ (x.started = true → r = [] → x.merged ≠ 0 → e.g.join = none → exec (.exit gd) s = .next (commit (popIssue s) e (takes
            { sl with
              pc := ⟨x.pc.seg, x.rcv + 1⟩
              run := x.merged
              stack := [] })))))
      ∧ (act = e.live → (∀ k sl, e.g.slices[k]? = some sl → sl.live = true → k ∈ e.slices ∧ sl.stack = []) →
        ∃ t g, exec (.exit gd) s = .next t ∧ groupAt t e.g.place = some g ∧ g.exited = true ∧ g.calls = []
          ∧ g.main.frame.blocks = [] ∧ (∀ sl ∈ g.slices, sl.live = false) ∧ g.wait = none))
  ∧ (∀ (g : Group) (m : Mask),
      let h := g.dropLanes m
      let stay (k : Nat) (x y : BitVec 4) : Prop := ∀ j, j < 4 → bitOf y.toNat j = (bitOf x.toNat j && !hasLane m (4 * k + j))
      h = { g with
          slices := h.slices
          calls := h.calls }
      ∧ h.slices.length = g.slices.length
      ∧ (∀ (k : Nat) (sl : Slice), g.slices[k]? = some sl → ∃ y, h.slices[k]? = some y
        ∧ y = { sl with
            run := y.run
            stack := y.stack }
        ∧ stay k sl.run y.run ∧ y.stack.length = sl.stack.length
        ∧ ∀ (i : Nat) (x : DivEntry), sl.stack[i]? = some x → ∃ z, y.stack[i]? = some z
          ∧ z = { x with
              mask := z.mask
              merged := z.merged
              before := z.before }
          ∧ stay k x.mask z.mask ∧ stay k x.merged z.merged ∧ stay k x.before z.before)
      ∧ h.calls.length = g.calls.length
      ∧ ∀ (i : Nat) (c : CallRec), g.calls[i]? = some c → ∃ d, h.calls[i]? = some d ∧ d = { c with mask := d.mask }
        ∧ ∀ l, l < 32 → hasLane d.mask l = (hasLane c.mask l && !hasLane m l))

/-- trap and brk take causes 0x1C and 0x1E precisely where a lane is active, with the active lanes in TRAPLANES and the
code in TRAPINFO; where none is they have no effect; a handler that returns with ACT 0 leaves every slice at the
instruction, which executes again (R289, R371). An assert that holds, or that no lane reaches, goes on; one that fails
stops its context and posts an error record with the lowest failing lane and its s register (R189, R277). -/
def Obligations.TrapInstructionsComplete : Prop :=
  ∀ (s : State) (e : Env) (gd : Guard) (code : BitVec 32) (t : Fin 8) (m : Fin 16),
    let raised (cause : Nat) : Trap := { cause := cause, lanes := e.active gd, info := code.toNat }
    (Clear e gd (e.active gd) [] [] [] → e.active gd ≠ 0 →
      (Issues 0x0A s e → exec (.trap gd code) s = .next (takeTrap (popIssue s) e (raised 0x1C)))
      ∧ (Issues 0x0C s e → exec (.brk gd code) s = .next (takeTrap (popIssue s) e (raised 0x1E))))
    ∧ (Clear e gd (e.active gd) [] [] [] → e.active gd = 0 →
      (Issues 0x0A s e → exec (.trap gd code) s = .next (advance (popIssue s) e e.g))
      ∧ (Issues 0x0C s e → exec (.brk gd code) s = .next (advance (popIssue s) e e.g)))
    ∧ (∀ cause now, (trapped e (raised cause)).trap.lanes.toNat = (e.active gd).toNat
      ∧ (trapped e (raised cause)).trap.info.toNat = code.toNat ∧ (trapped e (raised cause)).trap.pc.toNat = pcWord e.pc % 2 ^ 64
      ∧ (e.g.slices.length = 8 → (resumeGroup (trapped e (raised cause)) now false).slices = e.g.slices))
    ∧ (Issues 0x0B s e → Clear e gd (e.active gd) [] [] [t.val] →
      ((∀ l ∈ lanesOf (e.active gd), e.g.ctx.predAt t.val l = true) →
        exec (.assert gd t m) s = .next (advance (popIssue s) e e.g))
      ∧ (∀ l, (lanesOf (e.active gd)).find? (fun l => !e.g.ctx.predAt t.val l) = some l →
        exec (.assert gd t m) s = .next (contextStop (advance (popIssue s) e e.g) e.t.ctx
          { e.errRec with addr := (tabGet e.g.ctx.sreg m.val).toNat, lane := l })))

/-! ### Traps -/

/-- A trap outside single-lane mode sets the six trap registers and stops the group; with two reserve blocks free and
nobody waiting the handler starts at its entry with zero registers, g1 to g6 and an empty casement, else the group waits
for a handler frame (R31, R183 to R185). -/
def Obligations.TrapEntry : Prop :=
  ∀ (s : State) (e : Env) (x : Trap) (g0 : Group), e.single = false → groupAt s e.g.place = some g0 →
    let s1 := crewsLose s e.g.team e.g.index false
    (handlerFree s1 e.g.place = true → (inPart s1 e.g.place).any Group.waitsHandler = false →
      ∀ pc s2, handlerPc (setGroup s1 (trapped e x)) e.t (trapped e x) (trapped e x).trap.cause.toNat = (some pc, s2) →
      groupAt (takeTrap s e x) e.g.place = some { trapped e x with
        handler := some { ctx := RegCtx.fresh [true, true], pc := pc, frzsel := 0, resume := 0 }, readyAt := s2.clock })
    ∧ ((handlerFree s1 e.g.place = false ∨ (inPart s1 e.g.place).any Group.waitsHandler = true) →
      ∃ w, groupAt (takeTrap s e x) e.g.place = some { trapped e x with wait := some w, active := false } ∧ w.kind = 9)

/-- A trap in single-lane mode is a double fault of the context: logged with the trap registers as they stand, reported to
Mihus, and every resident group of the context has exited (R195). That the log
records the first trap's pc and address is the model's choice (log 26). -/
def Obligations.TrapInAHandlerIsADoubleFault : Prop :=
  ∀ (s : State) (e : Env) (x : Trap), e.single = true →
    let t := takeTrap s e x
    (∃ r, t.dfLog = s.dfLog ++ [r] ∧ r.ctx = e.t.ctx ∧ r.cause = x.cause ∧ r.pc = e.g.trap.pc ∧ r.addr = e.g.trap.addr)
    ∧ Irq.doubleFault e.t.ctx ∈ t.irqs
    ∧ (∀ g ∈ t.groups, ∀ u, teamOf s g.team = some u → u.ctx = e.t.ctx → g.exited = true)

/-- Outside single-lane mode a system opcode is a privileged instruction (0x05); in it an opcode that handlers may not
use is a double fault with cause 0x01: no other effect happens (R185, R251). The recorded lanes are the model's choice
(log 15). -/
def Obligations.PrivilegeIsChecked : Prop :=
  ∀ (s : State) (e : Env) (i : Instr) (w : BitVec 96), encode i = some w → i.isEvent = false → env? s = some e →
    (e.single = false → isPrivileged (opcodeOf w) = true →
      exec i s = .next (takeTrap (popIssue s) e { cause := 0x05, lanes := e.live }))
    ∧ (e.single = true → singleAccepts (opcodeOf w) = false →
      exec i s = .next (takeTrap (popIssue s) e { cause := 0x01, lanes := e.live }))

/-! ### Memory -/

/-- Loads and stores complete at issue once their checks pass and neither their class nor a request queue is full: a
load leaves its destination unwaited, a store has read its data; each lane's bytes are divided into units, and memory is
untouched until they are performed (R94, R98, R323, R364). A full class or request queue stalls (R12, R105). -/
def Obligations.LoadsAndStoresIssue : Prop :=
  ∀ (s s' : State) (e : Env) (m : MHdr) (ty : LdTy) (d : Fin 384) (b : Src) (ls : List LaneAt),
    let act := e.active m.guard
    let size := ldBytes ty
    let units (val : Nat → Nat) : List Acc := (ls.map (fun x =>
      unitAccs (plainUnit (m.ord == .weak) size (match x.locs with | (y, _) :: _ => y.num | [] => 0)) x (val x.lane))).flatten
    let align := match m.ord with | .weak => 1 | _ => size
    (Issues 0x60 s e → Clear e m.guard act (addrInp m) [(d.val, ty.width / 32)] [] →
      (memStalls (popIssue s) e .ld = false → AccessPasses (popIssue s) e m act 0 .load (fun _ => size) align false s' ls →
        exec (.ld m ty d) s = .next (advance s' e (e.g.addMem .ld (.load ty d.val (m.evp.val = 0)) (units (fun _ => 0)) m.ord m.scope
          e.pc [(d.val, ty.width / 32, false)])))
      ∧ (memStalls (popIssue s) e .ld = true → exec (.ld m ty d) s = .next (stall (popIssue s) e)))
    ∧ (Issues 0x61 s e → Clear e m.guard act (inX ty.width b :: addrInp m) [] [] →
      (memStalls (popIssue s) e .st = false → AccessPasses (popIssue s) e m act 1 .store (fun _ => size) align false s' ls →
        exec (.st m ty b) s = .next (advance (soilLanes s' e ls) e (e.g.addMem .st .store
          (units (fun l => narrow ty (readInp e (inX ty.width b) l))) m.ord m.scope e.pc [])))
      ∧ (memStalls (popIssue s) e .st = true → exec (.st m ty b) s = .next (stall (popIssue s) e)))

/-- pf, touch, fence and cctl complete: a prefetch brings lines, none where a request queue is full, and counts nowhere, its
link form goes through the slot's entry; a touch and a cctl count once their
checks pass, a fence stalls until the accesses it orders at its scope are performed and then, unless a release, acquires
(R99, R222, R294, R314, R340, R370). -/
def Obligations.HintsAndFencesComplete : Prop :=
  ∀ (s s' : State) (e : Env) (m : MHdr) (b : Src) (ls : List LaneAt) (gd : Guard) (sc : Scope) (rs : List LaneRange)
    (g : Fin 16) (off : BitVec 24),
    let act := e.active m.guard
    let ctl (sub : Nat) : State := advance s' e (e.g.addMem .st (.cctl sub m.scope) (lineAccs ls) .weak m.scope e.pc [])
    let brings : State := if requestsFull s' e.g.place = true then s' else prefetchLanes e m.evp.val rs s'
    (Issues 0x62 s e → Clear e m.guard act (addrInp m) [] [] → act ≠ 0 →
      (m.addr = .sel g off → rangeLanes e m 0 .load (fun _ => 1) 1 (lanesOf act) (popIssue s) = (rs, s') →
        (∀ x ∈ rs, ∃ d, x.2.2.2 = .inr d) → exec (.pf m) s = .next (advance brings e e.g))
      ∧ (∀ slot loff s1 p k, m.addr = .link slot loff → linkSlot (popIssue s) e.view slot.toNat = (.bound p k, s1) →
        rangeLanes e m p .load (fun _ => 1) 1 (lanesOf act) s1 = (rs, s') → (∀ x ∈ rs, ∃ d, x.2.2.2 = .inr d) →
        exec (.pf m) s = .next (advance brings e e.g))
      ∧ (∀ slot loff s1 ps, m.addr = .link slot loff → linkSlot (popIssue s) e.view slot.toNat = (.miss ps, s1) →
        exec (.pf m) s = .next (missStall s1 e .load ps))
      ∧ (∀ slot loff s1 q p, m.addr = .link slot loff → linkSlot (popIssue s) e.view slot.toNat = (.wait q p, s1) →
        exec (.pf m) s = .next (beginWait s1 e e.g 5 0 p 0 (.bind (.phys q)))))
    ∧ (Issues 0x62 s e → Clear e m.guard act (addrInp m) [] [] → act = 0 →
      exec (.pf m) s = .next (advance (popIssue s) e e.g))
    ∧ (Issues 0x63 s e → Clear e m.guard act (inX 32 b :: addrInp m) [] [] → memStalls (popIssue s) e .ld = false →
      AccessPasses (popIssue s) e m act 3 .load (fun l => readInp e (inX 32 b) l) 1 true s' ls →
      exec (.touch m b) s = .next (advance s' e (e.g.addMem .ld .touch [] .weak .group e.pc [])))
    ∧ (Issues 0x64 s e → Clear e gd (e.active gd) [] [] [] → e.active gd ≠ 0 →
      (e.g.performed (fun o => o.cls == .ld) sc = true →
        exec (.fence gd .acq sc) s = .next (advance (acquireAt (popIssue s) e.g.place sc) e e.g))
      ∧ (e.g.performed (fun o => o.cls == .ld) sc = false → exec (.fence gd .acq sc) s = .next (stall (popIssue s) e))
      ∧ (e.g.performed (fun _ => true) sc = true →
        exec (.fence gd .acqrel sc) s = .next (advance (acquireAt (popIssue s) e.g.place sc) e e.g)
        ∧ exec (.fence gd .sc sc) s = .next (advance (acquireAt (popIssue s) e.g.place sc) e e.g)
        ∧ exec (.fence gd .rel sc) s = .next (advance (popIssue s) e e.g))
      ∧ (e.g.performed (fun _ => true) sc = false → ∀ k : FenceKind, k ≠ .acq →
        exec (.fence gd k sc) s = .next (stall (popIssue s) e)))
    ∧ (Issues 0x65 s e → Clear e m.guard act (addrInp m) [] [] → memStalls (popIssue s) e .st = false →
      AccessPasses (popIssue s) e m act 0 .load (fun _ => 1) 1 false s' ls →
      exec (.cctlWb m) s = .next (ctl 0) ∧ exec (.cctlInv m) s = .next (ctl 1) ∧ exec (.cctlWbinv m) s = .next (ctl 2)
        ∧ exec (.cctlUnhold m) s = .next (ctl 3))

/-- The atomics, reductions and shutter operations complete at issue once their checks pass, with one access for each
lane's location: a form with a result leaves it unwaited (R108, R278, R293, R301, R346, R351). The lanes of a red beyond
the posting buffer's 256 entries lie as records in the overflow area (R113), whose bytes are the model's choice (log
33). spred completes once its objects are read, well formed, and every index lies within its object: one operation sends
each lane's element, marked with the object's operation and type (R121, R361). A full class, a full request queue or a
full capture area stalls those that it concerns (R105, R233). -/
def Obligations.AtomicsIssue : Prop :=
  (∀ (s s' : State) (e : Env) (m : MHdr) (wide : Bool) (p : Fin 8) (b : Src) (ls : List LaneAt),
      let act := e.active m.guard
      let n := if wide then 8 else 4
      let accs (v : Nat → Nat) : List Acc := ls.map (fun x => wholeAcc x n (v x.lane) 0)
      memStalls (popIssue s) e .st = false → AccessPasses (popIssue s) e m act 1 .shutter (fun _ => n) n false s' ls →
      (Issues 0x66 s e → Clear e m.guard act (inX (8 * n) b :: addrInp m) [] [p.val] →
        exec (.sts m wide p b) s = .next (advance s' e (e.g.addMem .st (.sts p.val) (accs (readInp e (inX (8 * n) b))) m.ord m.scope
          e.pc (predUnw p))))
      ∧ (Issues 0x67 s e → Clear e m.guard act (inX (8 * n) .zero :: addrInp m) [] [p.val] →
        exec (.retract m wide p) s = .next (advance s' e (e.g.addMem .st (.retract p.val) (accs (fun _ => 0)) m.ord m.scope
          e.pc (predUnw p))))
      ∧ (Issues 0x68 s e → Clear e m.guard act (inX (8 * n) .zero :: addrInp m) [] [] →
        exec (.settle m wide) s = .next (advance s' e (e.g.addMem .st .settle (accs (fun _ => 0)) m.ord m.scope e.pc []))))
  ∧ (∀ (s s' s2 : State) (e : Env) (m : MHdr) (op : AtomOp) (ty : AnyTy) (d : Fin 384) (b : Src) (ls : List LaneAt),
      let act := e.active m.guard
      let n := atomSize ty
      let accs : List Acc := ls.map (fun x => wholeAcc x n (readInp e (inX ty.width b) x.lane % 2 ^ (8 * n)) 0)
      captureFull (popIssue s) e.t = false → AccessPasses (popIssue s) e m act 2 .atomic (fun _ => n) n false s' ls →
      (Issues 0x69 s e → Clear e m.guard act (inX ty.width b :: addrInp m) [(d.val, ty.width / 32)] [] →
        memStalls (popIssue s) e .ld = false →
        exec (.atom m op ty d b) s = .next (advance (soilLanes s' e ls) e (e.g.addMem .ld (.atom op ty (some d.val)) accs m.ord m.scope
          e.pc [(d.val, ty.width / 32, false)])))
      ∧ (Issues 0x6A s e → Clear e m.guard act (inX ty.width b :: addrInp m) [] [] → memStalls (popIssue s) e .st = false →
        (postedIn s' e.g.place + ls.length ≤ 256 →
          exec (.red m op ty b) s = .next (advance (soilLanes s' e ls) e (e.g.addMem .st (.atom op ty none) accs m.ord m.scope e.pc [])))
        ∧ (let all := postAccs (256 - postedIn s' e.g.place)
              ((List.range 2016).filter (fun k => !(postedSlots s' e.g.place).contains k)) accs
          areaPuts e.g.place e.t.ctx 7 32 ((all.filter (fun a => a.posted)).map (fun a => (0x400 + 32 * a.exp, postRecord op ty m a))) s'
            = (none, s2) →
          exec (.red m op ty b) s = .next (advance (soilLanes s2 e ls) e (e.g.addMem .st (.atom op ty none) all m.ord m.scope e.pc [])))))
  ∧ (∀ (s s' : State) (e : Env) (m : MHdr) (it : IntTy) (d : Fin 384) (b c : Src) (ls : List LaneAt),
      let act := e.active m.guard
      let n := it.width / 8
      Issues 0x6B s e → Clear e m.guard act (inX it.width b :: inX it.width c :: addrInp m) [(d.val, it.width / 32)] [] →
      memStalls (popIssue s) e .ld = false → captureFull (popIssue s) e.t = false →
      AccessPasses (popIssue s) e m act 2 .atomic (fun _ => n) n false s' ls →
      exec (.cas m it d b c) s = .next (advance (soilLanes s' e ls) e (e.g.addMem .ld (.cas d.val (it.width / 32))
        (ls.map (fun x => wholeAcc x n (readInp e (inX it.width b) x.lane) (readInp e (inX it.width c) x.lane))) m.ord m.scope e.pc
        [(d.val, it.width / 32, false)])))
  ∧ (∀ (s s' : State) (e : Env) (m : MHdr) (wide : Bool) (d : Fin 384) (b : Src) (ls : List LaneAt),
      let act := e.active m.guard
      let w := if wide then 64 else 32
      let accs : List Acc := ls.map (fun x => wholeAcc x (w / 4) (readInp e (inX w b) x.lane) 0)
      Issues 0x6C s e → captureFull (popIssue s) e.t = false →
      AccessPasses (popIssue s) e m act 2 .atomic (fun _ => w / 4) (w / 4) false s' ls →
      (Clear e m.guard act (inX w b :: addrInp m) [] [] → memStalls (popIssue s) e .st = false →
        exec (.cpadd m wide none b) s = .next (advance (soilLanes s' e ls) e (e.g.addMem .st (.cpadd wide none) accs m.ord m.scope
          e.pc [])))
      ∧ (Clear e m.guard act (inX w b :: addrInp m) [(d.val, 2 * w / 32)] [] → memStalls (popIssue s) e .ld = false →
        exec (.cpadd m wide (some d) b) s = .next (advance (soilLanes s' e ls) e (e.g.addMem .ld (.cpadd wide (some d.val)) accs m.ord
          m.scope e.pc [(d.val, 2 * w / 32, false)]))))
  ∧ (∀ (s s' s2 s3 : State) (e : Env) (m : MHdr) (b c : Src) (ls : List LaneAt) (os : List (Nat × SpredObj)) (accs : List Acc),
      let act := e.active m.guard
      let o := (os.head?.map (·.2)).getD ⟨0, 0, 0, 0⟩
      Issues 0x6E s e → Clear e m.guard act (inX 32 b :: inX 32 c :: addrInp m) [] [] → memStalls (popIssue s) e .st = false →
      captureFull (popIssue s) e.t = false → AccessPasses (popIssue s) e m act 2 .load (fun _ => 32) 32 false s' ls →
      spredObjects s' e ls = .inr (s2, os) → spredAccs s2 e m b c os = .inr (s3, accs) →
      exec (.spred m b c) s = .next (advance (soilLanes s3 e (accLanes accs)) e
        (e.g.addMem .st (.spred o.op o.ty) accs m.ord m.scope e.pc [])))
  ∧ (∀ (s s' : State) (e : Env) (m : MHdr) (b c : Src) (ls : List LaneAt) (os : List (Nat × SpredObj)) (accs : List Acc),
      (spredObjects s e ls = .inr (s', os) → (∀ x ∈ ls, x.lane < 32) → os.map (fun x => (x.1, some x.2)) = ls.map (fun x =>
          (x.lane, spredOf (locsRead (ls.foldl (fun s x => x.locs.foldl (fun s p => observe s e.actor p.1 p.2) s) s) x.locs))))
      ∧ (spredAccs s e m b c os = .inr (s', accs) → accs.map (·.lane) = os.map (·.1)
        ∧ ∀ a ∈ accs, a.done = false ∧ ∃ o, (os.find? (fun x => x.1 == a.lane)).map (·.2) = some o ∧ a.exp = o.op + 16 * o.ty
          ∧ a.size = o.size ∧ a.val = readInp e (inX (8 * o.size) c) a.lane))
  ∧ (∀ (s : State) (e : Env) (m : MHdr) (op : AtomOp) (ty : AnyTy) (it : IntTy) (wide : Bool) (p : Fin 8) (d : Fin 384) (b c : Src),
      let act := e.active m.guard
      let s1 := popIssue s
      let w := if wide then 64 else 32
      (memStalls s1 e .st = true →
        (Issues 0x66 s e → Clear e m.guard act (inX w b :: addrInp m) [] [p.val] → exec (.sts m wide p b) s = .next (stall s1 e))
        ∧ (Issues 0x67 s e → Clear e m.guard act (inX w .zero :: addrInp m) [] [p.val] →
          exec (.retract m wide p) s = .next (stall s1 e))
        ∧ (Issues 0x68 s e → Clear e m.guard act (inX w .zero :: addrInp m) [] [] → exec (.settle m wide) s = .next (stall s1 e)))
      ∧
      let full (k : Cls) : Prop := memStalls s1 e k = true ∨ captureFull s1 e.t = true
      (Issues 0x69 s e → Clear e m.guard act (inX ty.width b :: addrInp m) [(d.val, ty.width / 32)] [] → full .ld →
        exec (.atom m op ty d b) s = .next (stall s1 e))
      ∧ (Issues 0x6A s e → Clear e m.guard act (inX ty.width b :: addrInp m) [] [] → full .st →
        exec (.red m op ty b) s = .next (stall s1 e))
      ∧ (Issues 0x6B s e → Clear e m.guard act (inX it.width b :: inX it.width c :: addrInp m) [(d.val, it.width / 32)] [] →
        full .ld → exec (.cas m it d b c) s = .next (stall s1 e))
      ∧ (Issues 0x6C s e → Clear e m.guard act (inX w b :: addrInp m) [] [] → full .st →
        exec (.cpadd m wide none b) s = .next (stall s1 e))
      ∧ (Issues 0x6C s e → Clear e m.guard act (inX w b :: addrInp m) [(d.val, 2 * w / 32)] [] → full .ld →
        exec (.cpadd m wide (some d) b) s = .next (stall s1 e))
      ∧ (Issues 0x6E s e → Clear e m.guard act (inX 32 b :: inX 32 c :: addrInp m) [] [] → full .st →
        exec (.spred m b c) s = .next (stall s1 e)))

/-- waitv completes once a request queue has room, its checks pass and its words can be read: with no active lane it
goes on, with every lane satisfied it goes on with a casement fence and, acquiring, an acquire; else the group waits for
a word, or in single-lane mode for a service word of segment 9, whose wait record names the fault record alone (R115, R180,
R192, R375); a waiting group leaves the active set (R179). A full request queue stalls it, and a
word that cannot be read is a data error (0x21) with the index in TRAPINFO (R148). -/
def Obligations.WordWaitsComplete : Prop :=
  ∀ (s s' t : State) (e : Env) (m : MHdr) (cmp : WaitCmp) (wide : Bool) (b : Src) (ls : List LaneAt) (ws : List WaitLane),
    let act := e.active m.guard
    let size := if wide then 8 else 4
    let ib := inX (8 * size) b
    let first := (ls.head?.map (·.ptr)).getD 0
    Issues 0x6D s e → Clear e m.guard act (ib :: addrInp m) [] [] →
    (act = 0 → exec (.waitv m cmp wide b) s = .next (advance (popIssue s) e e.g))
    ∧ (act ≠ 0 → requestsFull (popIssue s) e.g.place = true → exec (.waitv m cmp wide b) s = .next (stall (popIssue s) e))
    ∧ (act ≠ 0 → requestsFull (popIssue s) e.g.place = false →
      AccessPasses (popIssue s) e m act 0 .load (fun _ => size) size false s' ls →
      (dataErrors s' ls ≠ 0 → exec (.waitv m cmp wide b) s = .next (takeTrap s' e (dataTrap e ls (dataErrors s' ls))))
      ∧ (dataErrors s' ls = 0 →
        waitvLanes e.actor (e.g.fence e.slices).ctx.ops { rel := false, sc := m.ord == .sc, scope := m.scope } cmp size
          (ls.map (fun x =>
            ({ lane := x.lane, ptr := x.ptr, loc := (wholeAcc x size 0 0).loc, val := readInp e ib x.lane, sat := false,
               link := x.link } : WaitLane)))
          s' = (ws, t) →
        (ws.all (fun x => x.sat) = true → m.ord ≠ .acqrel → m.ord ≠ .sc →
          exec (.waitv m cmp wide b) s = .next (advance t e (e.g.fence e.slices)))
        ∧ (ws.all (fun x => x.sat) = true → (m.ord = .acqrel ∨ m.ord = .sc) →
          exec (.waitv m cmp wide b) s = .next (advance (acquireAt t e.g.place m.scope) e (e.g.fence e.slices)))
        ∧ (ws.all (fun x => x.sat) = false →
          let service : Prop := e.single = true ∧ fld first 44 20 = 9 ∧ 0x8000 ≤ fld first 0 44
          (service → exec (.waitv m cmp wide b) s
            = .next (beginWait t e (e.g.fence e.slices) 6 0 (first / 32 * 32) 0 (.word ws size cmp m.ord m.scope)))
          ∧ (¬service → exec (.waitv m cmp wide b) s = .next (beginWait t e (e.g.fence e.slices) 2
            ((match cmp with | .eq => 0 | .ne => 1 | .ge => 2 | .lt => 3) + (if wide then 8 else 0)) first
            ((ws.head?.map (·.val)).getD 0) (.word ws size cmp m.ord m.scope))))))
    ∧ (∀ (u : State) (g : Group) (kind c object value : Nat) (cont : Cont), g.place = e.g.place → groupAt u g.place ≠ none →
      ∃ h w, groupAt (beginWait u e g kind c object value cont) g.place = some h ∧ h.active = false ∧ h.wait = some w
        ∧ w.kind = kind ∧ w.cmp = c ∧ w.object = BitVec.ofNat 64 object ∧ w.value = BitVec.ofNat 64 value)

/-- A performed store of n bytes reads back as those bytes and changes no other byte of its space: physical memory below
the alias aperture as every agent reads it while no alias line waits to be written back (R150), slice memory, the team
memory of its team, and no other space (R94, R98, R205 to R207). -/
def Obligations.StoredBytesReadBack : Prop :=
  ∀ (s : State) (w : Actor) (a n v : Nat), s.inv = true →
    (a + n ≤ 2 ^ 51 → s.aliasQuiet = true →
      let t := performStore s w (.phys a) n v
      (∀ b, b < 2 ^ 51 → curByte t b = if a ≤ b ∧ b < a + n then v / 256 ^ (b - a) % 256 else curByte s b)
      ∧ t.smem = s.smem ∧ t.teams = s.teams ∧ t.groups = s.groups)
    ∧ (let t := performStore s w (.smem a) n v
      (∀ b, (tabGet t.smem b).toNat = if a ≤ b ∧ b < a + n then v / 256 ^ (b - a) % 256 else (tabGet s.smem b).toNat)
      ∧ t.mem = s.mem ∧ t.teams = s.teams ∧ t.groups = s.groups)
    ∧ (∀ u, (teamOf s u).isSome = true →
      let t := performStore s w (.tmem u a) n v
      (∀ b, (tabGet (teamMem t u false) b).toNat
          = if a ≤ b ∧ b < a + n then v / 256 ^ (b - a) % 256 else (tabGet (teamMem s u false) b).toNat)
      ∧ (∀ x, teamMem t x true = teamMem s x true) ∧ (∀ x, x ≠ u → teamMem t x false = teamMem s x false)
      ∧ t.mem = s.mem ∧ t.smem = s.smem ∧ t.groups = s.groups)

/-- An ordered load reads the current bytes and changes no byte that an agent reads; a weak one reads those or, where
its core keeps copies of the words that were current together, the bytes of the copies (R98, R102, R206). While no alias
line waits to be written back, the copies that a load brings and drives out change no byte below the alias aperture
(R149, R150). A read-modify-write of physical memory answers the former value of its location and leaves the new one,
wherever it is performed, and no other byte changes (R108, R111). The new values of the atomics: the wrapped sum, the
bounded increment and decrement, exchange and the bit operations (Table 8-1). A cas answers the former value and writes
only where the expected value stands (R109, R293). A floating-point atomic rounds each element once, to nearest even: a sum
with a NaN or of opposite infinities is the canonical NaN, as is a minimum or maximum of two; one of a NaN and a number is
the number (R110). -/
def Obligations.LoadsAndAtomicsAccessBytes : Prop :=
  (∀ (s : State) (w : Actor) (weak stream : Bool) (x : Loc) (n : Nat), s.inv = true → s.aliasQuiet = true →
      (∀ a, x = .phys a → (a + n - 1) / 128 = a / 128) →
      let r := performLoad s w weak stream x n
      (weak = false → r.1 = locRead s x n)
      ∧ (r.1 = locRead s x n ∨ ∃ a, x = .phys a ∧ weak = true ∧ staleRead s w a n = some r.1)
      ∧ (∀ b, b < 2 ^ 51 → curByte r.2 b = curByte s b)
      ∧ r.2.smem = s.smem ∧ (∀ u b, teamMem r.2 u b = teamMem s u b) ∧ r.2.groups = s.groups)
  ∧ (∀ (s : State) (w : Actor) (returns atBank : Bool) (ctx a n : Nat) (f : Nat → Nat), s.inv = true → s.aliasQuiet = true →
      a + n ≤ 2 ^ 51 →
      let r := performRmw s w returns atBank ctx (.phys a) n f
      r.1 = curRead s a n
      ∧ ∀ b, b < 2 ^ 51 → curByte r.2 b
          = if a ≤ b ∧ b < a + n then f (curRead s a n) / 256 ^ (b - a) % 256 else curByte s b)
  ∧ (∀ (s : State) (w : Actor) (ctx a n expected new : Nat), s.inv = true → s.aliasQuiet = true → a + n ≤ 2 ^ 51 →
      let r := performRmw s w true false ctx (.phys a) n (fun x => if x = expected then new else x)
      r.1 = curRead s a n
      ∧ (curRead s a n ≠ expected → ∀ b, b < 2 ^ 51 → curByte r.2 b = curByte s b)
      ∧ (curRead s a n = expected → ∀ b, b < 2 ^ 51 →
          curByte r.2 b = if a ≤ b ∧ b < a + n then new / 256 ^ (b - a) % 256 else curByte s b))
  ∧ (∀ (t : FpTy) (a b k : Nat), t = .f32 ∨ t = .f64 ∨ t = .bf16 ∨ t = .bf16x2 ∨ t = .f16x2 ∨ t = .f32x2 → k < (fpFmt t 0).2 →
      let f := (fpFmt t 0).1
      let w := fpElemBits t
      let el (v : Nat) : Nat := v / 2 ^ (w * k) % 2 ^ w
      let x := f.decode (el a)
      let y := f.decode (el b)
      el (atomNew .fadd (.f t) a b) = f.round .rn false (FV.add false x y)
      ∧ el (atomNew .fmin (.f t) a b) = f.round .rn false (FV.minNum false x y)
      ∧ el (atomNew .fmax (.f t) a b) = f.round .rn false (FV.minNum true x y)
      ∧ ((x = .nan ∨ y = .nan ∨ ∃ n, x = .inf n ∧ y = .inf (!n)) → el (atomNew .fadd (.f t) a b) = f.nanCode)
      ∧ (x = .nan → y = .nan → el (atomNew .fmin (.f t) a b) = f.nanCode ∧ el (atomNew .fmax (.f t) a b) = f.nanCode)
      ∧ (x = .nan → y ≠ .nan → el (atomNew .fmin (.f t) a b) = f.round .rn false y ∧ el (atomNew .fmax (.f t) a b) = f.round .rn false y)
      ∧ (x ≠ .nan → y = .nan → el (atomNew .fmin (.f t) a b) = f.round .rn false x ∧ el (atomNew .fmax (.f t) a b) = f.round .rn false x))
  ∧ (∀ (t : IntTy) (a b : Nat), a < 2 ^ t.width → b < 2 ^ t.width →
      atomNew .add (.i t) a b = (a + b) % 2 ^ t.width ∧ atomNew .xchg (.i t) a b = b
      ∧ atomNew .inc (.i t) a b = (if a ≥ b then 0 else a + 1) ∧ atomNew .dec (.i t) a b = (if a = 0 ∨ a > b then b else a - 1)
      ∧ atomNew .and (.i t) a b = a &&& b ∧ atomNew .or (.i t) a b = a ||| b ∧ atomNew .xor (.i t) a b = a ^^^ b
      ∧ (t.count = 1 → t.ew = t.width →
          t.elem (atomNew .min (.i t) a b) 0 = min (t.elem a 0) (t.elem b 0)
          ∧ t.elem (atomNew .max (.i t) a b) 0 = max (t.elem a 0) (t.elem b 0)))

/-! ### Matrix and tile instructions -/

/-- A matrix instruction whose checks pass completes its issue: it arrives at the latch with its rows, the first member
making the entry, the last one assembling the instruction; only a member without a kept set reads its A registers, and
only the first listed one its B scales (R153 to R157, R161 to R165, R332). A full latch or a full class stalls it (R105,
R165). A member whose crew or instruction differs from the entry's takes crew mismatch (0x16), as does every member in
it: their wait records break with that cause, their operation is forgotten, and the retest of the record is the trap at
their own matrix instruction (R157). That the latch copies all 32 lanes of the A slice (log 46), when a kept set and
a mismatched entry go (log 50), that an arrival is held against the first entry that lists it (log 91) and the lanes of 0x16
(log 15) are the model's choice. An assembled instruction leaves the latch: every member that
waits for it goes on, and the engine has it to run (R157, R160). -/
def Obligations.MatrixInstructionsArrive : Prop :=
  (∀ (s : State) (e : Env) (f : MatF) (q : Fin 4) (sa : Fin 512),
      let r := e.g.main
      let rs := matRanges f (fld e.g.crew.toNat 0 3)
      let kept := if f.ru then keptOf s e.t.uid e.g.crew else none
      let ready (regs : Nat) : Prop :=
        crewOk e.g.crew.toNat e.t.ngroups e.g.index = true ∧ r.inFrame f.a.val regs = true ∧ f.a.val < 384
        ∧ e.g.unwaitedPred f.guard.pred.val = false ∧ (kept = none → e.g.unwaited f.a.val regs = false)
        ∧ rs.1.1 + rs.1.2 ≤ e.t.tileG * 4096 ∧ rs.2.1 + rs.2.2 ≤ e.t.tileG * 4096 ∧ TRange.meets rs.1 rs.2 = false
      let scales : Prop := sa.val < 384 ∧ r.inFrame sa.val 1 = true ∧ e.g.unwaited sa.val 1 = false
        ∧ f.low.toNat < 384 ∧ r.inFrame f.low.toNat (f.n.val + 1) = true
        ∧ ((crewMembers e.g.crew.toNat).head? = some e.g.index → e.g.unwaited f.low.toNat (f.n.val + 1) = false)
      (Issues 0x80 s e → ready 16 →
        (e.g.full .mat = false → Arrives s e (.mma f) f { regs := 16, sa := none, sb := none })
        ∧ (e.g.full .mat = true → exec (.mma f) s = .next (stall (popIssue s) e)))
      ∧ (Issues 0x81 s e → ready 8 →
        (e.g.full .mat = false → Arrives s e (.mmas f q) f { regs := 8, sa := none, sb := none })
        ∧ (e.g.full .mat = true → exec (.mmas f q) s = .next (stall (popIssue s) e)))
      ∧ (Issues 0x82 s e → ready 16 → scales →
        (e.g.full .mat = false → Arrives s e (.mmx f sa) f { regs := 16, sa := some sa.val, sb := some f.low.toNat })
        ∧ (e.g.full .mat = true → exec (.mmx f sa) s = .next (stall (popIssue s) e))))
  ∧ (∀ (s : State) (e : Env) (i : Instr) (f : MatF) (u : MatUse) (act : Mask) (kept : Option Crew),
      let entry := s.crews.find? (fun k => k.lists e.t.uid e.g.index
        && (match k.st with | .gathering => true | .tombstone _ => true | _ => false))
      let s1 : State := { s with crews := releaseKept s.crews (fun k => k.lists e.t.uid e.g.index && k.crew != e.g.crew) }
      (entry = none → 32 ≤ heldEntries s e.g.place.die e.t.cluster → matArrive s e i f u act kept = stall s e)
      ∧ (∀ k, entry = some k → (k.st ≠ .gathering ∨ k.crew ≠ e.g.crew ∨ k.word ≠ latchWord i) →
        matArrive s e i f u act kept = mismatch s1 e k (e.raised act)
        ∧ ∃ t, mismatch s1 e k (e.raised act) = takeTrap t e { cause := 0x16, lanes := e.raised act }
          ∧ ∀ m ∈ k.members, ∀ h w, groupAt s m.place = some h → h.wait = some w →
            ∃ h', groupAt t m.place = some h' ∧ h'.wait = some { w with broken := some 0x16 }
              ∧ h' = { h with
                  main := h'.main
                  wait := h'.wait }
              ∧ h'.main = { h.main with
                  ops := h'.main.ops
                  issued := h'.main.issued }
              ∧ ∀ o ∈ h'.main.ops, o.id ≠ m.op))
  ∧ (∀ (s : State) (p : Place) (h : Group) (w : Wait) (t : Team) (id : Nat), groupAt s p = some h → h.wait = some w →
      w.cont = .latch id → w.broken = some 0x16 → teamOf s h.team = some t → h.exited = false → h.hatched = false →
      h.handler = none →
      let g : Group := { (h.released s.clock) with under := none }
      let e : Env := { waitEnv t h w with g := g }
      e.pc = (h.waiting w).2 ∧ exec (.waitRecordRetest p) s
        = .next (takeTrap (setGroup s g) e { cause := 0x16, lanes := waitActive s e }))
  ∧ (∀ (s : State) (k : Crew) (taken : List (List Byte)), k ∈ s.crews →
      (∃ x ∈ (launch s k taken).crews, x.id = k.id ∧ x.st = .running 0 taken)
      ∧ ∀ g ∈ s.groups, ∀ w m, g.wait = some w → w.cont = .latch k.id → k.members.find? (fun m => m.place == g.place) = some m →
        ∃ h ∈ (launch s k taken).groups, h.place = g.place ∧ h.wait = none
          ∧ h.slices = (g.setPc ((List.range 8).filter (fun j => bitOf w.slices.toNat j)) m.pc.next).slices)

/-- The tile instructions complete at issue where their registers lie in the frame and their range in the team's tile
store: tld leaves its registers unwaited, tst has read them, tzero and tcvt act once (R164, R367, R368). A tst with active
lanes needs the W right of segment 3, else access fault (0x0A) after the range check (R65); what it records then is the
model's choice (log 72). -/
def Obligations.TileInstructionsIssue : Prop :=
  ∀ (s : State) (e : Env) (gd : Guard) (a : Fin 512) (b len : BitVec 18) (n : Fin 8) (dst : MatTy) (src : AccTy) (sat : Bool)
    (fmt : BitVec 8),
    let w := 32 * (n.val + 1)
    let base := b.toNat * 256
    let act := e.active gd
    let fits (k : Nat) : Prop := base + k ≤ e.t.tileG * 4096
    let goIn (s : State) (body : OpBody) (r : TRange) (accs : List Acc) (unw : List (Nat × Nat × Bool)) :
        Host.Outcome State Fault Refusal :=
      .next (advance s e (e.g.addOp .mat body (rangeAcc e.t.uid r :: accs) .weak .group e.pc unw))
    let go := goIn (popIssue s)
    let stores : List Acc := (lanesOf act).map (fun l => rowAcc e.t.uid l base w (e.g.main.frame.vs a.val l w))
    let once (r : TRange) : List Acc := if e.once gd = 0 then [] else [{ rangeAcc e.t.uid r with exp := 1 }]
    e.g.full .mat = false →
    (a.val < 384 → e.g.main.inFrame a.val w = true → Clear e gd act [] [(a.val, w)] [] → fits (128 * w) →
      (Issues 0x83 s e → exec (.tld gd a b n) s = go (.tld a.val w) (base, 128 * w)
        ((lanesOf act).map (fun l => rowAcc e.t.uid l base w 0)) [(a.val, w, false)])
      ∧ (Issues 0x84 s e →
        (act = 0 → exec (.tst gd a b n) s = go .tst (base, 128 * w) stores [])
        ∧ (∀ s' d, act ≠ 0 → governing (popIssue s) e.view 3 = (.ok d, s') →
          (bitOf d 129 = true → exec (.tst gd a b n) s = goIn s' .tst (base, 128 * w) stores [])
          ∧ (bitOf d 129 = false → ∃ x, x.cause = 0x0A ∧ x.lanes = act ∧ exec (.tst gd a b n) s = .next (takeTrap s' e x)))
        ∧ (∀ c s', act ≠ 0 → governing (popIssue s) e.view 3 = (.bad c, s') →
          ∃ x, x.cause = c ∧ x.lanes = act ∧ exec (.tst gd a b n) s = .next (takeTrap s' e x))))
    ∧ (Clear e gd act [] [] [] →
      (Issues 0x85 s e → fits (len.toNat * 256) → exec (.tzero gd b len) s
        = go (.tzero base (len.toNat * 256)) (base, len.toNat * 256) (once (base, len.toNat * 256)) [])
      ∧ (Issues 0x86 s e → fits (32 * w * src.size) → exec (.tcvt gd dst src sat b n fmt) s
        = go (.tcvt dst src sat base w fmt.toNat) (base, 32 * w * src.size) (once (base, 32 * w * src.size)) []))

/-! ### Copies, counters, barriers, queues and frames -/

/-- Every copy kind completes at issue where its record and ranges pass and an engine has room: the command stands last
in the queue of the engine with the fewest commands, the lowest number first, and one copy operation is outstanding;
with eight full queues or a full class it stalls, and with no active lane it goes on (R90, R182, R296, R298). The yield
form then waits for its thresholds at the next instruction (R300). Only the lowest active lane's operands are read
(R169). -/
def Obligations.CopiesIssue : Prop :=
  ∀ (s s' : State) (e : Env) (gd : Guard) (a b c : Src) (kind : CopyKind) (l r k : Nat) (th : BitVec 30),
    let act := e.active gd
    let ia := inX 64 a
    let ib := inX kind.widths.1 b
    let ic := inX kind.widths.2 c
    let i : Instr := match kind with
      | .linear => .copyLinear gd a b c | .strided2 => .copyStrided2 gd a b c | .strided3 => .copyStrided3 gd a b c
      | .gather => .copyGather gd a b c | .scatter => .copyScatter gd a b c | .fill => .copyFill gd a b c
      | .combine => .copyCombine gd a b c | .metaq => .copyMeta gd a b c
    let cmd (now : Nat) : CopyCmd :=
      { place := e.g.place, team := e.t.uid, ctx := e.t.ctx, op := e.g.nextOp, pc := e.pc, kind := kind, cseg := e.pc.seg,
        dst := BitVec.ofNat 64 (readInp e ia l), src := BitVec.ofNat 64 (readInp e ib l), cnt := readInp e ic l,
        rcd := BitVec.ofNat 256 r, pos := 0, since := now, prio := e.t.prio, seq := e.g.ctx.issued.copy, fault := none,
        delivered := false }
    let seg := fld (readInp e ia l) 44 20
    let posted (s : State) : State :=
      if seg = 1 ∨ seg = 3 then postCommand s e.g.place.die k (cmd s.clock)
      else soil (postCommand s e.g.place.die k (cmd s.clock)) e.t.uid
    let g := e.g.addOp .copy .copy [] .weak .device e.pc []
    Issues 0x90 s e → Clear e gd (lowMask act) [ia, ib, ic] [] [] →
    (act = 0 → exec i s = .next (advance (popIssue s) e e.g)
      ∧ exec (.copyYield gd kind th a b c) s = .next (advance (popIssue s) e e.g))
    ∧ (lowestLane act = some l → (kind = .metaq → readInp e ic l % 256 = 0) →
      (e.g.full .copy = true → exec i s = .next (stall (popIssue s) e)
        ∧ exec (.copyYield gd kind th a b c) s = .next (stall (popIssue s) e))
      ∧ (e.g.full .copy = false →
        CopyPasses (popIssue s) e l kind (readInp e ia l) (readInp e ib l) (readInp e ic l) s' r →
        (pickEngine (s'.dies.getD e.g.place.die Die.reset) = none → exec i s = .next (stall s' e))
        ∧ (pickEngine (s'.dies.getD e.g.place.die Die.reset) = some k → exec i s = .next (advance (posted s') e g))
        ∧ (∀ s2, TargetOk s' e e.pc.seg (e.pc.at 1) s2 → pickEngine (s2.dies.getD e.g.place.die Die.reset) = some k →
          exec (.copyYield gd kind th a b c) s = .next (beginWait (posted s2) e ((g.fence e.slices).setPc e.slices e.pc.next) 1 0
            th.toNat (e.pc.idx + 1) (.counters th true)))))

/-- waitc completes: ages 1 to 8 go; with its thresholds met and no covered failure the covered destinations are waited
and the group goes on, a covered failure is its trap, data errors before copy faults, else the group waits (R104, R106,
R183, R374). yield completes: with its continuation marked and every running lane passing, ages 1 to 8 go, the program
counter stands at the continuation, and the group waits for its thresholds, met or not (R91, R376). When they are met
the covered destinations are waited and the covered failures are left for the fragment's next issue, data errors first
(R376). After a waitc a destination register is unwaited exactly when its operation is among the n youngest of its class
or its class's threshold is 63 (R104, R106). That a covered failure's trap records the active lanes (log 15), and that a
waitc stands where it is until it ends and a yield at its continuation at once (log 28), are the model's choice. -/
def Obligations.CounterWaitsComplete : Prop :=
  (∀ (s : State) (e : Env) (gd : Guard) (th : BitVec 30),
      let act := e.active gd
      let g := e.g.fence e.slices
      let done := e.issued g s.clock
      let taken (f : Cls × Nat × OpFail) : Env :=
        { e with g := done.mapCtx (fun r => { r with failed := r.failed.erase f }) }
      Issues 0x91 s e → Clear e gd act [] [] [] → act ≠ 0 →
      (g.ctx.met th = true → firstFail g.ctx th = none →
        exec (.waitc gd th) s
          = .next (setGroup (commit (popIssue s) e g) ((done.mapCtx (fun r => r.release th)).setPc e.slices e.pc.next)))
      ∧ (g.ctx.met th = false → coveredPop g.ctx th = none →
        exec (.waitc gd th) s = .next (beginWait (popIssue s) e g 1 0 th.toNat 0 (.counters th false)))
      ∧ (∀ p, g.ctx.met th = false → coveredPop g.ctx th = some p →
        exec (.waitc gd th) s = .next (beginWait (popIssue s) e g 4 0 p 0 (.counters th false)))
      ∧ (∀ f, g.ctx.met th = true → firstFail g.ctx th = some f →
        (f.2.2.cause ≠ 0x22 → exec (.waitc gd th) s = .next (takeTrap (commit (popIssue s) e g) (taken f)
          { cause := f.2.2.cause, lanes := act, addr := f.2.2.addr.toNat, info := f.2.2.info.toNat }))
        ∧ (f.2.2.cause = 0x22 → exec (.waitc gd th) s = .next (takeTrap
          (deliverCopy (commit (popIssue s) e g) e.g.place e.t.uid f.2.1) (taken f)
          { cause := 0x22, lanes := act, addr := f.2.2.addr.toNat, info := f.2.2.info.toNat }))))
  ∧ (∀ (s s' : State) (e : Env) (gd : Guard) (rcv : BitVec 18) (th : BitVec 30),
      let c := e.pc.at (sint 18 rcv.toNat)
      Issues 0x09 s e → AllLanes e gd [] → rcv ≠ 0 → TargetOk (popIssue s) e e.pc.seg c s' →
      exec (.yield gd rcv th) s = .next (beginWait s' e ((e.g.fence e.slices).setPc e.slices ⟨e.pc.seg, c.toNat⟩) 1 0 th.toNat
        c.toNat (.counters th true)))
  ∧ (∀ (g : Group) (ks : BitVec 8) (th : BitVec 30),
      let h := g.yieldMet ks th
      h.main.unw = (g.main.release th).unw
      ∧ (∀ f, f ∈ h.main.failed ↔ f ∈ g.main.failed ∧ g.main.covers th f.1 f.2.1 = false)
      ∧ ∃ fs : List (Cls × Nat × OpFail), h.due = g.due ++ fs.map (fun f => { slices := ks, seq := f.2.1, fail := f.2.2 })
        ∧ (∀ f, f ∈ fs ↔ f ∈ g.main.failed ∧ g.main.covers th f.1 f.2.1 = true)
        ∧ fs.Pairwise (fun a b => a.2.2.cause = 0x22 → b.2.2.cause = 0x22))
  ∧ (∀ (r : RegCtx) (th : BitVec 30) (u : Unw),
      u ∈ (r.release th).unw ↔ u ∈ r.unw ∧ (threshold th u.cls = 63 ∨ r.issued.get u.cls ≤ u.seq + threshold th u.cls))

/-- The bar forms complete where their object passes: init writes it, arrive counts one arrival and returns the phase,
wait goes on when the phase has changed and else waits, arrwait does both, drop leaves; each releases or settles the
group's own accesses first and stalls until they are performed and its older acquires, entries of a pop among them, have
ended (R98, R176); a dead object traps 0x14, a broken one 0x15 (R100, R117 to R119, R280, R281). A fresh object holds
its EXPECT, and an arrival answers the phase and counts one; the last completes the phase, which clears COUNT and ARR
(R117, R118, Table 8-2). That a form stalls by settledAt and mayArrive (log 27) and changes the object when it issues
(log 66), and the lanes of 0x14 and 0x15 (log 15), are the model's choice. A count of bar.init out of range is an
illegal operand, which comes before the 0x06 of its pointer (R183, R280). -/
def Obligations.BarriersComplete : Prop :=
  (∀ (s s' : State) (e : Env) (h : Hdr) (counted : Bool) (a b : Src) (l : Nat) (x : Loc),
      let act := e.active h.guard
      let p := readInp e (inX 64 a) l
      let ib := in32 h b
      let n := readInp e ib l
      let seen := barSee s' e.actor x
      let done := e.g.fence e.slices
      Issues 0x92 s e → Clear e h.guard (lowMask act) [inX 64 a, ib] [] [] →
      (act = 0 → exec (.barInit h counted a b) s = .next (advance (popIssue s) e e.g)
        ∧ exec (.barWait h a b) s = .next (advance (popIssue s) e e.g))
      ∧ (lowestLane act = some l → settledAt e.g x 16 = true →
        (1 ≤ n → n ≤ 65535 → ObjectAt (popIssue s) e .barWrite p s' x →
          exec (.barInit h counted a b) s = .next (advance (barInitAt s' e.actor x counted n) e e.g))
        ∧ (ObjectAt (popIssue s) e .barRead p s' x → barFault (barRead seen x) = none →
          ((barRead seen x).phase ≠ n % 65536 → (∀ k, x ≠ .smem k) →
            exec (.barWait h a b) s = .next (advance seen e done))
          ∧ ((barRead seen x).phase ≠ n % 65536 → (∃ k, x = .smem k) →
            exec (.barWait h a b) s = .next (advance (acquireAt seen e.g.place .device) e done))
          ∧ ((barRead seen x).phase = n % 65536 →
            exec (.barWait h a b) s = .next (beginWait seen e done 3 0 p (n % 65536) (.barrier x (n % 65536)))))
        ∧ (∀ c, ObjectAt (popIssue s) e .barRead p s' x → barFault (barRead seen x) = some c →
          exec (.barWait h a b) s = .next (takeTrap seen e { cause := c, lanes := act, addr := p })))
      ∧ (lowestLane act = some l → settledAt e.g x 16 = false → 1 ≤ n → n ≤ 65535 → ObjectAt (popIssue s) e .barWrite p s' x →
        exec (.barInit h counted a b) s = .next (stall s' e)))
  ∧ (∀ (s : State) (e : Env) (h : Hdr) (counted : Bool) (a b : Src) (l : Nat),
      let act := e.active h.guard
      let ib := in32 h b
      let n := readInp e ib l
      Issues 0x92 s e → lowestLane act = some l → (n = 0 ∨ 65535 < n) → Clear e h.guard (lowMask act) [ib] [] [] →
      (∀ x, operandFault e h.guard (lowMask act) [inX 64 a, ib] [] [] = some x → x.cause ≠ 0x02) →
      exec (.barInit h counted a b) s = .next (takeTrap (popIssue s) e { cause := 0x02, lanes := maskOf (fun j => j == l) }))
  ∧ (∀ (s s' t u : State) (e : Env) (gd : Guard) (d : Dst) (a : Src) (l phase : Nat) (x : Loc) (g : Group),
      let act := e.active gd
      let p := readInp e (inX 64 a) l
      Issues 0x92 s e → lowestLane act = some l → ObjectAt (popIssue s) e .barWrite p s' x →
      mayArrive e.g x = true →
      (destFault e gd (lowMask act) [inX 64 a] d 32 [] = none → barFault (barRead s' x) = none → writerOk e d 32 = true →
        barArriveAt s' e.actor x e.g.index e.t.uid = .inr (phase, t) → writeDst t e e.g act d 32 (fun _ => phase) = (u, g) →
        exec (.barArrive gd d a) s = .next (advance u e g)
        ∧ ((barRead u x).phase ≠ phase → (∀ k, x ≠ .smem k) →
          exec (.barArrwait gd d a) s = .next (advance u e (g.fence e.slices)))
        ∧ ((barRead u x).phase ≠ phase → (∃ k, x = .smem k) →
          exec (.barArrwait gd d a) s = .next (advance (acquireAt u e.g.place .device) e (g.fence e.slices)))
        ∧ ((barRead u x).phase = phase →
          exec (.barArrwait gd d a) s = .next (beginWait u e (g.fence e.slices) 3 0 p phase (.barrier x phase))))
      ∧ (Clear e gd (lowMask act) [inX 64 a] [] [] → barFault (barRead s' x) = none →
        exec (.barDrop gd a) s = .next (advance (barDropAt s' e.actor x e.g.index e.t.uid) e e.g))
      ∧ (∀ c, barFault (barRead s' x) = some c →
        (Clear e gd (lowMask act) [inX 64 a] [] [] →
          exec (.barDrop gd a) s = .next (takeTrap (barSee s' e.actor x) e { cause := c, lanes := act, addr := p }))
        ∧ (destFault e gd (lowMask act) [inX 64 a] d 32 [] = none →
          exec (.barArrive gd d a) s = .next (takeTrap (barSee s' e.actor x) e { cause := c, lanes := act, addr := p }))))
  ∧ (∀ (s s' : State) (e : Env) (gd : Guard) (d : Dst) (a : Src) (l : Nat) (x : Loc),
      Issues 0x92 s e → lowestLane (e.active gd) = some l → ObjectAt (popIssue s) e .barWrite (readInp e (inX 64 a) l) s' x →
      mayArrive e.g x = false →
      (destFault e gd (lowMask (e.active gd)) [inX 64 a] d 32 [] = none → exec (.barArrive gd d a) s = .next (stall s' e)
        ∧ exec (.barArrwait gd d a) s = .next (stall s' e))
      ∧ (Clear e gd (lowMask (e.active gd)) [inX 64 a] [] [] → exec (.barDrop gd a) s = .next (stall s' e)))
  ∧ (∀ (s t : State) (w : Actor) (k n group team phase : Nat) (counted : Bool), s.inv = true →
      let b := barRead s (.smem k)
      (n < 65536 → barRead (barInitAt s w (.smem k) counted n) (.smem k)
        = { members := 0, arr := 0, phase := 0, expect := n, count := 0, broken := false, live := true, counted := counted })
      ∧ (barArriveAt s w (.smem k) group team = .inr (phase, t) → phase = b.phase ∧ barRead t (.smem k)
        = (if (b.count + 1) % 65536 = b.expect then { b with phase := (b.phase + 1) % 65536, count := 0, arr := 0 }
            else { b with count := (b.count + 1) % 65536 })))
  ∧ (∀ (g : Group) (x : Loc), mayArrive g x = true ↔ g.performed (fun _ => true) (barScope x) = true
      ∧ ∀ o ∈ g.ctx.ops, o.acquires = true → o.scope.orders x = true → ∀ a ∈ o.accs, a.done = true)

/-- The queue instructions complete at issue where the queue and their registers pass: one access for each active lane,
with the entry that its registers held; with no active lane they go on, and a full class stalls them, a pop a full
capture area too (R105, R171 to R175, R233, R343 to R345). Registers beyond the frame are an illegal operand, which
comes before the 0x06 of unwaited ones (R172, R183); so does a die word of qpush.task with other bits. That the two
registers which every entry has are checked before the header is read (log 30), and the recorded lanes (log 15), are the
model's choice. -/
def Obligations.QueueInstructionsIssue : Prop :=
  ∀ (s s' : State) (e : Env) (gd : Guard) (p : Fin 8) (d a b : Fin 384) (l : Nat) (q : UserQ),
    let act := e.active gd
    let lane : Mask := maskOf (fun j => j == l)
    let ptr := readInp e (inX 64 (.v a)) l
    let w := readInp e (inX 32 (.v a)) l
    let record (l : Nat) : Acc :=
      { lane := l, off := 0, loc := .tmem e.t.uid 0, size := 0, val := e.g.main.frame.vs b.val l 16, exp := 0, done := false,
        posted := false, ptr := 0 }
    (Issues 0x93 s e → Clear e gd act [inX 64 (.v a), inX 64 (.v b)] [] [p.val] →
      (act = 0 → exec (.qpush gd p a b) s = .next (advance (popIssue s) e e.g))
      ∧ (lowestLane act = some l → QueueAt (popIssue s) e lane ptr false s' q →
        spanFault e act b.val (q.esz / 4) = none →
        (e.g.full .task = false → exec (.qpush gd p a b) s = .next (advance (soil s' e.t.uid) e (e.g.addOp .task
          (.qpush p.val q.head q.esz q.cap q.ring) ((lanesOf act).map (fun l => queueAcc l q.head q.ptr
            (e.g.main.frame.vs b.val l (q.esz / 4)))) .acqrel .device e.pc (predUnw p))))
        ∧ (e.g.full .task = true → exec (.qpush gd p a b) s = .next (stall s' e))))
    ∧ (Issues 0x93 s e → Clear e gd act [inX 32 (.v a)] [(b.val, 16)] [p.val] →
      (act = 0 → exec (.qpushTask gd p a b) s = .next (advance (popIssue s) e e.g))
      ∧ (lowestLane act = some l → w < 32 → e.g.full .task = false →
        exec (.qpushTask gd p a b) s = .next (advance (soil (popIssue s) e.t.uid) e (e.g.addOp .task (.qpushTask p.val (w % 4) (w / 4))
          ((lanesOf act).map record) .acqrel .device e.pc (predUnw p))))
      ∧ (lowestLane act = some l → w < 32 → e.g.full .task = true → exec (.qpushTask gd p a b) s = .next (stall (popIssue s) e)))
    ∧ (Issues 0x94 s e → Clear e gd act [inX 64 (.v a)] [(d.val, 2)] [] →
      (act = 0 → exec (.qpop gd d a) s = .next (advance (popIssue s) e e.g))
      ∧ (lowestLane act = some l → QueueAt (popIssue s) e lane ptr true s' q →
        spanFault e act d.val (q.esz / 4) = none →
        (e.g.full .task = false → captureFull s' e.t = false →
          exec (.qpop gd d a) s = .next (advance s' e (e.g.addOp .task (.qpop d.val q.head q.esz q.cap q.ring)
            ((lanesOf act).map (fun l => queueAcc l q.head q.ptr 0)) .weak .device e.pc [(d.val, q.esz / 4, false)])))
        ∧ ((e.g.full .task = true ∨ captureFull s' e.t = true) → exec (.qpop gd d a) s = .next (stall s' e))))
    ∧ (∀ n k, (e.g.ctx.inFrame n k = false → spanFault e act n k = some { cause := 0x02, lanes := act })
      ∧ (e.g.ctx.inFrame n k = true → e.g.unwaited n k = true → spanFault e act n k = some { cause := 0x06, lanes := act })
      ∧ (e.g.ctx.inFrame n k = true → e.g.unwaited n k = false → spanFault e act n k = none))
    ∧ (∀ x, (operandFault e gd act [inX 64 (.v a), inX 64 (.v b)] [] [p.val] = some x → Issues 0x93 s e →
        exec (.qpush gd p a b) s = .next (takeTrap (popIssue s) e x))
      ∧ (operandFault e gd act [inX 64 (.v a)] [(d.val, 2)] [] = some x → Issues 0x94 s e →
        exec (.qpop gd d a) s = .next (takeTrap (popIssue s) e x)))
    ∧ (e.g.ctx.inFrame b.val 2 = false → operandFault e gd act [inX 64 (.v a), inX 64 (.v b)] [] [p.val]
      = some { cause := 0x02, lanes := if act = 0 then e.live else act })
    ∧ (e.g.ctx.inFrame d.val 2 = false → operandFault e gd act [inX 64 (.v a)] [(d.val, 2)] []
      = some { cause := 0x02, lanes := if act = 0 then e.live else act })
    ∧ (lowestLane act = some l → 32 ≤ w → Clear e gd (lowMask act) [inX 32 (.v a)] [] [] →
      (∀ x, operandFault e gd act [inX 32 (.v a)] [(b.val, 16)] [p.val] = some x → x.cause ≠ 0x02) → Issues 0x93 s e →
      exec (.qpushTask gd p a b) s = .next (takeTrap (popIssue s) e { cause := 0x02, lanes := maskOf (fun j => j == l) }))

/-- fgive n releases the top n blocks of the frame, 0 to %fblocks − 1: their registers lie in the frame no more, the
others keep their values, and the casement is as it was; a larger n is frame fault (0x10), an unwaited destination in a
released block is unwaited operand (0x06). fclaim n adds n blocks, 1 to 24 − %fblocks, behind a casement fence, or waits
for them; the new registers read zero, the others keep their values; any other n is frame fault (0x10) (R53, R54). The
lanes that 0x10 and 0x06 record are the model's choice (log 15). -/
def Obligations.FrameInstructionsComplete : Prop :=
  (∀ (s : State) (e : Env) (h : Hdr) (a : Src) (l : Nat),
      let act := e.active h.guard
      let n := readInp e (in32 h a) l
      let k := e.g.main.frame.count
      Clear e h.guard (lowMask act) [in32 h a] [] [] → lowestLane act = some l →
      (Issues 0x95 s e →
        (n = 0 → exec (.fgive h a) s = .next (advance (popIssue s) e e.g))
        ∧ (0 < n → n < k → e.g.unwaited (16 * (k - n)) (16 * n) = false →
          exec (.fgive h a) s = .next (advance (popIssue s) e (e.g.giveNow n)))
        ∧ (0 < n → n < k → e.g.unwaited (16 * (k - n)) (16 * n) = true →
          exec (.fgive h a) s = .next (takeTrap (popIssue s) e { cause := 0x06, lanes := act }))
        ∧ (0 < n → k ≤ n → exec (.fgive h a) s = .next (takeTrap (popIssue s) e { cause := 0x10, lanes := act })))
      ∧ (Issues 0x96 s e →
        (1 ≤ n → n + k ≤ 24 →
          (∀ bs, takeBlocks (popIssue s) e.g n = some bs →
            exec (.fclaim h a) s = .next (advance (popIssue s) e ((e.g.fence e.slices).claimNow bs)))
          ∧ (takeBlocks (popIssue s) e.g n = none →
            exec (.fclaim h a) s = .next (beginWait (popIssue s) e (e.g.fence e.slices) 7 0 n 0 (.claim n))))
        ∧ ((n = 0 ∨ 24 < n + k) → exec (.fclaim h a) s = .next (takeTrap (popIssue s) e { cause := 0x10, lanes := act }))))
  ∧ (∀ (g : Group) (n : Nat) (bs : List Bool),
      let k := g.main.frame.count
      let gave := g.giveNow n
      let got := g.claimNow bs
      (n ≤ k → gave.main.frame.count = k - n ∧ gave.main.cas = g.main.cas
        ∧ (∀ r, 16 * (k - n) ≤ r → gave.main.inFrame r 1 = false)
        ∧ ∀ r l, r < 16 * (k - n) → l < 32 → gave.main.frame.v r l = g.main.frame.v r l)
      ∧ got.main.frame.count = k + bs.length
      ∧ (∀ r l, l < 32 → got.main.frame.v r l = if r < 16 * k then g.main.frame.v r l else 0))
  ∧ (∀ (s : State) (g : Group) (n : Nat) (bs : List Bool), takeBlocks s g n = some bs → bs.length = n)

/-! ### System instructions -/

/-- srd and swr complete in single-lane mode: srd reads a system register, FRZDATA through FRZSEL; swr writes FRZSEL,
FRZDATA and RESUME and nothing else; where no lane is active they go on (R187, R362, Table 15-2, Table 19-14). A frozen
register reads back what a handler wrote into it while ERR is clear: a v register of a frame in the register file, an
age, which becomes valid, of the casement or of a call record on chip, a b, s or g register at its width, or a
predicate; g0 reads zero whatever was written (R37, R187). With ERR set a write changes nothing and a read gives zero. -/
def Obligations.SystemRegistersAreAccessed : Prop :=
  (∀ (s s1 : State) (e : Env) (h : Handler) (gd : Guard) (d : Dst) (a : Src) (reg : BitVec 8) (x : Nat × Nat) (g : Group) (f : Nat),
      let v := readInp e (inX 64 a) 0
      let read : Group := { e.g with handler := some { h with frzsel := BitVec.ofNat 64 x.2 } }
      e.g.handler = some h →
      (Issues 0xA1 s e → Clear e gd (e.active gd) [] (dstSpan d 64).toList [] →
        (e.active gd = 0 → exec (.srd gd d reg) s = .next (advance (popIssue s) e e.g))
        ∧ (e.active gd ≠ 0 → sysRead (popIssue s) e h reg.toNat = (.inl x, s1) →
          exec (.srd gd d reg) s = .next (advance (writeDst s1 { e with g := read } read (e.active gd) d 64 (fun _ => x.1)).1 e
            (writeDst s1 { e with g := read } read (e.active gd) d 64 (fun _ => x.1)).2))
        ∧ (e.active gd ≠ 0 → sysRead (popIssue s) e h reg.toNat = (.inr f, s1) →
          exec (.srd gd d reg) s = .next (dblFault s1 e f 0)))
      ∧ (Issues 0xA2 s e → Clear e gd (e.active gd) [inX 64 a] [] [] →
        (e.active gd = 0 → exec (.swr gd a reg) s = .next (advance (popIssue s) e e.g))
        ∧ (e.active gd ≠ 0 →
          (reg.toNat = 0x10 → exec (.swr gd a reg) s = .next (advance (popIssue s) e
            { e.g with handler := some { h with frzsel := BitVec.ofNat 64 (frzSelect e.g v) } }))
          ∧ (reg.toNat = 0x11 → frzWrite (popIssue s) e.g e.t h.frzsel.toNat v = (.inl g, s1) →
            exec (.swr gd a reg) s = .next (advance s1 e g))
          ∧ (reg.toNat = 0x11 → frzWrite (popIssue s) e.g e.t h.frzsel.toNat v = (.inr f, s1) →
            exec (.swr gd a reg) s = .next (dblFault s1 e f 0))
          ∧ (reg.toNat = 0x12 → exec (.swr gd a reg) s = .next (advance (popIssue s) e
            { e.g with handler := some { h with resume := BitVec.ofNat 64 (fld v 0 2 + fld v 8 8 * 2 ^ 8) } }))
          ∧ (reg.toNat < 0x10 ∨ 0x12 < reg.toNat → exec (.swr gd a reg) s = .next (advance (popIssue s) e e.g)))))
  ∧ (∀ (s : State) (e : Env) (h : Handler),
      let sel := h.frzsel.toNat
      sysRead s e h 0x00 = (.inl (e.g.trap.cause.toNat, sel), s) ∧ sysRead s e h 0x01 = (.inl (e.g.trap.pc.toNat, sel), s)
      ∧ sysRead s e h 0x02 = (.inl (e.g.trap.lanes.toNat, sel), s) ∧ sysRead s e h 0x03 = (.inl (e.g.trap.addr.toNat, sel), s)
      ∧ sysRead s e h 0x04 = (.inl (e.g.trap.info.toNat, sel), s) ∧ sysRead s e h 0x05 = (.inl (e.g.trap.who.toNat, sel), s)
      ∧ sysRead s e h 0x0A = (.inl (9 * 2 ^ 44, sel), s) ∧ sysRead s e h 0x10 = (.inl (sel, sel), s)
      ∧ sysRead s e h 0x11 = frzRead s e.g e.t sel ∧ sysRead s e h 0x12 = (.inl (h.resume.toNat, sel), s))
  ∧ (∀ (s : State) (g : Group) (t : Team) (sel v : Nat),
      let code := fld sel 0 9
      let fdep := fld sel 14 8
      let back (x : Nat) : Prop := ∃ g' s' t', frzWrite s g t sel v = (.inl g', s') ∧ teamOf s' t.uid = some t'
        ∧ frzRead s' g' t' sel = (.inl (x, sel), s')
      (bitOf sel 63 = true → frzWrite s g t sel v = (.inl g, s) ∧ frzRead s g t sel = (.inl (0, sel), s))
      ∧ (frzBad g sel = false → bitOf sel 63 = false → teamOf s t.uid = some t →
        (fld sel 24 2 = 1 → back (v % 2))
        ∧ (fld sel 24 2 = 0 →
          (code < 384 → (∀ f, g.frameBelow fdep = some f → f.spilled = false) → back (v % 2 ^ 32))
          ∧ (384 ≤ code → code < 400 → (∀ c, fdep ≠ 0 → g.calls[fdep - 1]? = some c → c.spilled = false) →
            (∀ a, frzAge s g t sel = (.inl (some a), s) → back (v % 2 ^ 32)))
          ∧ (400 ≤ code → code < 464 → back (v % 2 ^ 32))
          ∧ (464 ≤ code → code < 480 → back (v % 2 ^ 64))
          ∧ (code = 480 → tabGet g.main.greg 0 = 0 → back 0)
          ∧ (480 < code → code < 496 → back (v % 2 ^ 20)))))

/-- sret completes once the handler's operations are gone, and stalls before: RESUME.ACT 0 retries the trapping
instruction, 1 goes on after it, 2 ends the context with an error record, 3 is a double fault with the trap's own cause
and address (R188, R363). A group that resumes has no handler and no claim, and its frozen registers and call records;
it waits for nothing, but for its frame where that is spilled (R58); a retry leaves every slice where it trapped, a skip
moves the trapping fragment to the next index and no other slice (R188). What ACT 2 and 3 end and record is the model's
choice (log 34). -/
def Obligations.SretResumes : Prop :=
  (∀ (s : State) (e : Env) (h : Handler) (gd : Guard), Issues 0xA0 s e → Clear e gd (e.active gd) [] [] [] →
      e.g.handler = some h →
      let s1 := releaseClaim (popIssue s) e.g
      (e.active gd = 0 → exec (.sret gd) s = .next (advance (popIssue s) e e.g))
      ∧ (e.active gd ≠ 0 → h.ctx.ops ≠ [] → exec (.sret gd) s = .next (stall (popIssue s) e))
      ∧ (e.active gd ≠ 0 → h.ctx.ops = [] →
        (fld h.resume.toNat 0 2 = 0 → exec (.sret gd) s
          = .next (resumeCopies (commit s1 e (resumeGroup e.g s1.clock false)) e.g.place e.t.uid true))
        ∧ (fld h.resume.toNat 0 2 = 1 → exec (.sret gd) s
          = .next (resumeCopies (commit s1 e (resumeGroup e.g s1.clock true)) e.g.place e.t.uid false))
        ∧ (fld h.resume.toNat 0 2 = 2 → exec (.sret gd) s = .next (endContext s1 e (fld h.resume.toNat 8 8)))
        ∧ (fld h.resume.toNat 0 2 = 3 →
          exec (.sret gd) s = .next (dblFault s1 e e.g.trap.cause.toNat e.g.trap.addr.toNat))))
  ∧ (∀ (g : Group) (now : Nat) (skip : Bool), g.slices.length = 8 →
      let h := resumeGroup g now skip
      h.handler = none ∧ h.claim = none ∧ h.main = g.main ∧ h.calls = g.calls ∧ h.join = g.join
      ∧ (g.hatched = false → h.wait = none)
      ∧ (g.hatched = true → ∃ w, h.wait = some w ∧ w.kind = 7)
      ∧ ∀ k sl, g.slices[k]? = some sl → h.slices[k]? = some
          (if skip = true ∧ bitOf g.trapSlices.toNat k = true
            then { sl with pc := ⟨fld g.trap.pc.toNat 44 20, fld g.trap.pc.toNat 0 28 + 1⟩ } else sl))

/-- The bind forms complete on an entry at x once the accesses that they are ordered after are performed: claim takes a
free entry and records who holds it, set and fail finish the group's own claim, unbind clears a bound one, each with its
predicate, and read copies the entry into four s registers; claim and read acquire at device scope, set, fail and unbind
release; a changed entry has a GEN one higher, and waiters see it (R75, R77 to R82, R285). Their read marks a shuttered
cell of another agent observed (R124). Before that they stall, as they do while the entry's page misses (R70, log 78);
bind.read asks for no right to write the page (R69). A second claim is an illegal operand, which comes before the 0x06
of an unwaited one (R183). That it comes before the pointer is looked at and that segment 6's rights are not asked for
is the model's choice (log 36). -/
def Obligations.BindsComplete : Prop :=
  (∀ (s s' : State) (e : Env) (gd : Guard) (p : Fin 8) (d : Fin 4) (a b : Src) (x : Nat) (nd : Need),
      let act := e.active gd
      let v := curRead s' x 32
      let ptr := readInp e (inX 64 a) 0
      let mine : Prop := fld v 64 2 = 1 ∧ fld v 96 32 = claimWord e.t e.g
      let said (g : Group) (r : Bool) : Group := g.mapCtx (fun c => c.setPred p.val act (fun _ => r))
      let s1 := observe s' e.actor (.phys x) 32
      let seen := acquireAt s1 e.g.place .device
      let put (f : Nat) : State := entryPut (bumpGen s1 f).2 e x (bumpGen s1 f).1
      let free : Group := { e.g with claim := none }
      Issues 0xA3 s e → act ≠ 0 → bindMisses (popIssue s) e.view nd ptr = [] →
      bindEntryAt (popIssue s) e.view nd ptr = (.inl x, s') → (nd = .atomic → hostBlocks s' (.phys x) 32 = false) →
      (nd = .atomic → Clear e gd act [inX 64 a] [] [p.val] → e.g.claim = none →
        e.g.ctx.ops.all (fun o => o.accs.all (fun c => c.done || !c.loc.overlaps c.size (.phys x) 32)) = true →
        (fld v 64 2 = 0 → exec (.bindClaim gd p a) s = .next (advance
          (entryPut seen e x (setFld (setFld v 64 2 1) 96 32 (claimWord e.t e.g))) e (said { e.g with claim := some x } true)))
        ∧ (fld v 64 2 ≠ 0 → exec (.bindClaim gd p a) s = .next (advance seen e (said e.g false))))
      ∧ (nd = .atomic → Clear e gd act [inX 64 a] [] [p.val] → e.g.performed (fun _ => true) .device = true →
        (mine → exec (.bindFail gd p a) s = .next (advance (put (setFld (setFld v 64 2 3) 96 32 0)) e (said free true)))
        ∧ (¬mine → exec (.bindFail gd p a) s = .next (advance s1 e (said e.g false)))
        ∧ (fld v 64 2 = 2 → exec (.bindUnbind gd p a) s = .next (advance (put (setFld v 64 2 0)) e (said e.g true)))
        ∧ (fld v 64 2 ≠ 2 → exec (.bindUnbind gd p a) s = .next (advance s1 e (said e.g false))))
      ∧ (nd = .atomic → Clear e gd act [inX 64 a, inX 64 b] [] [p.val] → e.g.performed (fun _ => true) .device = true →
        (mine → exec (.bindSet gd p a b) s = .next (advance
          (put (setFld (setFld (setFld v 0 64 (readInp e (inX 64 b) 0)) 64 2 2) 96 32 0)) e (said free true)))
        ∧ (¬mine → exec (.bindSet gd p a b) s = .next (advance s1 e (said e.g false))))
      ∧ (nd = .load → Clear e gd act [inX 64 a] [] [] →
        e.g.ctx.ops.all (fun o => o.accs.all (fun c => c.done || !c.loc.overlaps c.size (.phys x) 32)) = true →
        exec (.bindRead gd d a) s = .next (advance seen e (e.g.mapCtx (fun c => { c with
          sreg := (List.range 4).foldl (fun t i => tabSet t (4 * d.val + i) (BitVec.ofNat 64 (fld v (64 * i) 64))) c.sreg })))))
  ∧ (∀ (s s' : State) (e : Env) (gd : Guard) (p : Fin 8) (d : Fin 4) (a b : Src) (x : Nat),
      let act := e.active gd
      let ptr := readInp e (inX 64 a) 0
      let miss (nd : Need) : State := missStall (popIssue s) e nd (bindMisses (popIssue s) e.view nd ptr)
      Issues 0xA3 s e →
      (act ≠ 0 → e.g.claim.isSome = true → Clear e gd act [] [] [] →
        (∀ x, operandFault e gd act [inX 64 a] [] [p.val] = some x → x.cause ≠ 0x02) →
        exec (.bindClaim gd p a) s = .next (takeTrap (popIssue s) e { cause := 0x02, lanes := act }))
      ∧ (Clear e gd act [inX 64 a] [] [p.val] →
        (act = 0 → exec (.bindClaim gd p a) s = .next (advance (popIssue s) e e.g)
          ∧ exec (.bindFail gd p a) s = .next (advance (popIssue s) e e.g)
          ∧ exec (.bindUnbind gd p a) s = .next (advance (popIssue s) e e.g))
        ∧ (act ≠ 0 → bindMisses (popIssue s) e.view .atomic ptr ≠ [] →
          (e.g.claim = none → exec (.bindClaim gd p a) s = .next (miss .atomic))
          ∧ exec (.bindFail gd p a) s = .next (miss .atomic) ∧ exec (.bindUnbind gd p a) s = .next (miss .atomic))
        ∧ (act ≠ 0 → bindMisses (popIssue s) e.view .atomic ptr = [] → bindEntryAt (popIssue s) e.view .atomic ptr = (.inl x, s') →
          e.g.performed (fun _ => true) .device = false →
          exec (.bindFail gd p a) s = .next (stall s' e) ∧ exec (.bindUnbind gd p a) s = .next (stall s' e)
          ∧ (Clear e gd act [inX 64 a, inX 64 b] [] [p.val] → exec (.bindSet gd p a b) s = .next (stall s' e)))
        ∧ (∀ c, act ≠ 0 → e.g.claim = none → bindMisses (popIssue s) e.view .atomic ptr = [] →
          bindEntryAt (popIssue s) e.view .atomic ptr = (.inr c, s') → exec (.bindClaim gd p a) s = .next (takeTrap s' e
            { cause := c, lanes := act, addr := ptr, info := if c = 0x21 then e.pc.idx % 2 ^ 28 else 0 })))
      ∧ (Clear e gd act [inX 64 a] [] [] → act ≠ 0 → bindMisses (popIssue s) e.view .load ptr ≠ [] →
        exec (.bindRead gd d a) s = .next (miss .load)))
  ∧ (∀ (s : State) (v : Nat), (bumpGen s v).1 = setFld v 66 30 (fld v 66 30 + 1)
      ∧ (bumpGen s v).2 = (if fld v 66 30 + 1 = 2 ^ 30 then { s with blb := [] } else s))

/-- The invalidations drop the copies that they name and complete once the context's accesses are performed, those of
teams that have left or are saved too; before that they stall, the copies already gone (R68, R71, R81, R286, R355,
R369). A blbi also stalls while a group of the context watches a word through an older generation of such an entry
(R81). Dropped translations are those of the cores and of the dies and the misses in progress (R70); a group that waits
for a word checks its pointer again, and one that fails ends the wait with its cause (R68, R71). That the copies go in
the issuing step and the handler then stalls, and what becomes of a group that waits for a word, is the model's choice
(log 36). -/
def Obligations.InvalidationsComplete : Prop :=
  (∀ (s s' : State) (e : Env) (gd : Guard) (h : Hdr) (a : Src) (d : Nat),
      let c := e.t.ctx
      let p := readInp e (in64 h a) 0
      let n := readInp e (in32 h a) 0
      let s1 := popIssue s
      let drops (i : Instr) (ctx : Option Nat) (u t : State) : Prop :=
        (ctxQuiet u ctx = true → exec i s = .next (advance t e e.g)) ∧ (ctxQuiet u ctx = false → exec i s = .next (stall t e))
      let links (i : Instr) (u : State) (p : Nat → Bool) : Prop :=
        let t : State := { u with blb := u.blb.filter (fun b => !(b.ctx == c && p b.idx)) }
        (linksQuiet u e p = true → drops i (some c) u t) ∧ (linksQuiet u e p = false → exec i s = .next (stall t e))
      (e.active gd ≠ 0 → Clear e gd (e.active gd) [] [] [] →
        (Issues 0xA4 s e → links (.blbiContext gd) s1 (fun _ => true))
        ∧ (Issues 0xA5 s e → drops (.tlbiContext gd) (some c) s1 (dropTlb s1 (fun t => t.ctx == c) (fun m => m.ctx == c)))
        ∧ (Issues 0xA5 s e → drops (.tlbiAll gd) none s1 (dropTlb s1 (fun _ => true) (fun _ => true)))
        ∧ (Issues 0xA6 s e → drops (.sdciContext gd) (some c) s1
            (rewatchAll { s1 with descs := s1.descs.filter (fun t => t.ctx != c) })))
      ∧ (e.active h.guard ≠ 0 → Clear e h.guard (e.active h.guard) [in64 h a] [] [] →
        (Issues 0xA4 s e → governing s1 e.view (fld p 44 20) = (.ok d, s') → fld p 44 20 = 6 → fld p 0 44 % 32 = 0 →
          links (.blbiEntry h a) s' (fun i => i == fld p 0 44 / 32))
        ∧ (Issues 0xA5 s e → drops (.tlbiPage h a) (some c) s1 (dropTlb s1
            (fun t => t.ctx == c && t.vpn * 4096 / 2 ^ t.shift == p % 2 ^ 57 / 2 ^ t.shift)
            (fun m => m.ctx == c && m.vpn == p % 2 ^ 57 / 4096))))
      ∧ (e.active h.guard ≠ 0 → Clear e h.guard (e.active h.guard) [in32 h a] [] [] →
        (Issues 0xA4 s e → governing s1 e.view n = (.ok d, s') → dKind d = 1 →
          links (.blbiModule h a) s' (fun i => decide (dLkBase d ≤ i) && decide (i < dLkBase d + dLkLen d)))
        ∧ (Issues 0xA6 s e → n < 2 ^ 20 →
          drops (.sdciEntry h a) (some c) s1
            (rewatchAll { s1 with descs := s1.descs.filter (fun t => !(t.ctx == c && t.seg == n)) }))
        ∧ (Issues 0xA6 s e → 2 ^ 20 ≤ n →
          exec (.sdciEntry h a) s = .next (takeTrap s1 e { cause := 0x02, lanes := e.active h.guard }))))
  ∧ (∀ (s : State) (p : TlbEntry → Bool) (m : Miss → Bool),
      let t : State :=
        { s with
          tlb := s.tlb.filter (fun t => !p t)
          tlb2 := s.tlb2.filter (fun t => !p t)
          misses := s.misses.filter (fun x => !m x) }
      dropTlb s p m = rewatchAll t
      ∧ ((∀ g ∈ s.groups, ∀ w, g.wait = some w → ∀ ls n cmp o sc, w.cont ≠ .word ls n cmp o sc) → rewatchAll t = t ∧ rewatchAll s = s))
  ∧ (∀ (s s' : State) (g : Group) (t : Team) (w : Wait) (size : Nat) (cmp : WaitCmp) (o : Ord) (sc : Scope) (x : WaitLane) (y : Loc)
      (n : Nat) (r : List (Loc × Nat)) (k : Nat),
      let v : View := { die := g.place.die, core := g.place.core, ctx := t.ctx, team := t.uid, tmemG := t.tmemG, tileG := t.tileG,
                        single := g.handler.isSome, codeSeg := (g.waiting w).2.seg }
      let c := checkAccess s v .load (fld x.ptr 44 20) (fld x.ptr 0 44 : Nat) size 1
      g.wait = some w → teamOf s g.team = some t → w.cont = .word [x] size cmp o sc → x.sat = false →
      (c = (.ok ((y, n) :: r), s') → rewatch s g
        = setGroup s' { g with wait := some { w with cont := .word [{ x with loc := y }] size cmp o sc } })
      ∧ (∀ i b, c = (.fail i k b, s') → rewatch s g = breakWait s' g.place k))

/-- ldphys and stphys complete in single-lane mode on an aligned physical address, and a misaligned ordered one traps
0x0B; with no active lane they are outstanding without an access, and a full class or request queue stalls them (R12,
R105, R325, R366); their lines take the retention that EVP names (R89). The hatch commands complete on the place that
lane 0 names: spill and fill write their predicate, status its s register; a failure at the hatch area is a double
fault, and bits 31:16 that are not zero an illegal operand (R59, R321, R322). That stphys ends its team's clean time, of
which R199 does not speak (log 41), and the cause of that double fault (log 22) are the model's choice. -/
def Obligations.PhysicalAccessesAndHatchCommands : Prop :=
  (∀ (s : State) (e : Env) (m : MHdr) (ty : LdTy) (d : Fin 384) (b : Src),
      let act := e.active m.guard
      let x := physAddr e m
      let size := ldBytes ty
      let u := plainUnit (m.ord == .weak) size x
      let align := match m.ord with | .weak => 1 | _ => size
      let unw : List (Nat × Nat × Bool) := [(d.val, ty.width / 32, false)]
      let body : OpBody := .load ty d.val (m.evp.val = 0)
      let val := narrow ty (readInp e (inX ty.width b) 0)
      (Issues 0xA7 s e → Clear e m.guard act (addrInp m) [(d.val, ty.width / 32)] [] →
        (memStalls (popIssue s) e .ld = false →
          (act ≠ 0 → x % align = 0 → exec (.ldphys m ty d) s = .next (advance (retainAccs (popIssue s) m (physAccs (popIssue s) x size u 0)) e
            (e.g.addMem .ld body (physAccs (popIssue s) x size u 0) m.ord m.scope e.pc unw)))
          ∧ (act ≠ 0 → x % align ≠ 0 →
            exec (.ldphys m ty d) s = .next (takeTrap (popIssue s) e { cause := 0x0B, lanes := act, addr := x }))
          ∧ (act = 0 →
            exec (.ldphys m ty d) s = .next (advance (popIssue s) e (e.g.addMem .ld body [] m.ord m.scope e.pc unw))))
        ∧ (memStalls (popIssue s) e .ld = true → exec (.ldphys m ty d) s = .next (stall (popIssue s) e)))
      ∧ (Issues 0xA8 s e → Clear e m.guard act (inX ty.width b :: addrInp m) [] [] →
        (memStalls (popIssue s) e .st = false →
          (act ≠ 0 → x % align = 0 → exec (.stphys m ty b) s = .next (advance
            (soil (retainAccs (popIssue s) m (physAccs (popIssue s) x size u val)) e.t.uid) e
            (e.g.addMem .st .store (physAccs (popIssue s) x size u val) m.ord m.scope e.pc [])))
          ∧ (act ≠ 0 → x % align ≠ 0 →
            exec (.stphys m ty b) s = .next (takeTrap (popIssue s) e { cause := 0x0B, lanes := act, addr := x }))
          ∧ (act = 0 →
            exec (.stphys m ty b) s = .next (advance (popIssue s) e (e.g.addMem .st .store [] m.ord m.scope e.pc []))))
        ∧ (memStalls (popIssue s) e .st = true → exec (.stphys m ty b) s = .next (stall (popIssue s) e))))
  ∧ (∀ (s t : State) (e : Env) (h : Hdr) (p : Fin 8) (d : Fin 16) (a : Src) (r : Bool) (c : Nat),
      let act := e.active h.guard
      let w := readInp e (in32 h a) 0
      let said (r : Bool) : Group := ((groupAt t e.g.place).getD e.g).mapCtx (fun c => c.setPred p.val act (fun _ => r))
      Issues 0xA9 s e → act ≠ 0 →
      (Clear e h.guard act [in32 h a] [] [p.val] → w < 2 ^ 16 →
        (hatchSpillPlace (popIssue s) e.t.ctx (wordPlace w) = (.inl r, t) →
          exec (.hatchSpill h p a) s = .next (advance t e (said r)))
        ∧ (hatchSpillPlace (popIssue s) e.t.ctx (wordPlace w) = (.inr c, t) →
          exec (.hatchSpill h p a) s = .next (dblFault t e c 0))
        ∧ (hatchFillPlace (popIssue s) e.t.ctx (wordPlace w) = (.inl r, t) →
          exec (.hatchFill h p a) s = .next (advance t e (said r)))
        ∧ (hatchFillPlace (popIssue s) e.t.ctx (wordPlace w) = (.inr c, t) →
          exec (.hatchFill h p a) s = .next (dblFault t e c 0)))
      ∧ (Clear e h.guard act [in32 h a] [] [p.val] → 2 ^ 16 ≤ w →
        exec (.hatchSpill h p a) s = .next (takeTrap (popIssue s) e { cause := 0x02, lanes := act })
        ∧ exec (.hatchFill h p a) s = .next (takeTrap (popIssue s) e { cause := 0x02, lanes := act }))
      ∧ (Clear e h.guard act [in32 h a] [] [] → w < 2 ^ 16 →
        exec (.hatchStatus h d a) s = .next (advance (popIssue s) e (e.g.mapCtx (fun c =>
          { c with sreg := tabSet c.sreg d.val (BitVec.ofNat 64 (hatchStatusWord (popIssue s) e.t.ctx (wordPlace w))) })))))

/-! ### Events -/

/-- Tasks: a push port that has been told to go appends its record or says FULL; a well-formed record whose entry is a
legal target is validated and another is a launch error; a task whose dependence word has reached its threshold, or that
has none, becomes eligible with its argument words read; a failing read is a launch error (R16 to R19, R173, R174), a
translation failure in a pinned segment or in the segment table a double fault of the task's context (R68, R195; what it
records: log 77). A task that captures keeps its record, in bytes of the capture area where the model puts them (R233,
log 10). -/
def Obligations.TasksBecomeEligible : Prop :=
  ∀ (s s' : State) (port die prio task : Nat) (k : Task) (v c : Nat),
    let word := (List.range 8).foldl (fun v i => v + portReg s port (8 * i) * 2 ^ (64 * i)) 0
    let d := fld (portReg s port 0x40) 0 2
    let q := fld (portReg s port 0x40) 2 3
    let ctl (x : Nat) : Tab 64 := tabSet s.hub.ports (0x70000 + 0x100 * port + 0x48) (BitVec.ofNat 64 x)
    let slot := segPtr (k.f 44 20) (lineOff (k.f 16 28))
    let dep := k.f 256 64
    let args := k.f 448 64
    let kept : State := if k.f 5 1 = 1
      then captureStore { s with capIn := s.capIn ++ [.task (k.f 10 6) k.record] } (k.f 10 6) 64 k.record.toNat else s
    (port < 16 → bitOf (portReg s port 0x48) 63 = true →
      ((queuedTasks s d q).length < 4096 → exec (.pushPortGo port) s = .next { s with
        tasks := s.tasks ++ [newTask s.nextUid d q word 0 (0x70000 + 0x100 * port)]
        nextUid := s.nextUid + 1
        hub := { s.hub with ports := ctl (2 ^ 62) } })
      ∧ (4096 ≤ (queuedTasks s d q).length → exec (.pushPortGo port) s = .next { s with hub := { s.hub with ports := ctl (2 ^ 61) } }))
    ∧ (s.tasks.find? (fun k => k.die == die && k.prio == prio && !k.valid) = some k →
      (recordOk s k = true →
        (entryCheck s k = (.ok, s') → exec (.validateTaskRecord die prio) s = .next (setTask s' { k with valid := true }))
        ∧ (entryCheck s k = (.illegal, s') → exec (.validateTaskRecord die prio) s = .next (launchError s' k 0 0))
        ∧ (∀ x, entryCheck s k = (.trap c x, s') → exec (.validateTaskRecord die prio) s = .next (launchError s' k c slot))
        ∧ (entryCheck s k = (.dbl, s') → exec (.validateTaskRecord die prio) s = .next (taskDouble s' k 0x0C slot)))
      ∧ (recordOk s k = false → exec (.validateTaskRecord die prio) s = .next (launchError s k 0 0)))
    ∧ (taskOf s task = some k → k.valid = true → k.eligible = false →
      (fld dep 44 20 = 0 → exec (.taskEligible task) s = .next (makeEligible s k))
      ∧ (fld dep 44 20 ≠ 0 →
        (hubGetPtr s (k.f 10 6) dep 8 = (.ok v, s') → k.f 320 64 ≤ v → exec (.taskEligible task) s = .next (makeEligible s' k))
        ∧ (hubGetPtr s (k.f 10 6) dep 8 = (.ok v, s') → v < k.f 320 64 → exec (.taskEligible task) s = .next s')
        ∧ (hubGetPtr s (k.f 10 6) dep 8 = (.fail c, s') → exec (.taskEligible task) s = .next (launchError s' k c dep))
        ∧ (hubGetPtr s (k.f 10 6) dep 8 = (.dbl c, s') → exec (.taskEligible task) s = .next (taskDouble s' k c dep))))
    ∧ (fld args 44 20 = 0 → makeEligible s k = setTask kept
        { k with
          eligible := true
          args := 0 })
    ∧ (fld args 44 20 ≠ 0 →
      (hubGetPtr kept (k.f 10 6) args 64 = (.ok v, s') → makeEligible s k = setTask s'
        { k with
          eligible := true
          args := BitVec.ofNat 512 v })
      ∧ (hubGetPtr kept (k.f 10 6) args 64 = (.fail c, s') → makeEligible s k = launchError s' k c args)
      ∧ (hubGetPtr kept (k.f 10 6) args 64 = (.dbl c, s') → makeEligible s k = taskDouble s' k c args))
    ∧ (∃ r, taskDouble s k c dep = doubleFault (dropTask s k.id) (k.f 10 6) c (pcWord ⟨k.f 44 20, k.f 16 28⟩) dep r
      ∧ r.code = 5 ∧ r.grid = k.f 384 64)

/-- Placement: a die's dispatcher takes the tasks of its order one after the other, passes over each that fits no core, whose
wait clock for the die then starts, and places the first that fits one; a task that has waited 100,000 clocks
takes the die's reservation, from a lower or later one too, but not from a higher or older holder or one of its priority that
has a requeued team (R177, R178, R236). A placed team: its groups stand in their places with all lanes at the entry,
fresh registers of their role's frame and an empty casement, b0 to b15 hold the arguments, its team memory reads zero,
and a team with no requeued index takes the next one (R20, R22). -/
def Obligations.TeamsArePlaced : Prop :=
  (∀ (s : State) (die c : Nat) (k : Task) (pre rest : List Task) (at_ : List (Nat × Nat)),
      let order := sortBy (taskOrder s die) (s.tasks.filter (placeable s die)).length (s.tasks.filter (placeable s die))
      let room (j : Task) : Option (Nat × List (Nat × Nat)) := pickCore s die (j.f 66 8) (j.f 129 11) j.frames
      let passed (s : State) (j : Task) : State :=
        if j.waitFrom.any (fun x => x.1 == die) = true then s else setTask s { j with waitFrom := (die, s.clock) :: j.waitFrom }
      let held := (s.dies.getD die Die.reset).reserved
      (order = pre ++ k :: rest → (∀ j ∈ pre, room j = none) → room k = some (c, at_) →
        exec (.placeTeam die) s = .next (placeOn (pre.foldl passed s) die k c at_))
      ∧ ((∀ j ∈ order, room j = none) → exec (.placeTeam die) s = .next (order.foldl passed s))
      ∧ (leastBy (taskOrder s die) (s.tasks.filter (fun k => k.valid && k.eligible && k.queued && bitOf (k.f 6 4) die
          && k.waitFrom.any (fun x => x.1 == die && decide (x.2 + 100000 ≤ s.clock)))) = some k →
        let takes (left : List (Nat × Bool)) : State := setDie s die (fun d => { d with reserved := (k.id, false) :: left })
        (held = [] → exec (.dieReservation die) s = .next (takes []))
        ∧ (∀ h urgent r t, held = (h, urgent) :: r → taskOf s h = some t →
          let stays : Prop := if urgent = true then k.prio ≤ t.prio else taskOrder s die t ≤ taskOrder s die k
          (stays → exec (.dieReservation die) s = .next s)
          ∧ (¬stays → exec (.dieReservation die) s
            = .next (takes ((if urgent = true then held else r).filter (fun h => h.1 != k.id)))))))
  ∧ (∀ (s : State) (die core : Nat) (k : Task) (at_ : List (Nat × Nat)), teamOf s s.nextUid = none →
      let t := placeOn s die k core at_
      (∃ u, teamOf t s.nextUid = some u ∧ u.tmem = [] ∧ u.tile = [] ∧ u.ngroups = k.f 74 6
        ∧ u.index = k.requeued.headD k.next
        ∧ ∀ n, tabGet u.breg n = if n < 16 then BitVec.ofNat 32 (fld k.args.toNat (32 * n) 32) else 0)
      ∧ ∀ g, g < at_.length → ∃ x ∈ t.groups, x.team = s.nextUid ∧ x.index = g
        ∧ x.place = ⟨die, core, (at_.getD g (0, 0)).1, (at_.getD g (0, 0)).2⟩
        ∧ x.slices = List.replicate 8 { pc := ⟨k.f 44 20, k.f 16 28⟩, run := 15, stack := [], arrived := false, held := none }
        ∧ x.main = RegCtx.fresh (List.replicate (k.frame (k.role g)) false) ∧ x.wait = none ∧ x.exited = false)

/-- Leaving: an exited group without returning operations gives its slot back, and what it has outstanding goes on; a
team whose groups have exited and whose memory no engine uses retires: its memory is gone, its crews and the objects in
it are forgotten; a finished grid whose accesses are performed increments its completion word or has none, a failed one
reports CODE 0x08 (R21, R33, R34, R127, R204). That the completion word needs W alone (log 52), which operations a team waits
for (log 37) and where a departed group's operations stand (log 51) are the model's choice. -/
def Obligations.TeamsAndGridsLeave : Prop :=
  ∀ (s s' : State) (p : Place) (g : Group) (team task : Nat) (t : Team) (k : Task) (x : Loc) (r : List (Loc × Nat)),
    (groupAt s p = some g → g.exited = true → g.allOps.any (fun o => o.returns) = false →
      exec (.groupSlotRelease p) s = .next (dropSettled { s with
        groups := s.groups.filter (fun x => x.place != p)
        departed := s.departed ++ [g] }))
    ∧ (dropSettled s = { s with
        departed := (dropSettled s).departed
        retired := (dropSettled s).retired }
      ∧ ∀ h, h ∈ (dropSettled s).departed ↔ h ∈ s.departed ∧ h.allOps ≠ [])
    ∧ (teamOf s team = some t → teamDone s team = true → ∃ u, exec (.teamRetire team) s = .next u
      ∧ (∀ y ∈ u.teams, y.uid ≠ team) ∧ (∀ b, teamMem u team b = []) ∧ (∀ y ∈ u.crews, y.team ≠ team)
      ∧ (∀ y ∈ u.shutters, y.owner.uid ≠ team) ∧ (∀ y ∈ u.retired, y ∉ s.retired → y.tmem = [] ∧ y.tile = [] ∧ y.uid = t.uid)
      ∧ u.tasks = s.tasks.map (fun k => if k.id == t.task then { k with live := k.live - 1 } else k))
    ∧ (taskOf s task = some k → k.failed = false → k.isOver = true → gridSettled s task = true →
      (fld (k.f 384 64) 44 20 = 0 → exec (.gridRetire task) s = .next (dropTask s task))
      ∧ (fld (k.f 384 64) 44 20 ≠ 0 →
        hubAccess s false (k.f 10 6) .store (fld (k.f 384 64) 44 20) (fld (k.f 384 64) 0 44) 8 8 = (.ok ((x, 8) :: r), s') →
        accessFails s' x true = false → hostBlocks s' x 8 = false →
        exec (.gridRetire task) s = .next (watchAll (performRmw (dropTask s' task) outsider false true (k.f 10 6) x 8
          (fun v => (v + 1) % 2 ^ 64)).2)))
    ∧ (taskOf s task = some k → k.failed = true → k.live = 0 →
      exec (.gridFail task) s = .next (postError (dropTask s task) (k.f 10 6) { code := 0x08, grid := k.f 384 64 }))

/-- Issue: once in a clock a partition passes over the fragments that would stall and puts its best-ranked ready one
first in the issue slots, and the next instruction behind it where the line pairs the two; the oldest ready pending
group fills a place of the active set; a wait that is over ends, or goes on as a wait for the group's spilled frame, and
one that is not stays; watched words are evaluated; a line whose parity is wrong on arrival is fetched once more, and a
second mismatch or a wrong format is its trap; a walk that succeeds fills both levels of translation, and one that fails
stays with its failure (R29, R58, R70, R115, R179 to R181, R240, R375). A word wait is over exactly when every lane has
been seen satisfied, a counter wait when its thresholds are met, a barrier wait when its phase change has been
signalled, a binding wait when the entry has left state 1; a broken record is over (R78, R104, R115, R117, R180). The
lanes that 0x04 and 0x21 record (log 15), and that a failed walk stays in the table and a good one fills both levels
(log 78), are the model's choice. -/
def Obligations.IssueAndWaitsProceed : Prop :=
  (∀ (s s' : State) (die core part dt : Nat) (p : Place) (g : Group) (w : Wait) (t : Team) (e : Env)
      (first second : BitVec 512) (line : Line) (ctx lin : Nat) (write : Bool) (r : Nat × Nat),
      let later : State := { s with clock := s.clock + dt }
      let q : Place := ⟨die, core, part, 0⟩
      let here := inPart s q
      let ready := passOver q 8 later
      let slot : Issuer :=
        { place := e.g.place
          slices := sliceBits e.slices
          pc := none }
      let seen (flips : BitVec 512) : Nat := (BitVec.ofNat 512 line ^^^ flips).toNat
      let vpn := lin / 4096
      let x := tlbEntryOf { hubView ctx false with die := die, core := core % 48 } vpn write r
      let waits (m : Miss) : Bool := m.die == die && m.ctx == ctx && m.vpn == vpn
      (issuedNow later q = true → exec (.issueSelect die core part dt) s = .next later)
      ∧ (issuedNow later q = false →
        (leastBy (issueRank later.clock) (issuers ready q) = none → exec (.issueSelect die core part dt) s = .next ready)
        ∧ (leastBy (issueRank later.clock) (issuers ready q) = some e →
          ∃ rest, exec (.issueSelect die core part dt) s = .next { ready with issue := s.issue ++ slot :: rest } ∧ rest.length ≤ 1
            ∧ (pairedNext ready e = true → rest = [{ slot with pc := some e.pc.next }])))
      ∧ ((here.filter (fun g => g.active && !g.exited)).length < 8 →
        leastBy Group.age (here.filter (fun g => g.runnable && !g.active)) = some g →
        exec (.activeSetRefill die core part) s = .next (setGroup s { g with active := true }))
      ∧ (groupAt s p = some g → g.wait = some w →
        (teamOf s g.team = some t → g.exited = false →
          (waitOver s g w = true → (g.hatched = false ∨ g.handler.isSome = true ∨ w.cont = .refill) →
            exec (.waitRecordRetest p) s = .next (endWait s t g w))
          ∧ (waitOver s g w = true → g.hatched = true → g.handler = none → w.cont ≠ .refill →
            exec (.waitRecordRetest p) s = .next (setGroup s (g.waitRefill (some w) s.clock)))
          ∧ (waitOver s g w = false → exec (.waitRecordRetest p) s = .next s))
        ∧ exec (.waitvReevaluate p) s = .next (watchGroup s g)
        ∧ (∀ ls n cmp o sc a, w.cont = .word ls n cmp o sc →
          (∃ x ∈ ls, x.loc = .phys a ∧ (prange a = .host ∨ ∃ n, prange a = .peer n)) →
          exec (.waitvPeriodicCheck p) s = .next (watchGroup s g)))
      ∧ (groupAt s p = some g → envAt s p (sliceBits (turnSlices g)).toNat = some e →
        fetchLine s e.view e.pc.seg e.pc.idx = (.inl line, s') →
        (parityOk (seen first) = true → formatOk (seen first) = true → exec (.lineDecodeCheck p (first, second)) s = .next s')
        ∧ (parityOk (seen first) = false → parityOk (seen second) = true → formatOk (seen second) = true →
          exec (.lineDecodeCheck p (first, second)) s = .next s')
        ∧ (parityOk (seen first) = false → parityOk (seen second) = false →
          exec (.lineDecodeCheck p (first, second)) s = .next (takeTrap s' e { cause := 0x21, lanes := e.live }))
        ∧ (parityOk (seen first) = true → formatOk (seen first) = false →
          exec (.lineDecodeCheck p (first, second)) s = .next (takeTrap s' e { cause := 0x04, lanes := e.live })))
      ∧ (((s.misses.filter (fun m => m.die == die && !m.failed)).take 16).any (fun m => waits m && m.write == write) = true →
        (walk s ctx (vpn * 4096) write = (.inl r, s') → exec (.pageWalkComplete die core ctx lin write) s
          = .next { tlbFill (tlb2Fill s' x) x with misses := s'.misses.filter (fun m => !waits m) })
        ∧ (∀ c, walk s ctx (vpn * 4096) write = (.inr c, s') → exec (.pageWalkComplete die core ctx lin write) s
          = .next { s' with misses := s'.misses.map (fun m => if waits m then { m with failed := true } else m) })))
  ∧ (∀ (s : State) (q p : Place) (n : Nat) (h : Group), (passOver q n s).issue = s.issue ∧ (passOver q n s).clock = s.clock
      ∧ (groupAt (passOver q n s) p = some h → ∃ g, groupAt s p = some g ∧ h = { g with
          stalled := h.stalled
          walked := h.walked })
      ∧ ((∀ e ∈ issuers s q, e.wouldStall s = false) → passOver q n s = s))
  ∧ (∀ (s : State) (g : Group) (w : Wait) (th : BitVec 30) (y : Bool) (ls : List WaitLane) (n : Nat) (cmp : WaitCmp) (o : Ord)
      (sc : Scope) (x : Loc) (ph : Nat),
      (w.broken ≠ none → waitOver s g w = true)
      ∧ (w.broken = none →
        (w.cont = .counters th y → (waitOver s g w = true ↔ ∀ c, threshold th c ≠ 63 → g.ctx.count c ≤ threshold th c))
        ∧ (w.cont = .word ls n cmp o sc → (waitOver s g w = true ↔ ∀ l ∈ ls, l.sat = true))
        ∧ (w.cont = .barrier x ph → waitOver s g w = w.signal)
        ∧ (w.cont = .bind x → (waitOver s g w = true ↔ fld (locRead s x 32) 64 2 ≠ 1))))

/-- Blocks: freed blocks go to the oldest frame waiter, whose request is then carried out: a claim, a call, a return, or
its own spilled frame; two reserve blocks go to the group that has waited longest for a handler; a hatched group that
waits for its frame has it refilled. The hatch serves the oldest waiter of a partition, any where all groups wait, and
one that has waited 4,096 clocks; where no victim has room the request is broken with frame fault (R50, R51, R54, R55,
R57 to R59). What the double fault of a failing refill records is the model's choice (log 22). -/
def Obligations.FramesAreGranted : Prop :=
  (∀ (s : State) (die core part n : Nat) (p : Place) (g : Group) (t : Team) (bs : List Bool),
      let q : Place := ⟨die, core, part, 0⟩
      let everyone := ((inPart s q).filter (fun g => !g.exited)).all (fun g => g.wait.isSome)
      (frameWaiter s q = some (g, n) → takeBlocks s g n = some bs → exec (.frameGrant die core part) s = .next (grantFrame s g bs))
      ∧ (frameWaiter s q = some (g, n) → takeBlocks s g n = none → exec (.frameGrant die core part) s = .next s)
      ∧ (leastBy (fun g => (match g.wait with | some w => w.since | none => 0) :: g.age) ((inPart s q).filter Group.waitsHandler)
          = some g → teamOf s g.team = some t →
        (handlerFree s q = true → exec (.handlerFrameGrant die core part) s = .next (enterHandler s t g))
        ∧ (handlerFree s q = false → exec (.handlerFrameGrant die core part) s = .next s))
      ∧ (groupAt s p = some g → g.hatched = true → g.waitsRefill = true → takeBlocks s g g.main.frame.blocks.length = some bs →
        exec (.hatchRefill p) s = .next (grantFrame s g bs))
      ∧ (everyone = true → frameWaiterWhere s q (fun _ => true) = some (g, n) →
        exec (.hatchAct die core part) s = .next (hatchServe s g n))
      ∧ (everyone = false → frameWaiterWhere s q (fun g => match oldestIn s q with | some o => o.place == g.place | none => false)
          = some (g, n) → exec (.hatchAct die core part) s = .next (hatchServe s g n))
      ∧ (frameWaiterWhere s q (fun g => match g.wait with | some w => decide (w.since + 4096 ≤ s.clock) | none => false)
          = some (g, n) → exec (.hatchWaitTimeout die core part) s = .next (hatchServe s g n)))
  ∧ (∀ (s s' : State) (g h : Group) (w : Wait) (t : Team) (bs : List Bool) (n k : Nat) (target : Pc) (args : List (List Age)),
      let ks := (g.waiting w).1
      let pc := (g.waiting w).2
      g.wait = some w → teamOf s g.team = some t →
      (w.cont = .claim n → grantFrame s g bs = setGroup s (((g.claimNow bs).setPc ks pc.next).released s.clock))
      ∧ (w.cont = .call n target args → recordRoom s t g = (.inl h, s') →
        grantFrame s g bs = setGroup s' ((h.callNow ks pc target bs args).released s.clock))
      ∧ (w.cont = .ret n → refillCaller s t g bs = (.inl h, s') → grantFrame s g bs = setGroup s' ((h.retNow n).released s.clock))
      ∧ (w.cont = .refill → refillCurrent s t g bs = (.inl h, s') → grantFrame s g bs = setGroup s' h)
      ∧ (w.cont = .refill → refillCurrent s t g bs = (.inr k, s') → grantFrame s g bs = areaFault s' t g (pcWord pc) 7 k))
  ∧ (∀ (s s' : State) (g : Group) (n : Nat),
      (hatchSpillFor g.place n 6500 none [] s = .covered s' → hatchServe s g n = s')
      ∧ (hatchSpillFor g.place n 6500 none [] s = .noRoom s' → hatchServe s g n = breakWait s' g.place 0x10))

/-- An operation of one access that may be performed completes. A load's register holds the bytes, widened, an acquiring
one acquires at its scope, and it leaves its count; a store's access writes its bytes, rings the doorbell where it
touches it, and wakes those that wait for the word (R94, R98, R104, R115, R190, R324). An atomic is one
read-modify-write of its location with Table 8-1's new value, a cas with the value where the expected one stands, a
cpadd with its pair; the former value is what the operation brings, recorded first where its task captures (R108, R109,
R114, R233). An access that fails is over: a load keeps a data error (0x21) for its waitc, and a store posts an error
record with cause 0x20 from its own instruction (R183, R197). A lane that waits for the host's line asks for it and
stays (R216). That a store rings the doorbell where it touches any byte of it (log 49) and the free value that a failed
access draws (log 17) are the model's choice. -/
def Obligations.OperationsComplete : Prop :=
  ∀ (s : State) (p : Place) (g : Group) (t : Team) (o : Op) (a : Acc) (ty : LdTy) (d : Nat) (stream : Bool),
    holderOf s p o.id = some g → g.findOp o.id = some o → ownerOf s g.team = some t → o.done = false → o.accs = [a] →
    mayPerform g o a = true → a.posted = false → 0 < a.size →
    let w := groupActor t g
    let run := exec (.operationComplete p o.id [] false) s
    let ends (u : State) (a' : Acc) (f : Option OpFail) : Prop := ∀ h, holderOf u p o.id = some h →
      run = .next (settleOp u t h { o with
        accs := [a']
        fail := f })
    let index : BitVec 64 := BitVec.ofNat 64 (o.pc.idx % 2 ^ 28)
    (o.body = .load ty d stream →
      (accessFails s a.loc false = false →
        let r := performLoad s w (o.ord == .weak) stream a.loc a.size
        let u := if o.acquires then acquireAt r.2 g.place o.scope else r.2
        let o' : Op := { o with accs := [{ a with
          done := true
          val := r.1 }] }
        let whole : Op :=
          { o' with
            done := true
            fail := match o.fail with | some f => if f.cause = 0x21 ∨ f.cause = 0x22 then some f else none | none => none }
        run = .next (watchAll (putGroup { u with fresh := if o.fail.isSome then u.fresh + 32 * 384 else u.fresh }
            ((g.deliver o' d (ty.width / 32) u.fresh (widen ty)).putOp whole))))
      ∧ (accessFails s a.loc false = true → ends s { a with
          done := true
          posted := true } (some { cause := 0x21, addr := 0, info := index })))
    ∧ (o.body = .store →
      (accessFails s a.loc true = false → hostBlocks s a.loc a.size = false →
        let stored := performStore s w a.loc a.size a.val
        ends (watchAll (if ringsBell a = true then { stored with irqs := stored.irqs ++ [.doorbell t.ctx] } else stored))
          { a with done := true } o.fail)
      ∧ (accessFails s a.loc true = false → hostBlocks s a.loc a.size = true →
        ends (askHost s a.loc a.size) a o.fail)
      ∧ (accessFails s a.loc true = true → o.fail = none →
        let u := postError s t.ctx
          { code := 0x03, cause := 0x20, pc := pcWord o.pc, addr := a.ptr, who := whoWord t g, team := t.index,
            grid := t.grid.toNat, paddr := (match a.loc with | .phys x => x | _ => 0), exited := g.exited }
        ends { u with fresh := u.fresh + 1 } { a with
          done := true
          posted := false
          exp := Config.choice u.fresh % 2 } (some { cause := 0x20, addr := 0, info := 0 })))
    ∧ (replaying s t = false → accessFails s a.loc true = false → hostBlocks s a.loc a.size = false →
      let acts (r : Nat × State) : Prop :=
        let kept := recordCap r.2 t g o a.lane
        ends (watchAll (if o.acquires then acquireAt kept g.place o.scope else kept)) { a with
          done := true
          val := r.1 } o.fail
      (∀ op ty x, o.body = .atom op ty x → acts (performRmw s w x.isSome false t.ctx a.loc a.size (fun y => atomNew op ty y a.val)))
      ∧ (∀ x n, o.body = .cas x n →
        acts (performRmw s w true false t.ctx a.loc a.size (fun y => if y = a.exp then a.val else y)))
      ∧ (∀ wide x, o.body = .cpadd wide x →
        acts (performRmw s w true true t.ctx a.loc a.size (fun y => cpaddNew wide y a.val))))

/-- Other operations: one that a capturing task orders is performed and recorded, a replayed one waits and is performed
in its record's order, and one past the record ends its team; a spilled reduction's record is performed; a pair merges
into the switch's buffer and an entry is flushed to its bank, in the order of its record where its launch is replayed,
or fails with its pairs where the bank is out of reach (R144, R230; what its record names: log 106); poison and a failed
link fail the accesses to the host and to the peer (R113, R122, R220, R222, R233, R234). A copy engine's snapshot of an
input segment is kept for the capture (R233); that one which cannot be read is empty is the model's choice (log 10).
Shutters: a performed sts writes its value; on a cell of its own it keeps the former value, on another it opens a cell
with the value that stood there where its home has room, and answers false where it has not; foreign and overlapping
cells settle. A retract of an unobserved cell of its own restores the former value and answers true, an observed one
leaves the value and answers false, and any other does nothing; settle forgets the cell. What sts stores in slice memory
a retract takes back byte for byte, unless another agent has seen it (R9, R123 to R125, R352). Queues: a push that fits
gives its lanes the indices from TAIL on, writes each entry to its slot and advances TAIL; one that does not changes no
slot and answers false. A pop's lanes take the indices from HEAD on, which advances at once; an entry already pushed is
read, and another index is recorded for the lane, to which the push that fills it delivers the entry with an acquire;
for a team that is saved it waits at its slot (R173, R175, R176, R344). An older pop does not hold back a later one (log
30, the model's choice). -/
def Obligations.OrderedOperationsProceed : Prop :=
  (∀ (s s' : State) (p : Place) (id lane k n i peer task ptr x : Nat) (g : Group) (t : Team) (o : Op) (m : Merge) (h : CapRec) (a : Acc)
    (job : Task),
    let far (m : Merge) : Bool := match m.loc with
      | .phys x => (match prange x with | .peer n => n == peer | _ => false)
      | _ => false
    (s.merge[k]? = some m →
      let parts := m.parts s
      let gone : State := { s with merge := s.merge.erase m }
      let bank (s1 : State) : State := mergedDone (spredBank s1 (m.storers s) m.loc m.op m.ty m.val) m
      (accessFails s m.loc true = true → exec (.mergeEntryFlush k) s = .next (failPairs s (fun x => x == m)))
      ∧ (accessFails s m.loc true = false → arrivalHeld s parts m = true → exec (.mergeEntryFlush k) s = .next s)
      ∧ (accessFails s m.loc true = false → arrivalHeld s parts m = false →
        (hostBlocks s m.loc (spredSize m.ty) = false →
          exec (.mergeEntryFlush k) s = .next (bank (recordArrival (takeArrival gone parts m) parts m)))
        ∧ (hostBlocks s m.loc (spredSize m.ty) = true → exec (.mergeEntryFlush k) s = .next (askHost s m.loc (spredSize m.ty))))
      ∧ ((∀ x ∈ parts, recordsTask s x.1 = false ∧ replaying s x.1 = false) →
        arrivalHeld s parts m = false ∧ recordArrival (takeArrival gone parts m) parts m = gone)
      ∧ (∀ g u, parts = [(u, g, [o])] → replaying s u = true → s.replay.find? (fun r => r.task == u.task) = some h →
        (arrivalHeld s parts m = true ↔ (∃ r ∈ s.replay, r.task = u.task ∧ arrivalOf r parts m = true)
          ∧ arrivalOf h parts m = false)
        ∧ (arrivalOf h parts m = true → takeArrival gone parts m = { gone with replay := s.replay.erase h }))
      ∧ (∀ g u, parts = [(u, g, [o])] → recordsTask s u = true → ∃ r, r.lane = 32 + (((o.accs.find? (fun a => a.loc == m.loc)).map
          (·.lane)).getD 0) ∧ recNames r u g o = true ∧ (recordArrival gone parts m).capture = s.capture ++ [r]))
    ∧ exec (.poisonReceived p id) s = .next (failWhere s p id Acc.toHost)
    ∧ exec (.peerLinkFailure peer) s = .next ((s.groups ++ s.departed).foldl
        (fun s g => g.allOps.foldl (fun s o => failWhere s g.place o.id (fun a => a.toPeer peer)) s)
        (failPairs s far))
    ∧ ((∀ g ∈ s.groups ++ s.departed, g.place = p → ∀ o ∈ g.allOps, ∀ a ∈ o.accs, a.posted = false) →
      exec (.postingReplay p) s = .next s)
    ∧ (((s.groups ++ s.departed).filter (fun g => g.place == p)).find? (fun g => (firstPosted g).isSome) = some g →
      firstPosted g = some (o, i) → ownerOf s g.team = some t → o.accs[i]? = some a →
      exec (.postingReplay p) s = .next (replayPosted s t g o i a))
    ∧ (taskOf s task = some job → bitOf job.record.toNat 5 = true → job.next = 0 → job.requeued = [] → job.die = p.die →
      let kept (s : State) (bytes : List (BitVec 8)) : State :=
        captureStore { s with capIn := s.capIn ++ [.snapshot (job.f 10 6) task ptr bytes] } (job.f 10 6) bytes.length (bytesVal bytes)
      (hubRead s false (job.f 10 6) (fld ptr 44 20) (fld ptr 0 44) n = (.ok x, s') →
        exec (.captureRecord p (.snapshot task ptr n)) s
          = .next (kept s' ((List.range n).map (fun i => BitVec.ofNat 8 (fld x (8 * i) 8)))))
      ∧ (hubRead s false (job.f 10 6) (fld ptr 44 20) (fld ptr 0 44) n = (.fail x, s') →
        exec (.captureRecord p (.snapshot task ptr n)) s = .next (kept s' []))
      ∧ (hubRead s false (job.f 10 6) (fld ptr 44 20) (fld ptr 0 44) n = (.dbl x, s') →
        exec (.captureRecord p (.snapshot task ptr n)) s = .next (doubleFault s' (job.f 10 6) x 0 ptr { code := 5 })))
    ∧ (holderOf s p id = some g → g.findOp id = some o → ownerOf s g.team = some t → o.done = false →
      (o.ordered = true → recordsTask s t = true → replaying s t = false →
        exec (.captureRecord p (.op id)) s = .next (performOp s p id [] false))
      ∧ (o.ordered = true → replaying s t = true → exec (.captureRecord p (.op id)) s = .next s)
      ∧ (o.ordered = true → replaying s t = true →
        (s.replay.find? (fun r => r.task == t.task) = some h → recNames h t g o = true → h.lane < 32 →
          laneOver (performOp s p id [h.lane] false) p id h.lane = true →
          exec (.replayRelease p id) s = .next { performOp s p id [h.lane] false with
            replay := (performOp s p id [h.lane] false).replay.erase h })
        ∧ ((∀ r ∈ s.replay, recNames r t g o = true → 32 ≤ r.lane) → (∃ a ∈ o.accs, laneOver s p id a.lane = false) →
          exec (.replayRelease p id) s = .next (killTeamOp s t.uid false))
        ∧ exec (.operationComplete p id [] false) s = .next s)
      ∧ (∀ x y, o.body = .spred x y → replaying s t = false →
        exec (.spredMerge p id lane) s = .next (performOp s p id [lane] false))))
  ∧ (∀ (s : State) (w : Actor) (me : Storer) (x : Loc) (n v : Nat), w.storer = some me → 0 < n →
      let own (c : Shutter) : Bool := c.loc == x && c.size == n && c.owner == me
      let stay := s.shutters.filter (fun c => own c || !c.loc.overlaps c.size x n)
      let room : Prop := (stay.filter (fun c => homeOf c.loc == homeOf x)).length < 4096
      let r := performSts s w me x n v
      let gone : State := { s with shutters := s.shutters.filter (fun c => !own c) }
      (stay.any own = true → r.1 = true ∧ r.2 = actWrite { s with shutters := stay } w x n v)
      ∧ (stay.any own = false → room → r.1 = true ∧ r.2 = actWrite { s with
          shutters := { loc := x, size := n, former := locRead s x n, owner := me, seen := false } :: stay } w x n v)
      ∧ (stay.any own = false → ¬room → r.1 = false ∧ r.2 = actWrite { s with shutters := stay } w x n v)
      ∧ performSettle s me x n = gone
      ∧ (s.shutters.any own = false → performRetract s me x n = (false, s))
      ∧ (∀ c, s.shutters.find? own = some c →
        (c.seen = true → performRetract s me x n = (false, gone))
        ∧ (c.seen = false → performRetract s me x n = (true, restoreCell gone c))))
  ∧ (∀ (s : State) (w : Actor) (me : Storer) (a n v : Nat), s.inv = true → w.storer = some me → 0 < n →
      s.shutters.all (fun c => !c.loc.overlaps c.size (.smem a) n) = true →
      (s.shutters.filter (fun c => homeOf c.loc == homeOf (.smem a))).length < 4096 →
      let t := (performSts s w me (.smem a) n v).2
      let back := performRetract t me (.smem a) n
      (∀ b, (tabGet t.smem b).toNat = if a ≤ b ∧ b < a + n then v / 256 ^ (b - a) % 256 else (tabGet s.smem b).toNat)
      ∧ back.1 = true ∧ back.2.shutters = s.shutters ∧ (∀ b, tabGet back.2.smem b = tabGet s.smem b)
      ∧ (∀ other : Actor, other.storer ≠ some me →
        (performRetract (observe t other (.smem a) n) me (.smem a) n).1 = false
        ∧ (performRetract (observe t other (.smem a) n) me (.smem a) n).2.smem = t.smem))
  ∧ (∀ (s : State) (p : Place) (g : Group) (t : Team) (o : Op) (a : Acc), holderOf s p o.id = some g → g.findOp o.id = some o →
      ownerOf s g.team = some t → o.done = false → o.accs = [a] → mayPerform g o a = true → a.posted = false → 0 < a.size →
      (teamOf s t.uid).isSome = true →
      let w := groupActor t g
      let me := storerOf t g
      let ends (u : State) (a' : Acc) : Prop := ∀ h, holderOf u p o.id = some h →
        exec (.operationComplete p o.id [] false) s = .next (settleOp u t h { o with accs := [a'] })
      let said (r : Bool) : Acc := { a with
        done := true
        exp := if r = true then 1 else 0 }
      (accessFails s a.loc true = false → hostBlocks s a.loc a.size = false →
        (∀ q, o.body = .sts q → ends (watchAll (performSts s w me a.loc a.size a.val).2) (said (performSts s w me a.loc a.size a.val).1))
        ∧ (∀ q, o.body = .retract q →
          ends (watchAll (performRetract s me a.loc a.size).2) (said (performRetract s me a.loc a.size).1)))
      ∧ (accessFails s a.loc false = false → o.body = .settle → ends (watchAll (performSettle s me a.loc a.size)) { a with
          done := true
          val := 0 })
      ∧ (∀ (h : Group) (q fresh : Nat) (o' : Op), (o'.body = .sts q ∨ o'.body = .retract q) → h.handler = none →
        h.main.ops.any (fun x => x.id == o'.id) = true → ∀ n l, l < 32 → (h.landOp o' fresh).main.predAt n l =
          if n = q ∧ n ≠ 7 ∧ o'.accs.any (fun x => x.lane == l) = true then o'.accs.any (fun x => x.lane == l && x.exp == 1)
          else h.main.predAt n l))
  ∧ (∀ (s : State) (w : Actor) (o : Op) (q head esz cap ring : Nat), s.inv = true → o.body = .qpush q head esz cap ring →
      let tail := memRead s.smem head 8
      let hd := memRead s.smem (head + 8) 8
      let n := o.accs.length
      let r := performPush s w o head esz cap ring
      let slot (k : Nat) : Nat := ring + (tail + k) % 2 ^ 64 % 2 ^ cap * esz
      (diff64 (tail + n) hd > 2 ^ cap → r.1.accs = o.accs.map (fun a => { a with
          done := true
          exp := 0 }) ∧ r.2.smem = s.smem ∧ r.2.qres = s.qres)
      ∧ (diff64 (tail + n) hd ≤ 2 ^ cap → r.1.accs = o.accs.map (fun a => { a with
          done := true
          exp := 1 })
        ∧ ((∀ x ∈ s.qres, x.head ≠ head) → cap ≤ 20 → n ≤ 2 ^ cap → (head + 64 ≤ ring ∨ ring + esz * 2 ^ cap ≤ head) →
          memRead r.2.smem head 8 = (tail + n) % 2 ^ 64 ∧ memRead r.2.smem (head + 8) 8 = hd
          ∧ ∀ (k : Nat) (a : Acc), o.accs[k]? = some a → memRead r.2.smem (slot k) esz = a.val % 256 ^ esz)))
  ∧ (∀ (s : State) (w : Actor) (head ring cap esz i v : Nat) (a : Acc) (r : List Acc) (x : QRes) (p : Place) (id lane : Nat)
      (g : Group) (t : Team) (o : Op),
      let put := actWrite s w (slotLoc ring cap esz i) esz a.val
      (put.qres.find? (fun q => q.head == head && q.index == i) = some x → pushEntries w head ring cap esz i (a :: r) s
        = pushEntries w head ring cap esz ((i + 1) % 2 ^ 64) r
          (giveEntry { put with qres := put.qres.filter (fun q => !(q.head == head && q.index == i)) } x a.val))
      ∧ (x.waiter = some (p, id, lane) → s.saved.any (fun v => v.team.uid == id / 2 ^ 32) = true →
        giveEntry s x v = { s with qres := s.qres ++ [{ x with entry := some v }] })
      ∧ (x.waiter = some (p, id, lane) → s.saved.any (fun v => v.team.uid == id / 2 ^ 32) = false → holderOf s p id = some g → g.findOp id = some o → ownerOf s g.team = some t →
        giveEntry s x v = settleOp (acquireAt s g.place .device) t g { o with accs := o.accs.map (fun a =>
          if a.lane = lane then
            { a with
              val := v
              done := true }
          else a) })
      ∧ (x.waiter = none → giveEntry s x v = s))
  ∧ (∀ (s : State) (w : Actor) (p : Place) (o : Op) (d head esz cap ring : Nat), s.inv = true →
      o.body = .qpop d head esz cap ring → o.accs ≠ [] → (∀ a ∈ o.accs, a.exp = 0 ∧ a.done = false) →
      let tail := memRead s.smem head 8
      let h := memRead s.smem (head + 8) 8
      let n := o.accs.length
      let r := popGrant s w p true o
      let index (k : Nat) : Nat := (h + k) % 2 ^ 64
      memRead r.2.smem (head + 8) 8 = (h + n) % 2 ^ 64
      ∧ (∀ b, (b < head + 8 ∨ head + 16 ≤ b) → tabGet r.2.smem b = tabGet s.smem b)
      ∧ (∀ (k : Nat) (a : Acc), o.accs[k]? = some a → r.1.accs[k]? = some (if 0 < diff64 tail (index k) then
          { a with
            val := memRead s.smem (ring + index k % 2 ^ cap * esz) esz
            exp := 1
            done := true }
          else { a with exp := 1 }))
      ∧ r.2.qres = s.qres ++ ((List.range n).filter (fun k => !decide (0 < diff64 tail (index k)))).map (fun k =>
          { head := head, index := index k, waiter := some (p, o.id, (o.accs.map (·.lane)).getD k 0),
            entry := none }))
  ∧ (∀ (s : State) (p : Place) (g : Group) (t : Team) (o : Op), holderOf s p o.id = some g → g.findOp o.id = some o →
      ownerOf s g.team = some t → o.done = false → o.accs ≠ [] →
      let w := groupActor t g
      let run := exec (.operationComplete p o.id [] false) s
      (∀ q head esz cap ring, o.body = .qpush q head esz cap ring →
        (∀ a ∈ o.accs, blockedBy (g.olderOps o.id) a.lane a.loc a.size o.rank = false) →
        let r := performPush s w o head esz cap ring
        ∀ h, holderOf r.2 p o.id = some h → run = .next (settleOp r.2 t h r.1))
      ∧ (∀ d head esz cap ring, o.body = .qpop d head esz cap ring → replaying s t = false →
        (∀ a ∈ o.accs, a.exp = 0 ∧ a.done = false) →
        (∀ a ∈ o.accs, blockedBy ((g.olderOps o.id).filter (fun x => !(match x.body with | .qpop .. => true | _ => false)))
          a.lane a.loc a.size o.rank = false) →
        let r := popGrant (recordCap s t g o ((o.accs.map (·.lane)).headD 0)) w g.place true o
        let u := if r.1.accs.any (fun a => a.done) = true then acquireAt r.2 g.place .device else r.2
        ∀ h, holderOf u p o.id = some h → run = .next (settleOp u t h r.1)))

/-- The engines: a granted pass accumulates the rows of its member into the tile store, the last one completes the
instruction; a broken crew's members take 0x17, an underrun's 0x18; an error requeues a clean restartable team or kills
it; a copy engine performs its next command, and a fault stops it at the failing byte (R158, R160, R162, R165, R167, R182,
R299). A pass changes the 32 rows of its member and no other byte: an inactive row keeps its values, or without ACC is
zero; in an active one every element is the exact sum of the former value and its products, rounded once, or for integers
wrapped or clamped (R143, R154, R160). One element of a copy reads its bytes, each as it stands or as it stood when the
command's run began, and writes them at its place; a fill writes its pattern (R90, R298). That a copy goes on after a write
that could not be performed (log 73), that an engine drops a faulted command whose issuer has exited (log 32), the order of
elements (log 31) and whose program counter a pass error records (log 90) are the model's choice. -/
def Obligations.EnginesProceed : Prop :=
  (∀ (s : State) (die cluster engine units d q id : Nat) (k : Crew) (f : MatF) (t : Team) (taken : List (List (BitVec 8)))
    (c : CopyCmd) (err : EngineErr),
    let cmds := ((s.dies.getD die Die.reset).engines).getD engine []
    (pickPass s die cluster = some k → k.st = .running d taken → k.fields = some f → teamOf s k.team = some t →
      let u := setTeam s { t with tile := passRows t.tile k f d taken }
      (d + 1 < k.count → exec (.matrixPassGrant die cluster) s
        = .next (setCrew u { k with st := .running (d + 1) taken, since := s.clock }))
      ∧ (k.count ≤ d + 1 → exec (.matrixPassGrant die cluster) s = .next (finishCrew u k)))
    ∧ (pickPass s die cluster = some k → teamOf s k.team = some t →
      (t.clean = true → (∃ x, taskOf s t.task = some x ∧ bitOf x.record.toNat 4 = true) →
        exec (.matrixPassError die cluster) s = .next (requeueTeam s t.uid))
      ∧ (t.clean = false → ∃ r, r.code = 0x04 ∧ r.cause = 0x1A
        ∧ exec (.matrixPassError die cluster) s = .next (postError (killTeamOp s t.uid false) t.ctx r)))
    ∧ (s.crews.find? (fun k => k.id == id && k.st == .broken) = some k →
      exec (.crewBroken id) s = .next { failMembers s k 0x17 with
        crews := releaseKept ((failMembers s k 0x17).crews.filter (fun x => x.id != id)) (fun x => x.dropKept) })
    ∧ (s.crews.find? (fun k => k.id == id && k.st == .gathering && k.order != 0) = some k → k.metaq = some q →
      (sparseHead s k.die k.cluster q).map (·.id) = some k.id → (metaOf s k.die k.cluster q).length < k.count →
      metaCopyPending s k.die k.cluster q = false →
      exec (.metadataUnderrun id) s = .next (sparseGo k.die k.cluster q 33 { failMembers s k 0x18 with
        crews := releaseKept ((failMembers s k 0x18).crews.filter (fun x => x.id != id)) (fun x => x.dropKept) }))
    ∧ (cmds.find? (fun c => c.fault.isSome && issuerGone s c) = none → pickCmd s cmds = some c →
      exec (.copyEngineStart die engine units) s
        = .next (runCmd s die engine c (if units = 0 ∨ c.selfMeets then c.total + 1 else units) c.pos s))
    ∧ (cmds.find? (fun c => c.fault.isSome && issuerGone s c) = some c →
      exec (.copyEngineStart die engine units) s
        = .next (abandonCmd s die engine c (match c.fault with | some f => f.addr.toNat | none => 0)))
    ∧ (pickCmd s cmds = some c → c.pos < c.total →
      (∀ part b, exec (.copyFault die engine (.data part b)) s = .next (readFails s die engine c 1 part b)
        ∧ exec (.copyFault die engine (.hostOrPeer part b)) s = .next (readFails s die engine c 3 part b)
        ∧ (∀ reason seg off n, c.readOf s part = some (seg, off, n) →
          readFails s die engine c reason part b = copyFails s die engine c reason (segPtr seg (off + b % n)))
        ∧ (∀ reason, c.readOf s part = none → readFails s die engine c reason part b = s))
      ∧ (c.kind ≠ .metaq → exec (.copyFault die engine .write) s
        = .next (runCmd s die engine c 0 (c.pos + 1) (lostWrite s c (c.writeAt s)))))
    ∧ (pickCmd s cmds = some c → c.total ≤ c.pos → exec (.copyFault die engine err) s = .next s))
  ∧ (∀ (tile : Memory) (k : Crew) (f : MatF) (d : Nat) (taken : List (List (BitVec 8))) (m : Member), Memory.wf tile = true →
      k.members.find? (fun x => x.pos == d) = some m →
      let c := 32 * k.count * f.cols * f.tyc.size
      let len := f.cols * f.tyc.size
      let cw := 8 * f.tyc.size
      let w := f.tya.bits
      let start := f.c.toNat * 256 + 32 * d * len
      let old (i : Nat) : Nat := memRead tile (start + i * len) len
      let out := passRows tile k f d taken
      let btile := memRead tile (f.b.toNat * 256) (64 * f.cols)
      let el (i kk : Nat) : Nat := fld (m.a.getD i 0) (w * kk) w
      let bel (kk j : Nat) : Nat := fld btile (w * (kk * f.cols + j)) w
      let was (i j : Nat) : Nat := if f.acc = true then fld (old i) (cw * j) cw else 0
      let sum (i j : Nat) : Nat :=
        if f.tyc = .i32 then
          let a (x : Nat) : Int := if f.tya = .i8 then sint 8 x else x
          let x : Int := (List.range f.tya.k).foldl (fun v kk => v + a (el i kk) * a (bel kk j)) (sint 32 (was i j))
          wrapN 32 (if f.sat = true then max (-(2 ^ 31)) (min (2 ^ 31 - 1) x) else x)
        else
          let g := if f.tyc = .f64 then Fmt.f64 else Fmt.f32
          g.round .rn f.sat ((List.range f.tya.k).foldl (fun v kk =>
            FV.add false v (FV.mul ((f.tya.fmt f.low.toNat).decode (el i kk)) ((f.tya.fmt f.low.toNat).decode (bel kk j))))
            (g.decode (was i j)))
      let dense : Prop := k.isSparse = false ∧ k.isScaled = false ∧ (f.tyc = .i32 ↔ f.tya = .i8 ∨ f.tya = .n8)
      start + 32 * len ≤ f.c.toNat * 256 + c → f.cols * cw = 8 * len ∧ (∀ a, (a < start ∨ start + 32 * len ≤ a) → tabGet out a = tabGet tile a)
        ∧ ∀ i, i < 32 →
          (hasLane m.rows i = false → memRead out (start + i * len) len = if f.acc = true then old i else 0)
          ∧ (hasLane m.rows i = true → dense → memRead out (start + i * len) len
            = (List.range f.cols).foldl (fun row j => row + sum i j * 2 ^ (cw * j)) 0 % 256 ^ len))
  ∧ (∀ (s s2 u : State) (die engine x seg off n : Nat) (c : CopyCmd) (v : View) (nd : Need) (indexed : Bool) (f : Nat → Nat),
      let cmds := ((s.dies.getD die Die.reset).engines).getD engine []
      let goes (t : State) : Prop := exec (.copyEngineStart die engine 1) s = .next
        (if c.total ≤ c.pos + 1 then finishCopyOp (dropCmd t die engine c) c none else setCmd t die engine { c with pos := c.pos + 1 })
      let p := c.piece c.pos
      let dseg := fld c.dst.toNat 44 20
      let me := engineView s c
      (engineRead s s2 v seg off n indexed = (.inl x, u) → ∃ ls s1, enginePlaces s2 v .copySrc seg off n indexed = (.inl ls, s1)
        ∧ ∀ i, i < n → fld x (8 * i) 8 = fld (locsRead s ls) (8 * i) 8 ∨ fld x (8 * i) 8 = fld (locsRead s1 ls) (8 * i) 8)
      ∧ (engineWrite s2 v nd seg off n indexed f = .done u → ∃ ls s1, enginePlaces s2 v nd seg off n indexed = (.inl ls, s1)
        ∧ u = watchAll (locsWrite { outsider with die := v.die, core := v.core } s1 ls (f (locsRead s1 ls))))
      ∧ (cmds.find? (fun c => c.fault.isSome && issuerGone s c) = none → pickCmd s cmds = some c → c.pos < c.total →
        c.selfMeets = false →
        ((c.kind = .linear ∨ c.kind = .strided2 ∨ c.kind = .strided3) →
          engineRead s s me (fld c.src.toNat 44 20) p.1 p.2.2.2 false = (.inl x, s2) →
          engineWrite s2 me .copyDst dseg p.2.1 p.2.2.2 false (fun _ => x) = .done u → goes u)
        ∧ (c.kind = .fill → engineWrite s me .copyDst dseg p.2.1 p.2.2.2 false
            (fun _ => (List.range p.2.2.2).foldl (fun w i => w + fld c.src.toNat (8 * ((p.2.2.1 + i) % 4)) 8 * 256 ^ i) 0) = .done u →
          goes u)))

/-- Coherence: a contention counter falls by one after 1,024 clocks without an atomic of a second core; a word that no
core has registered is granted, one of a line that the host holds asks for it first, and none to a gated cluster; a
revoked word's bytes are at its home; a recalled line is held by its home and the host alone; a die evicts an exclusive
line in two steps; and every byte below the alias aperture reads as before while no alias line waits to be written back
(R111, R205 to R212). A filled alias line holds its window's elements (R149), and one that is evicted is written back
(R150). -/
def Obligations.CoherenceEventsKeepBytes : Prop :=
  ∀ (s : State) (die core addr line idx : Nat) (x : L1Word) (d : DirEntry) (w : Win), s.inv = true → s.aliasQuiet = true →
    let a := addr / 4 * 4
    let mine := s.l1.any (fun x => x.reg && x.addr == a && x.die == die && x.core == core)
    let gated := s.gated.contains (die, clusterOf s die core)
    let kept (t : State) : Prop := ∀ b, b < 2 ^ 51 → curByte t b = curByte s b
    (exec (.contentionDecay idx) s = .next { s with contention := s.contention.map (fun c =>
        if c.idx == idx && decide (c.since + 1024 ≤ s.clock) then
          { c with
            count := c.count - 1
            since := s.clock }
        else c) })
    ∧ (registers s a = true → accessFails s (.phys a) true = false → gated = false → mine = false →
      (hostHolds s (a / 128) = true → exec (.wordRegistration die core addr) s = .next (snoopHost s (a / 128)))
      ∧ (hostHolds s (a / 128) = false → ∃ t x, exec (.wordRegistration die core addr) s = .next t ∧ regOf t a = some x
        ∧ x.die = die ∧ x.core = core ∧ kept t))
    ∧ ((gated = true ∨ accessFails s (.phys a) true = true) → exec (.wordRegistration die core addr) s = .next s)
    ∧ (exec (.registrationRevoke addr) s = .next (revoke s a) ∧ regOf (revoke s a) a = none ∧ kept (revoke s a))
    ∧ (regOf s a = some x → ¬(x.die = die ∧ x.core = core) →
      let t := l1Keep s { outsider with die := die, core := core } a 4
      exec (.forwardedRead die core addr) s = .next t ∧ regOf t a = regOf s a ∧ kept t)
    ∧ (s.hub.flip = none → ∃ t, exec (.lineRecall line) s = .next t
      ∧ (∀ d ∈ t.dir, d.line = line → d.holder = 4 ∨ d.holder = homeDie (line * 128))
      ∧ (∀ x ∈ t.l1, x.reg = true → x.addr / 128 = line → x.die = homeDie (line * 128)) ∧ kept t)
    ∧ (s.dir.find? (fun d => d.line == line && d.holder == die && d.excl) = some d →
      (d.evicting = false → ∃ t, exec (.exclusiveEvict die line) s = .next t
        ∧ (∀ x ∈ t.l1, x.reg = true → x.addr / 128 = line → x.die ≠ die)
        ∧ (∀ y ∈ t.dir, y.line = line → y.holder = die → y.evicting = true) ∧ kept t)
      ∧ (d.evicting = true → exec (.exclusiveEvict die line) s = .next { s with
          dir := s.dir.filter (fun x => !(x.line == line && x.holder == die)) }))
    ∧ (exec (.aliasLineFill line) s = .next (aliasFill s line)
      ∧ exec (.aliasWriteBack (line, false)) s = .next (aliasWb s line)
      ∧ (s.held.contains line = false → exec (.aliasWriteBack (line, true)) s = .next (aliasDrop (aliasWb s line) line)))
    ∧ (aliasLine? s line = none → winFor s (line * 128) = some w →
      aliasLine? (aliasFill s line) line = some { line := line, data := w.line s.mem line, written := 0 })

/-- Pre-emption: a team near its end drains for 62,500 clocks, a clean idempotent one is flushed, any other is saved and
stands in the save area with what its hatch areas hold; one that has ended is left alone; a saved one is restored on a
core that fits, unless a reservation keeps it out, the index of a flushed one goes among its task's requeued ones in
rising order (R17, R178, R200); a context switch bars the context's placement and pre-empts its teams; a kill ends its
groups; a resumed context runs (R189, R198 to R203, R232). How a pre-emption goes on (log 53), that a team is restored
only where the reservation lets it (log 38), where its groups and frames then lie (log 54) and what stands in the save
area (log 81) are the model's choice. -/
def Obligations.PreemptionProceeds : Prop :=
  ∀ (s s' : State) (uid ctx save die core : Nat) (t : Team) (v : Save) (k : Task) (at_ : List (Nat × Nat))
    (areas : List (Nat × Nat)),
    let stopped : State := if s.preStop.contains t.task then s else { s with preStop := t.task :: s.preStop }
    let mine := s.groups.filter (fun g => g.team == uid)
    (teamOf s uid = some t →
      (mine.all (fun g => g.exited) = true → exec (.preemptTeam uid) s = .next s)
      ∧ (mine.all (fun g => g.exited) = false → t.saving = false → t.drain = none →
        (nearEnd stopped t = true → exec (.preemptTeam uid) s = .next (setTeam stopped { t with drain := some (s.clock + 62500) }))
        ∧ (nearEnd stopped t = false → flushable stopped t = true → exec (.preemptTeam uid) s = .next (flushTeam stopped t))
        ∧ (nearEnd stopped t = false → flushable stopped t = false → exec (.preemptTeam uid) s = .next (saveTeam stopped uid)))
      ∧ (∀ d, t.drain = some d → d ≤ s.clock → exec (.drainTimeout uid) s = .next (saveTeam s uid))
      ∧ (t.saving = true → exec (.drainTimeout uid) s = .next (saveTeam s uid))
      ∧ (saveReady s uid = true →
        areaImages t ((dropIssue s uid).groups.filter (fun g => g.team == uid)) (dropIssue s uid) = (some areas, s') →
        (∃ v ∈ (saveTeam s uid).saved, v.team.uid = uid ∧ v.areas = areas)
        ∧ (∀ g ∈ (saveTeam s uid).groups, g.team ≠ uid) ∧ (∀ x ∈ (saveTeam s uid).teams, x.uid ≠ uid)))
    ∧ (s.saved.find? (fun v => v.id == save) = some v → taskOf s v.team.task = some k → bitOf (k.f 6 4) die = true →
      (ctxOf s v.team.ctx).isSome = true → restoreCore s die v = some (core, at_) →
      (reservationRestores s die k = true → exec (.restoreTeam save die) s = .next (restoreOn s v die core at_))
      ∧ (reservationRestores s die k = false → exec (.restoreTeam save die) s = .next s))
    ∧ exec (.contextSwitch ctx) s = .next ((s.teams.filter (fun t => t.ctx == ctx)).foldl (fun s t => preempt s t.uid) { s with
        ctxs := s.ctxs.map (fun c => if c.num == ctx then { c with noPlace := true } else c) })
    ∧ (exec (.killTeam uid) s = .next (killTeamOp s uid false)
      ∧ ((teamOf s uid).isSome = true → ∀ g ∈ (killTeamOp s uid false).groups, g.team = uid → g.exited = true))
    ∧ (reservationRestores s die k = true ↔ match (s.dies.getD die Die.reset).reserved with
      | [] => True
      | (h, urgent) :: _ => match taskOf s h with
        | none => True
        | some x => if urgent = true then x.prio < k.prio else k.id = x.id ∨ taskOrder s die k < taskOrder s die x)
    ∧ (∀ (n : Nat) (l : List Nat), l.Pairwise (· < ·) → n ∉ l →
      (insertUp n l).Pairwise (· < ·) ∧ ∀ x, x ∈ insertUp n l ↔ x = n ∨ x ∈ l)
    ∧ exec (.contextResume ctx) s = .next { s with
        ctxs := s.ctxs.map (fun c => if c.num == ctx then { c with stopped := false } else c)
        groups := s.groups.map (fun g =>
          if (g.wait.isNone && !ctxRuns s ctx && (ownerOf s g.team).any (fun t => t.ctx == ctx)) = true then { g with readyAt := s.clock }
          else g) }

/-- Repair and power: the teams of a fenced core leave it, its caches empty, and one of four spare cores of the die
takes its number, else it issues nothing more; a spare slice or channel is counted once per die, corrected errors are
counted and those of a core are reported by it, 64 of which within 2^30 clocks wear it out; a gated cluster holds no
registration and wakes with empty caches; the clock is only lowered (R14, R15, R212, R231, R232). Which teams are lost
and that a spare takes the number at once (log 55), that a gate waits for quiet and the clock is never raised (log 56),
and what scrub and remap events are told (log 65), are the model's choice. -/
def Obligations.RepairAndPower : Prop :=
  ∀ (s : State) (die core cluster unit line mhz : Nat) (channel : Bool) (lost : List Nat),
    let here (d c : Nat) : Bool := d == die && c == core
    let left := (s.teams.filter (fun t => t.die == die && t.core == core)).foldl (fun s t => fenceTeam s lost t)
      { s with
        fenced := (die, core) :: s.fenced
        coreErrs := s.coreErrs.filter (fun x => !(x.1 == die && x.2.1 == core)) }
    let empty := dropCaches (revokeWhere left (fun x => here x.die x.core)) here
    let used := (s.remapped.filter (fun r => r.1 == die && r.2.1 == channel)).length
    let ecc (lo : Nat) : Hub :=
      { s.hub with ecccnt := BitVec.ofNat 64 (setFld s.hub.ecccnt.toNat lo 32 (fld s.hub.ecccnt.toNat lo 32 + 1)) }
    (s.fenced.contains (die, core) = true → exec (.coreFence die core lost) s = .next s)
    ∧ (s.fenced.contains (die, core) = false →
      (4 ≤ (empty.spareCores.filter (fun x => x.1 == die)).length → exec (.coreFence die core lost) s = .next empty)
      ∧ ((empty.spareCores.filter (fun x => x.1 == die)).length < 4 → exec (.coreFence die core lost) s = .next (countSpare
        { empty with
          spareCores := empty.spareCores ++ [(die, core)]
          fenced := empty.fenced.filter (fun x => x != (die, core)) } 0)))
    ∧ (used < (if channel then 1 else 2) → exec (.spareRemap die channel unit) s
        = .next (countSpare { s with remapped := s.remapped ++ [(die, channel, unit)] } (if channel then 2 else 1)))
    ∧ ((if channel then 1 else 2) ≤ used → exec (.spareRemap die channel unit) s = .next s)
    ∧ (exec (.dramScrub line .clean) s = .next s ∧ exec (.dramScrub line .dram) s = .next { s with hub := ecc 32 }
      ∧ exec (.dramScrub line (.sram none)) s = .next { s with hub := ecc 0 }
      ∧ exec (.dramScrub line (.sram (some (die, core)))) s = .next { s with
          hub := ecc 0
          coreErrs := s.coreErrs ++ [(die, core, s.clock)] })
    ∧ ((die, core) ∈ wornCores s ↔
      64 ≤ (s.coreErrs.filter (fun x => x.1 == die && x.2.1 == core && decide (s.clock < x.2.2 + 2 ^ 30))).length)
    ∧ (∃ t, exec (.clusterGate die cluster) s = .next t
      ∧ (∀ x ∈ t.l1, x.reg = true → inCluster s die cluster x.die x.core = false)
      ∧ (clusterQuiet s die cluster = true → s.gated.contains (die, cluster) = false → t.gated = (die, cluster) :: s.gated)
      ∧ (clusterQuiet s die cluster = false → t.gated = s.gated))
    ∧ (s.gated.contains (die, cluster) = true → ∃ t, exec (.clusterWake die cluster) s = .next t
      ∧ (die, cluster) ∉ t.gated ∧ ∀ x ∈ t.l1, inCluster s die cluster x.die x.core = false)
    ∧ exec (.powerLimit mhz) s = .next { s with hub := { s.hub with mhz := min mhz s.hub.mhz } }

/-- The host: a request that is turned away is answered with an error, one that the device cannot correct with an error,
a log entry and error records; a read shares the lines in host bias and gives the current bytes, a write is performed at
the home, ownership of a half in host bias is recorded; what a flip holds waits; a snoop answer lets the line go, and a
CXL.cache snoop takes a half back (R216, R217, R220, R221). A line that a flip to host bias has flushed is served as one
of host bias (R218). What the host writes to a page of a capturing context is recorded (R233). The bias flips of a page
start with GO = 1 and end, once the last line is flushed or answered, with the page's bit as asked and GO clear; a
refused one says ERR and keeps PAGE and TGT, which is the model's choice (log 75); ERR is cleared by writing 1 (R4,
R218, R219). A general core's and a peer's access is performed at the home, and a management controller reads its
registers (R93, R222, R235). That a request or snoop in recovery is answered with an error, as R230 says of an isolated
module, is the model's choice (log 62). -/
def Obligations.OutsideAgentsAreServed : Prop :=
  (∀ (s : State) (addr n half line : Nat) (bytes : List (BitVec 8)) (dirty : List (Nat × BitVec 8)) (own : Bool),
      let kept := ((mappers s (addr / 4096)).filter (captures s)).map (fun c => CapIn.hostWrite c addr bytes)
      let sharedFor := (linesOf addr n).foldl (fun s l => if servedHost s l then hostShare s l else s) s
      (hostRefused s addr n = true → ∀ err, exec (.hostMemRead addr n err) s = .next (answer s (.error addr)))
      ∧ (hostRefused s addr n = false → exec (.hostMemRead addr n true) s = .next (hostDataError s addr)
        ∧ (flipHolds s (.read addr n) = false → exec (.hostMemRead addr n false) s = .next (giveData sharedFor addr n))
        ∧ (flipHolds s (.read addr n) = true → exec (.hostMemRead addr n false) s
          = .next { s with hub := { s.hub with waiting := s.hub.waiting ++ [.read addr n] } }))
      ∧ (hostRefused s addr bytes.length = true → exec (.hostMemWrite addr bytes) s = .next (answer s (.error addr)))
      ∧ (hostRefused s addr bytes.length = false → flipHolds s (.write addr bytes) = false →
        exec (.hostMemWrite addr bytes) s = .next (watchAll (homeWrite (settleForeign (recordHost s addr bytes) outsider
          (.phys addr) bytes.length) addr bytes.length (bytesVal bytes))))
      ∧ (bytes ≠ [] → (addr + bytes.length - 1) / 4096 = addr / 4096 → (recordHost s addr bytes).capIn = s.capIn ++ kept)
      ∧ (servedHost s line = true ↔ hostBias s (line / 32) = true
        ∨ ∃ f, s.hub.flip = some f ∧ f.host = true ∧ line / 32 = f.page ∧ f.left.contains line = false)
      ∧ (hostRefused s (half * 64) 64 = false → exec (.hostOwnershipRequest half ⟨own, true⟩) s
          = .next (hostDataError s (half * 64))
        ∧ (flipHolds s (.own half own) = false → exec (.hostOwnershipRequest half ⟨own, false⟩) s = .next (answer (giveData
          (if servedHost s (half / 2) then (if own then hostOwn s half else hostShare s (half / 2)) else s) (half * 64) 64)
          (.granted half))))
      ∧ (s.hostOut.contains (.backInvalidate line) = true → s.hub.flip = none →
        exec (.backInvalidateResponse line dirty) s
          = .next (watchAll (hostDrop (hostBack s (dirty.filter (fun d => d.1 / 128 == line))) line)))
      ∧ (prange (half * 64) = .host →
        ((portClosed s = true ∨ s.hub.cxl = false) → exec (.hostSnoop half) s = .next (answer s (.error (half * 64))))
        ∧ (portClosed s = false → s.hub.cxl = true → ∃ t, exec (.hostSnoop half) s = .next (answer t (.snoop half))
          ∧ (∀ x ∈ t.l1, x.reg = true → x.addr / 128 ≠ half / 2)
          ∧ ∀ d ∈ t.dir, d.line = half / 2 → d.holder ≠ 4 → bitOf d.halves.toNat (half % 2) = false)))
  ∧ (∀ (s : State) (page line : Nat) (clear : Bool) (f : Flip) (dirty : List (Nat × BitVec 8)) (i : Nat), s.boot.recovery = false →
      let p := page % 2 ^ 40
      let cur := s.hub.biasflip.toNat
      let up := flipVal page true clear
      let down := flipVal page false clear
      let put (w : Nat) (f : Option Flip) : State := { s with hub := { s.hub with
        flip := f
        biasflip := BitVec.ofNat 64 w } }
      let flushed := recallLine (revokeRange s (line * 128) 128) line
      let rest := f.left.filter (fun l => l != line && !(decide (l < line) && lineClean flushed l))
      let served := serveHeld { flushed with hub := { flushed.hub with flip := some { f with left := rest } } }
      (flipRefused s p = true → exec (.biasFlipToHost (page, clear)) s = .next (refuseFlip s)
        ∧ exec (.biasFlipToDevice page clear) s = .next (refuseFlip s))
      ∧ (flipRefused s p = false →
        (hostBias s p = true → exec (.biasFlipToHost (page, clear)) s = .next (put (flipWord cur up false) none))
        ∧ (hostBias s p = false → exec (.biasFlipToHost (page, clear)) s
          = .next (put (flipWord cur up true) (some { page := p, host := true, left := pageLines p })))
        ∧ (hostBias s p = false → exec (.biasFlipToDevice page clear) s = .next (put (flipWord cur down false) none))
        ∧ (hostBias s p = true → hostLines s p ≠ [] → exec (.biasFlipToDevice page clear) s = .next ((hostLines s p).foldl snoopHost
          (put (flipWord cur down true) (some { page := p, host := false, left := hostLines s p }))))
        ∧ (hostBias s p = true → hostLines s p = [] → exec (.biasFlipToDevice page clear) s
          = .next (endFlip (put (flipWord cur down true) none) p false)))
      ∧ (s.hub.flip = some f → f.host = true → f.left.contains line = true →
        (rest ≠ [] → exec (.lineRecall line) s = .next served)
        ∧ (rest = [] → exec (.lineRecall line) s = .next (endFlip served f.page true)))
      ∧ (s.hub.flip = some f → f.host = false → s.hostOut.contains (.backInvalidate line) = true →
        let gone := watchAll (hostDrop (hostBack s (dirty.filter (fun d => d.1 / 128 == line))) line)
        gone.hub = s.hub → hostLines gone f.page = [] → exec (.backInvalidateResponse line dirty) s
          = .next (endFlip { gone with hub := { s.hub with flip := some { f with left := [] } } } f.page false))
      ∧ (biasIndex p = some i → biasByte s i < 2 ^ 51 → s.inv = true → s.aliasQuiet = true → ∀ host : Bool,
        hostBias (endFlip s p host) p = host ∧ bitOf (endFlip s p host).hub.biasflip.toNat 63 = false))
  ∧ (∀ (s : State) (addr core peer n b : Nat) (acc : OutAccess) (bytes : List (BitVec 8)) (op : AtomOp) (ty : AnyTy),
      let size := ty.width / 8
      let r := performRmw s outsider true true 64 (.phys addr) size (fun x => atomNew op ty x b)
      (core < 16 → s.boot.recovery = false → exec (.generalCoreMemoryAccess core addr acc) s = .next (outsideAccess s addr acc))
      ∧ (∀ x, s.boot.recovery = false → mgmtReg s addr = some x →
        exec (.generalCoreMemoryAccess 16 addr .hub) s = .next (answer s (.value x)))
      ∧ (s.boot.recovery = true → exec (.generalCoreMemoryAccess core addr acc) s = .next s
        ∧ exec (.peerLinkRequest peer addr acc) s = .next s ∧ exec .watchdogWrite s = .next s)
      ∧ (peer < 32 → isHdm addr = true → s.boot.recovery = false → acc ≠ .hub → (∀ k, acc ≠ .window k) →
        exec (.peerLinkRequest peer addr acc) s = .next (outsideAccess s addr acc))
      ∧ (outsideFails s addr n false = false → outsideAccess s addr (.read n) = giveData s addr n)
      ∧ (outsideFails s addr bytes.length true = false → hostBlocks s (.phys addr) bytes.length = false →
        outsideAccess s addr (.write bytes)
          = watchAll (homeWrite (settleForeign s outsider (.phys addr) bytes.length) addr bytes.length (bytesVal bytes)))
      ∧ (outsideFails s addr size true = false → hostBlocks s (.phys addr) size = false →
        outsideAccess s addr (.atom op ty b) = answer (watchAll r.2) (.data addr (valBytes size r.1))))

/-- Hub registers, outside recovery: an enabled format window ignores an enable, a bad one leaves EN clear and CFGERR
set, a good one sets EN; a write with EN = 0 disables; SMCARVE changes while no window is enabled; an enabled SMWIN
changes EN alone, a refused enable leaves EN = 0 and sets ERR, a good one sets EN, and ERR written 1 clears it; the
watchdog restarts, and 100 ms without a write isolate the port; host windows and the context table hold what is written;
ERR of BIASFLIP is cleared by writing 1; a push port is told to go by its own core alone; Mihus writes its step bytes,
measurements and the rollback counter, frees the first captured records of a context and loads those that a launch
replays; the host writes no format window (R4, R64, R146, R147, R174, R218, R223, R225, R230, R233 to R235). That the
other fields of a refused register are written (log 58), the clocks of 100 ms (log 60) and that Mihus's acts on records
are such writes (log 80) are the model's choice. -/
def Obligations.HubRegistersAreWritten : Prop :=
  ∀ (s : State) (die win ctx b n h : Nat) (val : BitVec 64) (who : Agent) (d : List (BitVec 8)) (recs : List CapRec), s.boot.recovery = false →
    let cur := fwReg s die win 0
    let new := fwFields val.toNat
    let w := winOf new (fwReg s die win 8) (fwReg s die win 0x10) (fwReg s die win 0x18)
    let err := if bitOf cur 61 && !bitOf val.toNat 61 then 2 ^ 61 else 0
    let flip := s.hub.biasflip.toNat
    let go := 0x70000 + 0x100 * h + 0x48
    (die < 4 → win < 8 →
      (bitOf cur 63 = true → exec (.formatWindowEnable die win val) s = .next s
        ∧ exec (.formatWindowDisable die win val) s = .next (setFwCtl (flushWindow s (winAt s die win)) die win (cur - 2 ^ 63)))
      ∧ (bitOf cur 63 = false →
        (fwBad s w = true → exec (.formatWindowEnable die win val) s = .next (setFwCtl s die win (new + 2 ^ 61)))
        ∧ (fwBad s w = false → exec (.formatWindowEnable die win val) s = .next (setFwCtl s die win (new + 2 ^ 63 + err)))
        ∧ exec (.formatWindowDisable die win val) s = .next (setFwCtl s die win (new + err))))
    ∧ ((4 < fld val.toNat 0 3 ∨ anyWindow s = true) → exec (.smcarveWrite val) s = .next s)
    ∧ (fld val.toNat 0 3 ≤ 4 → fld val.toNat 0 3 ≠ s.hub.smcarve.toNat → anyWindow s = false →
      ∃ t, exec (.smcarveWrite val) s = .next t ∧ t.hub.smcarve.toNat = fld val.toNat 0 3)
    ∧ (ctx < 64 →
      let was := (tabGet s.hub.smwin ctx).toNat
      let base := fld val.toNat 0 24
      let len := fld val.toNat 24 24
      let bad : Prop := len % 256 ≠ 0 ∨ base % 256 ≠ 0 ∨ len = 0 ∨ s.hub.smcarve.toNat * 65536 < base + len
        ∨ ∃ x ∈ s.hub.smwin, x.1 ≠ ctx ∧ bitOf x.2.toNat 63 = true ∧ fld x.2.toNat 0 24 < base + len
          ∧ base < fld x.2.toNat 0 24 + fld x.2.toNat 24 24
      let holds (en err : Bool) (fields : Nat) : Prop := ∃ new : BitVec 64, exec (.smwinWrite ctx val) s
          = .next { s with hub := { s.hub with smwin := tabSet s.hub.smwin ctx new } }
        ∧ bitOf new.toNat 63 = en ∧ bitOf new.toNat 62 = err ∧ fld new.toNat 0 48 = fields
      let err := bitOf was 62 && !bitOf val.toNat 62
      (bitOf was 63 = true → holds (bitOf val.toNat 63) err (fld was 0 48))
      ∧ (bitOf was 63 = false → bitOf val.toNat 63 = false → holds false err (fld val.toNat 0 48))
      ∧ (bitOf was 63 = false → bitOf val.toNat 63 = true →
        (bad → holds false true (fld val.toNat 0 48)) ∧ (¬bad → holds true err (fld val.toNat 0 48))))
    ∧ (∃ l, exec (.hubRegisterWrite (.captureFree ctx n) val) s = .next { s with capture := l }
      ∧ l.filter (fun r => r.ctx != ctx) = s.capture.filter (fun r => r.ctx != ctx)
      ∧ l.filter (fun r => r.ctx == ctx) = (s.capture.filter (fun r => r.ctx == ctx)).drop n)
    ∧ (∀ o, 0x40000 ≤ o → o < 0x40400 → exec (.hubRegisterWrite (.offset o .host) val) s = .next s)
    ∧ exec .watchdogWrite s = .next { s with hub := { s.hub with watchdog := s.clock } }
    ∧ (s.hub.watchdog + s.hub.mhz * 100000 ≤ s.clock →
      exec .watchdogExpiry s = .next { s with hub := { s.hub with isolated := true } })
    ∧ (s.clock < s.hub.watchdog + s.hub.mhz * 100000 → exec .watchdogExpiry s = .next s)
    ∧ (exec (.hostWindowWrite win b n) s
      = .next { s with hub := { s.hub with hostWin := modAt s.hub.hostWin win (fun _ => (b, n)) } })
    ∧ (hubTakes s who 0x50008 = true → exec (.hubRegisterWrite (.offset 0x50008 who) val) s
      = .next { s with hub := { s.hub with biasbase := BitVec.ofNat 64 (fld val.toNat 12 40 * 2 ^ 12) } })
    ∧ (hubTakes s who 0x50000 = true → bitOf val.toNat 63 = false → exec (.hubRegisterWrite (.offset 0x50000 who) val) s
      = .next { s with hub := { s.hub with biasflip := BitVec.ofNat 64 (fld flip 63 1 * 2 ^ 63
          + (if bitOf flip 62 && !bitOf val.toNat 62 then 2 ^ 62 else 0) + fld val.toNat 12 40 * 2 ^ 12 + fld val.toNat 0 1) } })
    ∧ (h < 16 → bitOf val.toNat 63 = true →
      exec (.hubRegisterWrite (.offset go (.general h)) val) s = .next { s with hub := { s.hub with
        ports := tabSet s.hub.ports go (BitVec.ofNat 64 (setFld (tabGet s.hub.ports go).toNat 63 1 1)) } }
      ∧ (who ≠ .general h → exec (.hubRegisterWrite (.offset go who) val) s = .next s))
    ∧ (ctx < 64 → exec (.hubRegisterWrite (.ctxHandlers ctx) val) s = .next (setCtx s ctx (fun c => { c with handlers := val }))
      ∧ exec (.hubRegisterWrite (.ctxSave ctx) val) s = .next (setCtx s ctx (fun c => { c with save := val })))
    ∧ (12 ≤ n → n < 32 → exec (.hubRegisterWrite (.stepByte n) val) s
      = .next { s with boot := writeStep s.boot n (BitVec.ofNat 8 (fld val.toNat 0 5)) })
    ∧ (2 ≤ n → n < 8 → exec (.hubRegisterWrite (.measure n d) val) s = .next { s with boot := extend s.boot n d })
    ∧ exec (.hubRegisterWrite .rollback val) s = .next { s with boot := { s.boot with rollback := s.boot.rollback + 1 } }
    ∧ (let loaded := s.replay.filter (fun r => r.task != n) ++ recs.filter (fun r => r.task == n)
      let others := s.replays.filter (fun x => x != n)
      (val ≠ 0 → exec (.hubRegisterWrite (.replayLoad n recs) val) s = .next { s with
          replay := loaded
          replays := n :: others })
      ∧ (val = 0 → exec (.hubRegisterWrite (.replayLoad n recs) val) s = .next { s with
          replay := loaded
          replays := others }))

/-- Cold reset leaves the device as after reset but for its boot state, which the boot steps give, the port's training
and the spare channels of replaced ones, where two bad channels of one stack fail step 6; before step 10 the responder
answers every request with not ready, after it with the requested answer: versions 1.2 and 1.3, the seven requests,
P-384 and SHA-384, and what the attestation key signs over the transcript (R214, R223 to R229; the request codes: log
79). The corners of the boot, that a block above 7 gets InvalidRequest and that the model's own counters run on are the
model's choice (log 61, log 2). -/
def Obligations.BootAndAttestation : Prop :=
  ∀ (s : State) (fails : List Nat) (env : BootEnv) (slot block : Nat) (nonce : BitVec 256) (sign : Bool),
    let twoOfOne := ((env.channels.map (·.1)).eraseDups).length < env.channels.length
    let booted := bootSteps (if twoOfOne then 6 :: fails else fails) env.powerLost 12 0 (startAttempt s.boot)
    let fresh : State :=
      { State.reset with
        boot := booted
        agenda := s.agenda
        fresh := s.fresh
        nextUid := s.nextUid
        hub := { State.reset.hub with cxl := env.cxl && stepState booted 8 == 2 } }
    let spare := stepState booted 6 == 2 && bitOf (booted.steps.getD 6 0).toNat 4
    let b := s.boot
    let heard (code param : Nat) (nonce : BitVec 256) : Boot := { b with asked := b.asked ++ [(code, param, nonce)] }
    let said (code param : Nat) (nonce : BitVec 256) (x : Spdm) : State :=
      { s with boot := { heard code param nonce with out := b.out ++ [x] } }
    let sig (code param : Nat) (body : List Byte) : List Byte := spdmSign (heard code param nonce) body
    (spare = false → exec (.coldResetBoot fails env) s = .next fresh)
    ∧ (spare = true → exec (.coldResetBoot fails env) s
      = .next (env.channels.foldl (fun t c => countSpare { t with remapped := t.remapped ++ [(c.1, true, c.2)] } 2) fresh))
    ∧ (b.ready = false → ∀ i : Instr, (i = .getVersion ∨ i = .getCapabilities ∨ i = .negotiateAlgorithms ∨ i = .getDigests
        ∨ i = .getCertificate slot ∨ i = .challenge slot nonce ∨ i = .getMeasurements block sign nonce) →
      exec i s = .next { s with boot := { b with out := b.out ++ [.notReady] } })
    ∧ (b.ready = true →
      exec .getVersion s = .next (said 0x84 0 0 (.version [0x12, 0x13]))
      ∧ exec .getCapabilities s = .next (said 0xE1 0 0 (.capabilities [0x84, 0xE1, 0xE3, 0x81, 0x82, 0x83, 0xE0]))
      ∧ exec .negotiateAlgorithms s = .next (said 0xE3 0 0 (.algorithms 384 384))
      ∧ exec .getDigests s = .next (said 0x81 0 0 (.digests (Config.sha384 b.cert)))
      ∧ (slot = 0 → exec (.getCertificate slot) s = .next (said 0x82 slot 0 (.certificate b.cert))
        ∧ exec (.challenge slot nonce) s
          = .next (said 0x83 slot nonce (.challenge (sig 0x83 slot (valBytes 48 (Config.sha384 b.cert).toNat)))))
      ∧ (slot ≠ 0 → exec (.getCertificate slot) s = .next (said 0x82 slot 0 .invalidRequest)
        ∧ exec (.challenge slot nonce) s = .next (said 0x83 slot nonce .invalidRequest))
      ∧ (∀ m, b.meas[block]? = some m → exec (.getMeasurements block sign nonce) s = .next (said 0xE0 block nonce
          (.measurements block m (if sign then some (sig 0xE0 block (valBytes 64 m.toNat)) else none))))
      ∧ (b.meas[block]? = none → exec (.getMeasurements block sign nonce) s = .next (said 0xE0 block nonce .invalidRequest)))

/-! ### Reset and the invariant -/

/-- The device after reset: no group, team, task or cached copy; the hub's registers at their reset columns; measurement
registers zero; and the invariant holds. Memory with nothing listed reads zero (the model's choice, log 3); the values of
CLOCK, of isolated and of the registers without a Reset entry are the model's choice too (log 4). -/
def Obligations.ResetState : Prop :=
  State.reset.groups = [] ∧ State.reset.teams = [] ∧ State.reset.tasks = [] ∧ State.reset.l1 = [] ∧ State.reset.tlb = []
    ∧ State.reset.shutters = [] ∧ State.reset.tlb2 = [] ∧ State.reset.misses = [] ∧ State.reset.aliases = []
    ∧ State.reset.replays = [] ∧ State.reset.retain = [] ∧ State.reset.hostLate = [] ∧ State.reset.hub.flip = none ∧ State.reset.hub.fw = [] ∧ State.reset.hub.smcarve = 0 ∧ State.reset.hub.biasflip = 0 ∧ State.reset.hub.isolated = false
    ∧ State.reset.hub.mhz = 1250 ∧ State.reset.boot.meas = List.replicate 8 0 ∧ State.reset.boot.ready = false
    ∧ (∀ a, tabGet State.reset.mem a = 0) ∧ (∀ a, tabGet State.reset.smem a = 0) ∧ State.reset.inv = true ∧ State.reset.aliasQuiet = true

/-- Every step keeps the invariant: each storage space stays in its canonical form and every registered word aligned. -/
def Obligations.StepsKeepTheInvariant : Prop :=
  ∀ s t : State, s.inv = true → step s = .next t → t.inv = true
end

