-- ==== Sys2Proof/Laws/Access.lean ====
section
/-! SUPPORT. What follows the checks of memory, queue and copy instructions where they pass. -/

namespace Sys2Proof.Machine

open Sys2Proof

@[simp] theorem Passed.go_inl {α : Type} (t : State) (k : State → α → State) : Passed.go (.inl t) k = t := rfl
@[simp] theorem Passed.go_inr {α : Type} (s : State) (a : α) (k : State → α → State) : Passed.go (.inr (s, a)) k = k s a := rfl

/-- Where the checks of a memory instruction pass, it goes on with the places that they find. -/
theorem withAccess_of {s : State} {e : Env} {m : MHdr} {act : Mask} {kind : Nat} {nd : Need} {size : Nat → Nat} {align : Nat}
    {exact : Bool} {s' : State} {ls : List LaneAt} (h : AccessPasses s e m act kind nd size align exact s' ls)
    (k : State → List LaneAt → State) : withAccess s e m act kind nd size align exact k = k s' ls := by
  unfold withAccess
  rw [show accessOf s e m act kind nd size align exact = .inr (s', ls) from h]
  rfl

/-- Where the checks of a queue and of its registers pass, the instruction goes on with it. -/
theorem withQueue_of {s : State} {e : Env} {act : Mask} {n l p : Nat} {pops : Bool} {s' : State} {q : UserQ}
    (h : QueueAt s e (maskOf (fun j => j == l)) p pops s' q)
    (span : spanFault e act n (q.esz / 4) = none) (k : State → UserQ → State) :
    withQueue s e act n l p pops k = k s' q := by
  obtain ⟨s1, q1, h1, hq, h2⟩ := h
  simp only [withQueue, h1, Passed.go_inr, hq, span, h2]

/-- With no active lane there is nothing to check. -/
theorem accessOf_none (s : State) (e : Env) (m : MHdr) (kind : Nat) (nd : Need) (size : Nat → Nat) (align : Nat) (exact : Bool) :
    accessOf s e m 0 kind nd size align exact = .inr (s, []) := by
  unfold accessOf
  simp

end Sys2Proof.Machine
end

