-- ==== Sys2Proof/Laws/Exec.lean ====
section
/-! SUPPORT. The arm of `exec` for each constructor, by definition: proofs rewrite with these and never unfold `exec`. -/

namespace Sys2Proof.Machine

open Sys2Proof

@[simp] theorem exec_nop (seven : Bool) (s : State) : exec (.nop seven) s = execNop seven s := rfl
@[simp] theorem exec_bra (gd : Guard) (rcv : BitVec 18) (off : BitVec 32) (s : State) :
    exec (.bra gd rcv off) s = execBra gd rcv off s := rfl
@[simp] theorem exec_brx (gd : Guard) (a : Fin 384) (rcv : BitVec 18) (s : State) :
    exec (.brx gd a rcv) s = execBrx gd a rcv s := rfl
@[simp] theorem exec_call (gd : Guard) (fb : BitVec 6) (off : BitVec 32) (s : State) :
    exec (.call gd fb off) s = execCall gd fb off s := rfl
@[simp] theorem exec_calli (gd : Guard) (fb : BitVec 6) (a : Src) (s : State) :
    exec (.calli gd fb a) s = execCalli gd fb a s := rfl
@[simp] theorem exec_ret (gd : Guard) (n : Fin 9) (s : State) : exec (.ret gd n) s = execRet gd n s := rfl
@[simp] theorem exec_unwind (gd : Guard) (a : Src) (off : BitVec 32) (s : State) :
    exec (.unwind gd a off) s = execUnwind gd a off s := rfl
@[simp] theorem exec_regang (s : State) : exec .regang s = execRegang s := rfl
@[simp] theorem exec_exit (gd : Guard) (s : State) : exec (.exit gd) s = execExit gd s := rfl
@[simp] theorem exec_yield (gd : Guard) (rcv : BitVec 18) (th : BitVec 30) (s : State) :
    exec (.yield gd rcv th) s = execYield gd rcv th s := rfl
@[simp] theorem exec_trap (gd : Guard) (code : BitVec 32) (s : State) :
    exec (.trap gd code) s = execTrap gd code s := rfl
@[simp] theorem exec_assert (gd : Guard) (t : Fin 8) (m : Fin 16) (s : State) :
    exec (.assert gd t m) s = execAssert gd t m s := rfl
@[simp] theorem exec_brk (gd : Guard) (code : BitVec 32) (s : State) : exec (.brk gd code) s = execBrk gd code s := rfl
@[simp] theorem exec_add (h : Hdr) (ty : IntTy) (sat : Bool) (d : Dst) (a b : Src) (s : State) :
    exec (.add h ty sat d a b) s = execAdd h ty sat d a b s := rfl
@[simp] theorem exec_sub (h : Hdr) (ty : IntTy) (sat : Bool) (d : Dst) (a b : Src) (s : State) :
    exec (.sub h ty sat d a b) s = execSub h ty sat d a b s := rfl
@[simp] theorem exec_mul (h : Hdr) (ty : IntTy) (sat : Bool) (d : Dst) (a b : Src) (s : State) :
    exec (.mul h ty sat d a b) s = execMul h ty sat d a b s := rfl
@[simp] theorem exec_mulhi (h : Hdr) (ty : IntTy) (d : Dst) (a b : Src) (s : State) :
    exec (.mulhi h ty d a b) s = execMulhi h ty d a b s := rfl
@[simp] theorem exec_mad (h : Hdr) (ty : IntTy) (sat : Bool) (d : Dst) (a b c : Src) (s : State) :
    exec (.mad h ty sat d a b c) s = execMad h ty sat d a b c s := rfl
@[simp] theorem exec_mulwide (h : Hdr) (ty : IntTy) (d : Dst) (a b : Src) (s : State) :
    exec (.mulwide h ty d a b) s = execMulwide h ty d a b s := rfl
@[simp] theorem exec_min (h : Hdr) (ty : IntTy) (d : Dst) (a b : Src) (s : State) :
    exec (.min h ty d a b) s = execMin h ty d a b s := rfl
@[simp] theorem exec_max (h : Hdr) (ty : IntTy) (d : Dst) (a b : Src) (s : State) :
    exec (.max h ty d a b) s = execMax h ty d a b s := rfl
@[simp] theorem exec_abs (h : Hdr) (ty : IntTy) (sat : Bool) (d : Dst) (a : Src) (s : State) :
    exec (.abs h ty sat d a) s = execAbs h ty sat d a s := rfl
@[simp] theorem exec_neg (h : Hdr) (ty : IntTy) (sat : Bool) (d : Dst) (a : Src) (s : State) :
    exec (.neg h ty sat d a) s = execNeg h ty sat d a s := rfl
@[simp] theorem exec_and (h : Hdr) (ty : IntTy) (d : Dst) (a b : Src) (s : State) :
    exec (.and h ty d a b) s = execAnd h ty d a b s := rfl
@[simp] theorem exec_or (h : Hdr) (ty : IntTy) (d : Dst) (a b : Src) (s : State) :
    exec (.or h ty d a b) s = execOr h ty d a b s := rfl
@[simp] theorem exec_xor (h : Hdr) (ty : IntTy) (d : Dst) (a b : Src) (s : State) :
    exec (.xor h ty d a b) s = execXor h ty d a b s := rfl
@[simp] theorem exec_not (h : Hdr) (ty : IntTy) (d : Dst) (a : Src) (s : State) :
    exec (.not h ty d a) s = execNot h ty d a s := rfl
@[simp] theorem exec_lop3 (h : Hdr) (ty : IntTy) (d : Dst) (a b c : Src) (s : State) :
    exec (.lop3 h ty d a b c) s = execLop3 h ty d a b c s := rfl
@[simp] theorem exec_shl (h : Hdr) (ty : IntTy) (d : Dst) (a b : Src) (s : State) :
    exec (.shl h ty d a b) s = execShl h ty d a b s := rfl
@[simp] theorem exec_shr (h : Hdr) (ar : Bool) (ty : IntTy) (d : Dst) (a b : Src) (s : State) :
    exec (.shr h ar ty d a b) s = execShr h ar ty d a b s := rfl
@[simp] theorem exec_fsh (h : Hdr) (right : Bool) (d : Dst) (a b c : Src) (s : State) :
    exec (.fsh h right d a b c) s = execFsh h right d a b c s := rfl
@[simp] theorem exec_popc (h : Hdr) (ty : IntTy) (d : Dst) (a : Src) (s : State) :
    exec (.popc h ty d a) s = execPopc h ty d a s := rfl
@[simp] theorem exec_clz (h : Hdr) (ty : IntTy) (d : Dst) (a : Src) (s : State) :
    exec (.clz h ty d a) s = execClz h ty d a s := rfl
@[simp] theorem exec_brev (h : Hdr) (ty : IntTy) (d : Dst) (a : Src) (s : State) :
    exec (.brev h ty d a) s = execBrev h ty d a s := rfl
@[simp] theorem exec_bfe (h : Hdr) (ty : IntTy) (d : Dst) (a b c : Src) (s : State) :
    exec (.bfe h ty d a b c) s = execBfe h ty d a b c s := rfl
@[simp] theorem exec_bfi (h : Hdr) (ty : IntTy) (d : Dst) (a b c : Src) (s : State) :
    exec (.bfi h ty d a b c) s = execBfi h ty d a b c s := rfl
@[simp] theorem exec_setp (h : Hdr) (cmp : Cmp) (comb : Comb) (ty : IntTy) (p : Fin 8) (a b : Src) (s : State) :
    exec (.setp h cmp comb ty p a b) s = execSetp h cmp comb ty p a b s := rfl
@[simp] theorem exec_sel (h : Hdr) (ty : IntTy) (d : Dst) (a b : Src) (p : Fin 8) (s : State) :
    exec (.sel h ty d a b p) s = execSel h ty d a b p s := rfl
@[simp] theorem exec_leaPtr (h : Hdr) (ty : IntTy) (d : Dst) (a b : Src) (s : State) :
    exec (.leaPtr h ty d a b) s = execLeaPtr h ty d a b s := rfl
@[simp] theorem exec_leaAdd (h : Hdr) (ty : IntTy) (d : Dst) (a b : Src) (s : State) :
    exec (.leaAdd h ty d a b) s = execLeaAdd h ty d a b s := rfl
@[simp] theorem exec_leaSeg (h : Hdr) (g : Fin 16) (a : Src) (s : State) :
    exec (.leaSeg h g a) s = execLeaSeg h g a s := rfl
@[simp] theorem exec_leaChk (h : Hdr) (p : Fin 8) (a b : Src) (s : State) :
    exec (.leaChk h p a b) s = execLeaChk h p a b s := rfl
@[simp] theorem exec_mov (h : Hdr) (ty : IntTy) (d : Dst) (a : Src) (s : State) :
    exec (.mov h ty d a) s = execMov h ty d a s := rfl
@[simp] theorem exec_smovRead (gd : Guard) (wide : Bool) (d : Dst) (reg : Fin 19) (s : State) :
    exec (.smovRead gd wide d reg) s = execSmovRead gd wide d reg s := rfl
@[simp] theorem exec_smovWriteCrew (gd : Guard) (a : Src) (s : State) :
    exec (.smovWriteCrew gd a) s = execSmovWriteCrew gd a s := rfl
@[simp] theorem exec_prmt (h : Hdr) (d : Dst) (a b c : Src) (s : State) :
    exec (.prmt h d a b c) s = execPrmt h d a b c s := rfl
@[simp] theorem exec_fadd (h : Hdr) (ty : FpTy) (rm : Rnd) (sat : Bool) (d : Dst) (a b : Src) (s : State) :
    exec (.fadd h ty rm sat d a b) s = execFadd h ty rm sat d a b s := rfl
@[simp] theorem exec_fsub (h : Hdr) (ty : FpTy) (rm : Rnd) (sat : Bool) (d : Dst) (a b : Src) (s : State) :
    exec (.fsub h ty rm sat d a b) s = execFsub h ty rm sat d a b s := rfl
@[simp] theorem exec_fmul (h : Hdr) (ty : FpTy) (rm : Rnd) (sat : Bool) (d : Dst) (a b : Src) (s : State) :
    exec (.fmul h ty rm sat d a b) s = execFmul h ty rm sat d a b s := rfl
@[simp] theorem exec_fma (h : Hdr) (ty : FpTy) (rm : Rnd) (sat : Bool) (d : Dst) (a b c : Src) (s : State) :
    exec (.fma h ty rm sat d a b c) s = execFma h ty rm sat d a b c s := rfl
@[simp] theorem exec_fmin (h : Hdr) (ty : FpTy) (d : Dst) (a b : Src) (s : State) :
    exec (.fmin h ty d a b) s = execFmin h ty d a b s := rfl
@[simp] theorem exec_fmax (h : Hdr) (ty : FpTy) (d : Dst) (a b : Src) (s : State) :
    exec (.fmax h ty d a b) s = execFmax h ty d a b s := rfl
@[simp] theorem exec_fsetp (h : Hdr) (cmp : Cmp) (comb : Comb) (ty : FpTy) (p : Fin 8) (a b : Src) (s : State) :
    exec (.fsetp h cmp comb ty p a b) s = execFsetp h cmp comb ty p a b s := rfl
@[simp] theorem exec_frcp (h : Hdr) (ty : FpTy) (rm : Rnd) (sat : Bool) (d : Dst) (a : Src) (s : State) :
    exec (.frcp h ty rm sat d a) s = execFrcp h ty rm sat d a s := rfl
@[simp] theorem exec_frsq (h : Hdr) (ty : FpTy) (rm : Rnd) (sat : Bool) (d : Dst) (a : Src) (s : State) :
    exec (.frsq h ty rm sat d a) s = execFrsq h ty rm sat d a s := rfl
@[simp] theorem exec_fsqrt (h : Hdr) (ty : FpTy) (rm : Rnd) (sat : Bool) (d : Dst) (a : Src) (s : State) :
    exec (.fsqrt h ty rm sat d a) s = execFsqrt h ty rm sat d a s := rfl
@[simp] theorem exec_fdiv (h : Hdr) (ty : FpTy) (rm : Rnd) (sat : Bool) (d : Dst) (a b : Src) (s : State) :
    exec (.fdiv h ty rm sat d a b) s = execFdiv h ty rm sat d a b s := rfl
@[simp] theorem exec_fex2 (h : Hdr) (ty : FpTy) (rm : Rnd) (sat : Bool) (d : Dst) (a : Src) (s : State) :
    exec (.fex2 h ty rm sat d a) s = execFex2 h ty rm sat d a s := rfl
@[simp] theorem exec_flg2 (h : Hdr) (ty : FpTy) (rm : Rnd) (sat : Bool) (d : Dst) (a : Src) (s : State) :
    exec (.flg2 h ty rm sat d a) s = execFlg2 h ty rm sat d a s := rfl
@[simp] theorem exec_fsin (h : Hdr) (ty : FpTy) (rm : Rnd) (sat : Bool) (d : Dst) (a : Src) (s : State) :
    exec (.fsin h ty rm sat d a) s = execFsin h ty rm sat d a s := rfl
@[simp] theorem exec_fcos (h : Hdr) (ty : FpTy) (rm : Rnd) (sat : Bool) (d : Dst) (a : Src) (s : State) :
    exec (.fcos h ty rm sat d a) s = execFcos h ty rm sat d a s := rfl
@[simp] theorem exec_fscale (h : Hdr) (ty : FpTy) (rm : Rnd) (sat : Bool) (d : Dst) (a b : Src) (s : State) :
    exec (.fscale h ty rm sat d a b) s = execFscale h ty rm sat d a b s := rfl
@[simp] theorem exec_fclass (h : Hdr) (ty : FpTy) (d : Dst) (a : Src) (s : State) :
    exec (.fclass h ty d a) s = execFclass h ty d a s := rfl
@[simp] theorem exec_fdot2 (h : Hdr) (ty : FpTy) (rm : Rnd) (sat : Bool) (d : Dst) (a b c : Src) (s : State) :
    exec (.fdot2 h ty rm sat d a b c) s = execFdot2 h ty rm sat d a b c s := rfl
@[simp] theorem exec_frnd (h : Hdr) (ty : FpTy) (rm : Rnd) (d : Dst) (a : Src) (s : State) :
    exec (.frnd h ty rm d a) s = execFrnd h ty rm d a s := rfl
@[simp] theorem exec_cvt (h : Hdr) (src dst : AnyTy) (rm : Rnd) (sat : Bool) (d : Dst) (a : Src) (s : State) :
    exec (.cvt h src dst rm sat d a) s = execCvt h src dst rm sat d a s := rfl
@[simp] theorem exec_shfl (h : Hdr) (mode : ShflMode) (ty : IntTy) (d : Dst) (a b : Src) (p : Fin 8) (s : State) :
    exec (.shfl h mode ty d a b p) s = execShfl h mode ty d a b p s := rfl
@[simp] theorem exec_vote (h : Hdr) (form : VoteForm) (wide : Bool) (a : Src) (s : State) :
    exec (.vote h form wide a) s = execVote h form wide a s := rfl
@[simp] theorem exec_redux (h : Hdr) (op : ReduxOp) (ty : AnyTy) (sat : Bool) (d : Dst) (a : Src) (s : State) :
    exec (.redux h op ty sat d a) s = execRedux h op ty sat d a s := rfl
@[simp] theorem exec_scan (h : Hdr) (excl : Bool) (ty : IntTy) (sat : Bool) (d : Dst) (a : Src) (s : State) :
    exec (.scan h excl ty sat d a) s = execScan h excl ty sat d a s := rfl
@[simp] theorem exec_ld (m : MHdr) (ty : LdTy) (d : Fin 384) (s : State) : exec (.ld m ty d) s = execLd m ty d s := rfl
@[simp] theorem exec_st (m : MHdr) (ty : LdTy) (b : Src) (s : State) : exec (.st m ty b) s = execSt m ty b s := rfl
@[simp] theorem exec_pf (m : MHdr) (s : State) : exec (.pf m) s = execPf m s := rfl
@[simp] theorem exec_touch (m : MHdr) (b : Src) (s : State) : exec (.touch m b) s = execTouch m b s := rfl
@[simp] theorem exec_fence (gd : Guard) (kind : FenceKind) (scope : Scope) (s : State) :
    exec (.fence gd kind scope) s = execFence gd kind scope s := rfl
@[simp] theorem exec_cctlWb (m : MHdr) (s : State) : exec (.cctlWb m) s = execCctlWb m s := rfl
@[simp] theorem exec_cctlInv (m : MHdr) (s : State) : exec (.cctlInv m) s = execCctlInv m s := rfl
@[simp] theorem exec_cctlWbinv (m : MHdr) (s : State) : exec (.cctlWbinv m) s = execCctlWbinv m s := rfl
@[simp] theorem exec_cctlUnhold (m : MHdr) (s : State) : exec (.cctlUnhold m) s = execCctlUnhold m s := rfl
@[simp] theorem exec_sts (m : MHdr) (wide : Bool) (p : Fin 8) (b : Src) (s : State) :
    exec (.sts m wide p b) s = execSts m wide p b s := rfl
@[simp] theorem exec_retract (m : MHdr) (wide : Bool) (p : Fin 8) (s : State) :
    exec (.retract m wide p) s = execRetract m wide p s := rfl
@[simp] theorem exec_settle (m : MHdr) (wide : Bool) (s : State) : exec (.settle m wide) s = execSettle m wide s := rfl
@[simp] theorem exec_atom (m : MHdr) (op : AtomOp) (ty : AnyTy) (d : Fin 384) (b : Src) (s : State) :
    exec (.atom m op ty d b) s = execAtom m op ty d b s := rfl
@[simp] theorem exec_red (m : MHdr) (op : AtomOp) (ty : AnyTy) (b : Src) (s : State) :
    exec (.red m op ty b) s = execRed m op ty b s := rfl
@[simp] theorem exec_cas (m : MHdr) (ty : IntTy) (d : Fin 384) (b c : Src) (s : State) :
    exec (.cas m ty d b c) s = execCas m ty d b c s := rfl
@[simp] theorem exec_cpadd (m : MHdr) (wide : Bool) (d : Option (Fin 384)) (b : Src) (s : State) :
    exec (.cpadd m wide d b) s = execCpadd m wide d b s := rfl
@[simp] theorem exec_waitv (m : MHdr) (cmp : WaitCmp) (wide : Bool) (b : Src) (s : State) :
    exec (.waitv m cmp wide b) s = execWaitv m cmp wide b s := rfl
@[simp] theorem exec_spred (m : MHdr) (b c : Src) (s : State) : exec (.spred m b c) s = execSpred m b c s := rfl
@[simp] theorem exec_mma (f : MatF) (s : State) : exec (.mma f) s = execMma f s := rfl
@[simp] theorem exec_mmas (f : MatF) (q : Fin 4) (s : State) : exec (.mmas f q) s = execMmas f q s := rfl
@[simp] theorem exec_mmx (f : MatF) (sa : Fin 512) (s : State) : exec (.mmx f sa) s = execMmx f sa s := rfl
@[simp] theorem exec_tld (gd : Guard) (a : Fin 512) (b : BitVec 18) (n : Fin 8) (s : State) :
    exec (.tld gd a b n) s = execTld gd a b n s := rfl
@[simp] theorem exec_tst (gd : Guard) (a : Fin 512) (b : BitVec 18) (n : Fin 8) (s : State) :
    exec (.tst gd a b n) s = execTst gd a b n s := rfl
@[simp] theorem exec_tzero (gd : Guard) (b : BitVec 18) (len : BitVec 18) (s : State) :
    exec (.tzero gd b len) s = execTzero gd b len s := rfl
@[simp] theorem exec_tcvt (gd : Guard) (dst : MatTy) (src : AccTy) (sat : Bool) (c : BitVec 18) (n : Fin 8) (fmt : BitVec 8) (s : State) :
    exec (.tcvt gd dst src sat c n fmt) s = execTcvt gd dst src sat c n fmt s := rfl
@[simp] theorem exec_copyLinear (gd : Guard) (a b c : Src) (s : State) :
    exec (.copyLinear gd a b c) s = execCopyLinear gd a b c s := rfl
@[simp] theorem exec_copyStrided2 (gd : Guard) (a b c : Src) (s : State) :
    exec (.copyStrided2 gd a b c) s = execCopyStrided2 gd a b c s := rfl
@[simp] theorem exec_copyStrided3 (gd : Guard) (a b c : Src) (s : State) :
    exec (.copyStrided3 gd a b c) s = execCopyStrided3 gd a b c s := rfl
@[simp] theorem exec_copyGather (gd : Guard) (a b c : Src) (s : State) :
    exec (.copyGather gd a b c) s = execCopyGather gd a b c s := rfl
@[simp] theorem exec_copyScatter (gd : Guard) (a b c : Src) (s : State) :
    exec (.copyScatter gd a b c) s = execCopyScatter gd a b c s := rfl
@[simp] theorem exec_copyFill (gd : Guard) (a b c : Src) (s : State) :
    exec (.copyFill gd a b c) s = execCopyFill gd a b c s := rfl
@[simp] theorem exec_copyCombine (gd : Guard) (a b c : Src) (s : State) :
    exec (.copyCombine gd a b c) s = execCopyCombine gd a b c s := rfl
@[simp] theorem exec_copyMeta (gd : Guard) (a b c : Src) (s : State) :
    exec (.copyMeta gd a b c) s = execCopyMeta gd a b c s := rfl
@[simp] theorem exec_copyYield (gd : Guard) (kind : CopyKind) (th : BitVec 30) (a b c : Src) (s : State) :
    exec (.copyYield gd kind th a b c) s = execCopyYield gd kind th a b c s := rfl
@[simp] theorem exec_waitc (gd : Guard) (th : BitVec 30) (s : State) : exec (.waitc gd th) s = execWaitc gd th s := rfl
@[simp] theorem exec_barInit (h : Hdr) (counted : Bool) (a b : Src) (s : State) :
    exec (.barInit h counted a b) s = execBarInit h counted a b s := rfl
@[simp] theorem exec_barArrive (gd : Guard) (d : Dst) (a : Src) (s : State) :
    exec (.barArrive gd d a) s = execBarArrive gd d a s := rfl
@[simp] theorem exec_barWait (h : Hdr) (a b : Src) (s : State) : exec (.barWait h a b) s = execBarWait h a b s := rfl
@[simp] theorem exec_barArrwait (gd : Guard) (d : Dst) (a : Src) (s : State) :
    exec (.barArrwait gd d a) s = execBarArrwait gd d a s := rfl
@[simp] theorem exec_barDrop (gd : Guard) (a : Src) (s : State) : exec (.barDrop gd a) s = execBarDrop gd a s := rfl
@[simp] theorem exec_qpush (gd : Guard) (p : Fin 8) (a b : Fin 384) (s : State) :
    exec (.qpush gd p a b) s = execQpush gd p a b s := rfl
@[simp] theorem exec_qpushTask (gd : Guard) (p : Fin 8) (a b : Fin 384) (s : State) :
    exec (.qpushTask gd p a b) s = execQpushTask gd p a b s := rfl
@[simp] theorem exec_qpop (gd : Guard) (d a : Fin 384) (s : State) : exec (.qpop gd d a) s = execQpop gd d a s := rfl
@[simp] theorem exec_fgive (h : Hdr) (a : Src) (s : State) : exec (.fgive h a) s = execFgive h a s := rfl
@[simp] theorem exec_fclaim (h : Hdr) (a : Src) (s : State) : exec (.fclaim h a) s = execFclaim h a s := rfl
@[simp] theorem exec_sret (gd : Guard) (s : State) : exec (.sret gd) s = execSret gd s := rfl
@[simp] theorem exec_srd (gd : Guard) (d : Dst) (reg : BitVec 8) (s : State) :
    exec (.srd gd d reg) s = execSrd gd d reg s := rfl
@[simp] theorem exec_swr (gd : Guard) (a : Src) (reg : BitVec 8) (s : State) :
    exec (.swr gd a reg) s = execSwr gd a reg s := rfl
@[simp] theorem exec_bindClaim (gd : Guard) (p : Fin 8) (a : Src) (s : State) :
    exec (.bindClaim gd p a) s = execBindClaim gd p a s := rfl
@[simp] theorem exec_bindSet (gd : Guard) (p : Fin 8) (a b : Src) (s : State) :
    exec (.bindSet gd p a b) s = execBindSet gd p a b s := rfl
@[simp] theorem exec_bindFail (gd : Guard) (p : Fin 8) (a : Src) (s : State) :
    exec (.bindFail gd p a) s = execBindFail gd p a s := rfl
@[simp] theorem exec_bindUnbind (gd : Guard) (p : Fin 8) (a : Src) (s : State) :
    exec (.bindUnbind gd p a) s = execBindUnbind gd p a s := rfl
@[simp] theorem exec_bindRead (gd : Guard) (d : Fin 4) (a : Src) (s : State) :
    exec (.bindRead gd d a) s = execBindRead gd d a s := rfl
@[simp] theorem exec_blbiEntry (h : Hdr) (a : Src) (s : State) : exec (.blbiEntry h a) s = execBlbiEntry h a s := rfl
@[simp] theorem exec_blbiModule (h : Hdr) (a : Src) (s : State) : exec (.blbiModule h a) s = execBlbiModule h a s := rfl
@[simp] theorem exec_blbiContext (gd : Guard) (s : State) : exec (.blbiContext gd) s = execBlbiContext gd s := rfl
@[simp] theorem exec_tlbiPage (h : Hdr) (a : Src) (s : State) : exec (.tlbiPage h a) s = execTlbiPage h a s := rfl
@[simp] theorem exec_tlbiContext (gd : Guard) (s : State) : exec (.tlbiContext gd) s = execTlbiContext gd s := rfl
@[simp] theorem exec_tlbiAll (gd : Guard) (s : State) : exec (.tlbiAll gd) s = execTlbiAll gd s := rfl
@[simp] theorem exec_sdciEntry (h : Hdr) (a : Src) (s : State) : exec (.sdciEntry h a) s = execSdciEntry h a s := rfl
@[simp] theorem exec_sdciContext (gd : Guard) (s : State) : exec (.sdciContext gd) s = execSdciContext gd s := rfl
@[simp] theorem exec_ldphys (m : MHdr) (ty : LdTy) (d : Fin 384) (s : State) :
    exec (.ldphys m ty d) s = execLdphys m ty d s := rfl
@[simp] theorem exec_stphys (m : MHdr) (ty : LdTy) (b : Src) (s : State) :
    exec (.stphys m ty b) s = execStphys m ty b s := rfl
@[simp] theorem exec_hatchSpill (h : Hdr) (p : Fin 8) (a : Src) (s : State) :
    exec (.hatchSpill h p a) s = execHatchSpill h p a s := rfl
@[simp] theorem exec_hatchFill (h : Hdr) (p : Fin 8) (a : Src) (s : State) :
    exec (.hatchFill h p a) s = execHatchFill h p a s := rfl
@[simp] theorem exec_hatchStatus (h : Hdr) (d : Fin 16) (a : Src) (s : State) :
    exec (.hatchStatus h d a) s = execHatchStatus h d a s := rfl
@[simp] theorem exec_handlerFrameGrant (die core part : Nat) (s : State) :
    exec (.handlerFrameGrant die core part) s = execHandlerFrameGrant die core part s := rfl
@[simp] theorem exec_contextResume (ctx : Nat) (s : State) :
    exec (.contextResume ctx) s = execContextResume ctx s := rfl
@[simp] theorem exec_pushPortGo (port : Nat) (s : State) : exec (.pushPortGo port) s = execPushPortGo port s := rfl
@[simp] theorem exec_validateTaskRecord (die prio : Nat) (s : State) :
    exec (.validateTaskRecord die prio) s = execValidateTaskRecord die prio s := rfl
@[simp] theorem exec_taskEligible (task : Nat) (s : State) :
    exec (.taskEligible task) s = execTaskEligible task s := rfl
@[simp] theorem exec_placeTeam (die : Nat) (s : State) : exec (.placeTeam die) s = execPlaceTeam die s := rfl
@[simp] theorem exec_dieReservation (die : Nat) (s : State) :
    exec (.dieReservation die) s = execDieReservation die s := rfl
@[simp] theorem exec_groupSlotRelease (p : Place) (s : State) :
    exec (.groupSlotRelease p) s = execGroupSlotRelease p s := rfl
@[simp] theorem exec_teamRetire (team : Nat) (s : State) : exec (.teamRetire team) s = execTeamRetire team s := rfl
@[simp] theorem exec_gridRetire (task : Nat) (s : State) : exec (.gridRetire task) s = execGridRetire task s := rfl
@[simp] theorem exec_gridFail (task : Nat) (s : State) : exec (.gridFail task) s = execGridFail task s := rfl
@[simp] theorem exec_issueSelect (die core part dt : Nat) (s : State) :
    exec (.issueSelect die core part dt) s = execIssueSelect die core part dt s := rfl
@[simp] theorem exec_activeSetRefill (die core part : Nat) (s : State) :
    exec (.activeSetRefill die core part) s = execActiveSetRefill die core part s := rfl
@[simp] theorem exec_waitRecordRetest (p : Place) (s : State) :
    exec (.waitRecordRetest p) s = execWaitRecordRetest p s := rfl
@[simp] theorem exec_lineDecodeCheck (p : Place) (transit : BitVec 512 × BitVec 512) (s : State) :
    exec (.lineDecodeCheck p transit) s = execLineDecodeCheck p transit s := rfl
@[simp] theorem exec_operationComplete (p : Place) (op : Nat) (lanes : List Nat) (err : Bool) (s : State) :
    exec (.operationComplete p op lanes err) s = execOperationComplete p op lanes err s := rfl
@[simp] theorem exec_pageWalkComplete (die core ctx linear : Nat) (write : Bool) (s : State) :
    exec (.pageWalkComplete die core ctx linear write) s = execPageWalkComplete die core ctx linear write s := rfl
@[simp] theorem exec_frameGrant (die core part : Nat) (s : State) :
    exec (.frameGrant die core part) s = execFrameGrant die core part s := rfl
@[simp] theorem exec_hatchAct (die core part : Nat) (s : State) :
    exec (.hatchAct die core part) s = execHatchAct die core part s := rfl
@[simp] theorem exec_hatchWaitTimeout (die core part : Nat) (s : State) :
    exec (.hatchWaitTimeout die core part) s = execHatchWaitTimeout die core part s := rfl
@[simp] theorem exec_hatchRefill (p : Place) (s : State) : exec (.hatchRefill p) s = execHatchRefill p s := rfl
@[simp] theorem exec_waitvReevaluate (p : Place) (s : State) :
    exec (.waitvReevaluate p) s = execWaitvReevaluate p s := rfl
@[simp] theorem exec_waitvPeriodicCheck (p : Place) (s : State) :
    exec (.waitvPeriodicCheck p) s = execWaitvPeriodicCheck p s := rfl
@[simp] theorem exec_contentionDecay (idx : Nat) (s : State) :
    exec (.contentionDecay idx) s = execContentionDecay idx s := rfl
@[simp] theorem exec_wordRegistration (die core addr : Nat) (s : State) :
    exec (.wordRegistration die core addr) s = execWordRegistration die core addr s := rfl
@[simp] theorem exec_registrationRevoke (addr : Nat) (s : State) :
    exec (.registrationRevoke addr) s = execRegistrationRevoke addr s := rfl
@[simp] theorem exec_forwardedRead (die core addr : Nat) (s : State) :
    exec (.forwardedRead die core addr) s = execForwardedRead die core addr s := rfl
@[simp] theorem exec_lineRecall (line : Nat) (s : State) : exec (.lineRecall line) s = execLineRecall line s := rfl
@[simp] theorem exec_exclusiveEvict (die line : Nat) (s : State) :
    exec (.exclusiveEvict die line) s = execExclusiveEvict die line s := rfl
@[simp] theorem exec_postingReplay (p : Place) (s : State) : exec (.postingReplay p) s = execPostingReplay p s := rfl
@[simp] theorem exec_spredMerge (p : Place) (op : Nat) (lane : Nat) (s : State) :
    exec (.spredMerge p op lane) s = execSpredMerge p op lane s := rfl
@[simp] theorem exec_mergeEntryFlush (k : Nat) (s : State) :
    exec (.mergeEntryFlush k) s = execMergeEntryFlush k s := rfl
@[simp] theorem exec_crewBroken (crew : Nat) (s : State) : exec (.crewBroken crew) s = execCrewBroken crew s := rfl
@[simp] theorem exec_metadataUnderrun (crew : Nat) (s : State) :
    exec (.metadataUnderrun crew) s = execMetadataUnderrun crew s := rfl
@[simp] theorem exec_matrixPassGrant (die cluster : Nat) (s : State) :
    exec (.matrixPassGrant die cluster) s = execMatrixPassGrant die cluster s := rfl
@[simp] theorem exec_matrixPassError (die cluster : Nat) (s : State) :
    exec (.matrixPassError die cluster) s = execMatrixPassError die cluster s := rfl
@[simp] theorem exec_copyEngineStart (die engine units : Nat) (s : State) :
    exec (.copyEngineStart die engine units) s = execCopyEngineStart die engine units s := rfl
@[simp] theorem exec_copyFault (die engine : Nat) (err : EngineErr) (s : State) :
    exec (.copyFault die engine err) s = execCopyFault die engine err s := rfl
@[simp] theorem exec_preemptTeam (team : Nat) (s : State) : exec (.preemptTeam team) s = execPreemptTeam team s := rfl
@[simp] theorem exec_drainTimeout (team : Nat) (s : State) :
    exec (.drainTimeout team) s = execDrainTimeout team s := rfl
@[simp] theorem exec_restoreTeam (save die : Nat) (s : State) :
    exec (.restoreTeam save die) s = execRestoreTeam save die s := rfl
@[simp] theorem exec_contextSwitch (ctx : Nat) (s : State) :
    exec (.contextSwitch ctx) s = execContextSwitch ctx s := rfl
@[simp] theorem exec_killTeam (team : Nat) (s : State) : exec (.killTeam team) s = execKillTeam team s := rfl
@[simp] theorem exec_coreFence (die core : Nat) (lost : List Nat) (s : State) :
    exec (.coreFence die core lost) s = execCoreFence die core lost s := rfl
@[simp] theorem exec_spareRemap (die : Nat) (channel : Bool) (unit : Nat) (s : State) :
    exec (.spareRemap die channel unit) s = execSpareRemap die channel unit s := rfl
@[simp] theorem exec_dramScrub (line : Nat) (err : Corrected) (s : State) :
    exec (.dramScrub line err) s = execDramScrub line err s := rfl
@[simp] theorem exec_clusterGate (die cluster : Nat) (s : State) :
    exec (.clusterGate die cluster) s = execClusterGate die cluster s := rfl
@[simp] theorem exec_clusterWake (die cluster : Nat) (s : State) :
    exec (.clusterWake die cluster) s = execClusterWake die cluster s := rfl
@[simp] theorem exec_powerLimit (mhz : Nat) (s : State) : exec (.powerLimit mhz) s = execPowerLimit mhz s := rfl
@[simp] theorem exec_biasFlipToHost (ask : Nat × Bool) (s : State) :
    exec (.biasFlipToHost ask) s = execBiasFlipToHost ask s := rfl
@[simp] theorem exec_biasFlipToDevice (page : Nat) (clear : Bool) (s : State) :
    exec (.biasFlipToDevice page clear) s = execBiasFlipToDevice page clear s := rfl
@[simp] theorem exec_hostMemRead (addr n : Nat) (err : Bool) (s : State) :
    exec (.hostMemRead addr n err) s = execHostMemRead addr n err s := rfl
@[simp] theorem exec_hostMemWrite (addr : Nat) (bytes : List (BitVec 8)) (s : State) :
    exec (.hostMemWrite addr bytes) s = execHostMemWrite addr bytes s := rfl
@[simp] theorem exec_hostOwnershipRequest (half : Nat) (ask : OwnAsk) (s : State) :
    exec (.hostOwnershipRequest half ask) s = execHostOwnershipRequest half ask s := rfl
@[simp] theorem exec_backInvalidateResponse (line : Nat) (dirty : List (Nat × BitVec 8)) (s : State) :
    exec (.backInvalidateResponse line dirty) s = execBackInvalidateResponse line dirty s := rfl
@[simp] theorem exec_hostSnoop (half : Nat) (s : State) : exec (.hostSnoop half) s = execHostSnoop half s := rfl
@[simp] theorem exec_poisonReceived (p : Place) (op : Nat) (s : State) :
    exec (.poisonReceived p op) s = execPoisonReceived p op s := rfl
@[simp] theorem exec_formatWindowEnable (die win : Nat) (val : BitVec 64) (s : State) :
    exec (.formatWindowEnable die win val) s = execFormatWindowEnable die win val s := rfl
@[simp] theorem exec_formatWindowDisable (die win : Nat) (val : BitVec 64) (s : State) :
    exec (.formatWindowDisable die win val) s = execFormatWindowDisable die win val s := rfl
@[simp] theorem exec_aliasLineFill (line : Nat) (s : State) :
    exec (.aliasLineFill line) s = execAliasLineFill line s := rfl
@[simp] theorem exec_aliasWriteBack (line : Nat × Bool) (s : State) :
    exec (.aliasWriteBack line) s = execAliasWriteBack line s := rfl
@[simp] theorem exec_smcarveWrite (val : BitVec 64) (s : State) :
    exec (.smcarveWrite val) s = execSmcarveWrite val s := rfl
@[simp] theorem exec_smwinWrite (ctx : Nat) (val : BitVec 64) (s : State) :
    exec (.smwinWrite ctx val) s = execSmwinWrite ctx val s := rfl
@[simp] theorem exec_watchdogWrite (s : State) : exec .watchdogWrite s = execWatchdogWrite s := rfl
@[simp] theorem exec_watchdogExpiry (s : State) : exec .watchdogExpiry s = execWatchdogExpiry s := rfl
@[simp] theorem exec_hostWindowWrite (win base size : Nat) (s : State) :
    exec (.hostWindowWrite win base size) s = execHostWindowWrite win base size s := rfl
@[simp] theorem exec_hubRegisterWrite (reg : HubReg) (val : BitVec 64) (s : State) :
    exec (.hubRegisterWrite reg val) s = execHubRegisterWrite reg val s := rfl
@[simp] theorem exec_coldResetBoot (fails : List Nat) (env : BootEnv) (s : State) :
    exec (.coldResetBoot fails env) s = execColdResetBoot fails env s := rfl
@[simp] theorem exec_getVersion (s : State) : exec .getVersion s = execGetVersion s := rfl
@[simp] theorem exec_getCapabilities (s : State) : exec .getCapabilities s = execGetCapabilities s := rfl
@[simp] theorem exec_negotiateAlgorithms (s : State) : exec .negotiateAlgorithms s = execNegotiateAlgorithms s := rfl
@[simp] theorem exec_getDigests (s : State) : exec .getDigests s = execGetDigests s := rfl
@[simp] theorem exec_getCertificate (slot : Nat) (s : State) :
    exec (.getCertificate slot) s = execGetCertificate slot s := rfl
@[simp] theorem exec_challenge (slot : Nat) (nonce : BitVec 256) (s : State) :
    exec (.challenge slot nonce) s = execChallenge slot nonce s := rfl
@[simp] theorem exec_getMeasurements (block : Nat) (sign : Bool) (nonce : BitVec 256) (s : State) :
    exec (.getMeasurements block sign nonce) s = execGetMeasurements block sign nonce s := rfl
@[simp] theorem exec_captureRecord (p : Place) (what : CapWhat) (s : State) :
    exec (.captureRecord p what) s = execCaptureRecord p what s := rfl
@[simp] theorem exec_replayRelease (p : Place) (op : Nat) (s : State) :
    exec (.replayRelease p op) s = execReplayRelease p op s := rfl
@[simp] theorem exec_generalCoreMemoryAccess (core addr : Nat) (acc : OutAccess) (s : State) :
    exec (.generalCoreMemoryAccess core addr acc) s = execGeneralCoreMemoryAccess core addr acc s := rfl
@[simp] theorem exec_peerLinkRequest (peer addr : Nat) (acc : OutAccess) (s : State) :
    exec (.peerLinkRequest peer addr acc) s = execPeerLinkRequest peer addr acc s := rfl
@[simp] theorem exec_peerLinkFailure (peer : Nat) (s : State) :
    exec (.peerLinkFailure peer) s = execPeerLinkFailure peer s := rfl

end Sys2Proof.Machine
end

