-- ==== Sys2Proof/Laws/State.lean ====
section
/-! SUPPORT. What each shared update of the state does to each field: one lemma a field, by definition. -/

namespace Sys2Proof.Machine

open Sys2Proof

/-! ### popIssue -/

@[simp] theorem popIssue_clock (s : State) : (popIssue s).clock = s.clock := rfl
@[simp] theorem popIssue_issue (s : State) : (popIssue s).issue = s.issue.tail := rfl
@[simp] theorem popIssue_agenda (s : State) : (popIssue s).agenda = s.agenda := rfl
@[simp] theorem popIssue_fresh (s : State) : (popIssue s).fresh = s.fresh := rfl
@[simp] theorem popIssue_nextUid (s : State) : (popIssue s).nextUid = s.nextUid := rfl
@[simp] theorem popIssue_mem (s : State) : (popIssue s).mem = s.mem := rfl
@[simp] theorem popIssue_smem (s : State) : (popIssue s).smem = s.smem := rfl
@[simp] theorem popIssue_groups (s : State) : (popIssue s).groups = s.groups := rfl
@[simp] theorem popIssue_departed (s : State) : (popIssue s).departed = s.departed := rfl
@[simp] theorem popIssue_retired (s : State) : (popIssue s).retired = s.retired := rfl
@[simp] theorem popIssue_teams (s : State) : (popIssue s).teams = s.teams := rfl
@[simp] theorem popIssue_tasks (s : State) : (popIssue s).tasks = s.tasks := rfl
@[simp] theorem popIssue_dies (s : State) : (popIssue s).dies = s.dies := rfl
@[simp] theorem popIssue_crews (s : State) : (popIssue s).crews = s.crews := rfl
@[simp] theorem popIssue_metaq (s : State) : (popIssue s).metaq = s.metaq := rfl
@[simp] theorem popIssue_merge (s : State) : (popIssue s).merge = s.merge := rfl
@[simp] theorem popIssue_shutters (s : State) : (popIssue s).shutters = s.shutters := rfl
@[simp] theorem popIssue_parts (s : State) : (popIssue s).parts = s.parts := rfl
@[simp] theorem popIssue_qres (s : State) : (popIssue s).qres = s.qres := rfl
@[simp] theorem popIssue_l1 (s : State) : (popIssue s).l1 = s.l1 := rfl
@[simp] theorem popIssue_dir (s : State) : (popIssue s).dir = s.dir := rfl
@[simp] theorem popIssue_held (s : State) : (popIssue s).held = s.held := rfl
@[simp] theorem popIssue_retain (s : State) : (popIssue s).retain = s.retain := rfl
@[simp] theorem popIssue_hostLate (s : State) : (popIssue s).hostLate = s.hostLate := rfl
@[simp] theorem popIssue_hostRmw (s : State) : (popIssue s).hostRmw = s.hostRmw := rfl
@[simp] theorem popIssue_aliases (s : State) : (popIssue s).aliases = s.aliases := rfl
@[simp] theorem popIssue_contention (s : State) : (popIssue s).contention = s.contention := rfl
@[simp] theorem popIssue_tlb (s : State) : (popIssue s).tlb = s.tlb := rfl
@[simp] theorem popIssue_tlb2 (s : State) : (popIssue s).tlb2 = s.tlb2 := rfl
@[simp] theorem popIssue_misses (s : State) : (popIssue s).misses = s.misses := rfl
@[simp] theorem popIssue_descs (s : State) : (popIssue s).descs = s.descs := rfl
@[simp] theorem popIssue_blb (s : State) : (popIssue s).blb = s.blb := rfl
@[simp] theorem popIssue_ctxs (s : State) : (popIssue s).ctxs = s.ctxs := rfl
@[simp] theorem popIssue_hub (s : State) : (popIssue s).hub = s.hub := rfl
@[simp] theorem popIssue_dfLog (s : State) : (popIssue s).dfLog = s.dfLog := rfl
@[simp] theorem popIssue_irqs (s : State) : (popIssue s).irqs = s.irqs := rfl
@[simp] theorem popIssue_eccLog (s : State) : (popIssue s).eccLog = s.eccLog := rfl
@[simp] theorem popIssue_saved (s : State) : (popIssue s).saved = s.saved := rfl
@[simp] theorem popIssue_preStop (s : State) : (popIssue s).preStop = s.preStop := rfl
@[simp] theorem popIssue_capture (s : State) : (popIssue s).capture = s.capture := rfl
@[simp] theorem popIssue_replay (s : State) : (popIssue s).replay = s.replay := rfl
@[simp] theorem popIssue_replays (s : State) : (popIssue s).replays = s.replays := rfl
@[simp] theorem popIssue_capIn (s : State) : (popIssue s).capIn = s.capIn := rfl
@[simp] theorem popIssue_boot (s : State) : (popIssue s).boot = s.boot := rfl
@[simp] theorem popIssue_fenced (s : State) : (popIssue s).fenced = s.fenced := rfl
@[simp] theorem popIssue_spareCores (s : State) : (popIssue s).spareCores = s.spareCores := rfl
@[simp] theorem popIssue_coreErrs (s : State) : (popIssue s).coreErrs = s.coreErrs := rfl
@[simp] theorem popIssue_remapped (s : State) : (popIssue s).remapped = s.remapped := rfl
@[simp] theorem popIssue_gated (s : State) : (popIssue s).gated = s.gated := rfl
@[simp] theorem popIssue_hostOut (s : State) : (popIssue s).hostOut = s.hostOut := rfl

/-! ### setGroup -/

@[simp] theorem setGroup_clock (s : State) (g : Group) : (setGroup s g).clock = s.clock := rfl
@[simp] theorem setGroup_issue (s : State) (g : Group) : (setGroup s g).issue = s.issue := rfl
@[simp] theorem setGroup_agenda (s : State) (g : Group) : (setGroup s g).agenda = s.agenda := rfl
@[simp] theorem setGroup_fresh (s : State) (g : Group) : (setGroup s g).fresh = s.fresh := rfl
@[simp] theorem setGroup_nextUid (s : State) (g : Group) : (setGroup s g).nextUid = s.nextUid := rfl
@[simp] theorem setGroup_mem (s : State) (g : Group) : (setGroup s g).mem = s.mem := rfl
@[simp] theorem setGroup_smem (s : State) (g : Group) : (setGroup s g).smem = s.smem := rfl
@[simp] theorem setGroup_groups (s : State) (g : Group) : (setGroup s g).groups = s.groups.map (fun x => if x.place == g.place then g else x) := rfl
@[simp] theorem setGroup_departed (s : State) (g : Group) : (setGroup s g).departed = s.departed := rfl
@[simp] theorem setGroup_retired (s : State) (g : Group) : (setGroup s g).retired = s.retired := rfl
@[simp] theorem setGroup_teams (s : State) (g : Group) : (setGroup s g).teams = s.teams := rfl
@[simp] theorem setGroup_tasks (s : State) (g : Group) : (setGroup s g).tasks = s.tasks := rfl
@[simp] theorem setGroup_dies (s : State) (g : Group) : (setGroup s g).dies = s.dies := rfl
@[simp] theorem setGroup_crews (s : State) (g : Group) : (setGroup s g).crews = s.crews := rfl
@[simp] theorem setGroup_metaq (s : State) (g : Group) : (setGroup s g).metaq = s.metaq := rfl
@[simp] theorem setGroup_merge (s : State) (g : Group) : (setGroup s g).merge = s.merge := rfl
@[simp] theorem setGroup_shutters (s : State) (g : Group) : (setGroup s g).shutters = s.shutters := rfl
@[simp] theorem setGroup_parts (s : State) (g : Group) : (setGroup s g).parts = s.parts := rfl
@[simp] theorem setGroup_qres (s : State) (g : Group) : (setGroup s g).qres = s.qres := rfl
@[simp] theorem setGroup_l1 (s : State) (g : Group) : (setGroup s g).l1 = s.l1 := rfl
@[simp] theorem setGroup_dir (s : State) (g : Group) : (setGroup s g).dir = s.dir := rfl
@[simp] theorem setGroup_held (s : State) (g : Group) : (setGroup s g).held = s.held := rfl
@[simp] theorem setGroup_retain (s : State) (g : Group) : (setGroup s g).retain = s.retain := rfl
@[simp] theorem setGroup_hostLate (s : State) (g : Group) : (setGroup s g).hostLate = s.hostLate := rfl
@[simp] theorem setGroup_hostRmw (s : State) (g : Group) : (setGroup s g).hostRmw = s.hostRmw := rfl
@[simp] theorem setGroup_aliases (s : State) (g : Group) : (setGroup s g).aliases = s.aliases := rfl
@[simp] theorem setGroup_contention (s : State) (g : Group) : (setGroup s g).contention = s.contention := rfl
@[simp] theorem setGroup_tlb (s : State) (g : Group) : (setGroup s g).tlb = s.tlb := rfl
@[simp] theorem setGroup_tlb2 (s : State) (g : Group) : (setGroup s g).tlb2 = s.tlb2 := rfl
@[simp] theorem setGroup_misses (s : State) (g : Group) : (setGroup s g).misses = s.misses := rfl
@[simp] theorem setGroup_descs (s : State) (g : Group) : (setGroup s g).descs = s.descs := rfl
@[simp] theorem setGroup_blb (s : State) (g : Group) : (setGroup s g).blb = s.blb := rfl
@[simp] theorem setGroup_ctxs (s : State) (g : Group) : (setGroup s g).ctxs = s.ctxs := rfl
@[simp] theorem setGroup_hub (s : State) (g : Group) : (setGroup s g).hub = s.hub := rfl
@[simp] theorem setGroup_dfLog (s : State) (g : Group) : (setGroup s g).dfLog = s.dfLog := rfl
@[simp] theorem setGroup_irqs (s : State) (g : Group) : (setGroup s g).irqs = s.irqs := rfl
@[simp] theorem setGroup_eccLog (s : State) (g : Group) : (setGroup s g).eccLog = s.eccLog := rfl
@[simp] theorem setGroup_saved (s : State) (g : Group) : (setGroup s g).saved = s.saved := rfl
@[simp] theorem setGroup_preStop (s : State) (g : Group) : (setGroup s g).preStop = s.preStop := rfl
@[simp] theorem setGroup_capture (s : State) (g : Group) : (setGroup s g).capture = s.capture := rfl
@[simp] theorem setGroup_replay (s : State) (g : Group) : (setGroup s g).replay = s.replay := rfl
@[simp] theorem setGroup_replays (s : State) (g : Group) : (setGroup s g).replays = s.replays := rfl
@[simp] theorem setGroup_capIn (s : State) (g : Group) : (setGroup s g).capIn = s.capIn := rfl
@[simp] theorem setGroup_boot (s : State) (g : Group) : (setGroup s g).boot = s.boot := rfl
@[simp] theorem setGroup_fenced (s : State) (g : Group) : (setGroup s g).fenced = s.fenced := rfl
@[simp] theorem setGroup_spareCores (s : State) (g : Group) : (setGroup s g).spareCores = s.spareCores := rfl
@[simp] theorem setGroup_coreErrs (s : State) (g : Group) : (setGroup s g).coreErrs = s.coreErrs := rfl
@[simp] theorem setGroup_remapped (s : State) (g : Group) : (setGroup s g).remapped = s.remapped := rfl
@[simp] theorem setGroup_gated (s : State) (g : Group) : (setGroup s g).gated = s.gated := rfl
@[simp] theorem setGroup_hostOut (s : State) (g : Group) : (setGroup s g).hostOut = s.hostOut := rfl

/-! ### setTeam -/

@[simp] theorem setTeam_clock (s : State) (t : Team) : (setTeam s t).clock = s.clock := rfl
@[simp] theorem setTeam_issue (s : State) (t : Team) : (setTeam s t).issue = s.issue := rfl
@[simp] theorem setTeam_agenda (s : State) (t : Team) : (setTeam s t).agenda = s.agenda := rfl
@[simp] theorem setTeam_fresh (s : State) (t : Team) : (setTeam s t).fresh = s.fresh := rfl
@[simp] theorem setTeam_nextUid (s : State) (t : Team) : (setTeam s t).nextUid = s.nextUid := rfl
@[simp] theorem setTeam_mem (s : State) (t : Team) : (setTeam s t).mem = s.mem := rfl
@[simp] theorem setTeam_smem (s : State) (t : Team) : (setTeam s t).smem = s.smem := rfl
@[simp] theorem setTeam_groups (s : State) (t : Team) : (setTeam s t).groups = s.groups := rfl
@[simp] theorem setTeam_departed (s : State) (t : Team) : (setTeam s t).departed = s.departed := rfl
@[simp] theorem setTeam_retired (s : State) (t : Team) : (setTeam s t).retired = s.retired := rfl
@[simp] theorem setTeam_teams (s : State) (t : Team) : (setTeam s t).teams = s.teams.map (fun x => if x.uid == t.uid then t else x) := rfl
@[simp] theorem setTeam_tasks (s : State) (t : Team) : (setTeam s t).tasks = s.tasks := rfl
@[simp] theorem setTeam_dies (s : State) (t : Team) : (setTeam s t).dies = s.dies := rfl
@[simp] theorem setTeam_crews (s : State) (t : Team) : (setTeam s t).crews = s.crews := rfl
@[simp] theorem setTeam_metaq (s : State) (t : Team) : (setTeam s t).metaq = s.metaq := rfl
@[simp] theorem setTeam_merge (s : State) (t : Team) : (setTeam s t).merge = s.merge := rfl
@[simp] theorem setTeam_shutters (s : State) (t : Team) : (setTeam s t).shutters = s.shutters := rfl
@[simp] theorem setTeam_parts (s : State) (t : Team) : (setTeam s t).parts = s.parts := rfl
@[simp] theorem setTeam_qres (s : State) (t : Team) : (setTeam s t).qres = s.qres := rfl
@[simp] theorem setTeam_l1 (s : State) (t : Team) : (setTeam s t).l1 = s.l1 := rfl
@[simp] theorem setTeam_dir (s : State) (t : Team) : (setTeam s t).dir = s.dir := rfl
@[simp] theorem setTeam_held (s : State) (t : Team) : (setTeam s t).held = s.held := rfl
@[simp] theorem setTeam_retain (s : State) (t : Team) : (setTeam s t).retain = s.retain := rfl
@[simp] theorem setTeam_hostLate (s : State) (t : Team) : (setTeam s t).hostLate = s.hostLate := rfl
@[simp] theorem setTeam_hostRmw (s : State) (t : Team) : (setTeam s t).hostRmw = s.hostRmw := rfl
@[simp] theorem setTeam_aliases (s : State) (t : Team) : (setTeam s t).aliases = s.aliases := rfl
@[simp] theorem setTeam_contention (s : State) (t : Team) : (setTeam s t).contention = s.contention := rfl
@[simp] theorem setTeam_tlb (s : State) (t : Team) : (setTeam s t).tlb = s.tlb := rfl
@[simp] theorem setTeam_tlb2 (s : State) (t : Team) : (setTeam s t).tlb2 = s.tlb2 := rfl
@[simp] theorem setTeam_misses (s : State) (t : Team) : (setTeam s t).misses = s.misses := rfl
@[simp] theorem setTeam_descs (s : State) (t : Team) : (setTeam s t).descs = s.descs := rfl
@[simp] theorem setTeam_blb (s : State) (t : Team) : (setTeam s t).blb = s.blb := rfl
@[simp] theorem setTeam_ctxs (s : State) (t : Team) : (setTeam s t).ctxs = s.ctxs := rfl
@[simp] theorem setTeam_hub (s : State) (t : Team) : (setTeam s t).hub = s.hub := rfl
@[simp] theorem setTeam_dfLog (s : State) (t : Team) : (setTeam s t).dfLog = s.dfLog := rfl
@[simp] theorem setTeam_irqs (s : State) (t : Team) : (setTeam s t).irqs = s.irqs := rfl
@[simp] theorem setTeam_eccLog (s : State) (t : Team) : (setTeam s t).eccLog = s.eccLog := rfl
@[simp] theorem setTeam_saved (s : State) (t : Team) : (setTeam s t).saved = s.saved := rfl
@[simp] theorem setTeam_preStop (s : State) (t : Team) : (setTeam s t).preStop = s.preStop := rfl
@[simp] theorem setTeam_capture (s : State) (t : Team) : (setTeam s t).capture = s.capture := rfl
@[simp] theorem setTeam_replay (s : State) (t : Team) : (setTeam s t).replay = s.replay := rfl
@[simp] theorem setTeam_replays (s : State) (t : Team) : (setTeam s t).replays = s.replays := rfl
@[simp] theorem setTeam_capIn (s : State) (t : Team) : (setTeam s t).capIn = s.capIn := rfl
@[simp] theorem setTeam_boot (s : State) (t : Team) : (setTeam s t).boot = s.boot := rfl
@[simp] theorem setTeam_fenced (s : State) (t : Team) : (setTeam s t).fenced = s.fenced := rfl
@[simp] theorem setTeam_spareCores (s : State) (t : Team) : (setTeam s t).spareCores = s.spareCores := rfl
@[simp] theorem setTeam_coreErrs (s : State) (t : Team) : (setTeam s t).coreErrs = s.coreErrs := rfl
@[simp] theorem setTeam_remapped (s : State) (t : Team) : (setTeam s t).remapped = s.remapped := rfl
@[simp] theorem setTeam_gated (s : State) (t : Team) : (setTeam s t).gated = s.gated := rfl
@[simp] theorem setTeam_hostOut (s : State) (t : Team) : (setTeam s t).hostOut = s.hostOut := rfl

/-! ### setTask -/

@[simp] theorem setTask_clock (s : State) (t : Task) : (setTask s t).clock = s.clock := rfl
@[simp] theorem setTask_issue (s : State) (t : Task) : (setTask s t).issue = s.issue := rfl
@[simp] theorem setTask_agenda (s : State) (t : Task) : (setTask s t).agenda = s.agenda := rfl
@[simp] theorem setTask_fresh (s : State) (t : Task) : (setTask s t).fresh = s.fresh := rfl
@[simp] theorem setTask_nextUid (s : State) (t : Task) : (setTask s t).nextUid = s.nextUid := rfl
@[simp] theorem setTask_mem (s : State) (t : Task) : (setTask s t).mem = s.mem := rfl
@[simp] theorem setTask_smem (s : State) (t : Task) : (setTask s t).smem = s.smem := rfl
@[simp] theorem setTask_groups (s : State) (t : Task) : (setTask s t).groups = s.groups := rfl
@[simp] theorem setTask_departed (s : State) (t : Task) : (setTask s t).departed = s.departed := rfl
@[simp] theorem setTask_retired (s : State) (t : Task) : (setTask s t).retired = s.retired := rfl
@[simp] theorem setTask_teams (s : State) (t : Task) : (setTask s t).teams = s.teams := rfl
@[simp] theorem setTask_tasks (s : State) (t : Task) : (setTask s t).tasks = s.tasks.map (fun x => if x.id == t.id then t else x) := rfl
@[simp] theorem setTask_dies (s : State) (t : Task) : (setTask s t).dies = s.dies := rfl
@[simp] theorem setTask_crews (s : State) (t : Task) : (setTask s t).crews = s.crews := rfl
@[simp] theorem setTask_metaq (s : State) (t : Task) : (setTask s t).metaq = s.metaq := rfl
@[simp] theorem setTask_merge (s : State) (t : Task) : (setTask s t).merge = s.merge := rfl
@[simp] theorem setTask_shutters (s : State) (t : Task) : (setTask s t).shutters = s.shutters := rfl
@[simp] theorem setTask_parts (s : State) (t : Task) : (setTask s t).parts = s.parts := rfl
@[simp] theorem setTask_qres (s : State) (t : Task) : (setTask s t).qres = s.qres := rfl
@[simp] theorem setTask_l1 (s : State) (t : Task) : (setTask s t).l1 = s.l1 := rfl
@[simp] theorem setTask_dir (s : State) (t : Task) : (setTask s t).dir = s.dir := rfl
@[simp] theorem setTask_held (s : State) (t : Task) : (setTask s t).held = s.held := rfl
@[simp] theorem setTask_retain (s : State) (t : Task) : (setTask s t).retain = s.retain := rfl
@[simp] theorem setTask_hostLate (s : State) (t : Task) : (setTask s t).hostLate = s.hostLate := rfl
@[simp] theorem setTask_hostRmw (s : State) (t : Task) : (setTask s t).hostRmw = s.hostRmw := rfl
@[simp] theorem setTask_aliases (s : State) (t : Task) : (setTask s t).aliases = s.aliases := rfl
@[simp] theorem setTask_contention (s : State) (t : Task) : (setTask s t).contention = s.contention := rfl
@[simp] theorem setTask_tlb (s : State) (t : Task) : (setTask s t).tlb = s.tlb := rfl
@[simp] theorem setTask_tlb2 (s : State) (t : Task) : (setTask s t).tlb2 = s.tlb2 := rfl
@[simp] theorem setTask_misses (s : State) (t : Task) : (setTask s t).misses = s.misses := rfl
@[simp] theorem setTask_descs (s : State) (t : Task) : (setTask s t).descs = s.descs := rfl
@[simp] theorem setTask_blb (s : State) (t : Task) : (setTask s t).blb = s.blb := rfl
@[simp] theorem setTask_ctxs (s : State) (t : Task) : (setTask s t).ctxs = s.ctxs := rfl
@[simp] theorem setTask_hub (s : State) (t : Task) : (setTask s t).hub = s.hub := rfl
@[simp] theorem setTask_dfLog (s : State) (t : Task) : (setTask s t).dfLog = s.dfLog := rfl
@[simp] theorem setTask_irqs (s : State) (t : Task) : (setTask s t).irqs = s.irqs := rfl
@[simp] theorem setTask_eccLog (s : State) (t : Task) : (setTask s t).eccLog = s.eccLog := rfl
@[simp] theorem setTask_saved (s : State) (t : Task) : (setTask s t).saved = s.saved := rfl
@[simp] theorem setTask_preStop (s : State) (t : Task) : (setTask s t).preStop = s.preStop := rfl
@[simp] theorem setTask_capture (s : State) (t : Task) : (setTask s t).capture = s.capture := rfl
@[simp] theorem setTask_replay (s : State) (t : Task) : (setTask s t).replay = s.replay := rfl
@[simp] theorem setTask_replays (s : State) (t : Task) : (setTask s t).replays = s.replays := rfl
@[simp] theorem setTask_capIn (s : State) (t : Task) : (setTask s t).capIn = s.capIn := rfl
@[simp] theorem setTask_boot (s : State) (t : Task) : (setTask s t).boot = s.boot := rfl
@[simp] theorem setTask_fenced (s : State) (t : Task) : (setTask s t).fenced = s.fenced := rfl
@[simp] theorem setTask_spareCores (s : State) (t : Task) : (setTask s t).spareCores = s.spareCores := rfl
@[simp] theorem setTask_coreErrs (s : State) (t : Task) : (setTask s t).coreErrs = s.coreErrs := rfl
@[simp] theorem setTask_remapped (s : State) (t : Task) : (setTask s t).remapped = s.remapped := rfl
@[simp] theorem setTask_gated (s : State) (t : Task) : (setTask s t).gated = s.gated := rfl
@[simp] theorem setTask_hostOut (s : State) (t : Task) : (setTask s t).hostOut = s.hostOut := rfl

/-! ### commit -/

@[simp] theorem commit_clock (s : State) (e : Env) (g : Group) : (commit s e g).clock = s.clock := rfl
@[simp] theorem commit_issue (s : State) (e : Env) (g : Group) : (commit s e g).issue = s.issue := rfl
@[simp] theorem commit_agenda (s : State) (e : Env) (g : Group) : (commit s e g).agenda = s.agenda := rfl
@[simp] theorem commit_fresh (s : State) (e : Env) (g : Group) : (commit s e g).fresh = s.fresh := rfl
@[simp] theorem commit_nextUid (s : State) (e : Env) (g : Group) : (commit s e g).nextUid = s.nextUid := rfl
@[simp] theorem commit_mem (s : State) (e : Env) (g : Group) : (commit s e g).mem = s.mem := rfl
@[simp] theorem commit_smem (s : State) (e : Env) (g : Group) : (commit s e g).smem = s.smem := rfl
@[simp] theorem commit_groups (s : State) (e : Env) (g : Group) : (commit s e g).groups
    = (setGroup s (g.issuedAt (if e.single then [] else e.slices) s.clock)).groups := rfl
@[simp] theorem commit_departed (s : State) (e : Env) (g : Group) : (commit s e g).departed = s.departed := rfl
@[simp] theorem commit_retired (s : State) (e : Env) (g : Group) : (commit s e g).retired = s.retired := rfl
@[simp] theorem commit_teams (s : State) (e : Env) (g : Group) : (commit s e g).teams = s.teams.map (fun t => if t.uid == e.t.uid then { t with issuedN := t.issuedN + 1 } else t) := rfl
@[simp] theorem commit_tasks (s : State) (e : Env) (g : Group) : (commit s e g).tasks = s.tasks := rfl
@[simp] theorem commit_dies (s : State) (e : Env) (g : Group) : (commit s e g).dies = s.dies := rfl
@[simp] theorem commit_crews (s : State) (e : Env) (g : Group) : (commit s e g).crews = s.crews := rfl
@[simp] theorem commit_metaq (s : State) (e : Env) (g : Group) : (commit s e g).metaq = s.metaq := rfl
@[simp] theorem commit_merge (s : State) (e : Env) (g : Group) : (commit s e g).merge = s.merge := rfl
@[simp] theorem commit_shutters (s : State) (e : Env) (g : Group) : (commit s e g).shutters = s.shutters := rfl
@[simp] theorem commit_parts (s : State) (e : Env) (g : Group) : (commit s e g).parts = s.parts := rfl
@[simp] theorem commit_qres (s : State) (e : Env) (g : Group) : (commit s e g).qres = s.qres := rfl
@[simp] theorem commit_l1 (s : State) (e : Env) (g : Group) : (commit s e g).l1 = s.l1 := rfl
@[simp] theorem commit_dir (s : State) (e : Env) (g : Group) : (commit s e g).dir = s.dir := rfl
@[simp] theorem commit_held (s : State) (e : Env) (g : Group) : (commit s e g).held = s.held := rfl
@[simp] theorem commit_retain (s : State) (e : Env) (g : Group) : (commit s e g).retain = s.retain := rfl
@[simp] theorem commit_hostLate (s : State) (e : Env) (g : Group) : (commit s e g).hostLate = s.hostLate := rfl
@[simp] theorem commit_hostRmw (s : State) (e : Env) (g : Group) : (commit s e g).hostRmw = s.hostRmw := rfl
@[simp] theorem commit_aliases (s : State) (e : Env) (g : Group) : (commit s e g).aliases = s.aliases := rfl
@[simp] theorem commit_contention (s : State) (e : Env) (g : Group) : (commit s e g).contention = s.contention := rfl
@[simp] theorem commit_tlb (s : State) (e : Env) (g : Group) : (commit s e g).tlb = s.tlb := rfl
@[simp] theorem commit_tlb2 (s : State) (e : Env) (g : Group) : (commit s e g).tlb2 = s.tlb2 := rfl
@[simp] theorem commit_misses (s : State) (e : Env) (g : Group) : (commit s e g).misses = s.misses := rfl
@[simp] theorem commit_descs (s : State) (e : Env) (g : Group) : (commit s e g).descs = s.descs := rfl
@[simp] theorem commit_blb (s : State) (e : Env) (g : Group) : (commit s e g).blb = s.blb := rfl
@[simp] theorem commit_ctxs (s : State) (e : Env) (g : Group) : (commit s e g).ctxs = s.ctxs := rfl
@[simp] theorem commit_hub (s : State) (e : Env) (g : Group) : (commit s e g).hub = s.hub := rfl
@[simp] theorem commit_dfLog (s : State) (e : Env) (g : Group) : (commit s e g).dfLog = s.dfLog := rfl
@[simp] theorem commit_irqs (s : State) (e : Env) (g : Group) : (commit s e g).irqs = s.irqs := rfl
@[simp] theorem commit_eccLog (s : State) (e : Env) (g : Group) : (commit s e g).eccLog = s.eccLog := rfl
@[simp] theorem commit_saved (s : State) (e : Env) (g : Group) : (commit s e g).saved = s.saved := rfl
@[simp] theorem commit_preStop (s : State) (e : Env) (g : Group) : (commit s e g).preStop = s.preStop := rfl
@[simp] theorem commit_capture (s : State) (e : Env) (g : Group) : (commit s e g).capture = s.capture := rfl
@[simp] theorem commit_replay (s : State) (e : Env) (g : Group) : (commit s e g).replay = s.replay := rfl
@[simp] theorem commit_replays (s : State) (e : Env) (g : Group) : (commit s e g).replays = s.replays := rfl
@[simp] theorem commit_capIn (s : State) (e : Env) (g : Group) : (commit s e g).capIn = s.capIn := rfl
@[simp] theorem commit_boot (s : State) (e : Env) (g : Group) : (commit s e g).boot = s.boot := rfl
@[simp] theorem commit_fenced (s : State) (e : Env) (g : Group) : (commit s e g).fenced = s.fenced := rfl
@[simp] theorem commit_spareCores (s : State) (e : Env) (g : Group) : (commit s e g).spareCores = s.spareCores := rfl
@[simp] theorem commit_coreErrs (s : State) (e : Env) (g : Group) : (commit s e g).coreErrs = s.coreErrs := rfl
@[simp] theorem commit_remapped (s : State) (e : Env) (g : Group) : (commit s e g).remapped = s.remapped := rfl
@[simp] theorem commit_gated (s : State) (e : Env) (g : Group) : (commit s e g).gated = s.gated := rfl
@[simp] theorem commit_hostOut (s : State) (e : Env) (g : Group) : (commit s e g).hostOut = s.hostOut := rfl

/-! ### advance -/

@[simp] theorem advance_clock (s : State) (e : Env) (g : Group) : (advance s e g).clock = s.clock := rfl
@[simp] theorem advance_issue (s : State) (e : Env) (g : Group) : (advance s e g).issue = s.issue := rfl
@[simp] theorem advance_agenda (s : State) (e : Env) (g : Group) : (advance s e g).agenda = s.agenda := rfl
@[simp] theorem advance_fresh (s : State) (e : Env) (g : Group) : (advance s e g).fresh = s.fresh := rfl
@[simp] theorem advance_nextUid (s : State) (e : Env) (g : Group) : (advance s e g).nextUid = s.nextUid := rfl
@[simp] theorem advance_mem (s : State) (e : Env) (g : Group) : (advance s e g).mem = s.mem := rfl
@[simp] theorem advance_smem (s : State) (e : Env) (g : Group) : (advance s e g).smem = s.smem := rfl
@[simp] theorem advance_groups (s : State) (e : Env) (g : Group) : (advance s e g).groups
    = (setGroup s ((g.setPc e.slices e.pc.next).issuedAt (if e.single then [] else e.slices) s.clock)).groups := rfl
@[simp] theorem advance_departed (s : State) (e : Env) (g : Group) : (advance s e g).departed = s.departed := rfl
@[simp] theorem advance_retired (s : State) (e : Env) (g : Group) : (advance s e g).retired = s.retired := rfl
@[simp] theorem advance_teams (s : State) (e : Env) (g : Group) : (advance s e g).teams = s.teams.map (fun t => if t.uid == e.t.uid then { t with issuedN := t.issuedN + 1 } else t) := rfl
@[simp] theorem advance_tasks (s : State) (e : Env) (g : Group) : (advance s e g).tasks = s.tasks := rfl
@[simp] theorem advance_dies (s : State) (e : Env) (g : Group) : (advance s e g).dies = s.dies := rfl
@[simp] theorem advance_crews (s : State) (e : Env) (g : Group) : (advance s e g).crews = s.crews := rfl
@[simp] theorem advance_metaq (s : State) (e : Env) (g : Group) : (advance s e g).metaq = s.metaq := rfl
@[simp] theorem advance_merge (s : State) (e : Env) (g : Group) : (advance s e g).merge = s.merge := rfl
@[simp] theorem advance_shutters (s : State) (e : Env) (g : Group) : (advance s e g).shutters = s.shutters := rfl
@[simp] theorem advance_parts (s : State) (e : Env) (g : Group) : (advance s e g).parts = s.parts := rfl
@[simp] theorem advance_qres (s : State) (e : Env) (g : Group) : (advance s e g).qres = s.qres := rfl
@[simp] theorem advance_l1 (s : State) (e : Env) (g : Group) : (advance s e g).l1 = s.l1 := rfl
@[simp] theorem advance_dir (s : State) (e : Env) (g : Group) : (advance s e g).dir = s.dir := rfl
@[simp] theorem advance_held (s : State) (e : Env) (g : Group) : (advance s e g).held = s.held := rfl
@[simp] theorem advance_retain (s : State) (e : Env) (g : Group) : (advance s e g).retain = s.retain := rfl
@[simp] theorem advance_hostLate (s : State) (e : Env) (g : Group) : (advance s e g).hostLate = s.hostLate := rfl
@[simp] theorem advance_hostRmw (s : State) (e : Env) (g : Group) : (advance s e g).hostRmw = s.hostRmw := rfl
@[simp] theorem advance_aliases (s : State) (e : Env) (g : Group) : (advance s e g).aliases = s.aliases := rfl
@[simp] theorem advance_contention (s : State) (e : Env) (g : Group) : (advance s e g).contention = s.contention := rfl
@[simp] theorem advance_tlb (s : State) (e : Env) (g : Group) : (advance s e g).tlb = s.tlb := rfl
@[simp] theorem advance_tlb2 (s : State) (e : Env) (g : Group) : (advance s e g).tlb2 = s.tlb2 := rfl
@[simp] theorem advance_misses (s : State) (e : Env) (g : Group) : (advance s e g).misses = s.misses := rfl
@[simp] theorem advance_descs (s : State) (e : Env) (g : Group) : (advance s e g).descs = s.descs := rfl
@[simp] theorem advance_blb (s : State) (e : Env) (g : Group) : (advance s e g).blb = s.blb := rfl
@[simp] theorem advance_ctxs (s : State) (e : Env) (g : Group) : (advance s e g).ctxs = s.ctxs := rfl
@[simp] theorem advance_hub (s : State) (e : Env) (g : Group) : (advance s e g).hub = s.hub := rfl
@[simp] theorem advance_dfLog (s : State) (e : Env) (g : Group) : (advance s e g).dfLog = s.dfLog := rfl
@[simp] theorem advance_irqs (s : State) (e : Env) (g : Group) : (advance s e g).irqs = s.irqs := rfl
@[simp] theorem advance_eccLog (s : State) (e : Env) (g : Group) : (advance s e g).eccLog = s.eccLog := rfl
@[simp] theorem advance_saved (s : State) (e : Env) (g : Group) : (advance s e g).saved = s.saved := rfl
@[simp] theorem advance_preStop (s : State) (e : Env) (g : Group) : (advance s e g).preStop = s.preStop := rfl
@[simp] theorem advance_capture (s : State) (e : Env) (g : Group) : (advance s e g).capture = s.capture := rfl
@[simp] theorem advance_replay (s : State) (e : Env) (g : Group) : (advance s e g).replay = s.replay := rfl
@[simp] theorem advance_replays (s : State) (e : Env) (g : Group) : (advance s e g).replays = s.replays := rfl
@[simp] theorem advance_capIn (s : State) (e : Env) (g : Group) : (advance s e g).capIn = s.capIn := rfl
@[simp] theorem advance_boot (s : State) (e : Env) (g : Group) : (advance s e g).boot = s.boot := rfl
@[simp] theorem advance_fenced (s : State) (e : Env) (g : Group) : (advance s e g).fenced = s.fenced := rfl
@[simp] theorem advance_spareCores (s : State) (e : Env) (g : Group) : (advance s e g).spareCores = s.spareCores := rfl
@[simp] theorem advance_coreErrs (s : State) (e : Env) (g : Group) : (advance s e g).coreErrs = s.coreErrs := rfl
@[simp] theorem advance_remapped (s : State) (e : Env) (g : Group) : (advance s e g).remapped = s.remapped := rfl
@[simp] theorem advance_gated (s : State) (e : Env) (g : Group) : (advance s e g).gated = s.gated := rfl
@[simp] theorem advance_hostOut (s : State) (e : Env) (g : Group) : (advance s e g).hostOut = s.hostOut := rfl

/-! ### soil -/

@[simp] theorem soil_clock (s : State) (u : Nat) : (soil s u).clock = s.clock := rfl
@[simp] theorem soil_issue (s : State) (u : Nat) : (soil s u).issue = s.issue := rfl
@[simp] theorem soil_agenda (s : State) (u : Nat) : (soil s u).agenda = s.agenda := rfl
@[simp] theorem soil_fresh (s : State) (u : Nat) : (soil s u).fresh = s.fresh := rfl
@[simp] theorem soil_nextUid (s : State) (u : Nat) : (soil s u).nextUid = s.nextUid := rfl
@[simp] theorem soil_mem (s : State) (u : Nat) : (soil s u).mem = s.mem := rfl
@[simp] theorem soil_smem (s : State) (u : Nat) : (soil s u).smem = s.smem := rfl
@[simp] theorem soil_groups (s : State) (u : Nat) : (soil s u).groups = s.groups := rfl
@[simp] theorem soil_departed (s : State) (u : Nat) : (soil s u).departed = s.departed := rfl
@[simp] theorem soil_retired (s : State) (u : Nat) : (soil s u).retired = s.retired := rfl
@[simp] theorem soil_teams (s : State) (u : Nat) : (soil s u).teams = s.teams.map (fun t => if t.uid == u then { t with clean := false } else t) := rfl
@[simp] theorem soil_tasks (s : State) (u : Nat) : (soil s u).tasks = s.tasks := rfl
@[simp] theorem soil_dies (s : State) (u : Nat) : (soil s u).dies = s.dies := rfl
@[simp] theorem soil_crews (s : State) (u : Nat) : (soil s u).crews = s.crews := rfl
@[simp] theorem soil_metaq (s : State) (u : Nat) : (soil s u).metaq = s.metaq := rfl
@[simp] theorem soil_merge (s : State) (u : Nat) : (soil s u).merge = s.merge := rfl
@[simp] theorem soil_shutters (s : State) (u : Nat) : (soil s u).shutters = s.shutters := rfl
@[simp] theorem soil_parts (s : State) (u : Nat) : (soil s u).parts = s.parts := rfl
@[simp] theorem soil_qres (s : State) (u : Nat) : (soil s u).qres = s.qres := rfl
@[simp] theorem soil_l1 (s : State) (u : Nat) : (soil s u).l1 = s.l1 := rfl
@[simp] theorem soil_dir (s : State) (u : Nat) : (soil s u).dir = s.dir := rfl
@[simp] theorem soil_held (s : State) (u : Nat) : (soil s u).held = s.held := rfl
@[simp] theorem soil_retain (s : State) (u : Nat) : (soil s u).retain = s.retain := rfl
@[simp] theorem soil_hostLate (s : State) (u : Nat) : (soil s u).hostLate = s.hostLate := rfl
@[simp] theorem soil_hostRmw (s : State) (u : Nat) : (soil s u).hostRmw = s.hostRmw := rfl
@[simp] theorem soil_aliases (s : State) (u : Nat) : (soil s u).aliases = s.aliases := rfl
@[simp] theorem soil_contention (s : State) (u : Nat) : (soil s u).contention = s.contention := rfl
@[simp] theorem soil_tlb (s : State) (u : Nat) : (soil s u).tlb = s.tlb := rfl
@[simp] theorem soil_tlb2 (s : State) (u : Nat) : (soil s u).tlb2 = s.tlb2 := rfl
@[simp] theorem soil_misses (s : State) (u : Nat) : (soil s u).misses = s.misses := rfl
@[simp] theorem soil_descs (s : State) (u : Nat) : (soil s u).descs = s.descs := rfl
@[simp] theorem soil_blb (s : State) (u : Nat) : (soil s u).blb = s.blb := rfl
@[simp] theorem soil_ctxs (s : State) (u : Nat) : (soil s u).ctxs = s.ctxs := rfl
@[simp] theorem soil_hub (s : State) (u : Nat) : (soil s u).hub = s.hub := rfl
@[simp] theorem soil_dfLog (s : State) (u : Nat) : (soil s u).dfLog = s.dfLog := rfl
@[simp] theorem soil_irqs (s : State) (u : Nat) : (soil s u).irqs = s.irqs := rfl
@[simp] theorem soil_eccLog (s : State) (u : Nat) : (soil s u).eccLog = s.eccLog := rfl
@[simp] theorem soil_saved (s : State) (u : Nat) : (soil s u).saved = s.saved := rfl
@[simp] theorem soil_preStop (s : State) (u : Nat) : (soil s u).preStop = s.preStop := rfl
@[simp] theorem soil_capture (s : State) (u : Nat) : (soil s u).capture = s.capture := rfl
@[simp] theorem soil_replay (s : State) (u : Nat) : (soil s u).replay = s.replay := rfl
@[simp] theorem soil_replays (s : State) (u : Nat) : (soil s u).replays = s.replays := rfl
@[simp] theorem soil_capIn (s : State) (u : Nat) : (soil s u).capIn = s.capIn := rfl
@[simp] theorem soil_boot (s : State) (u : Nat) : (soil s u).boot = s.boot := rfl
@[simp] theorem soil_fenced (s : State) (u : Nat) : (soil s u).fenced = s.fenced := rfl
@[simp] theorem soil_spareCores (s : State) (u : Nat) : (soil s u).spareCores = s.spareCores := rfl
@[simp] theorem soil_coreErrs (s : State) (u : Nat) : (soil s u).coreErrs = s.coreErrs := rfl
@[simp] theorem soil_remapped (s : State) (u : Nat) : (soil s u).remapped = s.remapped := rfl
@[simp] theorem soil_gated (s : State) (u : Nat) : (soil s u).gated = s.gated := rfl
@[simp] theorem soil_hostOut (s : State) (u : Nat) : (soil s u).hostOut = s.hostOut := rfl

/-! ### stall -/

@[simp] theorem stall_clock (s : State) (e : Env) : (stall s e).clock = s.clock := rfl
@[simp] theorem stall_issue (s : State) (e : Env) : (stall s e).issue = s.issue := rfl
@[simp] theorem stall_agenda (s : State) (e : Env) : (stall s e).agenda = s.agenda := rfl
@[simp] theorem stall_fresh (s : State) (e : Env) : (stall s e).fresh = s.fresh := rfl
@[simp] theorem stall_nextUid (s : State) (e : Env) : (stall s e).nextUid = s.nextUid := rfl
@[simp] theorem stall_mem (s : State) (e : Env) : (stall s e).mem = s.mem := rfl
@[simp] theorem stall_smem (s : State) (e : Env) : (stall s e).smem = s.smem := rfl
@[simp] theorem stall_groups (s : State) (e : Env) : (stall s e).groups = (setGroup s { e.g with stalled := e.g.stalled ||| sliceBits e.slices }).groups := rfl
@[simp] theorem stall_departed (s : State) (e : Env) : (stall s e).departed = s.departed := rfl
@[simp] theorem stall_retired (s : State) (e : Env) : (stall s e).retired = s.retired := rfl
@[simp] theorem stall_teams (s : State) (e : Env) : (stall s e).teams = s.teams := rfl
@[simp] theorem stall_tasks (s : State) (e : Env) : (stall s e).tasks = s.tasks := rfl
@[simp] theorem stall_dies (s : State) (e : Env) : (stall s e).dies = s.dies := rfl
@[simp] theorem stall_crews (s : State) (e : Env) : (stall s e).crews = s.crews := rfl
@[simp] theorem stall_metaq (s : State) (e : Env) : (stall s e).metaq = s.metaq := rfl
@[simp] theorem stall_merge (s : State) (e : Env) : (stall s e).merge = s.merge := rfl
@[simp] theorem stall_shutters (s : State) (e : Env) : (stall s e).shutters = s.shutters := rfl
@[simp] theorem stall_parts (s : State) (e : Env) : (stall s e).parts = s.parts := rfl
@[simp] theorem stall_qres (s : State) (e : Env) : (stall s e).qres = s.qres := rfl
@[simp] theorem stall_l1 (s : State) (e : Env) : (stall s e).l1 = s.l1 := rfl
@[simp] theorem stall_dir (s : State) (e : Env) : (stall s e).dir = s.dir := rfl
@[simp] theorem stall_held (s : State) (e : Env) : (stall s e).held = s.held := rfl
@[simp] theorem stall_retain (s : State) (e : Env) : (stall s e).retain = s.retain := rfl
@[simp] theorem stall_hostLate (s : State) (e : Env) : (stall s e).hostLate = s.hostLate := rfl
@[simp] theorem stall_hostRmw (s : State) (e : Env) : (stall s e).hostRmw = s.hostRmw := rfl
@[simp] theorem stall_aliases (s : State) (e : Env) : (stall s e).aliases = s.aliases := rfl
@[simp] theorem stall_contention (s : State) (e : Env) : (stall s e).contention = s.contention := rfl
@[simp] theorem stall_tlb (s : State) (e : Env) : (stall s e).tlb = s.tlb := rfl
@[simp] theorem stall_tlb2 (s : State) (e : Env) : (stall s e).tlb2 = s.tlb2 := rfl
@[simp] theorem stall_misses (s : State) (e : Env) : (stall s e).misses = s.misses := rfl
@[simp] theorem stall_descs (s : State) (e : Env) : (stall s e).descs = s.descs := rfl
@[simp] theorem stall_blb (s : State) (e : Env) : (stall s e).blb = s.blb := rfl
@[simp] theorem stall_ctxs (s : State) (e : Env) : (stall s e).ctxs = s.ctxs := rfl
@[simp] theorem stall_hub (s : State) (e : Env) : (stall s e).hub = s.hub := rfl
@[simp] theorem stall_dfLog (s : State) (e : Env) : (stall s e).dfLog = s.dfLog := rfl
@[simp] theorem stall_irqs (s : State) (e : Env) : (stall s e).irqs = s.irqs := rfl
@[simp] theorem stall_eccLog (s : State) (e : Env) : (stall s e).eccLog = s.eccLog := rfl
@[simp] theorem stall_saved (s : State) (e : Env) : (stall s e).saved = s.saved := rfl
@[simp] theorem stall_preStop (s : State) (e : Env) : (stall s e).preStop = s.preStop := rfl
@[simp] theorem stall_capture (s : State) (e : Env) : (stall s e).capture = s.capture := rfl
@[simp] theorem stall_replay (s : State) (e : Env) : (stall s e).replay = s.replay := rfl
@[simp] theorem stall_replays (s : State) (e : Env) : (stall s e).replays = s.replays := rfl
@[simp] theorem stall_capIn (s : State) (e : Env) : (stall s e).capIn = s.capIn := rfl
@[simp] theorem stall_boot (s : State) (e : Env) : (stall s e).boot = s.boot := rfl
@[simp] theorem stall_fenced (s : State) (e : Env) : (stall s e).fenced = s.fenced := rfl
@[simp] theorem stall_spareCores (s : State) (e : Env) : (stall s e).spareCores = s.spareCores := rfl
@[simp] theorem stall_coreErrs (s : State) (e : Env) : (stall s e).coreErrs = s.coreErrs := rfl
@[simp] theorem stall_remapped (s : State) (e : Env) : (stall s e).remapped = s.remapped := rfl
@[simp] theorem stall_gated (s : State) (e : Env) : (stall s e).gated = s.gated := rfl
@[simp] theorem stall_hostOut (s : State) (e : Env) : (stall s e).hostOut = s.hostOut := rfl

/-! ### unstall -/

@[simp] theorem unstall_clock (s : State) : (unstall s).clock = s.clock := rfl
@[simp] theorem unstall_issue (s : State) : (unstall s).issue = s.issue := rfl
@[simp] theorem unstall_agenda (s : State) : (unstall s).agenda = s.agenda := rfl
@[simp] theorem unstall_fresh (s : State) : (unstall s).fresh = s.fresh := rfl
@[simp] theorem unstall_nextUid (s : State) : (unstall s).nextUid = s.nextUid := rfl
@[simp] theorem unstall_mem (s : State) : (unstall s).mem = s.mem := rfl
@[simp] theorem unstall_smem (s : State) : (unstall s).smem = s.smem := rfl
@[simp] theorem unstall_departed (s : State) : (unstall s).departed = s.departed := rfl
@[simp] theorem unstall_retired (s : State) : (unstall s).retired = s.retired := rfl
@[simp] theorem unstall_teams (s : State) : (unstall s).teams = s.teams := rfl
@[simp] theorem unstall_tasks (s : State) : (unstall s).tasks = s.tasks := rfl
@[simp] theorem unstall_dies (s : State) : (unstall s).dies = s.dies := rfl
@[simp] theorem unstall_crews (s : State) : (unstall s).crews = s.crews := rfl
@[simp] theorem unstall_metaq (s : State) : (unstall s).metaq = s.metaq := rfl
@[simp] theorem unstall_merge (s : State) : (unstall s).merge = s.merge := rfl
@[simp] theorem unstall_shutters (s : State) : (unstall s).shutters = s.shutters := rfl
@[simp] theorem unstall_parts (s : State) : (unstall s).parts = s.parts := rfl
@[simp] theorem unstall_qres (s : State) : (unstall s).qres = s.qres := rfl
@[simp] theorem unstall_l1 (s : State) : (unstall s).l1 = s.l1 := rfl
@[simp] theorem unstall_dir (s : State) : (unstall s).dir = s.dir := rfl
@[simp] theorem unstall_held (s : State) : (unstall s).held = s.held := rfl
@[simp] theorem unstall_retain (s : State) : (unstall s).retain = s.retain := rfl
@[simp] theorem unstall_hostLate (s : State) : (unstall s).hostLate = s.hostLate := rfl
@[simp] theorem unstall_hostRmw (s : State) : (unstall s).hostRmw = s.hostRmw := rfl
@[simp] theorem unstall_aliases (s : State) : (unstall s).aliases = s.aliases := rfl
@[simp] theorem unstall_contention (s : State) : (unstall s).contention = s.contention := rfl
@[simp] theorem unstall_tlb (s : State) : (unstall s).tlb = s.tlb := rfl
@[simp] theorem unstall_tlb2 (s : State) : (unstall s).tlb2 = s.tlb2 := rfl
@[simp] theorem unstall_misses (s : State) : (unstall s).misses = s.misses := rfl
@[simp] theorem unstall_descs (s : State) : (unstall s).descs = s.descs := rfl
@[simp] theorem unstall_blb (s : State) : (unstall s).blb = s.blb := rfl
@[simp] theorem unstall_ctxs (s : State) : (unstall s).ctxs = s.ctxs := rfl
@[simp] theorem unstall_hub (s : State) : (unstall s).hub = s.hub := rfl
@[simp] theorem unstall_dfLog (s : State) : (unstall s).dfLog = s.dfLog := rfl
@[simp] theorem unstall_irqs (s : State) : (unstall s).irqs = s.irqs := rfl
@[simp] theorem unstall_eccLog (s : State) : (unstall s).eccLog = s.eccLog := rfl
@[simp] theorem unstall_saved (s : State) : (unstall s).saved = s.saved := rfl
@[simp] theorem unstall_preStop (s : State) : (unstall s).preStop = s.preStop := rfl
@[simp] theorem unstall_capture (s : State) : (unstall s).capture = s.capture := rfl
@[simp] theorem unstall_replay (s : State) : (unstall s).replay = s.replay := rfl
@[simp] theorem unstall_replays (s : State) : (unstall s).replays = s.replays := rfl
@[simp] theorem unstall_capIn (s : State) : (unstall s).capIn = s.capIn := rfl
@[simp] theorem unstall_boot (s : State) : (unstall s).boot = s.boot := rfl
@[simp] theorem unstall_fenced (s : State) : (unstall s).fenced = s.fenced := rfl
@[simp] theorem unstall_spareCores (s : State) : (unstall s).spareCores = s.spareCores := rfl
@[simp] theorem unstall_coreErrs (s : State) : (unstall s).coreErrs = s.coreErrs := rfl
@[simp] theorem unstall_remapped (s : State) : (unstall s).remapped = s.remapped := rfl
@[simp] theorem unstall_gated (s : State) : (unstall s).gated = s.gated := rfl
@[simp] theorem unstall_hostOut (s : State) : (unstall s).hostOut = s.hostOut := rfl

/-! ### beginWait -/

@[simp] theorem beginWait_clock (s : State) (e : Env) (g : Group) (k c o v : Nat) (q : Cont) : (beginWait s e g k c o v q).clock = s.clock := rfl
@[simp] theorem beginWait_issue (s : State) (e : Env) (g : Group) (k c o v : Nat) (q : Cont) : (beginWait s e g k c o v q).issue = s.issue := rfl
@[simp] theorem beginWait_agenda (s : State) (e : Env) (g : Group) (k c o v : Nat) (q : Cont) : (beginWait s e g k c o v q).agenda = s.agenda := rfl
@[simp] theorem beginWait_fresh (s : State) (e : Env) (g : Group) (k c o v : Nat) (q : Cont) : (beginWait s e g k c o v q).fresh = s.fresh := rfl
@[simp] theorem beginWait_nextUid (s : State) (e : Env) (g : Group) (k c o v : Nat) (q : Cont) : (beginWait s e g k c o v q).nextUid = s.nextUid := rfl
@[simp] theorem beginWait_mem (s : State) (e : Env) (g : Group) (k c o v : Nat) (q : Cont) : (beginWait s e g k c o v q).mem = s.mem := rfl
@[simp] theorem beginWait_smem (s : State) (e : Env) (g : Group) (k c o v : Nat) (q : Cont) : (beginWait s e g k c o v q).smem = s.smem := rfl
@[simp] theorem beginWait_departed (s : State) (e : Env) (g : Group) (k c o v : Nat) (q : Cont) : (beginWait s e g k c o v q).departed = s.departed := rfl
@[simp] theorem beginWait_retired (s : State) (e : Env) (g : Group) (k c o v : Nat) (q : Cont) : (beginWait s e g k c o v q).retired = s.retired := rfl
@[simp] theorem beginWait_teams (s : State) (e : Env) (g : Group) (k c o v : Nat) (q : Cont) : (beginWait s e g k c o v q).teams = s.teams.map (fun t => if t.uid == e.t.uid then { t with issuedN := t.issuedN + 1 } else t) := rfl
@[simp] theorem beginWait_tasks (s : State) (e : Env) (g : Group) (k c o v : Nat) (q : Cont) : (beginWait s e g k c o v q).tasks = s.tasks := rfl
@[simp] theorem beginWait_dies (s : State) (e : Env) (g : Group) (k c o v : Nat) (q : Cont) : (beginWait s e g k c o v q).dies = s.dies := rfl
@[simp] theorem beginWait_crews (s : State) (e : Env) (g : Group) (k c o v : Nat) (q : Cont) : (beginWait s e g k c o v q).crews = s.crews := rfl
@[simp] theorem beginWait_metaq (s : State) (e : Env) (g : Group) (k c o v : Nat) (q : Cont) : (beginWait s e g k c o v q).metaq = s.metaq := rfl
@[simp] theorem beginWait_merge (s : State) (e : Env) (g : Group) (k c o v : Nat) (q : Cont) : (beginWait s e g k c o v q).merge = s.merge := rfl
@[simp] theorem beginWait_shutters (s : State) (e : Env) (g : Group) (k c o v : Nat) (q : Cont) : (beginWait s e g k c o v q).shutters = s.shutters := rfl
@[simp] theorem beginWait_parts (s : State) (e : Env) (g : Group) (k c o v : Nat) (q : Cont) : (beginWait s e g k c o v q).parts = s.parts := rfl
@[simp] theorem beginWait_qres (s : State) (e : Env) (g : Group) (k c o v : Nat) (q : Cont) : (beginWait s e g k c o v q).qres = s.qres := rfl
@[simp] theorem beginWait_l1 (s : State) (e : Env) (g : Group) (k c o v : Nat) (q : Cont) : (beginWait s e g k c o v q).l1 = s.l1 := rfl
@[simp] theorem beginWait_dir (s : State) (e : Env) (g : Group) (k c o v : Nat) (q : Cont) : (beginWait s e g k c o v q).dir = s.dir := rfl
@[simp] theorem beginWait_held (s : State) (e : Env) (g : Group) (k c o v : Nat) (q : Cont) : (beginWait s e g k c o v q).held = s.held := rfl
@[simp] theorem beginWait_retain (s : State) (e : Env) (g : Group) (k c o v : Nat) (q : Cont) : (beginWait s e g k c o v q).retain = s.retain := rfl
@[simp] theorem beginWait_hostLate (s : State) (e : Env) (g : Group) (k c o v : Nat) (q : Cont) : (beginWait s e g k c o v q).hostLate = s.hostLate := rfl
@[simp] theorem beginWait_hostRmw (s : State) (e : Env) (g : Group) (k c o v : Nat) (q : Cont) : (beginWait s e g k c o v q).hostRmw = s.hostRmw := rfl
@[simp] theorem beginWait_aliases (s : State) (e : Env) (g : Group) (k c o v : Nat) (q : Cont) : (beginWait s e g k c o v q).aliases = s.aliases := rfl
@[simp] theorem beginWait_contention (s : State) (e : Env) (g : Group) (k c o v : Nat) (q : Cont) : (beginWait s e g k c o v q).contention = s.contention := rfl
@[simp] theorem beginWait_tlb (s : State) (e : Env) (g : Group) (k c o v : Nat) (q : Cont) : (beginWait s e g k c o v q).tlb = s.tlb := rfl
@[simp] theorem beginWait_tlb2 (s : State) (e : Env) (g : Group) (k c o v : Nat) (q : Cont) : (beginWait s e g k c o v q).tlb2 = s.tlb2 := rfl
@[simp] theorem beginWait_misses (s : State) (e : Env) (g : Group) (k c o v : Nat) (q : Cont) : (beginWait s e g k c o v q).misses = s.misses := rfl
@[simp] theorem beginWait_descs (s : State) (e : Env) (g : Group) (k c o v : Nat) (q : Cont) : (beginWait s e g k c o v q).descs = s.descs := rfl
@[simp] theorem beginWait_blb (s : State) (e : Env) (g : Group) (k c o v : Nat) (q : Cont) : (beginWait s e g k c o v q).blb = s.blb := rfl
@[simp] theorem beginWait_ctxs (s : State) (e : Env) (g : Group) (k c o v : Nat) (q : Cont) : (beginWait s e g k c o v q).ctxs = s.ctxs := rfl
@[simp] theorem beginWait_hub (s : State) (e : Env) (g : Group) (k c o v : Nat) (q : Cont) : (beginWait s e g k c o v q).hub = s.hub := rfl
@[simp] theorem beginWait_dfLog (s : State) (e : Env) (g : Group) (k c o v : Nat) (q : Cont) : (beginWait s e g k c o v q).dfLog = s.dfLog := rfl
@[simp] theorem beginWait_irqs (s : State) (e : Env) (g : Group) (k c o v : Nat) (q : Cont) : (beginWait s e g k c o v q).irqs = s.irqs := rfl
@[simp] theorem beginWait_eccLog (s : State) (e : Env) (g : Group) (k c o v : Nat) (q : Cont) : (beginWait s e g k c o v q).eccLog = s.eccLog := rfl
@[simp] theorem beginWait_saved (s : State) (e : Env) (g : Group) (k c o v : Nat) (q : Cont) : (beginWait s e g k c o v q).saved = s.saved := rfl
@[simp] theorem beginWait_preStop (s : State) (e : Env) (g : Group) (k c o v : Nat) (q : Cont) : (beginWait s e g k c o v q).preStop = s.preStop := rfl
@[simp] theorem beginWait_capture (s : State) (e : Env) (g : Group) (k c o v : Nat) (q : Cont) : (beginWait s e g k c o v q).capture = s.capture := rfl
@[simp] theorem beginWait_replay (s : State) (e : Env) (g : Group) (k c o v : Nat) (q : Cont) : (beginWait s e g k c o v q).replay = s.replay := rfl
@[simp] theorem beginWait_replays (s : State) (e : Env) (g : Group) (k c o v : Nat) (q : Cont) : (beginWait s e g k c o v q).replays = s.replays := rfl
@[simp] theorem beginWait_capIn (s : State) (e : Env) (g : Group) (k c o v : Nat) (q : Cont) : (beginWait s e g k c o v q).capIn = s.capIn := rfl
@[simp] theorem beginWait_boot (s : State) (e : Env) (g : Group) (k c o v : Nat) (q : Cont) : (beginWait s e g k c o v q).boot = s.boot := rfl
@[simp] theorem beginWait_fenced (s : State) (e : Env) (g : Group) (k c o v : Nat) (q : Cont) : (beginWait s e g k c o v q).fenced = s.fenced := rfl
@[simp] theorem beginWait_spareCores (s : State) (e : Env) (g : Group) (k c o v : Nat) (q : Cont) : (beginWait s e g k c o v q).spareCores = s.spareCores := rfl
@[simp] theorem beginWait_coreErrs (s : State) (e : Env) (g : Group) (k c o v : Nat) (q : Cont) : (beginWait s e g k c o v q).coreErrs = s.coreErrs := rfl
@[simp] theorem beginWait_remapped (s : State) (e : Env) (g : Group) (k c o v : Nat) (q : Cont) : (beginWait s e g k c o v q).remapped = s.remapped := rfl
@[simp] theorem beginWait_gated (s : State) (e : Env) (g : Group) (k c o v : Nat) (q : Cont) : (beginWait s e g k c o v q).gated = s.gated := rfl
@[simp] theorem beginWait_hostOut (s : State) (e : Env) (g : Group) (k c o v : Nat) (q : Cont) : (beginWait s e g k c o v q).hostOut = s.hostOut := rfl

end Sys2Proof.Machine
end

