-- ==== Sys2Proof/Laws/Store.lean ====
section
/-! SUPPORT. Tables and memories: read after write, and the canonical form that every write keeps. -/

namespace Sys2Proof.Machine

open Sys2Proof

/-! ### Reading after writing -/

@[simp] theorem tabGet_nil {w : Nat} (k : Nat) : tabGet ([] : Tab w) k = 0 := rfl

theorem tabGet_tabDrop_self {w : Nat} (t : Tab w) (k : Nat) : tabGet (tabDrop t k) k = 0 := by
  induction t with
  | nil => rfl
  | cons p r ih =>
    obtain ⟨k', v'⟩ := p
    simp only [tabDrop]
    split
    · exact ih
    · rename_i h
      simp [tabGet, show k < k' by omega]

theorem tabGet_tabDrop_above {w : Nat} (t : Tab w) {k j : Nat} (h : k < j) : tabGet (tabDrop t k) j = tabGet t j := by
  induction t with
  | nil => rfl
  | cons p r ih =>
    obtain ⟨k', v'⟩ := p
    simp only [tabDrop]
    split
    · rename_i h'
      rw [ih]
      simp [tabGet, show ¬ j < k' by omega, show j ≠ k' by omega]
    · rfl

theorem tabGet_tabDrop_below {w : Nat} (t : Tab w) {k j : Nat} (h : j < k) : tabGet (tabDrop t k) j = 0 := by
  induction t with
  | nil => rfl
  | cons p r ih =>
    obtain ⟨k', v'⟩ := p
    simp only [tabDrop]
    split
    · exact ih
    · simp [tabGet, show j < k' by omega]

/-- A written index reads as what was written. -/
@[simp] theorem tabGet_tabSet_self {w : Nat} (t : Tab w) (k : Nat) (v : BitVec w) : tabGet (tabSet t k v) k = v := by
  induction t with
  | nil =>
    simp only [tabSet]
    split
    · rename_i h; simp [h]
    · simp [tabGet]
  | cons p r ih =>
    obtain ⟨k', v'⟩ := p
    simp only [tabSet]
    split
    · rename_i h
      split
      · rename_i hv; simp [tabGet, h, hv]
      · simp [tabGet]
    · rename_i h
      split
      · split
        · rename_i hv; rw [tabGet_tabDrop_self, hv]
        · simp [tabGet]
      · rename_i hne
        simp [tabGet, h, hne, ih]

/-- A write leaves every other index as it was. -/
theorem tabGet_tabSet_ne {w : Nat} (t : Tab w) {k j : Nat} (v : BitVec w) (h : j ≠ k) :
    tabGet (tabSet t k v) j = tabGet t j := by
  induction t with
  | nil =>
    simp only [tabSet]
    split
    · rfl
    · simp [tabGet, h]
  | cons p r ih =>
    obtain ⟨k', v'⟩ := p
    simp only [tabSet]
    split
    · rename_i hk
      split
      · rfl
      · by_cases hj : j < k
        · simp [tabGet, hj, show j < k' by omega]
        · simp [tabGet, show ¬ j < k from hj, h]
    · rename_i hk
      split
      · rename_i he
        subst he
        split
        · by_cases hj : j < k
          · simp [tabGet, hj, tabGet_tabDrop_below r hj]
          · rw [tabGet_tabDrop_above r (show k < j by omega)]
            simp [tabGet, hj, h]
        · by_cases hj : j < k
          · simp [tabGet, hj]
          · simp [tabGet, hj, h]
      · simp [tabGet, ih]

theorem tabGet_tabSet {w : Nat} (t : Tab w) (k j : Nat) (v : BitVec w) :
    tabGet (tabSet t k v) j = if j = k then v else tabGet t j := by
  by_cases h : j = k
  · subst h; simp
  · simp [h, tabGet_tabSet_ne t v h]

/-! ### The canonical form -/

/-- A table cut at a key reads as before below it and zero from it on. -/
theorem tabGet_takeWhile {w : Nat} (t : Tab w) (n a : Nat) :
    tabGet (t.takeWhile (fun p => decide (p.1 < n))) a = if a < n then tabGet t a else 0 := by
  induction t with
  | nil => simp [tabGet]
  | cons x r ih =>
    obtain ⟨k, v⟩ := x
    by_cases hk : k < n
    · simp only [List.takeWhile_cons, hk, decide_true, if_true, tabGet, ih]
      by_cases ha : a < n <;> simp only [ha, if_true, if_false]
      rw [if_neg (by omega), if_neg (by omega)]
    · simp only [List.takeWhile_cons, hk, decide_false, Bool.false_eq_true, if_false, tabGet]
      by_cases ha : a < n <;> simp only [ha, if_true, if_false]
      rw [if_pos (by omega)]

theorem tabWfFrom_mono {w : Nat} {t : Tab w} {lo lo' : Nat} (h : lo' ≤ lo) (ht : tabWfFrom lo t = true) :
    tabWfFrom lo' t = true := by
  cases t with
  | nil => rfl
  | cons p r =>
    obtain ⟨k, v⟩ := p
    simp only [tabWfFrom, Bool.and_eq_true, decide_eq_true_eq] at ht ⊢
    exact ⟨⟨by omega, ht.1.2⟩, ht.2⟩

theorem tabDrop_of_above {w : Nat} {t : Tab w} {k lo : Nat} (h : k < lo) (ht : tabWfFrom lo t = true) : tabDrop t k = t := by
  cases t with
  | nil => rfl
  | cons p r =>
    obtain ⟨k', v⟩ := p
    simp only [tabWfFrom, Bool.and_eq_true, decide_eq_true_eq] at ht
    simp [tabDrop, show ¬ k' ≤ k by omega]

theorem tabWfFrom_tabSet {w : Nat} {t : Tab w} {lo k : Nat} (v : BitVec w) (hk : lo ≤ k) (ht : tabWfFrom lo t = true) :
    tabWfFrom lo (tabSet t k v) = true := by
  induction t generalizing lo with
  | nil =>
    simp only [tabSet]
    split
    · rfl
    · rename_i hv; simp only [tabWfFrom, Bool.and_eq_true, decide_eq_true_eq]; exact ⟨⟨hk, hv⟩, trivial⟩
  | cons p r ih =>
    obtain ⟨k', v'⟩ := p
    have ht' := ht
    simp only [tabWfFrom, Bool.and_eq_true, decide_eq_true_eq] at ht
    simp only [tabSet]
    split
    · rename_i h
      split
      · exact ht'
      · rename_i hv
        simp only [tabWfFrom, Bool.and_eq_true, decide_eq_true_eq]
        exact ⟨⟨hk, hv⟩, ⟨by omega, ht.1.2⟩, ht.2⟩
    · rename_i h
      split
      · rename_i he
        subst he
        split
        · rw [tabDrop_of_above (Nat.lt_succ_self k) ht.2]
          exact tabWfFrom_mono (by omega) ht.2
        · rename_i hv
          simp only [tabWfFrom, Bool.and_eq_true, decide_eq_true_eq]
          exact ⟨⟨hk, hv⟩, ht.2⟩
      · simp only [tabWfFrom, Bool.and_eq_true, decide_eq_true_eq]
        exact ⟨ht.1, ih (by omega) ht.2⟩

/-- A write keeps the canonical form. -/
@[simp] theorem tabWf_tabSet {w : Nat} {t : Tab w} (k : Nat) (v : BitVec w) (h : tabWf t = true) :
    tabWf (tabSet t k v) = true :=
  tabWfFrom_tabSet v (Nat.zero_le k) h

theorem Memory.wf_nil : Sys2Proof.Memory.wf [] = true := rfl

theorem Memory.wf_tabSet {m : Memory} (a : Nat) (b : Byte) (h : Sys2Proof.Memory.wf m = true) :
    Sys2Proof.Memory.wf (tabSet m a b) = true := tabWf_tabSet a b h

theorem Memory.wf_memWrite (n : Nat) {m : Memory} (a v : Nat) (h : Sys2Proof.Memory.wf m = true) :
    Sys2Proof.Memory.wf (memWrite m a n v) = true := by
  induction n generalizing m a v with
  | zero => exact h
  | succ n ih => exact ih _ _ (Memory.wf_tabSet a _ h)

theorem Memory.wf_memWriteBytes (bs : List Byte) {m : Memory} (a : Nat) (h : Sys2Proof.Memory.wf m = true) :
    Sys2Proof.Memory.wf (memWriteBytes m a bs) = true := by
  induction bs generalizing m a with
  | nil => exact h
  | cons b r ih => exact ih _ (Memory.wf_tabSet a b h)

/-! ### Bytes -/

/-- A write of `n` bytes leaves every byte outside them. -/
theorem tabGet_memWrite_outside (n : Nat) (m : Memory) (a v : Nat) {j : Nat} (h : j < a ∨ a + n ≤ j) :
    tabGet (memWrite m a n v) j = tabGet m j := by
  induction n generalizing m a v with
  | zero => rfl
  | succ n ih =>
    rw [memWrite, ih _ _ _ (by omega), tabGet_tabSet_ne _ _ (by omega)]

/-- Byte `k` of a write of `n` bytes. -/
theorem tabGet_memWrite_inside (n : Nat) (m : Memory) (a v : Nat) {k : Nat} (h : k < n) :
    tabGet (memWrite m a n v) (a + k) = BitVec.ofNat 8 (v / 256 ^ k) := by
  induction n generalizing m a v k with
  | zero => omega
  | succ n ih =>
    rw [memWrite]
    cases k with
    | zero => rw [tabGet_memWrite_outside _ _ _ _ (by omega)]; simp
    | succ k =>
      rw [show a + (k + 1) = a + 1 + k by omega, ih _ _ _ (by omega), Nat.div_div_eq_div_mul, Nat.pow_succ, Nat.mul_comm]

/-- What was written is read back. -/
theorem memRead_memWrite (n : Nat) (m : Memory) (a v : Nat) : memRead (memWrite m a n v) a n = v % 256 ^ n := by
  induction n generalizing m a v with
  | zero => simp [memRead, Nat.mod_one]
  | succ n ih =>
    rw [memWrite, memRead, ih, tabGet_memWrite_outside _ _ _ _ (by omega), tabGet_tabSet_self, Nat.pow_succ,
      Nat.mul_comm (256 ^ n) 256, Nat.mod_mul]
    simp

/-- A read outside the written bytes is what it was. -/
theorem memRead_memWrite_outside (n : Nat) (m : Memory) (a v b k : Nat) (h : b + k ≤ a ∨ a + n ≤ b) :
    memRead (memWrite m a n v) b k = memRead m b k := by
  induction k generalizing b with
  | zero => rfl
  | succ k ih =>
    rw [memRead, memRead, tabGet_memWrite_outside _ _ _ _ (by omega), ih _ (by omega)]

end Sys2Proof.Machine
end

