-- ==== Sys2Proof/Laws/Ops.lean ====
section
/-! SUPPORT. The shared operations: finding and replacing groups and teams, lane masks, the issuer, and what commit and
advance can do. -/

namespace Sys2Proof.Machine

open Sys2Proof

/-! ### Finding and replacing -/

theorem find?_map_same {α : Type} (f : α → α) (p : α → Bool) (h : ∀ x, p (f x) = p x) (l : List α) :
    (l.map f).find? p = (l.find? p).map f := by
  induction l with
  | nil => rfl
  | cons a r ih =>
    simp only [List.map_cons, List.find?_cons, h]
    cases p a <;> simp [ih]

theorem groupAt_place {s : State} {p : Place} {g : Group} (h : groupAt s p = some g) : g.place = p := by
  simpa using List.find?_some h

theorem teamOf_uid {s : State} {u : Nat} {t : Team} (h : teamOf s u = some t) : t.uid = u := by
  simpa using List.find?_some h

/-- Replacing the group of a place puts it there and nowhere else. -/
theorem groupAt_setGroup (s : State) (g : Group) (p : Place) :
    groupAt (setGroup s g) p = if p = g.place then (groupAt s p).map (fun _ => g) else groupAt s p := by
  unfold groupAt setGroup
  rw [find?_map_same]
  · cases hf : s.groups.find? (fun x => x.place == p) with
    | none => by_cases h : p = g.place <;> simp [h]
    | some x =>
      have hx : x.place = p := by simpa using List.find?_some hf
      by_cases h : p = g.place <;> simp [hx, h]
  · intro x
    by_cases h : x.place = g.place <;> simp [h]

theorem groupAt_setGroup_self {s : State} {g g0 : Group} (h : groupAt s g.place = some g0) :
    groupAt (setGroup s g) g.place = some g := by
  rw [groupAt_setGroup]; simp [h]

theorem groupAt_setGroup_ne (s : State) {g : Group} {p : Place} (h : p ≠ g.place) :
    groupAt (setGroup s g) p = groupAt s p := by
  rw [groupAt_setGroup]; simp [h]

/-- A change of one team that keeps names changes what `teamOf` finds under that name only. -/
theorem teamOf_map (s : State) (u : Nat) (f : Team → Team) (hf : ∀ t, (f t).uid = t.uid) (ts : List Team)
    (h : ts = s.teams.map (fun t => if t.uid == u then f t else t)) (v : Nat) :
    ts.find? (fun t => t.uid == v) = (teamOf s v).map (fun t => if t.uid = u then f t else t) := by
  subst h
  rw [find?_map_same]
  · unfold teamOf
    congr 1
    funext t
    by_cases h : t.uid = u <;> simp [h]
  · intro t
    by_cases h : t.uid = u <;> simp [h, hf]

/-! ### Masks -/

theorem sum_bits_testBit (p : Nat → Bool) (n l : Nat) :
    ((List.range n).foldl (fun acc k => if p k then acc + 2 ^ k else acc) 0) < 2 ^ n
      ∧ bitOf ((List.range n).foldl (fun acc k => if p k then acc + 2 ^ k else acc) 0) l = (decide (l < n) && p l) := by
  induction n generalizing l with
  | zero => simp [bitOf]
  | succ n ih =>
    rw [List.range_succ, List.foldl_append]
    simp only [List.foldl_cons, List.foldl_nil]
    generalize hx : (List.range n).foldl (fun acc k => if p k then acc + 2 ^ k else acc) 0 = x at ih
    have hlt := (ih l).1
    by_cases hp : p n = true
    · simp only [hp, if_true]
      refine ⟨by rw [Nat.pow_succ]; omega, ?_⟩
      rcases Nat.lt_trichotomy l n with h | h | h
      · have : (x + 2 ^ n) / 2 ^ l % 2 = x / 2 ^ l % 2 := by
          obtain ⟨d, rfl⟩ : ∃ d, n = l + (d + 1) := ⟨n - l - 1, by omega⟩
          rw [Nat.pow_add, Nat.add_mul_div_left _ _ (Nat.two_pow_pos l), Nat.pow_succ, Nat.mul_comm, Nat.add_mul_mod_self_left]
        have hb := (ih l).2
        unfold bitOf at hb ⊢
        rw [this, hb]
        simp [h, show l < n + 1 by omega]
      · subst h
        have hq : (x + 2 ^ l) / 2 ^ l = 1 := by
          rw [Nat.add_div_right _ (Nat.two_pow_pos l), Nat.div_eq_of_lt hlt]
        simp [bitOf, hq, hp]
      · have : (x + 2 ^ n) / 2 ^ l = 0 := by
          apply Nat.div_eq_of_lt
          have : 2 ^ (n + 1) ≤ 2 ^ l := Nat.pow_le_pow_right (by omega) (by omega)
          rw [Nat.pow_succ] at this; omega
        simp [bitOf, this, show ¬ l < n + 1 by omega]
    · simp only [hp]
      refine ⟨by rw [Nat.pow_succ]; simp; omega, ?_⟩
      have hb := (ih l).2
      simp only [Bool.false_eq_true, if_false]
      rw [hb]
      rcases Nat.lt_trichotomy l n with h | h | h
      · simp [h, show l < n + 1 by omega]
      · subst h; simp [hp]
      · simp [show ¬ l < n by omega, show ¬ l < n + 1 by omega]

/-- A lane stands in a mask exactly where its test holds. -/
@[simp] theorem hasLane_maskOf (p : Nat → Bool) (l : Nat) : hasLane (maskOf p) l = (decide (l < 32) && p l) := by
  unfold hasLane maskOf
  have h := sum_bits_testBit p 32 l
  rw [BitVec.toNat_ofNat, Nat.mod_eq_of_lt h.1]
  exact h.2

theorem mem_lanesOf (m : Mask) (l : Nat) : l ∈ lanesOf m ↔ l < 32 ∧ hasLane m l = true := by
  simp [lanesOf, hasLane]

theorem lanesOf_nodup (m : Mask) : (lanesOf m).Nodup := List.nodup_range.filter _

theorem hasLane_zero (l : Nat) : hasLane 0 l = false := by simp [hasLane, bitOf]

theorem lowestLane_zero : lowestLane 0 = none := by decide

/-- The lowest lane of a mask stands in it. -/
theorem lowestLane_some {m : Mask} {l : Nat} (h : lowestLane m = some l) : l < 32 ∧ hasLane m l = true := by
  unfold lowestLane at h
  exact (mem_lanesOf m l).1 (List.mem_of_head? h)

theorem bitOf_eq_testBit (x i : Nat) : bitOf x i = x.testBit i := by
  simp [bitOf, Nat.testBit_eq_decide_div_mod_eq, BEq.beq]

/-- A mask without a lowest lane is empty. -/
theorem lowestLane_none {m : Mask} (h : lowestLane m = none) : m = 0 := by
  unfold lowestLane at h
  apply BitVec.eq_of_toNat_eq
  apply Nat.eq_of_testBit_eq
  intro i
  by_cases hi : i < 32
  · have : i ∉ lanesOf m := by rw [List.head?_eq_none_iff.1 h]; simp
    rw [mem_lanesOf] at this
    simp only [hi, true_and, Bool.not_eq_true] at this
    rw [← bitOf_eq_testBit]
    simpa [hasLane] using this
  · rw [Nat.testBit_lt_two_pow (Nat.lt_of_lt_of_le m.isLt (Nat.pow_le_pow_right (by omega) (by omega)))]
    simp

/-! ### The issuer -/

/-- What is selected stands in its place, belongs to its team, and is in single-lane mode exactly with a handler. -/
theorem env?_spec {s : State} {e : Env} (h : env? s = some e) :
    groupAt s e.g.place = some e.g ∧ teamOf s e.g.team = some e.t ∧ e.t.uid = e.g.team
      ∧ e.single = e.g.handler.isSome ∧ s.issue ≠ [] := by
  unfold env? at h
  split at h
  · simp at h
  · rename_i i r hi
    rw [Option.filter_eq_some_iff] at h
    obtain ⟨h, _⟩ := h
    unfold envAt at h
    split at h
    · simp at h
    · rename_i g hg
      have hp := groupAt_place hg
      split at h
      · simp at h
      · rename_i t ht
        have hu := teamOf_uid ht
        split at h
        · simp at h
        · split at h
          · rename_i hh hx
            simp only [Option.some.injEq] at h
            subst h
            simp [hg, ht, hu, hp, hx, hi]
          · rename_i hx
            split at h
            · simp at h
            · simp only [Option.some.injEq] at h
              subst h
              simp [hg, ht, hu, hp, hx, hi]

/-- Where an instruction issues, its meaning runs on the state with the issue slot used up. -/
theorem onIssue_issues {op : Nat} {s : State} {e : Env} (h : Issues op s e) (f : Env → State → State) :
    onIssue op s f = .next (f e (popIssue s)) := by
  obtain ⟨h1, h2, h3⟩ := h
  unfold onIssue
  rw [h1]
  cases hs : e.single
  · simp [hs, h3 hs]
  · simp [hs, h2 hs]

end Sys2Proof.Machine
end

