-- ==== Sys2Proof/Laws/Operands.lean ====
section
/-! SUPPORT. Register writes, the casement push, and everything a fixed-latency instruction does. -/

namespace Sys2Proof.Machine

open Sys2Proof

/-! ### Frame registers -/

theorem fld_zero_div (v i : Nat) : fld (v / 2 ^ 32) (32 * i) 32 = fld v (32 * (i + 1)) 32 := by
  unfold fld
  rw [Nat.div_div_eq_div_mul, ← Nat.pow_add, show 32 + 32 * i = 32 * (i + 1) by omega]

theorem Frame.v_setV (f : Frame) (n l x m j : Nat) (hl : l < 32) (hj : j < 32) :
    (f.setV n l x).v m j = if m = n ∧ j = l then x % 2 ^ 32 else f.v m j := by
  unfold Frame.v Frame.setV
  simp only [tabGet_tabSet]
  by_cases h : m = n ∧ j = l
  · obtain ⟨rfl, rfl⟩ := h
    simp
  · rw [if_neg h, if_neg (by omega)]

/-- Writing `k` registers of one lane changes those and no other. -/
theorem Frame.v_setVs (k : Nat) (f : Frame) (n l x m j : Nat) (hl : l < 32) (hj : j < 32) :
    (f.setVs n l k x).v m j = if n ≤ m ∧ m < n + k ∧ j = l then fld x (32 * (m - n)) 32 else f.v m j := by
  induction k generalizing f n x with
  | zero => simp [Frame.setVs]; omega
  | succ k ih =>
    rw [Frame.setVs, ih, Frame.v_setV _ _ _ _ _ _ hl hj]
    by_cases h : n + 1 ≤ m ∧ m < n + 1 + k ∧ j = l
    · rw [if_pos h, if_pos (by omega)]
      obtain ⟨d, rfl⟩ : ∃ d, m = n + 1 + d := ⟨m - (n + 1), by omega⟩
      rw [show n + 1 + d - (n + 1) = d by omega, show n + 1 + d - n = d + 1 by omega, fld_zero_div]
    · rw [if_neg h]
      by_cases h' : m = n ∧ j = l
      · rw [if_pos h', if_pos (by omega)]
        obtain ⟨rfl, rfl⟩ := h'
        simp [fld]
      · rw [if_neg h', if_neg (by omega)]

theorem Frame.setVs_rest (k : Nat) (f : Frame) (n l x : Nat) :
    f.setVs n l k x = { f with regs := (f.setVs n l k x).regs } := by
  induction k generalizing f n x with
  | zero => rfl
  | succ k ih => rw [Frame.setVs, ih]; rfl

theorem foldl_setVs_rest (ls : List Nat) (f : Frame) (n k : Nat) (v : Nat → Nat) :
    ls.foldl (fun f l => f.setVs n l k (v l)) f
      = { f with regs := (ls.foldl (fun f l => f.setVs n l k (v l)) f).regs } := by
  induction ls generalizing f with
  | nil => rfl
  | cons a r ih => rw [List.foldl_cons, ih, Frame.setVs_rest]

theorem foldl_setVs_v (ls : List Nat) (hls : ∀ l ∈ ls, l < 32) (f : Frame) (n k : Nat) (v : Nat → Nat) (m j : Nat)
    (hj : j < 32) :
    (ls.foldl (fun f l => f.setVs n l k (v l)) f).v m j
      = if n ≤ m ∧ m < n + k ∧ j ∈ ls then fld (v j) (32 * (m - n)) 32 else f.v m j := by
  induction ls generalizing f with
  | nil => simp
  | cons a r ih =>
    rw [List.foldl_cons, ih (fun l h => hls l (List.mem_cons_of_mem _ h)),
      Frame.v_setVs _ _ _ _ _ _ _ (hls a List.mem_cons_self) hj]
    by_cases h : n ≤ m ∧ m < n + k ∧ j ∈ r
    · rw [if_pos h, if_pos ⟨h.1, h.2.1, List.mem_cons_of_mem _ h.2.2⟩]
    · rw [if_neg h]
      by_cases h' : n ≤ m ∧ m < n + k ∧ j = a
      · rw [if_pos h', if_pos ⟨h'.1, h'.2.1, by simp [h'.2.2]⟩, h'.2.2]
      · rw [if_neg h', if_neg]
        rintro ⟨h1, h2, h3⟩
        rcases List.mem_cons.1 h3 with h4 | h4
        · exact h' ⟨h1, h2, h4⟩
        · exact h ⟨h1, h2, h4⟩

/-- Setting a destination in the active lanes changes those lanes of those registers and no other. -/
theorem RegCtx.setLanes_v (r : RegCtx) (n k : Nat) (act : Mask) (v : Nat → Nat) (m j : Nat) (hj : j < 32) :
    (r.setLanes n k act v).frame.v m j
      = if n ≤ m ∧ m < n + k ∧ hasLane act j = true then fld (v j) (32 * (m - n)) 32 else r.frame.v m j := by
  unfold RegCtx.setLanes
  simp only []
  rw [foldl_setVs_v _ (fun l h => ((mem_lanesOf act l).1 h).1) _ _ _ _ _ _ hj]
  simp [mem_lanesOf, hj]

theorem RegCtx.setLanes_rest (r : RegCtx) (n k : Nat) (act : Mask) (v : Nat → Nat) :
    r.setLanes n k act v = { r with frame := { r.frame with regs := (r.setLanes n k act v).frame.regs } } := by
  unfold RegCtx.setLanes
  rw [foldl_setVs_rest]

/-! ### The casement -/

theorem RegCtx.mapCas_get (r : RegCtx) (ks : List Nat) (f : Nat → List Age → List Age) (k : Nat) :
    (r.mapCas ks f).cas[k]? = (r.cas[k]?).map (fun a => if ks.contains k then f k a else a) := by
  unfold RegCtx.mapCas
  simp only [List.getElem?_map]
  by_cases h : k < r.cas.length
  · simp [h]
  · simp [h]

theorem RegCtx.pushWords_rest (k : Nat) (r : RegCtx) (ks : List Nat) (act : Mask) (v : Nat → Nat) :
    r.pushWords ks act v k = { r with cas := (r.pushWords ks act v k).cas } := by
  induction k generalizing r with
  | zero => rfl
  | succ k ih => rw [RegCtx.pushWords, ih]; rfl

theorem RegCtx.pushWords_idle (k : Nat) (r : RegCtx) (ks : List Nat) (act : Mask) (v : Nat → Nat) (j : Nat) (h : j ∉ ks) :
    (r.pushWords ks act v k).cas[j]? = r.cas[j]? := by
  induction k generalizing r with
  | zero => rfl
  | succ k ih =>
    rw [RegCtx.pushWords, ih, RegCtx.mapCas_get]
    simp [h]

/-- Four digits in a base, and each of them again. -/
theorem radix4 (B : Nat) (hB : 0 < B) (a b c d : Nat) (ha : a < B) (hb : b < B) (hc : c < B) (hd : d < B) :
      a + b * B + c * (B * B) + d * (B * B * B) < B * B * B * B
        ∧ (a + b * B + c * (B * B) + d * (B * B * B)) % B = a
        ∧ (a + b * B + c * (B * B) + d * (B * B * B)) / B % B = b
        ∧ (a + b * B + c * (B * B) + d * (B * B * B)) / (B * B) % B = c
        ∧ (a + b * B + c * (B * B) + d * (B * B * B)) / (B * B * B) % B = d := by
    have e : a + b * B + c * (B * B) + d * (B * B * B) = a + B * (b + B * (c + B * d)) := by
      have e1 : b * B = B * b := Nat.mul_comm _ _
      have e2 : c * (B * B) = B * (B * c) := by rw [Nat.mul_comm c, Nat.mul_assoc]
      have e3 : d * (B * B * B) = B * (B * (B * d)) := by rw [Nat.mul_comm d, Nat.mul_assoc, Nat.mul_assoc]
      rw [e1, e2, e3]
      simp only [Nat.mul_add, Nat.add_assoc]
    have step : ∀ x r, x < B → (x + B * r) / B = r ∧ (x + B * r) % B = x := by
      intro x r hx
      refine ⟨?_, ?_⟩
      · rw [Nat.add_mul_div_left _ _ hB, Nat.div_eq_of_lt hx, Nat.zero_add]
      · rw [Nat.add_mul_mod_self_left, Nat.mod_eq_of_lt hx]
    have up : ∀ x r M, x < B → r < M → x + B * r < B * M := by
      intro x r M hx hr
      have := Nat.mul_le_mul_left B (show r + 1 ≤ M by omega)
      rw [Nat.mul_add] at this; omega
    rw [e]
    refine ⟨?_, (step a _ ha).2, ?_, ?_, ?_⟩
    · have := up a _ _ ha (up b _ _ hb (up c _ _ hc hd))
      rwa [show B * B * B * B = B * (B * (B * B)) by simp only [Nat.mul_assoc]]
    · rw [(step a _ ha).1, (step b _ hb).2]
    · rw [← Nat.div_div_eq_div_mul, (step a _ ha).1, (step b _ hb).1, (step c _ hc).2]
    · rw [← Nat.div_div_eq_div_mul, ← Nat.div_div_eq_div_mul, (step a _ ha).1, (step b _ hb).1, (step c _ hc).1,
        Nat.mod_eq_of_lt hd]

theorem radix4_fold (B : Nat) (hB : 0 < B) (x : Nat → Nat) (hx : ∀ j, x j < B) :
    (List.range 4).foldl (fun acc j => acc + x j * B ^ j) 0 < B ^ 4
      ∧ ∀ j, j < 4 → (List.range 4).foldl (fun acc j => acc + x j * B ^ j) 0 / B ^ j % B = x j := by
  rw [show List.range 4 = [0, 1, 2, 3] from rfl]
  simp only [List.foldl_cons, List.foldl_nil, Nat.pow_succ, Nat.pow_zero, Nat.one_mul, Nat.mul_one, Nat.zero_add]
  obtain ⟨k0, k1, k2, k3, k4⟩ := radix4 B hB _ _ _ _ (hx 0) (hx 1) (hx 2) (hx 3)
  refine ⟨k0, ?_⟩
  intro j hj
  rcases (by omega : j = 0 ∨ j = 1 ∨ j = 2 ∨ j = 3) with rfl | rfl | rfl | rfl
  · simpa using k1
  · simpa using k2
  · simpa [Nat.pow_succ] using k3
  · simpa [Nat.pow_succ] using k4

/-- The word that a push makes of one result word: lane `j` of the slice in bits 32j+31:32j. -/
theorem pushWord_field (x : Nat → Nat) (hx : ∀ j, x j < 2 ^ 32) (j : Nat) (hj : j < 4) :
    fld (BitVec.ofNat 128 ((List.range 4).foldl (fun acc j => acc + x j * 2 ^ (32 * j)) 0)).toNat (32 * j) 32 = x j := by
  have h := radix4_fold (2 ^ 32) (Nat.two_pow_pos 32) x hx
  simp only [← Nat.pow_mul] at h
  unfold fld
  rw [BitVec.toNat_ofNat, Nat.mod_eq_of_lt h.1]
  exact h.2 j hj

theorem RegCtx.pushWords_ages (k : Nat) (r : RegCtx) (ks : List Nat) (act : Mask) (v : Nat → Nat) (s : Nat) (hs : s ∈ ks)
    (a : List Age) (ha : r.cas[s]? = some a) (hk : 1 ≤ k) :
    ∃ ws : List Age, ws.length = k ∧ (r.pushWords ks act v k).cas[s]? = some ((ws ++ a).take 16)
      ∧ ∀ i j x, ws[i]? = some x → j < 4 →
          x.valid = true ∧ fld x.data.toNat (32 * j) 32
            = if hasLane act (4 * s + j) then fld (v (4 * s + j)) (32 * i) 32 else 0 := by
  induction k generalizing r a with
  | zero => omega
  | succ k ih =>
    rw [RegCtx.pushWords]
    let word (slice : Nat) : BitVec 128 :=
      BitVec.ofNat 128 ((List.range 4).foldl (fun acc j =>
        acc + (if hasLane act (4 * slice + j) then fld (v (4 * slice + j)) (32 * k) 32 else 0) * 2 ^ (32 * j)) 0)
    have hget : (r.mapCas ks (fun slice a => pushAge a true (word slice))).cas[s]? = some (pushAge a true (word s)) := by
      rw [RegCtx.mapCas_get, ha]; simp [hs]
    have hw : ∀ j, j < 4 → fld (word s).toNat (32 * j) 32
        = if hasLane act (4 * s + j) then fld (v (4 * s + j)) (32 * k) 32 else 0 := by
      intro j hj
      exact pushWord_field (fun j => if hasLane act (4 * s + j) then fld (v (4 * s + j)) (32 * k) 32 else 0)
        (fun j => by
          by_cases h : hasLane act (4 * s + j) = true <;> simp [h, fld]
          exact Nat.mod_lt _ (by decide)) j hj
    rcases Nat.eq_zero_or_pos k with rfl | hk'
    · refine ⟨[{ valid := true, data := word s }], rfl, ?_, ?_⟩
      · show (RegCtx.pushWords _ ks act v 0).cas[s]? = _
        rw [RegCtx.pushWords, hget]; simp [pushAge]
      · intro i j x hi hj
        cases i with
        | zero =>
          simp only [List.getElem?_cons_zero, Option.some.injEq] at hi
          subst hi
          exact ⟨rfl, hw j hj⟩
        | succ i => simp at hi
    · obtain ⟨ws, hl, hc, hp⟩ := ih _ _ hget hk'
      refine ⟨ws ++ [{ valid := true, data := word s }], by simp [hl], ?_, ?_⟩
      · show (RegCtx.pushWords _ ks act v k).cas[s]? = _
        rw [hc]
        congr 1
        simp only [pushAge, List.append_assoc, List.singleton_append]
        rw [List.take_append, List.take_append (l₁ := ws)]
        congr 1
        cases h16 : 16 - ws.length with
        | zero => rfl
        | succ n =>
          simp only [List.take_succ_cons, List.cons.injEq, true_and, List.take_take]
          congr 1
          omega
      · intro i j x hi hj
        rw [List.getElem?_append] at hi
        split at hi
        · exact hp i j x hi hj
        · rename_i hlt
          cases hz : i - ws.length with
          | zero =>
            have hik : i = k := by omega
            rw [hz] at hi
            simp only [List.getElem?_cons_zero, Option.some.injEq] at hi
            subst hi hik
            exact ⟨rfl, hw j hj⟩
          | succ n => rw [hz] at hi; simp at hi

/-! ### Groups and teams -/

@[simp] theorem Group.mapCtx_ctx (g : Group) (f : RegCtx → RegCtx) : (g.mapCtx f).ctx = f g.ctx := by
  unfold Group.mapCtx Group.ctx
  cases h : g.handler <;> simp

@[simp] theorem Group.mapCtx_place (g : Group) (f : RegCtx → RegCtx) : (g.mapCtx f).place = g.place := by
  unfold Group.mapCtx
  cases h : g.handler <;> simp

theorem Group.mapCtx_congr (g : Group) {f f' : RegCtx → RegCtx} (h : f g.ctx = f' g.ctx) : g.mapCtx f = g.mapCtx f' := by
  unfold Group.mapCtx
  unfold Group.ctx at h
  cases hh : g.handler <;> simp_all

theorem Group.mapCtx_id (g : Group) : g.mapCtx id = g := by
  cases g
  unfold Group.mapCtx
  dsimp only
  split <;> simp_all

@[simp] theorem Group.setPc_ctx (g : Group) (ks : List Nat) (pc : Pc) : (g.setPc ks pc).ctx = g.ctx := by
  unfold Group.setPc Group.ctx
  cases h : g.handler <;> simp

@[simp] theorem Group.setPc_place (g : Group) (ks : List Nat) (pc : Pc) : (g.setPc ks pc).place = g.place := by
  unfold Group.setPc
  cases h : g.handler <;> simp

@[simp] theorem Group.issuedAt_ctx (g : Group) (ks : List Nat) (now : Nat) : (g.issuedAt ks now).ctx = g.ctx := rfl
@[simp] theorem Group.issuedAt_place (g : Group) (ks : List Nat) (now : Nat) : (g.issuedAt ks now).place = g.place := rfl
@[simp] theorem Group.issuedAt_slices (g : Group) (ks : List Nat) (now : Nat) : (g.issuedAt ks now).slices = g.slices := rfl
@[simp] theorem Group.issuedAt_main (g : Group) (ks : List Nat) (now : Nat) : (g.issuedAt ks now).main = g.main := rfl
@[simp] theorem Group.issuedAt_handler (g : Group) (ks : List Nat) (now : Nat) : (g.issuedAt ks now).handler = g.handler := rfl
@[simp] theorem Group.issuedAt_wait (g : Group) (ks : List Nat) (now : Nat) : (g.issuedAt ks now).wait = g.wait := rfl
@[simp] theorem Group.issuedAt_stalled (g : Group) (ks : List Nat) (now : Nat) : (g.issuedAt ks now).stalled = 0 := rfl

/-- A group as it goes on at the next index after an instruction that leaves it as `g`. -/
abbrev Env.on (e : Env) (now : Nat) (g : Group) : Group :=
  e.issued (g.setPc e.slices e.pc.next) now

/-- Changing the register context and going on at the next index leaves the rest of the group. -/
theorem groupGoesOn_mapCtx (e : Env) (now : Nat) (f : RegCtx → RegCtx) :
    GroupGoesOn e now (e.on now (e.g.mapCtx f)) := by
  constructor
  · unfold Env.on Env.issued Group.issuedAt Group.setPc Group.mapCtx
    cases h : e.g.handler <;> simp
  · unfold Env.on Env.issued Group.issuedAt Group.setPc Group.mapCtx
    cases h : e.g.handler <;> simp
  · intro h hh
    unfold Env.on Env.issued Group.issuedAt Group.setPc Group.mapCtx Group.ctx
    simp [hh]
  · intro hh
    unfold Env.on Env.issued Group.issuedAt Group.setPc Group.mapCtx
    simp [hh]

/-- What `advance` can do where the issuer stands in its place: its group is replaced, its team counts the instruction. -/
theorem advance_spec {s : State} {e : Env} (h : env? s = some e) (g : Group) (hg : g.place = e.g.place) (ts : List Team) :
    let t := advance { popIssue s with teams := ts } e g
    t = { s with issue := s.issue.tail, groups := t.groups, teams := t.teams }
      ∧ (∀ p, p ≠ e.g.place → groupAt t p = groupAt s p)
      ∧ groupAt t e.g.place = some (e.on s.clock g) := by
  obtain ⟨h1, -, -, -, -⟩ := env?_spec h
  refine ⟨rfl, ?_, ?_⟩
  · intro p hp
    have := groupAt_setGroup_ne (popIssue s) (g := e.on s.clock g) (p := p) (by simp [Env.issued, hg, hp])
    exact this
  · have := groupAt_setGroup_self (s := popIssue s) (g := e.on s.clock g) (g0 := e.g)
      (by simp [Env.issued, hg]; exact h1)
    simp only [Env.issued, Group.issuedAt_place, Group.setPc_place, hg] at this
    exact this

/-! ### Fixed-latency instructions -/

theorem ctxDone_push (r r0 : RegCtx) (ks : List Nat) (push : Bool) (act : Mask) (d : Dst) (w : Nat) (v : Nat → Nat)
    (h1 : r0 = { r with frame := { r.frame with regs := r0.frame.regs }, sreg := r0.sreg })
    (h2 : ∀ n l, l < 32 → r0.frame.v n l = vAfter r act d w v n l)
    (h3 : ∀ n, tabGet r0.sreg n = sAfter r act d w v n) :
    CtxDone r (if push then r0.pushWords ks act v (w / 32) else r0) ks push act d w v := by
  have hc : r0.cas = r.cas := by rw [h1]
  cases push with
  | false =>
    simp only [Bool.false_eq_true, if_false]
    exact ⟨by rw [h1], h2, h3, fun _ => hc, fun _ _ => by rw [hc], fun h => by simp at h⟩
  | true =>
    simp only [if_true]
    have hr := RegCtx.pushWords_rest (w / 32) r0 ks act v
    have hf : (r0.pushWords ks act v (w / 32)).frame = r0.frame := by rw [hr]
    have hs : (r0.pushWords ks act v (w / 32)).sreg = r0.sreg := by rw [hr]
    refine ⟨?_, ?_, ?_, fun h => by simp at h, ?_, ?_⟩
    · rw [hf, hs]
      rcases r0 with ⟨fr, sr, gr, pr, ca, un, op, is, fa⟩
      simp only [RegCtx.mk.injEq] at h1
      obtain ⟨hfr, -, rfl, rfl, -, rfl, rfl, rfl, rfl⟩ := h1
      rw [hr]
      exact congrArg (fun F => RegCtx.mk F _ _ _ _ _ _ _ _) hfr
    · intro n l hl; rw [hf]; exact h2 n l hl
    · intro n; rw [hs]; exact h3 n
    · intro k hk; rw [RegCtx.pushWords_idle _ _ _ _ _ _ hk, hc]
    · intro _ hw k hk a ha
      exact RegCtx.pushWords_ages _ _ _ _ _ _ hk a (by rw [hc]; exact ha) (by omega)

/-- The vector and scalar registers that `writeDst` leaves are those of the rules. -/
theorem writeDst_regs (s : State) (e : Env) (act : Mask) (d : Dst) (w : Nat) (v : Nat → Nat) :
    let g := (writeDst s e e.g act d w v).2
    ∃ f : RegCtx → RegCtx, g = e.g.mapCtx f
      ∧ f e.g.ctx = { e.g.ctx with frame := { e.g.ctx.frame with regs := (f e.g.ctx).frame.regs }, sreg := (f e.g.ctx).sreg }
      ∧ (∀ n l, l < 32 → (f e.g.ctx).frame.v n l = vAfter e.g.ctx act d w v n l)
      ∧ (∀ n, tabGet (f e.g.ctx).sreg n = sAfter e.g.ctx act d w v n) := by
  have hid : e.g = e.g.mapCtx id := (Group.mapCtx_id e.g).symm
  cases d with
  | v k =>
    refine ⟨fun r => r.setLanes k.val (w / 32) act v, rfl, ?_, ?_, ?_⟩
    · show e.g.ctx.setLanes k.val (w / 32) act v = _
      conv => lhs; rw [RegCtx.setLanes_rest]
      rw [show (e.g.ctx.setLanes k.val (w / 32) act v).sreg = e.g.ctx.sreg by rw [RegCtx.setLanes_rest]]
    · intro n l hl
      simp only [vAfter]
      exact RegCtx.setLanes_v _ _ _ _ _ _ _ hl
    · intro n
      simp only [sAfter]
      rw [RegCtx.setLanes_rest]
  | s k =>
    cases hl : lowestLane act with
    | none =>
      refine ⟨id, ?_, rfl, fun n l _ => rfl, fun n => ?_⟩
      · simp only [writeDst, hl]; exact hid
      · simp [sAfter, hl]
    | some l =>
      refine ⟨fun r => { r with sreg := tabSet r.sreg k.val (BitVec.ofNat 64 (v l % 2 ^ w)) }, ?_, rfl, fun n l _ => rfl,
        fun n => ?_⟩
      · simp only [writeDst, hl]
      · simp only [sAfter, hl, tabGet_tabSet]
        by_cases h : n = k.val
        · simp [h]
        · rw [if_neg h, if_neg (fun h' => h h'.symm)]
  | b k =>
    refine ⟨id, ?_, rfl, fun n l _ => rfl, fun n => rfl⟩
    cases hl : lowestLane act <;> simp only [writeDst, hl] <;> exact hid
  | none x => exact ⟨id, hid, rfl, fun n l _ => rfl, fun n => rfl⟩

/-- The writer of a b register reads what it wrote (R42). -/
theorem Team.putB_seen_writer (t : Team) (k n v : Nat) : (t.putB k n v).seen k n = BitVec.ofNat 32 v := by
  have h : (t.putB k n v).late.find? (fun x => x.group == k && x.reg == n) = none := by
    simp only [Team.putB, List.find?_eq_none, List.mem_append, List.mem_filter, List.mem_map]
    rintro x (⟨-, hx⟩ | ⟨g, ⟨-, hg⟩, rfl⟩)
    · intro h
      rw [h] at hx
      exact absurd hx (by decide)
    · simp only [bne_iff_ne] at hg
      simp [hg]
  simp only [Team.seen, h]
  simp only [Team.putB, tabGet_tabSet, if_true]

/-- A write of one b register changes no group's reading of another. -/
theorem Team.putB_seen_ne (t : Team) (k n v g m : Nat) (h : m ≠ n) : (t.putB k n v).seen g m = t.seen g m := by
  have hf : (t.putB k n v).late.find? (fun x => x.group == g && x.reg == m)
      = t.late.find? (fun x => x.group == g && x.reg == m) := by
    simp only [Team.putB, List.find?_append, List.find?_filter]
    have h2 : ∀ l : List Nat, (l.map (fun g => ({ group := g, reg := n, val := tabGet t.breg n } : LateB))).find?
        (fun x => x.group == g && x.reg == m) = none := by
      intro l
      simp only [List.find?_eq_none, List.mem_map]
      rintro x ⟨y, -, rfl⟩
      simp [h.symm]
    rw [h2, Option.or_none]
    congr 1
    funext x
    by_cases hx : x.reg = n <;> simp [hx, h.symm] <;> rfl
  simp only [Team.seen, hf]
  simp [Team.putB, tabGet_tabSet, h]

/-- Another group of the team reads after a write what it read before, until the write reaches it (R42). -/
theorem Team.putB_seen_other (t : Team) (k n v g m : Nat) (hg : g < t.ngroups) (h : g ≠ k) :
    (t.putB k n v).seen g m = t.seen g m := by
  by_cases hm : m = n
  · subst hm
    have h1 : (t.late.filter (fun x => !(x.group == k && x.reg == m))).find? (fun x => x.group == g && x.reg == m)
        = t.late.find? (fun x => x.group == g && x.reg == m) := by
      rw [List.find?_filter]
      congr 1
      funext x
      by_cases hx : x.group = g <;> simp [hx, h] <;> rfl
    have h2 : (((List.range t.ngroups).filter (fun g => g != k)).map (fun g =>
        ({ group := g, reg := m, val := tabGet t.breg m } : LateB))).find? (fun x => x.group == g && x.reg == m)
        = some { group := g, reg := m, val := tabGet t.breg m } := by
      rw [List.find?_map]
      have h3 : ((List.range t.ngroups).filter (fun g => g != k)).find? (fun x => x == g) = some g := by
        rw [List.find?_filter]
        have : (List.range t.ngroups).find? (fun x => x == g) = some g := by
          rw [List.find?_range_eq_some]
          simp only [beq_self_eq_true, List.mem_range, hg, true_and]
          intro j hj
          simp [Nat.ne_of_lt hj]
        rw [← this]
        congr 1
        funext x
        by_cases hx : x = g <;> simp [hx, h]
      have h4 : ((fun x : LateB => x.group == g && x.reg == m) ∘ fun g => ({ group := g, reg := m, val := tabGet t.breg m } : LateB))
          = fun x => x == g := by
        funext x
        simp
      rw [h4, h3]
      rfl
    simp only [Team.seen, Team.putB, List.find?_append, h1, h2]
    cases t.late.find? (fun x => x.group == g && x.reg == m) <;> rfl
  · exact Team.putB_seen_ne t k n v g m hm

/-- `setB` is `putB` with the writer field taken. -/
theorem Team.setB_seen (t : Team) (k n v g m : Nat) : (t.setB k n v).seen g m = (t.putB k n v).seen g m := rfl

/-- What `writeDst` makes of the teams: the b registers of the issuer's team, and nothing else of the state. -/
theorem writeDst_teams (s : State) (e : Env) (act : Mask) (d : Dst) (w : Nat) (v : Nat → Nat) :
    ∃ f : Team → Team, (writeDst s e e.g act d w v).1 = { s with teams := s.teams.map (fun t => if t.uid == e.t.uid then f t else t) }
      ∧ (∀ t, f t = { t with breg := (f t).breg, bwriter := (f t).bwriter, late := (f t).late })
      ∧ (∀ t n, tabGet (f t).breg n = bAfter t act d w v n)
      ∧ (∀ t g n, g < t.ngroups → g ≠ e.g.index → (f t).seen g n = t.seen g n)
      ∧ (∀ t n, (f t).seen e.g.index n = if act ≠ 0 ∧ n ∈ bSpan d w then tabGet (f t).breg n else t.seen e.g.index n)
      ∧ (∀ t n, n ∉ bSpan d w → tabGet (f t).bwriter n = tabGet t.bwriter n)
      ∧ (act ≠ 0 → ∀ t, ∀ n ∈ bSpan d w, tabGet (f t).bwriter n = BitVec.ofNat 8 (e.g.index + 1)) := by
  have hid : s = { s with teams := s.teams.map (fun t => if t.uid == e.t.uid then id t else t) } := by
    simp
  cases d with
  | v k => exact ⟨id, hid, fun _ => rfl, fun _ _ => rfl, fun _ _ _ _ _ => rfl, fun _ _ => by simp [bSpan], fun _ _ _ => rfl,
      fun _ _ n hn => by simp [bSpan] at hn⟩
  | s k => exact ⟨id, by cases hl : lowestLane act <;> simp only [writeDst, hl] <;> exact hid, fun _ => rfl, fun _ _ => rfl,
      fun _ _ _ _ _ => rfl, fun _ _ => by simp [bSpan], fun _ _ _ => rfl, fun _ _ n hn => by simp [bSpan] at hn⟩
  | none x => exact ⟨id, hid, fun _ => rfl, fun _ _ => rfl, fun _ _ _ _ _ => rfl, fun _ _ => by simp [bSpan], fun _ _ _ => rfl,
      fun _ _ n hn => by simp [bSpan] at hn⟩
  | b k =>
    cases hl : lowestLane act with
    | none =>
      have h0 := lowestLane_none hl
      refine ⟨id, ?_, fun _ => rfl, fun t n => by simp [bAfter, hl], fun _ _ _ _ _ => rfl, fun _ _ => by simp [h0],
        fun _ _ _ => rfl, fun h => absurd h0 h⟩
      simp only [writeDst, hl]; exact hid
    | some l =>
      have h0 : act ≠ 0 := by
        intro h
        rw [h, show lowestLane (0 : Mask) = none by decide] at hl
        cases hl
      refine ⟨fun t =>
        let t := t.setB e.g.index k.val (v l)
        if w = 64 then t.setB e.g.index (k.val + 1) (v l / 2 ^ 32) else t, by simp only [writeDst, hl], ?_, ?_, ?_, ?_, ?_, ?_⟩
      · intro t
        by_cases hw : w = 64 <;> simp [hw, Team.setB, Team.putB]
      · intro t n
        by_cases hw : w = 64
        · simp only [hw, if_true, Team.setB, Team.putB, tabGet_tabSet, bAfter, hl, true_and]
          by_cases h1 : n = k.val + 1
          · subst h1; simp
          · by_cases h2 : n = k.val
            · subst h2; simp
            · simp [h1, h2, Ne.symm h1, Ne.symm h2]
        · simp only [hw, if_false, Team.setB, Team.putB, tabGet_tabSet, bAfter, hl, false_and]
          by_cases h2 : n = k.val
          · subst h2; simp
          · simp [h2, Ne.symm h2]
      · intro t g n hg hne
        have h1 : (t.setB e.g.index k.val (v l)).seen g n = t.seen g n := Team.putB_seen_other t _ _ _ g n hg hne
        by_cases hw : w = 64
        · simp only [hw, if_true]
          exact (Team.putB_seen_other (t.setB e.g.index k.val (v l)) _ _ _ g n hg hne).trans h1
        · simp only [hw, if_false]
          exact h1
      · intro t n
        have h1 : ∀ (t : Team) (m x : Nat), (t.setB e.g.index m x).seen e.g.index n
            = if n = m then BitVec.ofNat 32 x else t.seen e.g.index n := by
          intro t m x
          rw [Team.setB_seen]
          by_cases hm : n = m
          · subst hm; simp [Team.putB_seen_writer]
          · simp [hm, Team.putB_seen_ne]
        by_cases hw : w = 64
        · simp only [hw, if_true, h1, bSpan, h0, ne_eq, not_false_iff, true_and, List.mem_cons, List.not_mem_nil, or_false]
          by_cases h2 : n = k.val + 1
          · subst h2; simp [Team.setB, Team.putB, tabGet_tabSet]
          · by_cases h3 : n = k.val
            · subst h3; simp [Team.setB, Team.putB, tabGet_tabSet]
            · simp [h2, h3]
        · simp only [hw, if_false, h1, bSpan, h0, ne_eq, not_false_iff, true_and, List.mem_cons, List.not_mem_nil, or_false]
          by_cases h3 : n = k.val
          · subst h3; simp [Team.setB, Team.putB]
          · simp [h3]
      · intro t n hn
        by_cases hw : w = 64
        · simp only [bSpan, hw, if_true, List.mem_cons, List.not_mem_nil, or_false, not_or] at hn
          simp [hw, Team.setB, Team.putB, tabGet_tabSet, hn.1, hn.2]
        · simp only [bSpan, hw, if_false, List.mem_cons, List.not_mem_nil, or_false] at hn
          simp [hw, Team.setB, Team.putB, tabGet_tabSet, hn]
      · intro _ t n hn
        by_cases hw : w = 64
        · simp only [bSpan, hw, if_true, List.mem_cons, List.not_mem_nil, or_false] at hn
          rcases hn with rfl | rfl <;> simp [hw, Team.setB, Team.putB, tabGet_tabSet]
        · simp only [bSpan, hw, if_false, List.mem_cons, List.not_mem_nil, or_false] at hn
          subst hn
          simp [hw, Team.setB, Team.putB]

/-- Everything that the result of a fixed-latency instruction does. -/
theorem finish_done {s : State} {e : Env} (h : env? s = some e) (uni : Bool) (act : Mask) (d : Dst) (w : Nat) (v : Nat → Nat)
    (hw : act = 0 ∨ writerOk e d w = true) : VectorDone s e uni act d w v (finish (popIssue s) e uni act d w v) := by
  obtain ⟨h1, h2, h3, -, -⟩ := env?_spec h
  have hif : (act != 0 && !writerOk e d w) = false := by
    rcases hw with rfl | hw <;> simp [*]
  unfold finish
  rw [hif]
  simp only [Bool.false_eq_true, if_false]
  obtain ⟨f, hg, hr, hv, hs⟩ := writeDst_regs (popIssue s) e act d w v
  obtain ⟨ft, ht, hrest, hb, hso, hsw, hbw, hbw'⟩ := writeDst_teams (popIssue s) e act d w v
  simp only [popIssue_teams] at ht
  have hgrp : (if (!uni && d.isVec) = true then (writeDst (popIssue s) e e.g act d w v).2.mapCtx (fun x => x.pushWords e.slices act v (w / 32))
      else (writeDst (popIssue s) e e.g act d w v).2)
      = e.g.mapCtx (fun r => if (!uni && d.isVec) = true then (f r).pushWords e.slices act v (w / 32) else f r) := by
    rw [hg]
    cases (!uni && d.isVec)
    · simp
    · unfold Group.mapCtx
      cases hh : e.g.handler <;> simp
  rw [hgrp, ht]
  have ha := advance_spec h (e.g.mapCtx (fun r => if (!uni && d.isVec) = true then (f r).pushWords e.slices act v (w / 32) else f r))
    (by simp) (s.teams.map (fun t => if t.uid == e.t.uid then ft t else t))
  obtain ⟨ha1, ha2, ha3⟩ := ha
  have hfu : ∀ t, (ft t).uid = t.uid := fun t => by rw [hrest]
  have hteams : ∀ u, teamOf (advance { popIssue s with teams := s.teams.map (fun t => if t.uid == e.t.uid then ft t else t) } e
      (e.g.mapCtx (fun r => if (!uni && d.isVec) = true then (f r).pushWords e.slices act v (w / 32) else f r))) u
      = (teamOf s u).map (fun t => if t.uid = e.t.uid then { ft t with issuedN := (ft t).issuedN + 1 } else t) := by
    intro u
    unfold teamOf
    rw [advance_teams, List.map_map]
    refine teamOf_map s e.t.uid (fun t => { ft t with issuedN := (ft t).issuedN + 1 }) (by intro t; exact hfu t) _ ?_ u
    apply List.map_congr_left
    intro t _
    by_cases hu : t.uid = e.t.uid <;> simp [hu, hfu]
  refine ⟨ha1, ha2, ⟨_, ha3, groupGoesOn_mapCtx e s.clock _, ?_⟩, ?_, ?_⟩
  · simp only [Env.issued, Group.issuedAt_ctx, Group.setPc_ctx, Group.mapCtx_ctx]
    exact ctxDone_push _ _ _ _ _ _ _ _ hr hv hs
  · intro u hu
    rw [hteams]
    cases hx : teamOf s u with
    | none => rfl
    | some t => simp [teamOf_uid hx, hu]
  · refine ⟨{ ft e.t with issuedN := (ft e.t).issuedN + 1 }, ?_, ?_, fun n => hb e.t n,
      fun g n hg hne => hso e.t g n hg hne, fun n => hsw e.t n, fun n hn => hbw e.t n hn,
      fun h0 n hn => hbw' h0 e.t n hn⟩
    · rw [hteams, h3, h2]
      simp [h3]
    · conv => lhs; rw [hrest]

/-- Every instruction made by `vectorOp` is a fixed-latency instruction with the value it is made with. -/
theorem vectorOp_fixedLatency {op : Nat} {i : Instr} {h : Hdr} {d : Dst} {w : Nat} {ins : List Inp} {preds : List Nat}
    {f : RegCtx → (Nat → List Nat) → Mask → Nat → Nat} (hi : ∀ s, exec i s = vectorOp op h d w ins preds f s) :
    FixedLatency op i h d w ins preds (fun e act => f e.g.ctx (fun l => ins.map (fun x => readInp e x l)) act) := by
  intro s e his hc hw
  refine ⟨_, ?_, finish_done his.1 _ _ _ _ _ hw⟩
  rw [hi, vectorOp, onIssue_issues his]
  simp [hc]

/-! ### Predicates -/

/-- Writing a predicate changes it in the active lanes; p7 stays true. -/
theorem RegCtx.predAt_setPred (r : RegCtx) (p : Nat) (act : Mask) (v : Nat → Bool) (n l : Nat) (hl : l < 32) :
    (r.setPred p act v).predAt n l = if n = p ∧ n ≠ 7 ∧ hasLane act l = true then v l else r.predAt n l := by
  unfold RegCtx.setPred RegCtx.predAt
  by_cases h7 : p = 7
  · subst h7
    by_cases hn : n = 7 <;> simp [hn]
  · rw [if_neg h7]
    simp only [tabGet_tabSet]
    by_cases hn : n = p
    · subst hn
      simp only [if_true, hasLane_maskOf, hl]
      by_cases ha : hasLane act l = true <;> simp [ha, h7]
    · simp [hn]

theorem RegCtx.setPred_rest (r : RegCtx) (p : Nat) (act : Mask) (v : Nat → Bool) :
    r.setPred p act v = { r with pred := (r.setPred p act v).pred } := by
  unfold RegCtx.setPred
  split <;> rfl

/-- Everything that going on after a predicate write does. -/
theorem advance_pred_done {s : State} {e : Env} (h : env? s = some e) (p : Nat) (act : Mask) (v : Nat → Bool) :
    PredDone s e act p v (advance (popIssue s) e (e.g.mapCtx (fun r => r.setPred p act v))) := by
  have ha := advance_spec h (e.g.mapCtx (fun r => r.setPred p act v)) (by simp) s.teams
  obtain ⟨ha1, ha2, ha3⟩ := ha
  refine ⟨ha1, ha2, ?_, ⟨_, ha3, groupGoesOn_mapCtx e s.clock _, ?_, ?_⟩⟩
  · intro u
    exact teamOf_map s e.t.uid (fun t => { t with issuedN := t.issuedN + 1 }) (fun _ => rfl) _ (by simp) u
  · simp only [Env.issued, Group.issuedAt_ctx, Group.setPc_ctx, Group.mapCtx_ctx]
    exact RegCtx.setPred_rest _ _ _ _
  · intro n l hl
    simp only [Env.issued, Group.issuedAt_ctx, Group.setPc_ctx, Group.mapCtx_ctx]
    exact RegCtx.predAt_setPred _ _ _ _ _ _ hl

/-- Every instruction made by `predOp` writes its predicate where its operands pass. -/
theorem predOp_done {op : Nat} {gd : Guard} {p : Nat} {ins : List Inp} {preds : List Nat}
    {f : RegCtx → (Nat → List Nat) → Mask → Nat → Bool} {s : State} {e : Env} (h : Issues op s e)
    (hc : Clear e gd (e.active gd) ins [] (p :: preds)) :
    ∃ t, predOp op gd p ins preds f s = .next t
      ∧ PredDone s e (e.active gd) p (f e.g.ctx (fun l => ins.map (fun x => readInp e x l)) (e.active gd)) t := by
  refine ⟨_, ?_, advance_pred_done h.1 _ _ _⟩
  rw [predOp, onIssue_issues h]
  simp only [Clear] at hc
  simp only [hc]
  have : (e.g.mapCtx fun r =>
      r.setPred p (e.active gd) (f r (fun l => List.map (fun i => readInp e i l) ins) (e.active gd)))
      = e.g.mapCtx fun r =>
        r.setPred p (e.active gd) (f e.g.ctx (fun l => List.map (fun i => readInp e i l) ins) (e.active gd)) :=
    Group.mapCtx_congr e.g rfl
  rw [this]

end Sys2Proof.Machine
end

