-- ==== Sys2Proof/Laws/Groups.lean ====
section
/-! SUPPORT. Groups and their slices: what changing slices, program counters and casements does, and what calls, returns and
branches leave (R24 to R30, R50 to R52). -/

namespace Sys2Proof.Machine

open Sys2Proof

/-! ### Slices -/

@[simp] theorem Group.mapSlices_get (g : Group) (f : Nat → Slice → Slice) (k : Nat) :
    (g.mapSlices f).slices[k]? = (g.slices[k]?).map (f k) := by
  unfold Group.mapSlices
  simp only [List.getElem?_map]
  by_cases h : k < g.slices.length
  · simp [h]
  · simp [h]

@[simp] theorem Group.mapSlices_length (g : Group) (f : Nat → Slice → Slice) : (g.mapSlices f).slices.length = g.slices.length := by
  simp [Group.mapSlices]

/-- Changing slices changes nothing else. -/
theorem Group.mapSlices_rest (g : Group) (f : Nat → Slice → Slice) : g.mapSlices f = { g with slices := (g.mapSlices f).slices } := rfl

@[simp] theorem Group.mapSlices_main (g : Group) (f : Nat → Slice → Slice) : (g.mapSlices f).main = g.main := rfl
@[simp] theorem Group.mapSlices_calls (g : Group) (f : Nat → Slice → Slice) : (g.mapSlices f).calls = g.calls := rfl
@[simp] theorem Group.mapSlices_handler (g : Group) (f : Nat → Slice → Slice) : (g.mapSlices f).handler = g.handler := rfl
@[simp] theorem Group.mapSlices_join (g : Group) (f : Nat → Slice → Slice) : (g.mapSlices f).join = g.join := rfl
@[simp] theorem Group.mapSlices_place (g : Group) (f : Nat → Slice → Slice) : (g.mapSlices f).place = g.place := rfl

/-- Two changes that agree on the slices that there are. -/
theorem Group.mapSlices_congr {g : Group} {f h : Nat → Slice → Slice} (e : ∀ k sl, g.slices[k]? = some sl → f k sl = h k sl) :
    g.mapSlices f = g.mapSlices h := by
  rw [Group.mapSlices_rest g f, Group.mapSlices_rest g h]
  have : (g.mapSlices f).slices = (g.mapSlices h).slices := by
    apply List.ext_getElem?
    intro k
    simp only [Group.mapSlices_get]
    cases hk : g.slices[k]? with
    | none => rfl
    | some sl => simp [e k sl hk]
  rw [this]

theorem Group.mapSlices_id {g : Group} {f : Nat → Slice → Slice} (e : ∀ k sl, g.slices[k]? = some sl → f k sl = sl) :
    g.mapSlices f = g := by
  rw [Group.mapSlices_rest g f]
  have : (g.mapSlices f).slices = g.slices := by
    apply List.ext_getElem?
    intro k
    simp only [Group.mapSlices_get]
    cases hk : g.slices[k]? with
    | none => rfl
    | some sl => simp [e k sl hk]
  rw [this]

/-- Outside single-lane mode a new program counter is a change of the slices that it names. -/
theorem Group.setPc_mapSlices {g : Group} (h : g.handler = none) (ks : List Nat) (pc : Pc) :
    g.setPc ks pc = g.mapSlices (fun k sl => if ks.contains k then { sl with pc := pc } else sl) := by
  have hs : (g.setPc ks pc).slices
      = (g.mapSlices (fun k sl => if ks.contains k then { sl with pc := pc } else sl)).slices := by
    apply List.ext_getElem?
    intro k
    rw [Group.mapSlices_get]
    unfold Group.setPc
    rw [h]
    simp only [List.getElem?_map]
    by_cases hk : k < g.slices.length <;> simp [hk]
  rw [Group.mapSlices_rest, ← hs]
  unfold Group.setPc
  rw [h]

theorem Group.setPc_handler {g : Group} {h : Handler} (e : g.handler = some h) (ks : List Nat) (pc : Pc) :
    g.setPc ks pc = { g with handler := some { h with pc := pc } } := by
  unfold Group.setPc
  rw [e]

@[simp] theorem Group.setPc_main (g : Group) (ks : List Nat) (pc : Pc) : (g.setPc ks pc).main = g.main := by
  unfold Group.setPc; split <;> rfl
@[simp] theorem Group.setPc_calls (g : Group) (ks : List Nat) (pc : Pc) : (g.setPc ks pc).calls = g.calls := by
  unfold Group.setPc; split <;> rfl
@[simp] theorem Group.setPc_join (g : Group) (ks : List Nat) (pc : Pc) : (g.setPc ks pc).join = g.join := by
  unfold Group.setPc; split <;> rfl

/-! ### Masks of slices -/

theorem sum_pow_bit (ks : List Nat) (hn : ks.Nodup) (acc k : Nat) (ha : ∀ j ∈ ks, bitOf acc j = false) :
    bitOf (ks.foldl (fun m k => m + 2 ^ k) acc) k = (bitOf acc k || ks.contains k) := by
  induction ks generalizing acc with
  | nil => simp
  | cons a r ih =>
    simp only [List.nodup_cons] at hn
    have h0 : bitOf acc a = false := ha a (by simp)
    have key : ∀ j, bitOf (acc + 2 ^ a) j = (bitOf acc j || j == a) := by
      intro j
      rw [bitOf_eq_testBit, bitOf_eq_testBit]
      have ht : acc.testBit a = false := by rw [← bitOf_eq_testBit]; exact h0
      have he : acc + 2 ^ a = acc ||| 2 ^ a := by
        apply Nat.eq_of_testBit_eq
        intro i
        rw [Nat.testBit_or, Nat.testBit_two_pow]
        rcases Nat.lt_trichotomy i a with h | h | h
        · rw [Nat.add_comm, Nat.testBit_two_pow_add_gt h]
          simp [show ¬ a = i by omega]
        · subst h
          rw [Nat.add_comm, Nat.testBit_two_pow_add_eq, ht]; simp
        · have : (acc + 2 ^ a).testBit i = acc.testBit i := by
            simp only [Nat.testBit_eq_decide_div_mod_eq] at ht ⊢
            have : (acc + 2 ^ a) / 2 ^ i = acc / 2 ^ i := by
              obtain ⟨d, rfl⟩ : ∃ d, i = (a + 1) + d := ⟨i - (a + 1), by omega⟩
              rw [Nat.pow_add, ← Nat.div_div_eq_div_mul, ← Nat.div_div_eq_div_mul]
              congr 1
              rw [Nat.pow_succ, ← Nat.div_div_eq_div_mul, ← Nat.div_div_eq_div_mul, Nat.add_div_right _ (Nat.two_pow_pos a)]
              have : acc / 2 ^ a % 2 = 0 := by
                have := of_decide_eq_false ht; omega
              omega
            rw [this]
          rw [this]; simp [show ¬ a = i by omega]
      rw [he, Nat.testBit_or, Nat.testBit_two_pow]
      by_cases h : j = a
      · subst h; simp
      · simp [h, show ¬ a = j by omega]
    rw [List.foldl_cons, ih hn.2]
    · rw [key]
      simp only [List.contains_cons]
      rw [Bool.or_assoc]
    · intro j hj
      rw [key]
      have : j ≠ a := fun h => hn.1 (h ▸ hj)
      simp [ha j (by simp [hj]), this]

/-- A slice stands in the mask of a list of slices exactly where the list names it. -/
theorem bitOf_sliceBits {ks : List Nat} (hn : ks.Nodup) (h8 : ∀ k ∈ ks, k < 8) (k : Nat) :
    bitOf (sliceBits ks).toNat k = ks.contains k := by
  have hb := sum_pow_bit ks hn 0 k (by intro j _; simp [bitOf])
  unfold sliceBits
  rw [BitVec.toNat_ofNat]
  by_cases hk : k < 8
  · rw [bitOf_eq_testBit, Nat.testBit_mod_two_pow]
    rw [bitOf_eq_testBit] at hb
    rw [hb]; simp [hk, bitOf]
  · rw [bitOf_eq_testBit, Nat.testBit_mod_two_pow]
    have : k ∉ ks := fun h => hk (h8 k h)
    simp [hk, this]

end Sys2Proof.Machine
end

