-- ==== Sys2Proof/Laws/Issue.lean ====
section
/-! SUPPORT. What comes before an instruction issues: writes of b registers that reach the issuer's group (R42). -/

namespace Sys2Proof.Machine

open Sys2Proof

/-- Former values of b registers only go, those of other groups stay, and no field of the state but `fresh` changes. -/
theorem arrive_spec (g : Nat) (l : List LateB) : ∀ kept s, (arrive g l kept s).1.Sublist l
    ∧ (∀ x ∈ l, x.group ≠ g → x ∈ (arrive g l kept s).1)
    ∧ (arrive g l kept s).2 = { s with fresh := (arrive g l kept s).2.fresh } := by
  induction l with
  | nil => intro k s; simp [arrive]
  | cons x r ih =>
    intro k s
    unfold arrive
    split
    · obtain ⟨h1, h2, h3⟩ := ih k s
      refine ⟨by simpa using h1, ?_, h3⟩
      intro y hy hn
      rcases List.mem_cons.1 hy with rfl | hy
      · simp
      · simp [h2 y hy hn]
    · rename_i hc
      have hxg : x.group = g := by
        by_cases h : x.group = g
        · exact h
        · simp [h] at hc
      simp only
      split
      · obtain ⟨h1, h2, h3⟩ := ih k (choose s).2
        refine ⟨h1.cons _, ?_, by rw [h3]; rfl⟩
        intro y hy hn
        rcases List.mem_cons.1 hy with rfl | hy
        · exact absurd hxg hn
        · exact h2 y hy hn
      · obtain ⟨h1, h2, h3⟩ := ih (x.reg :: k) (choose s).2
        refine ⟨by simpa using h1, ?_, by simp only; rw [h3]; rfl⟩
        intro y hy hn
        rcases List.mem_cons.1 hy with rfl | hy
        · exact absurd hxg hn
        · simp [h2 y hy hn]

/-- `seeWrites` only drops former values of the issuer's team. -/
theorem seeWrites_eq {s : State} {e : Env} (h : env? s = some e) : ∃ l : List LateB, ∃ n : Nat,
    l.Sublist e.t.late ∧ (∀ x ∈ e.t.late, x.group ≠ e.g.index → x ∈ l)
      ∧ (seeWrites s = s ∧ l = e.t.late ∨ seeWrites s = { setTeam s { e.t with late := l } with fresh := n }) := by
  obtain ⟨h1, h2, h3⟩ := arrive_spec e.g.index e.t.late [] s
  by_cases ha : e.t.late.any (fun x => x.group == e.g.index) = true
  · refine ⟨_, (arrive e.g.index e.t.late [] s).2.fresh, h1, h2, .inr ?_⟩
    unfold seeWrites
    rw [h]
    simp only [ha, if_true]
    rw [h3]
    rfl
  · refine ⟨e.t.late, 0, List.Sublist.refl _, fun x hx _ => hx, .inl ⟨?_, rfl⟩⟩
    unfold seeWrites
    rw [h]
    simp [ha]

/-- Without a selected issuer nothing arrives. -/
theorem seeWrites_none {s : State} (h : env? s = none) : seeWrites s = s := by
  unfold seeWrites
  rw [h]

end Sys2Proof.Machine
end

