-- ==== Sys2Proof/Laws/Shared.lean ====
section
/-! SUPPORT. What the shared operations of the caches, the host port, the capture area and the issue stage can change: the
named fields and no other. -/

namespace Sys2Proof.Machine

open Sys2Proof

theorem snoopHost_eq (s : State) (line : Nat) : snoopHost s line = { s with hostOut := (snoopHost s line).hostOut } := by
  unfold snoopHost; split <;> rfl

/-- A write of the hub over host-held lines asks for them and marks its bytes (R217). -/
theorem overHost_eq (s : State) (a n : Nat) : overHost s a n = { s with
    hostOut := (overHost s a n).hostOut
    hostLate := (overHost s a n).hostLate } := by
  have one (s : State) (k : Nat) : ∃ o l, (if hostHolds s ((a + k) / 128) then
      (let s := snoopHost s ((a + k) / 128)
       if s.hostLate.contains (a + k) then s else { s with hostLate := (a + k) :: s.hostLate })
      else s) = { s with hostOut := o, hostLate := l } := by
    split
    · rw [snoopHost_eq]; simp only; split <;> exact ⟨_, _, rfl⟩
    · exact ⟨_, _, rfl⟩
  have all (l : List Nat) : ∀ s : State, ∃ o h, l.foldl (fun s k => if hostHolds s ((a + k) / 128) then
      (let s := snoopHost s ((a + k) / 128)
       if s.hostLate.contains (a + k) then s else { s with hostLate := (a + k) :: s.hostLate })
      else s) s = { s with hostOut := o, hostLate := h } := by
    induction l with
    | nil => exact fun s => ⟨_, _, rfl⟩
    | cons k l ih =>
      intro s
      obtain ⟨o, h, e⟩ := one s k
      obtain ⟨o', h', e'⟩ := ih { s with hostOut := o, hostLate := h }
      exact ⟨o', h', by rw [List.foldl_cons, e, e']⟩
  unfold overHost
  split
  · rfl
  · obtain ⟨o, h, e⟩ := all (List.range n) s
    rw [e]

/-- A record enters module memory and uses up one free value (R233). -/
theorem captureStore_eq (s : State) (ctx n v : Nat) : captureStore s ctx n v = { s with
    mem := (captureStore s ctx n v).mem
    fresh := (captureStore s ctx n v).fresh } := by
  unfold captureStore; split <;> rfl

theorem takeSnapshot_eq (s : State) (ctx task ptr : Nat) (bytes : List Byte) : takeSnapshot s ctx task ptr bytes = { s with
    mem := (takeSnapshot s ctx task ptr bytes).mem
    fresh := (takeSnapshot s ctx task ptr bytes).fresh
    capIn := s.capIn ++ [.snapshot ctx task ptr bytes] } := by
  unfold takeSnapshot; rw [captureStore_eq]

theorem recordCap_eq (s : State) (t : Team) (g : Group) (o : Op) (lane : Nat) : recordCap s t g o lane = { s with
    mem := (recordCap s t g o lane).mem
    fresh := (recordCap s t g o lane).fresh
    capture := (recordCap s t g o lane).capture } := by
  unfold recordCap
  split
  · rw [captureStore_eq]
  · rfl

/-- An attempt that stalls leaves the issue slots, and of the groups it changes the one that has tried, which is marked
(R180). -/
theorem attempt_cases {s t : State} {x : Issuer} (h : attempt s x = some t) :
    t.issue = s.issue ∧ ∃ e w, env? (seeWrites { s with issue := [x] }) = some e
      ∧ t.groups = (setGroup s { e.g with
          stalled := e.g.stalled ||| sliceBits e.slices
          walked := w }).groups := by
  unfold attempt at h
  cases he : env? (seeWrites { s with issue := [x] }) with
  | none => simp [he] at h
  | some e =>
    simp only [he, Option.bind_some] at h
    split at h
    · split at h
      · split at h
        · split at h
          · cases h
          · cases h; exact ⟨rfl, e, _, rfl, rfl⟩
        · cases h
      · cases h
    · cases h

/-- Passing stalled fragments over leaves the issue slots (R180). -/
theorem passOver_issue (p : Place) (n : Nat) : ∀ s, (passOver p n s).issue = s.issue := by
  have folds (l : List Env) : ∀ s : State, (l.foldl (fun s e => (attempt s e.slot).getD s) s).issue = s.issue := by
    induction l with
    | nil => exact fun s => rfl
    | cons e l ih =>
      intro s
      rw [List.foldl_cons, ih]
      cases h : attempt s e.slot with
      | none => rfl
      | some t => exact (attempt_cases h).1
  induction n with
  | zero => exact fun s => rfl
  | succ n ih =>
    intro s
    unfold passOver
    split
    · rfl
    · rw [ih, folds]

/-- Retention and holds change what the last-level cache keeps, and write alias lines back (R89, R150). -/
theorem aliasEvict_eq (s : State) (line : Nat) : aliasEvict s line = { s with
    mem := (aliasEvict s line).mem
    aliases := (aliasEvict s line).aliases } := by
  unfold aliasEvict aliasDrop aliasWb
  split
  · split <;> rfl
  · rfl

end Sys2Proof.Machine
end

