-- ==== Sys2Proof/Tests/Slice0.lean ====
section
/-! SUPPORT. Tests: an ill-formed term for each check of WellFormed, a word for each constructor written from the tables of
19_encoding.md, single steps on small states, and for each obligation states and operands that meet its hypotheses. -/

namespace Sys2Proof.Tests

open Sys2Proof Sys2Proof.Machine

set_option Elab.async false

/-! ### Words -/

/-- A format V word from its fields, highest bit first (Table 19-4); no guard is PG 7. -/
def vw (op sub ty nw sc d a b c rm sat imm : Nat) : BitVec 96 :=
  BitVec.ofNat 96 (op * 2 ^ 88 + sub * 2 ^ 82 + ty * 2 ^ 78 + 7 * 2 ^ 75 + nw * 2 ^ 73 + sc * 2 ^ 72 + d * 2 ^ 63 + a * 2 ^ 54
    + b * 2 ^ 45 + c * 2 ^ 36 + rm * 2 ^ 33 + sat * 2 ^ 32 + imm)

/-- A format M word from its fields (Table 19-5). -/
def mw (op sub ty lk d a b c ord scope evp low : Nat) : BitVec 96 :=
  BitVec.ofNat 96 (op * 2 ^ 88 + sub * 2 ^ 82 + ty * 2 ^ 78 + 7 * 2 ^ 75 + lk * 2 ^ 72 + d * 2 ^ 63 + a * 2 ^ 54 + b * 2 ^ 45
    + c * 2 ^ 36 + ord * 2 ^ 34 + scope * 2 ^ 31 + evp * 2 ^ 28 + low)

/-- A format B word from its fields (Table 19-6). -/
def bw (op xf a rcv imm : Nat) : BitVec 96 :=
  BitVec.ofNat 96 (op * 2 ^ 88 + 7 * 2 ^ 75 + xf * 2 ^ 63 + a * 2 ^ 54 + rcv * 2 ^ 36 + imm)

/-- A format X word from its fields (Table 19-7). -/
def xw (op tya ru acc sa a b c tyc n q sat low : Nat) : BitVec 96 :=
  BitVec.ofNat 96 (op * 2 ^ 88 + tya * 2 ^ 78 + 7 * 2 ^ 75 + ru * 2 ^ 73 + acc * 2 ^ 72 + sa * 2 ^ 63 + a * 2 ^ 54 + b * 2 ^ 36
    + c * 2 ^ 18 + tyc * 2 ^ 14 + n * 2 ^ 11 + q * 2 ^ 9 + sat * 2 ^ 8 + low)

/-- Every word of a list decodes to the instruction beside it. -/
def decodes (l : List (BitVec 96 × Instr)) : Bool := l.all (fun p => (decode p.1).toOption == some p.2)

def g7 : Guard := ⟨7, false⟩
def h0 : Hdr := ⟨g7, false, 0⟩
def hi (n : Nat) : Hdr := ⟨g7, false, BitVec.ofNat 32 n⟩
def m0 (addr : MAddr) (a : Option Src) (ord : Ord) (scope : Scope) (evp : Fin 8) : MHdr := ⟨g7, addr, a, ord, scope, evp⟩

/-- Words printed in the spec (01, 09, 11 to 14, 19, 21 to 24). -/
theorem decode_printed : decodes [
    (0x1900_0800_803F_FFF0_0000_0000, .neg ⟨⟨1, false⟩, false, 0⟩ .i32 false (.v 1) (.v 0)),
    (0x1E02_3808_0281_00B0_0000_0096, .lop3 (hi 0x96) .b32 (.v 16) (.v 10) (.v 8) (.v 11)),
    (0x2102_3805_023E_0080_0000_0001, .fsh (hi 1) false (.v 10) (.v 8) .imm (.v 8)),
    (0x1300_7AFF_E03E_1FF0_0005_5538, .mulhi (hi 349496) .n32 (.none true) (.c 0) .imm),
    (0x520E_3805_8040_A070_0000_0020, .shfl (hi 32) .xor .b32 (.v 11) (.v 1) (.v 5) 7),
    (0x9000_38FF_8301_40E0_0000_0000, .copyLinear g7 (.v 12) (.v 10) (.v 14)),
    (0x8203_3818_0400_0100_01C0_0131, .mmx ⟨g7, .e2m1, .f32, false, false, true, 16, 0x10, 0x70, 0, 49⟩ 48),
    (0x9300_3800_8500_9FF0_0000_0000, .qpush g7 1 20 4),
    (0x3000_3801_0000_3FF0_0000_0000, .fadd h0 .f32 .rn false (.v 2) (.v 0) (.v 1)),
    (0x6101_38FF_80C0_1FF0_3100_0000, .st (m0 (.sel 1 0) (some (.v 3)) .weak .group 3) .b32 (.v 0)),
    (0x6001_F802_813F_FFF8_A2FF_FFF0, .ld (m0 (.sel 2 0xFFFFF0) (some (.v 4)) .acqrel .team 2) .bf16 5),
    (0x6A24_39FF_8040_7FF6_3000_2000, .red (m0 (.link 2 0) (some (.v 1)) .rlx .device 3) .fadd (.f .f32) (.v 3)),
    (0x0100_1000_7FC0_0040_0000_0003, .bra ⟨2, false⟩ 4 3),
    (0x1000_3805_8241_5FF0_0000_0000, .add h0 .i32 false (.v 11) (.v 9) (.v 10)),
    (0x0B00_38C0_7440_0000_0000_0000, .assert g7 6 1),
    (0x920C_380D_873F_FFF0_0000_0000, .barArrwait g7 (.v 27) (.v 28)),
    (0x0300_3804_7FC0_0000_0000_0027, .call g7 1 39),
    (0x5004_3804_013F_FFF0_0000_0000, .cvt h0 (.f .f32) (.f .f64) .rn false (.v 8) (.v 4)),
    (0x0800_1000_7FC0_0000_0000_0000, .exit ⟨2, false⟩),
    (0x9600_38FF_FC3F_FFF0_0000_0002, .fclaim (hi 2) .imm),
    (0x6400_38FF_FFFF_FFF0_0000_0000, .fence g7 .acqrel .group),
    (0x3300_3AFF_8040_3800_0000_0000, .fma h0 .f32 .rn false (.none true) (.v 1) (.v 1) (.c 0)),
    (0x361C_3803_00C0_7FF0_0000_0000, .fsetp h0 .ord .none .f32 6 (.v 3) (.v 3)),
    (0x2908_38F3_E43F_FFF0_0000_0000, .leaSeg h0 7 (.b 0)),
    (0x1400_3801_8040_5F00_0000_0005, .mad (hi 5) .i32 false (.v 3) (.v 1) (.v 2) .imm),
    (0x8102_3800_0400_0000_0040_0A00, .mmas ⟨g7, .e4m3, .f32, false, false, false, 16, 0, 0x10, 1, 0⟩ 1),
    (0x2A02_3801_E03F_FFF0_0000_0000, .mov h0 .b32 (.v 3) (.c 0)),
    (0x9400_3804_053F_FFF0_0000_0000, .qpop g7 8 20),
    (0x5418_3805_82BF_FFF0_0000_0000, .redux h0 .fadd (.f .f32) false (.v 11) (.v 10)),
    (0x0700_3800_7FC0_0000_0000_0000, .regang),
    (0x0500_3830_7FC0_0000_0000_0000, .ret g7 3),
    (0x6702_3802_023F_FFF0_0700_0100, .retract (m0 (.sel 7 0x100) (some (.v 8)) .weak .group 0) false 4),
    (0x2714_7800_8032_5FF0_0000_0000, .setp h0 .ge .none .n32 1 (.v 0) (.b 2)),
    (0x6602_5902_7FC1_9FFA_3000_4000, .sts ⟨⟨3, false⟩, .link 4 0, none, .acqrel, .device, 3⟩ true 4 (.v 12)),
    (0x8300_3800_0400_0000_0000_0000, .tld g7 16 0 0),
    (0x9100_38FF_FFFF_FFF0_3FFF_FFC0, .waitc g7 0x3FFFFFC0),
    (0x6D06_2CFF_FFFE_3FF8_8100_0000, .waitv ⟨⟨5, true⟩, .sel 1 0, none, .acqrel, .team, 0⟩ .ne false .zero),
    (0x0900_3800_7FC0_0010_3FFF_FFC0, .yield g7 1 0x3FFFFFC0)] = true := by decide +kernel

/-- Control instructions (Table 19-6). -/
theorem decode_control : decodes [
    (bw 0x00 0 0 0 0, .nop true), (0, .nop false), (bw 0x02 0 3 5 0, .brx g7 3 5),
    (bw 0x04 (24 * 8) 464 0 0, .calli g7 24 (.s 0)), (bw 0x06 0 497 0 0xFFFFFFFF, .unwind g7 .zero 0xFFFFFFFF),
    (bw 0x0A 0 511 0 0xDEAD, .trap g7 0xDEAD), (bw 0x0C 0 511 0 7, .brk g7 7), (bw 0x05 (8 * 32) 511 0 0, .ret g7 8)] = true := by
  decide +kernel

/-- Integer and bit instructions (Tables 19-4, 19-8 to 19-11); 497 is zero, 498 the lane, 384 age c1, 400 b0. -/
theorem decode_integer : decodes [
    (vw 0x11 0 7 0 0 1 2 3 511 0 1 0, .sub h0 .n8x4 true (.v 1) (.v 2) (.v 3)),
    (vw 0x12 0 4 0 0 1 2 3 511 0 0 0, .mul h0 .i16x2 false (.v 1) (.v 2) (.v 3)),
    (vw 0x15 0 1 0 0 2 4 5 511 0 0 0, .mulwide h0 .n32 (.v 2) (.v 4) (.v 5)),
    (vw 0x16 0 3 0 1 466 464 497 511 0 0 0, .min ⟨g7, true, 0⟩ .n64 (.s 2) (.s 0) .zero),
    (vw 0x17 0 0 0 0 1 498 384 511 0 0 0, .max h0 .i32 (.v 1) .lane (.c 0)),
    (vw 0x18 0 6 0 0 1 2 511 511 0 1 0, .abs h0 .i8x4 true (.v 1) (.v 2)),
    (vw 0x1A 0 10 0 0 4 8 12 511 0 0 0, .and h0 .b128 (.v 4) (.v 8) (.v 12)),
    (vw 0x1B 0 9 0 0 402 496 400 511 0 0 9, .or (hi 9) .b64 (.b 2) .imm (.b 0)),
    (vw 0x1C 0 8 0 0 1 2 3 511 0 0 0, .xor h0 .b32 (.v 1) (.v 2) (.v 3)),
    (vw 0x1D 0 8 0 0 1 2 511 511 0 0 0, .not h0 .b32 (.v 1) (.v 2)),
    (vw 0x1F 0 9 0 0 2 4 5 511 0 0 0, .shl h0 .b64 (.v 2) (.v 4) (.v 5)),
    (vw 0x20 1 8 0 0 1 2 3 511 0 0 0, .shr h0 true .b32 (.v 1) (.v 2) (.v 3)),
    (vw 0x21 1 8 0 0 1 2 3 4 0 0 0, .fsh h0 true (.v 1) (.v 2) (.v 3) (.v 4)),
    (vw 0x22 0 9 0 0 1 2 511 511 0 0 0, .popc h0 .b64 (.v 1) (.v 2)),
    (vw 0x23 0 8 0 0 1 2 511 511 0 0 0, .clz h0 .b32 (.v 1) (.v 2)),
    (vw 0x24 0 8 0 0 1 2 511 511 0 0 0, .brev h0 .b32 (.v 1) (.v 2)),
    (vw 0x25 0 2 0 0 2 4 6 7 0 0 0, .bfe h0 .i64 (.v 2) (.v 4) (.v 6) (.v 7)),
    (vw 0x26 0 8 0 0 1 2 3 4 0 0 0, .bfi h0 .b32 (.v 1) (.v 2) (.v 3) (.v 4)),
    (vw 0x28 0 8 0 0 4 1 497 2 0 0 0, .sel h0 .b32 (.v 4) (.v 1) .zero 2),
    (vw 0x29 0 1 0 0 2 4 5 511 0 0 0, .leaPtr h0 .n32 (.v 2) (.v 4) (.v 5)),
    (vw 0x29 1 0 0 0 464 465 5 511 0 0 0, .leaAdd h0 .i32 (.s 0) (.s 1) (.v 5)),
    (vw 0x29 3 0 0 0 5 2 7 511 0 0 0, .leaChk h0 5 (.v 2) (.v 7)),
    (vw 0x2B 0 9 0 0 464 511 511 511 0 0 12, .smovRead g7 true (.s 0) 12),
    (vw 0x2B 1 0 0 0 511 464 511 511 0 0 13, .smovWriteCrew g7 (.s 0)),
    (vw 0x2C 0 8 0 0 1 2 3 4 0 0 0, .prmt h0 (.v 1) (.v 2) (.v 3) (.v 4)),
    (vw 0x27 0b010001 8 0 0 2 1 497 3 0 0 0, .setp h0 .ne (.and 3) .b32 2 (.v 1) .zero)] = true := by decide +kernel

/-- Floating-point instructions and cvt. -/
theorem decode_float : decodes [
    (vw 0x31 0 1 0 0 2 4 6 511 1 0 0, .fsub h0 .f64 .rz false (.v 2) (.v 4) (.v 6)),
    (vw 0x32 0 4 0 0 1 2 3 511 0 0 0, .fmul h0 .f16x2 .rn false (.v 1) (.v 2) (.v 3)),
    (vw 0x34 0 0 0 0 1 2 3 511 0 0 0, .fmin h0 .f32 (.v 1) (.v 2) (.v 3)),
    (vw 0x35 0 3 0 0 1 2 3 511 0 0 0, .fmax h0 .bf16 (.v 1) (.v 2) (.v 3)),
    (vw 0x37 0 0 0 0 1 2 511 511 4 0 0, .frcp h0 .f32 .rna false (.v 1) (.v 2)),
    (vw 0x38 0 0 0 0 1 2 511 511 0 0 0, .frsq h0 .f32 .rn false (.v 1) (.v 2)),
    (vw 0x39 0 1 0 0 2 4 511 511 2 0 0, .fsqrt h0 .f64 .rd false (.v 2) (.v 4)),
    (vw 0x3A 0 0 0 0 1 2 3 511 3 1 0, .fdiv h0 .f32 .ru true (.v 1) (.v 2) (.v 3)),
    (vw 0x3B 0 0 0 0 1 2 511 511 0 0 0, .fex2 h0 .f32 .rn false (.v 1) (.v 2)),
    (vw 0x3C 0 2 0 0 1 2 511 511 0 0 0, .flg2 h0 .f16 .rn false (.v 1) (.v 2)),
    (vw 0x3D 0 0 0 0 1 2 511 511 0 0 0, .fsin h0 .f32 .rn false (.v 1) (.v 2)),
    (vw 0x3E 0 5 0 0 1 2 511 511 0 0 0, .fcos h0 .bf16x2 .rn false (.v 1) (.v 2)),
    (vw 0x3F 0 0 0 0 1 2 3 511 0 0 0, .fscale h0 .f32 .rn false (.v 1) (.v 2) (.v 3)),
    (vw 0x40 0 3 0 0 1 2 511 511 0 0 0, .fclass h0 .bf16 (.v 1) (.v 2)),
    (vw 0x41 0 4 0 0 1 2 3 4 0 0 0, .fdot2 h0 .f16x2 .rn false (.v 1) (.v 2) (.v 3) (.v 4)),
    (vw 0x42 0 0 0 0 1 2 511 511 1 0 0, .frnd h0 .f32 .rz (.v 1) (.v 2)),
    (vw 0x50 0b100011 0 0 0 1 2 511 511 0 0 0, .cvt h0 (.i .i32) (.f .bf16) .rn false (.v 1) (.v 2))] = true := by decide +kernel

/-- Lane exchange. -/
theorem decode_lane : decodes [
    (vw 0x53 0 8 0 0 2 1 511 511 0 0 0, .vote h0 (.all 2) false (.v 1)), (vw 0x53 1 8 0 0 2 1 511 511 0 0 0, .vote h0 (.any 2) false (.v 1)),
    (vw 0x53 2 8 0 0 3 1 511 511 0 0 0, .vote h0 (.ballot (.v 3)) false (.v 1)),
    (vw 0x53 3 9 0 0 2 4 511 511 0 0 0, .vote h0 (.eq 2) true (.v 4)),
    (vw 0x55 1 1 0 0 3 1 511 511 0 0 0, .scan h0 true .n32 false (.v 3) (.v 1))] = true := by decide +kernel

/-- Memory instructions and atomics (Table 19-5): scopes 0 group to 5 system, ordering 0 weak to 3 sc. -/
theorem decode_memory : decodes [
    (mw 0x62 0 0 0 511 3 511 511 0 0 2 (2 * 2 ^ 24 + 8), .pf (m0 (.sel 2 8) (some (.v 3)) .weak .group 2)),
    (mw 0x63 0 0 0 511 3 4 511 0 0 0 (2 * 2 ^ 24), .touch (m0 (.sel 2 0) (some (.v 3)) .weak .group 0) (.v 4)),
    (mw 0x64 3 0 0 511 511 511 511 0 5 0 0, .fence g7 .sc .system),
    (mw 0x65 0 0 0 511 3 511 511 0 4 0 (2 * 2 ^ 24), .cctlWb (m0 (.sel 2 0) (some (.v 3)) .weak .device 0)),
    (mw 0x65 1 0 0 511 3 511 511 0 4 0 (2 * 2 ^ 24), .cctlInv (m0 (.sel 2 0) (some (.v 3)) .weak .device 0)),
    (mw 0x65 2 0 0 511 3 511 511 0 4 0 (2 * 2 ^ 24), .cctlWbinv (m0 (.sel 2 0) (some (.v 3)) .weak .device 0)),
    (mw 0x65 3 0 0 511 3 511 511 0 0 0 (2 * 2 ^ 24), .cctlUnhold (m0 (.sel 2 0) (some (.v 3)) .weak .group 0)),
    (mw 0x68 0 9 0 511 3 511 511 0 0 0 (2 * 2 ^ 24), .settle (m0 (.sel 2 0) (some (.v 3)) .weak .group 0) true),
    (mw 0x69 7 1 0 5 3 6 511 1 3 0 (2 * 2 ^ 24), .atom (m0 (.sel 2 0) (some (.v 3)) .rlx .die 0) .inc (.i .n32) 5 (.v 6)),
    (mw 0x6B 0 10 0 8 3 12 497 1 4 0 (2 * 2 ^ 24), .cas (m0 (.sel 2 0) (some (.v 3)) .rlx .device 0) .b128 8 (.v 12) .zero),
    (mw 0x6C 1 1 0 8 3 4 511 1 4 0 (2 * 2 ^ 24), .cpadd (m0 (.sel 2 0) (some (.v 3)) .rlx .device 0) true (some 8) (.v 4)),
    (mw 0x6C 0 0 0 511 3 4 511 1 4 0 (2 * 2 ^ 24), .cpadd (m0 (.sel 2 0) (some (.v 3)) .rlx .device 0) false none (.v 4)),
    (mw 0x6E 0 0 0 511 3 4 5 1 4 0 (2 * 2 ^ 24), .spred (m0 (.sel 2 0) (some (.v 3)) .rlx .device 0) (.v 4) (.v 5)),
    (mw 0xA7 0 4 0 5 464 511 511 0 0 0 16, .ldphys (m0 (.sel 0 16) (some (.s 0)) .weak .group 0) .b32 5),
    (mw 0xA8 0 5 0 511 464 6 511 0 0 0 16, .stphys (m0 (.sel 0 16) (some (.s 0)) .weak .group 0) .b64 (.v 6))] = true := by
  decide +kernel

/-- Matrix and tile instructions (Table 19-7). -/
theorem decode_matrix : decodes [
    (xw 0x80 3 1 1 0 16 0 16 0 0 0 0 0, .mma ⟨g7, .bf16, .f32, true, true, false, 16, 0, 16, 0, 0⟩),
    (xw 0x84 0 0 0 0 16 5 0 0 1 0 0 0, .tst g7 16 5 1), (xw 0x85 0 0 0 0 0 3 4 0 0 0 0 0, .tzero g7 3 4),
    (xw 0x86 7 0 0 0 0 0 9 0 2 0 1 3, .tcvt g7 .p8 .f32 true 9 2 3)] = true := by decide +kernel

/-- Copies, counters, barriers, queues and frames (format V). -/
theorem decode_async : decodes [
    (vw 0x90 1 0 0 0 511 12 10 14 0 0 0, .copyStrided2 g7 (.v 12) (.v 10) (.v 14)),
    (vw 0x90 2 0 0 0 511 12 10 14 0 0 0, .copyStrided3 g7 (.v 12) (.v 10) (.v 14)),
    (vw 0x90 3 0 0 0 511 12 10 14 0 0 0, .copyGather g7 (.v 12) (.v 10) (.v 14)),
    (vw 0x90 4 0 0 0 511 12 10 14 0 0 0, .copyScatter g7 (.v 12) (.v 10) (.v 14)),
    (vw 0x90 5 0 0 0 511 12 10 14 0 0 0, .copyFill g7 (.v 12) (.v 10) (.v 14)),
    (vw 0x90 6 0 0 0 511 12 10 14 0 0 0, .copyCombine g7 (.v 12) (.v 10) (.v 14)),
    (vw 0x90 7 0 0 0 511 12 10 14 0 0 0, .copyMeta g7 (.v 12) (.v 10) (.v 14)),
    (vw 0x90 5 1 0 0 511 12 10 14 0 0 0x3FFC0FFF, .copyYield g7 .fill 0x3FFC0FFF (.v 12) (.v 10) (.v 14)),
    (vw 0x92 0 1 0 0 511 464 3 511 0 0 0, .barInit h0 true (.s 0) (.v 3)),
    (vw 0x92 1 0 0 0 5 464 511 511 0 0 0, .barArrive g7 (.v 5) (.s 0)),
    (vw 0x92 2 0 0 0 511 464 5 511 0 0 0, .barWait h0 (.s 0) (.v 5)), (vw 0x92 4 0 0 0 511 464 511 511 0 0 0, .barDrop g7 (.s 0)),
    (vw 0x93 0 1 0 0 2 6 16 511 0 0 0, .qpushTask g7 2 6 16), (vw 0x95 0 0 0 0 511 497 511 511 0 0 0, .fgive h0 .zero)] = true := by
  decide +kernel

/-- System instructions. -/
theorem decode_system : decodes [
    (vw 0xA0 0 0 0 0 511 511 511 511 0 0 0, .sret g7), (vw 0xA1 0 0 0 0 464 511 511 511 0 0 0x11, .srd g7 (.s 0) 0x11),
    (vw 0xA2 0 0 0 0 511 464 511 511 0 0 0x12, .swr g7 (.s 0) 0x12), (vw 0xA3 0 0 0 0 1 464 511 511 0 0 0, .bindClaim g7 1 (.s 0)),
    (vw 0xA3 1 0 0 0 1 464 466 511 0 0 0, .bindSet g7 1 (.s 0) (.s 2)), (vw 0xA3 2 0 0 0 1 464 511 511 0 0 0, .bindFail g7 1 (.s 0)),
    (vw 0xA3 3 0 0 0 1 464 511 511 0 0 0, .bindUnbind g7 1 (.s 0)), (vw 0xA3 4 0 0 0 472 464 511 511 0 0 0, .bindRead g7 2 (.s 0)),
    (vw 0xA4 0 0 0 0 511 464 511 511 0 0 0, .blbiEntry h0 (.s 0)), (vw 0xA4 1 0 0 0 511 464 511 511 0 0 0, .blbiModule h0 (.s 0)),
    (vw 0xA4 2 0 0 0 511 511 511 511 0 0 0, .blbiContext g7), (vw 0xA5 0 0 0 0 511 464 511 511 0 0 0, .tlbiPage h0 (.s 0)),
    (vw 0xA5 1 0 0 0 511 511 511 511 0 0 0, .tlbiContext g7), (vw 0xA5 2 0 0 0 511 511 511 511 0 0 0, .tlbiAll g7),
    (vw 0xA6 0 0 0 0 511 464 511 511 0 0 0, .sdciEntry h0 (.s 0)), (vw 0xA6 1 0 0 0 511 511 511 511 0 0 0, .sdciContext g7),
    (vw 0xA9 0 0 0 0 1 464 511 511 0 0 0, .hatchSpill h0 1 (.s 0)), (vw 0xA9 1 0 0 0 1 464 511 511 0 0 0, .hatchFill h0 1 (.s 0)),
    (vw 0xA9 2 0 0 0 465 464 511 511 0 0 0, .hatchStatus h0 1 (.s 0))] = true := by decide +kernel

/-! ### Well-formedness: an ill-formed term for each check -/

def notWf (l : List Instr) : Bool := l.all (fun i => !i.wf)

/-- Guards: PG 7 with PN 1 in each format (R244). -/
theorem wf_guard : notWf [.bra ⟨7, true⟩ 0 0, .add ⟨⟨7, true⟩, false, 0⟩ .i32 false (.v 0) (.v 1) (.v 2),
    .ld ⟨⟨7, true⟩, .sel 1 0, none, .weak, .group, 0⟩ .b32 0, .tzero ⟨7, true⟩ 0 0, .sret ⟨7, true⟩] = true := by decide +kernel

/-- Scalar issue: a vector source, a vector destination, an instruction without it (R243). -/
theorem wf_scalar : notWf [.add ⟨g7, true, 0⟩ .i32 false (.s 0) (.v 1) (.s 2), .add ⟨g7, true, 0⟩ .i32 false (.v 0) (.s 1) (.s 2),
    .setp ⟨g7, true, 0⟩ .eq .none .i32 0 (.s 0) (.s 1), .cvt ⟨g7, true, 0⟩ (.i .i32) (.i .i32) .rn false (.s 0) (.s 1),
    .scan ⟨g7, true, 0⟩ false .i32 false (.v 0) (.v 1), .lop3 ⟨g7, true, 0⟩ .b32 (.v 0) (.s 0) (.s 1) (.s 2)] = true := by decide +kernel

/-- An immediate that no operand reads, and an immediate operand beside a field in IMM (R243, R249). -/
theorem wf_immediate : notWf [.add (hi 1) .i32 false (.v 0) (.v 1) (.v 2), .setp (hi 1) .eq .none .i32 0 (.v 1) (.v 2),
    .lop3 (hi 0x2000) .b32 (.v 0) (.v 1) (.v 2) (.v 3), .lop3 h0 .b32 (.v 0) .imm (.v 2) (.v 3), .shfl (hi 3) .idx .b32 (.v 0) (.v 1) (.v 2) 7,
    .shfl (hi 32) .idx .b32 (.v 0) .imm (.v 2) 7, .smovWriteCrew g7 .imm, .cvt (hi 1) (.f .f32) (.f .f16) .rn false (.v 0) (.v 1),
    .cvt (hi 0) (.f .p8x4) (.f .f32) .rn false (.v 0) (.v 1), .swr g7 .imm 0] = true := by decide +kernel

/-- Pairs, quads and ages (R38, R45, R248). -/
theorem wf_operands : notWf [.add h0 .i64 false (.v 1) (.v 2) (.v 4), .add h0 .i64 false (.v 2) (.v 1) (.v 4),
    .add h0 .i64 false (.v 2) (.c 15) (.v 4), .mov h0 .b128 (.v 2) (.v 4), .mov h0 .b128 (.v 4) (.v 2), .mov h0 .b128 (.v 4) (.c 13),
    .mov h0 .b128 (.s 0) (.v 4), .mov (hi 1) .b128 (.v 4) .imm, .add h0 .i64 false (.b 1) (.v 2) (.v 4), .smovRead g7 true (.v 1) 0,
    .ld (m0 (.sel 1 0) none .weak .group 0) .b64 1, .atom (m0 (.sel 1 0) none .rlx .group 0) .add (.i .i64) 1 (.v 2),
    .cas (m0 (.sel 1 0) none .rlx .group 0) .b128 2 (.v 4) (.v 8), .cpadd (m0 (.sel 1 0) none .rlx .group 0) true (some 2) (.v 4),
    .qpush g7 1 1 4, .qpop g7 4 1, .copyLinear g7 (.v 1) (.v 2) (.v 3), .barDrop g7 (.v 1), .calli g7 1 .zero] = true := by decide +kernel

/-- Types outside an entry's set (R250). -/
theorem wf_types : notWf [.add h0 .b32 false (.v 0) (.v 1) (.v 2), .mul h0 .i8x4 false (.v 0) (.v 1) (.v 2), .mulhi h0 .i16x2 (.v 0) (.v 1) (.v 2),
    .mulwide h0 .i64 (.v 0) (.v 2) (.v 4), .abs h0 .n32 false (.v 0) (.v 1), .and h0 .i32 (.v 0) (.v 1) (.v 2), .popc h0 .b128 (.v 0) (.v 4),
    .shl h0 .i32 (.v 0) (.v 1) (.v 2), .bfe h0 .b32 (.v 0) (.v 1) (.v 2) (.v 3), .bfi h0 .i32 (.v 0) (.v 1) (.v 2) (.v 3),
    .setp h0 .lt .none .b32 0 (.v 1) (.v 2), .setp h0 .uo .none .i32 0 (.v 1) (.v 2), .leaPtr h0 .b32 (.v 0) (.v 2) (.v 3), .mov h0 .i32 (.v 0) (.v 1),
    .fadd h0 .p8x4 .rn false (.v 0) (.v 1) (.v 2), .fsetp h0 .eq .none .f16x2 0 (.v 1) (.v 2), .fsin h0 .f64 .rn false (.v 0) (.v 2),
    .fclass h0 .f32x2 (.v 0) (.v 2), .fdot2 h0 .f32 .rn false (.v 0) (.v 1) (.v 2) (.v 3), .cvt h0 (.f .f32) (.f .f16x2) .rn false (.v 0) (.v 1),
    .cvt h0 (.i .b32) (.f .f32) .rn false (.v 0) (.v 1), .cvt (hi 0) (.f .e4m3x4) (.f .f32) .rn false (.v 1) (.v 1),
    .shfl (hi 32) .idx .i32 (.v 0) (.v 1) (.v 2) 7, .vote h0 (.all 1) true (.v 2), .redux h0 .and (.i .i32) false (.v 0) (.v 1),
    .redux h0 .min (.i .i32) true (.v 0) (.v 1), .scan h0 false .b32 false (.v 0) (.v 1)] = true := by decide +kernel

/-- Destinations that an entry shuts out. -/
theorem wf_destinations : notWf [.leaSeg h0 0 (.v 1), .shfl (hi 32) .idx .b32 (.s 0) (.v 1) (.v 2) 7, .scan h0 false .i32 false (.s 0) (.v 1),
    .barArrive g7 (.none true) (.s 0), .srd g7 (.b 0) 0] = true := by decide +kernel

/-- Format M: ordering, scope and eviction where an entry gives them no use, pointer mode without a pair, IMM (R245). -/
theorem wf_memory : notWf [.pf (m0 (.sel 1 0) none .rlx .group 0), .touch (m0 (.sel 1 0) none .weak .team 0) (.v 1),
    .touch (m0 (.sel 1 0) none .weak .group 3) (.v 1), .cctlUnhold (m0 (.sel 1 0) none .weak .device 0), .ld (m0 (.sel 0 0) none .weak .group 0) .b32 0,
    .ld (m0 (.sel 0 0) (some (.v 1)) .weak .group 0) .b32 0, .ld (m0 (.link 0 0) (some .imm) .weak .group 0) .b32 0,
    .st (m0 (.sel 1 0) none .weak .group 0) .b32 (.s 0), .red (m0 (.sel 1 0) none .rlx .group 0) .and (.i .i32) (.v 1),
    .atom (m0 (.sel 1 0) none .rlx .group 0) .fadd (.f .f16) 0 (.v 1), .waitv (m0 (.sel 1 0) none .weak .group 0) .eq false .imm,
    .spred (m0 (.sel 1 0) none .sc .group 0) (.v 1) (.v 2), .sts (m0 (.sel 1 0) none .weak .group 0) false 1 (.s 0),
    .ldphys (m0 (.sel 1 0) (some (.s 0)) .weak .group 0) .b32 0, .stphys (m0 (.sel 0 0) (some (.b 0)) .weak .group 0) .b32 (.v 1)] = true := by
  decide +kernel

/-- Matrix and tile types (Tables 12-2, 23-3, 24-2), P3109 format bytes, and the handler's operands. -/
theorem wf_matrix : notWf [.mma ⟨g7, .f32, .i32, false, false, false, 0, 0, 0, 0, 0⟩, .mmas ⟨g7, .f32, .f32, false, false, false, 0, 0, 0, 0, 0⟩ 0,
    .mmx ⟨g7, .f16, .f32, false, false, false, 0, 0, 0, 0, 0⟩ 0, .mma ⟨g7, .p8, .f32, false, false, false, 0, 0, 0, 0, 0⟩,
    .mma ⟨g7, .f32, .f32, false, false, false, 0, 0, 0, 0, 1⟩, .tcvt g7 .e4m3 .f64 false 0 0 0, .tcvt g7 .e4m3 .f32 false 0 0 1,
    .bindClaim g7 1 (.b 0), .unwind g7 .imm 0] = true := by decide +kernel

/-- The same shapes with the fault removed are well formed. -/
theorem wf_good : [Instr.bra g7 0 0, .add h0 .i64 false (.v 2) (.c 14) (.v 4), .setp h0 .lt .none .i32 0 (.v 1) (.v 2), .shfl (hi 16) .idx .b32 (.v 0) (.v 1) (.v 2) 7,
    .cvt (hi 0) (.f .e4m3x4) (.f .f32) .rn false (.v 4) (.v 1), .ld (m0 (.sel 0 0) (some (.v 2)) .weak .group 0) .b32 0,
    .mma ⟨g7, .p8, .f32, false, false, false, 0, 0, 0, 0, 3⟩, .lop3 (hi 0x1FFF) .b32 (.v 0) (.v 1) (.v 2) (.v 3)].all Instr.wf = true := by decide +kernel

/-! ### A small machine

One team of one group with 32 lanes at index 0 of code segment 16; descriptors for segments 1 to 8, 16 and the plain segment 17;
slice memory and a queue; the page translated; a regang at index 5, a callee at index 6 with a frame-table entry. -/

/-- The segment table's entries: number, kind, rights, base, limit. -/
def segs : List (Nat × Nat × Nat × Nat × Nat) :=
  [(1, 2, 31, 0, 0), (2, 3, 31, 0, 0), (3, 4, 31, 0, 0), (4, 5, 31, 0, 0), (5, 1, 5, 0, 0), (6, 6, 31, 0x30000, 0x1000),
   (7, 7, 31, 0x4000000, 36864 * 2048 * 64), (8, 7, 31, 0x10000000, 36864 * 1152), (16, 1, 5, 0x10000, 256), (17, 0, 31, 0x20000, 0x10000)]

/-- The cells of `n` bytes at `a`, without zero bytes. -/
def cells (a n v : Nat) : Memory :=
  (List.range n).filterMap (fun i => if v / 256 ^ i % 256 = 0 then none else some (a + i, BitVec.ofNat 8 (v / 256 ^ i % 256)))

/-- Page tables, descriptors, two code lines, the frame table of the code segment, a sparse object, the handler table's
entry for cause 0x1C, a strided, a gather and a combine record, and a bound and a claimed binding entry. -/
def tMem : Memory :=
  cells 0x1000 8 0x2063 ++ cells 0x2000 8 0x3063 ++ cells 0x3000 8 0xE3
    ++ (segs.map (fun d => cells (0x4000 + 32 * d.1) 32 (stageDesc d.2.1 d.2.2.1 d.2.2.2.1 d.2.2.2.2
      + if d.1 = 16 then 4 * 2 ^ 224 else 0))).flatten
    ++ cells 0x10000 64 (stageLine (bw 0x01 0 511 5 6)) ++ cells 0x10040 64 (stageLine (bw 0x07 0 511 0 0))
    ++ cells 0x100C0 8 (6 + 2 * 2 ^ 32) ++ cells 0x100F8 8 (0xC0 + 1 * 2 ^ 32) ++ cells 0x20100 32 (segPtr 17 0x200 + 16 * 2 ^ 64)
    ++ cells 0x203E0 8 (segPtr 16 6)
    ++ cells 0x20400 32 (8 + 2 * 2 ^ 32 + 16 * 2 ^ 64 + 16 * 2 ^ 96 + 1 * 2 ^ 128) ++ cells 0x20420 32 (2 + 2 * 2 ^ 32 + segPtr 17 0x500 * 2 ^ 64)
    ++ cells 0x20440 32 2 ++ cells 0x30000 16 (segPtr 17 64 + 2 * 2 ^ 64)
    ++ cells 0x30040 16 (2 ^ 64)

/-- Slice memory with an empty queue at 0x100: ring at 0x200, 16-byte entries, capacity 4. -/
def tSmem : Memory := cells 0x100 64 (segPtr 2 0x200 * 2 ^ 128 + 2 * 2 ^ 192 + 1 * 2 ^ 200)

/-- s0 points at segment 17, s1 at the queue, s2 at team memory, s3 at the code index 6, s4 at a sparse object, s5 is 1,
s6 points at binding entry 1, s7 at slice memory, s8 at the tile store, s9 at metadata, s10 to s12 at the copy records,
s13 and s14 at binding entries 0 and 2. -/
def tSreg : Tab 64 :=
  ([segPtr 17 0, segPtr 2 0x100, segPtr 1 0, segPtr 16 6, segPtr 17 0x100, 1, segPtr 6 32, segPtr 2 0, segPtr 3 0, segPtr 4 0,
    segPtr 17 0x400, segPtr 17 0x420, segPtr 17 0x440, segPtr 6 0, segPtr 6 64].zipIdx).foldl
    (fun t p => tabSet t p.2 (BitVec.ofNat 64 p.1)) []

/-- The group; predicate p1 holds in lanes 0 and 1. -/
def tGroup : Group :=
  let g := stageGroup 1 false
  { g with main := { g.main with sreg := tSreg, pred := [(1, 3)], greg := [(1, 17)] } }

def tTeam : Team := { stageTeam 1 with ngroups := 4 }

/-- The machine with a group. -/
def tState (g : Group) : State :=
  { State.reset with
    mem := tMem, smem := tSmem, ctxs := [{ stageCtx with handlers := BitVec.ofNat 64 (segPtr 17 0x300) }], teams := [tTeam], groups := [g], issue := [{ place := g.place, slices := 255 }],
    nextUid := 2, tlb := [{ die := 0, core := 0, ctx := 1, vpn := 0, pfn := 0, write := true, shift := 30 }],
    hub := { Hub.reset with cxl := true, smcarve := 1, smwin := [(1, BitVec.ofNat 64 (2 ^ 63 + 16 * 2 ^ 24))] } }

/-- Its issuer outside single-lane mode. -/
def tEnv (g : Group) : Env :=
  { g := g, t := tTeam, single := false, slices := List.range 8, live := 0xFFFFFFFF, pc := ⟨16, 0⟩ }

/-- The group in its handler, whose s registers are those above. -/
def hGroup : Group :=
  { tGroup with handler := some { ctx := { RegCtx.fresh [true, true] with sreg := tSreg }, pc := ⟨16, 0⟩, frzsel := 0, resume := 0 } }

def hEnv (g : Group) : Env := { g := g, t := tTeam, single := true, slices := [0], live := 1, pc := ⟨16, 0⟩ }

abbrev S : State := tState tGroup
abbrev E : Env := tEnv tGroup
abbrev H : State := tState hGroup
abbrev EH : Env := hEnv hGroup

theorem memory_wf : Memory.wf tMem = true ∧ Memory.wf tSmem = true := by decide +kernel

theorem env_user : env? S = some E := by decide +kernel
theorem env_handler : env? H = some EH := by decide +kernel

/-- Opcodes that the group may issue. -/
def issues (ops : List Nat) (s : State) (e : Env) : Bool :=
  env? s == some e && ops.all (fun op => if e.single then singleAccepts op else !isPrivileged op)

theorem issues_of {ops : List Nat} {s : State} {e : Env} (h : issues ops s e = true) {op : Nat} (m : op ∈ ops) : Issues op s e := by
  simp only [issues, Bool.and_eq_true, beq_iff_eq, List.all_eq_true] at h
  have h2 := h.2 op m
  refine ⟨h.1, fun hs => by simpa [hs] using h2, fun hs => by simpa [hs] using h2⟩

theorem issues_user : issues ((List.range 13) ++ (List.range 29).map (· + 0x10) ++ (List.range 19).map (· + 0x30) ++ (List.range 6).map (· + 0x50)
    ++ (List.range 15).map (· + 0x60) ++ (List.range 7).map (· + 0x80) ++ (List.range 7).map (· + 0x90)) S E = true := by decide +kernel

theorem issues_handler : issues ((List.range 10).map (· + 0xA0) ++ [0x00, 0x10, 0x2A, 0x60, 0x61]) H EH = true := by decide +kernel

/-! ### What meets the hypotheses of the obligations -/

/-- An instruction may issue and its operand checks pass. -/
theorem ready_of {op : Nat} {s : State} {e : Env} {gd : Guard} {act : Mask} {ins : List Inp} {spans : List (Nat × Nat)} {preds : List Nat}
    (h : (issues [op] s e && operandFault e gd act ins spans preds == none) = true) : Issues op s e ∧ Clear e gd act ins spans preds := by
  simp only [Bool.and_eq_true, beq_iff_eq] at h
  exact ⟨issues_of h.1 (List.mem_singleton.mpr rfl), h.2⟩

theorem passes_of {s : State} {e : Env} {m : MHdr} {act : Mask} {kind : Nat} {nd : Need} {size : Nat → Nat} {align : Nat} {exact : Bool}
    {p : State → List LaneAt → Bool}
    (h : (match accessOf s e m act kind nd size align exact with | .inr (t, ls) => p t ls | .inl _ => false) = true) :
    ∃ s' ls, AccessPasses s e m act kind nd size align exact s' ls ∧ p s' ls = true := by
  split at h
  · rename_i t ls hx; exact ⟨t, ls, hx, h⟩
  · cases h

theorem target_of {s : State} {e : Env} {seg : Nat} {i : Int} (h : (checkTarget s e.view seg i).1 = .ok) :
    ∃ s', TargetOk s e seg i s' := ⟨(checkTarget s e.view seg i).2, by unfold TargetOk; rw [← h]⟩

theorem pair_of {α β : Type} {x : α × β} {a : α} (h : x.1 = a) : x = (a, x.2) := by cases x; cases h; rfl

theorem fst_of {α β : Type} {x : α × β} {a : α} (h : x.1 = a) : ∃ b, x = (a, b) := ⟨x.2, pair_of h⟩

theorem decode_of {w : BitVec 96} {i : Instr} (h : (decode w).toOption = some i) : decode w = .ok i := by
  revert h
  cases decode w <;> simp [Except.toOption]

theorem reject_of {w : BitVec 96} {r : Reject} (h : (match decode w with | .error x => x == r | .ok _ => false) = true) : decode w = .error r := by
  revert h
  cases decode w <;> simp

theorem witness_EncodingIsDecoded : let i : Instr := .add h0 .i32 false (.v 11) (.v 9) (.v 10)
    i.wf = true ∧ i.isEvent = false := by decide +kernel

theorem witness_DecodingIsUnambiguous : decode 0x1000_3805_8241_5FF0_0000_0000 = .ok (.add h0 .i32 false (.v 11) (.v 9) (.v 10)) :=
  decode_of (by decide +kernel)

theorem seeWrites_S : seeWrites S = S := by
  unfold seeWrites
  rw [env_user]
  rfl

/-- A group whose b3 another group of its team has written. -/
def lateState : State := { S with teams := S.teams.map (fun t => { t with late := [{ group := 0, reg := 3, val := 5 }] }) }

theorem witness_StepRunsTheDecodedInstruction : (env? (seeWrites S) = some E
    ∧ (∃ s', fetchWord (seeWrites S) E.view E.pc.seg E.pc.idx = (.word (bw 0x01 0 511 5 6), s'))
      ∧ decode (bw 0x01 0 511 5 6) = .ok (.bra g7 5 6))
    ∧ (env? S = some E ∧ E.t.late.any (fun x => x.group == E.g.index) = false)
    ∧ ((env? lateState).any (fun e => e.t.late.any (fun x => x.group == e.g.index) && e.t.seen e.g.index 3 == 5)) = true := by
  rw [seeWrites_S]
  exact ⟨⟨env_user, fst_of (by decide +kernel), decode_of (by decide +kernel)⟩, ⟨env_user, by decide +kernel⟩, by decide +kernel⟩

/-- The lowest and the highest unassigned opcode; and a word that is rejected as the next one fetched. -/
theorem witness_RejectedWordsTrap : opcodeOf (bw 0x0D 0 511 0 0) = 0x0D ∧ opcodeOf (BitVec.allOnes 96) = 0xFF
    ∧ (∃ e s', env? (seeWrites (State.reset.withFetchWord 96 (2 ^ 96 - 1))) = some e
      ∧ fetchWord (seeWrites (State.reset.withFetchWord 96 (2 ^ 96 - 1))) e.view e.pc.seg e.pc.idx
        = (.word (BitVec.allOnes 96), s'))
    ∧ ∃ r, decode (BitVec.allOnes 96) = .error r := by
  refine ⟨by decide +kernel, by decide +kernel, ?_, .opcode, reject_of (by decide +kernel)⟩
  let e : Env := { g := stageGroup 0 false, t := stageTeam 0, single := false, slices := List.range 8, live := 0xFFFFFFFF, pc := ⟨16, 0⟩ }
  have h : seeWrites (State.reset.withFetchWord 96 (2 ^ 96 - 1)) = State.reset.withFetchWord 96 (2 ^ 96 - 1) := by decide +kernel
  rw [h]
  exact ⟨e, (fetchWord (State.reset.withFetchWord 96 (2 ^ 96 - 1)) e.view 16 0).2, by decide +kernel, pair_of (by decide +kernel)⟩

theorem witness_GuardSevenIsNeverNegated : (∃ w : BitVec 96, w.extractLsb' 75 3 = 7 ∧ w.extractLsb' 74 1 = 1)
    ∧ ∃ w : BitVec 96, opcodeOf w = 0x07 ∧ w ≠ 0 ∧ ¬(w.extractLsb' 75 3 = 7 ∧ w.extractLsb' 74 1 = 0) :=
  ⟨⟨BitVec.allOnes 96, by decide +kernel⟩, ⟨0x07 <<< 88, by decide +kernel⟩⟩

theorem witness_IssueFrame : tGroup.place = E.g.place := rfl

/-- A vector instruction of every fixed-latency opcode; scalar issue to a b register; a guard that no lane holds. -/
theorem witness_fixedLatency : (∀ op ∈ (List.range 29).map (· + 0x10) ++ (List.range 19).map (· + 0x30) ++ [0x50, 0x53, 0x54, 0x55], Issues op S E)
    ∧ Clear E g7 (E.acts h0) [inX 32 (.v 0), inX 64 (.v 2), inX 32 .lane, inX 128 (.v 4)] (dstSpan (.v 376) 128).toList [1]
    ∧ writerOk E (.v 376) 128 = true
    ∧ Clear E g7 (E.acts ⟨g7, true, 0⟩) [inX 64 (.s 0), inX 32 (.b 0)] (dstSpan (.b 62) 64).toList [] ∧ writerOk E (.b 62) 64 = true
    ∧ Clear E ⟨0, false⟩ (E.acts ⟨⟨0, false⟩, false, 0⟩) [inX 32 (.c 0)] (dstSpan (.v 0) 32).toList [] ∧ E.acts ⟨⟨0, false⟩, false, 0⟩ = 0 := by
  refine ⟨fun op h => issues_of (ops := (List.range 29).map (· + 0x10) ++ (List.range 19).map (· + 0x30) ++ [0x50, 0x53, 0x54, 0x55])
    (by decide +kernel) h, ?_, ?_, ?_, ?_, ?_, ?_⟩ <;> first | decide +kernel | (unfold Clear; decide +kernel)

theorem witness_IntegerResults : 3 < IntTy.count .i8x4 ∧ 0 < IntTy.count .i64 ∧ 1 ≤ (1 : Nat) := by decide +kernel

theorem witness_BitInstructions : (0 : Nat) < 32 ∧ 31 < 32 ∧ 2 ^ 32 - 1 < 2 ^ 32 ∧ 31 < 32 := by decide

theorem witness_ClassDotAndConversion : 2 ^ 16 - 1 < 2 ^ Fmt.f16.width ∧ 2 ^ 64 - 1 < 2 ^ Fmt.f64.width := by decide +kernel

/-- shfl, the comparisons and the voting predicates. -/
theorem witness_LaneInstructions : (Issues 0x52 S E ∧ Clear E g7 (E.active g7) [inX 64 (.v 0), inX 32 (.v 2)] (dstSpan (.v 4) 64).toList [7])
    ∧ (Issues 0x27 S E ∧ Clear E g7 (E.active g7) [inX 64 (.v 0), inX 64 .zero] [] [6, 1])
    ∧ (Issues 0x36 S E ∧ Clear E g7 (E.active g7) [inX 32 (.v 0), inX 32 (.s 0)] [] [0])
    ∧ (Issues 0x53 S E ∧ Clear E ⟨1, false⟩ (E.active ⟨1, false⟩) [inX 32 (.v 0)] [] [7]) :=
  ⟨ready_of (by decide +kernel), ready_of (by decide +kernel), ready_of (by decide +kernel), ready_of (by decide +kernel)⟩

/-- lea.seg of a good segment, lea.chk, smov to %crew, and reads at both widths. -/
theorem witness_AddressesAndSpecialRegisters :
    (Issues 0x29 S E ∧ Clear E g7 (E.active g7) [in32 h0 .imm] [] [])
    ∧ lowestLane (E.active g7) = some 0 ∧ (∃ d s', governing (popIssue S) E.view 17 = (.ok d, s'))
    ∧ (Issues 0x29 S E ∧ Clear E g7 (E.active g7) [in64 h0 (.s 0), in32 h0 (.s 5)] [] [2])
    ∧ (∃ ls s', leaChkLanes E h0 (.s 0) (.s 5) (lanesOf (E.active g7)) (popIssue S) = (.inl ls, s'))
    ∧ (Issues 0x2B S E ∧ Clear E g7 (E.active g7) [inX 64 (.s 0)] [] []) ∧ (Issues 0x2B S E ∧ Clear E g7 (E.active g7) [] (dstSpan (.v 2) 64).toList []) := by
  refine ⟨ready_of (by decide +kernel), by decide +kernel, ?_, ready_of (by decide +kernel), ?_, ready_of (by decide +kernel), ready_of (by decide +kernel)⟩
  · exact ⟨stageDesc 0 31 0x20000 0x10000, fst_of (by decide +kernel)⟩
  · exact ⟨List.range 32, fst_of (by decide +kernel)⟩

/-- A group with one block, an unwaited v0, and b3 written by another group. -/
def smallGroup : Group :=
  { tGroup with main := { tGroup.main with frame := Frame.fresh [false], unw := [⟨.ld, 0, 0, 0, 1, false⟩] } }

def takenTeam : Team := { tTeam with bwriter := [(3, 2)] }

/-- v16 of a frame of one block, an invalid age, an unwaited register, and a b register that group 1 has written. -/
theorem witness_FailedOperandsTrap : Issues 0x10 (tState smallGroup) (tEnv smallGroup)
    ∧ operandFault (tEnv smallGroup) g7 0xFFFFFFFF (ins2 h0 .i32 (.v 16) (.v 1)) (dstSpan (.v 2) 32).toList [] = some { cause := 0x02, lanes := 0xFFFFFFFF }
    ∧ (tEnv smallGroup).g.ctx.inFrame 16 1 = false ∧ (tEnv smallGroup).g.ctx.inFrame 15 1 = true
    ∧ badAges E 3 (inX 32 (.c 0)) = 3 ∧ smallGroup.unwaited 0 1 = true ∧ smallGroup.unwaitedPred 7 = false
    ∧ (let s : State := { S with teams := [takenTeam] }
       let e : Env := { E with t := takenTeam }
       Issues 0x2A s e ∧ Clear e g7 (e.acts h0) [in32 h0 .zero] [] [] ∧ e.acts h0 ≠ 0
        ∧ tabGet e.t.bwriter 3 ≠ 0 ∧ (tabGet e.t.bwriter 3).toNat ≠ e.g.index + 1) := by
  refine ⟨issues_of (ops := [0x10]) (by decide +kernel) (by decide), by decide +kernel, by decide +kernel, by decide +kernel, by decide +kernel,
    by decide +kernel, by decide +kernel, issues_of (ops := [0x2A]) (by decide +kernel) (by decide), ?_, by decide +kernel⟩
  unfold Clear; decide +kernel

theorem witness_NothingToDo : (∀ op ∈ [0x00, 0x01, 0x0A, 0x0C, 0x91, 0x64], Issues op S E) ∧ E.active ⟨0, false⟩ = 0 ∧ Clear E ⟨0, false⟩ 0 [] [] [] := by
  refine ⟨fun op h => issues_of (by decide +kernel) h, by decide +kernel, ?_⟩
  unfold Clear; decide +kernel

/-- A branch of all lanes, of lanes 0 and 1, and brx of lanes that stay. -/
theorem witness_BranchesComplete : (Issues 0x01 S E ∧ Clear E g7 (E.active g7) [] [] []) ∧ E.active g7 = E.live ∧ (∃ s', TargetOk (popIssue S) E 16 6 s')
    ∧ (Issues 0x01 S E ∧ Clear E ⟨1, false⟩ (E.active ⟨1, false⟩) [] [] []) ∧ E.active ⟨1, false⟩ = 3
    ∧ (Issues 0x02 S E ∧ Clear E g7 (E.active g7) [inX 32 (.v 0)] [] [])
    ∧ (∃ s', brxBad E 0 (lanesOf (E.active g7)) (popIssue S) = (.inl [], s')) :=
  ⟨ready_of (by decide +kernel), by decide +kernel, target_of (by decide +kernel), ready_of (by decide +kernel), by decide +kernel,
    ready_of (by decide +kernel), fst_of (by decide +kernel)⟩

/-- A plan that parts the lanes of slice 0, with the regang at index 5; without it, and with an index that holds no regang. -/
def tPlan (k : Nat) : Plan := if k = 0 then [(1, 12), (6, 3)] else [(1, 15)]

theorem witness_DivergenceIsRecorded : (∃ s', BranchFits S E 5 tPlan s') ∧ (∀ k ∈ E.slices, tPlan k ≠ []) ∧ splits E tPlan = true
    ∧ ∃ s1, isRegang S E (E.pc.at (sint 18 6)) = (false, s1) := by
  refine ⟨⟨(isRegang S E 5).2, ⟨⟨(isRegang S E 5).2, ?_, 1, by decide +kernel, by decide, (isRegang S E 5).2, rfl, by decide +kernel⟩⟩⟩, by decide +kernel, by decide +kernel,
    fst_of (by decide +kernel)⟩
  rw [if_pos (by decide +kernel)]
  exact ⟨by decide, pair_of (by decide +kernel)⟩

/-- A group with an operation outstanding, and one whose slices have parted. -/
def busyGroup : Group :=
  tGroup.addOp .st .store [wholeAcc { lane := 0, ptr := segPtr 17 0, locs := [(.phys 0x20000, 4)] } 4 7 0] .weak .group ⟨16, 0⟩ []

theorem witness_RegangCompletes : Issues 0x07 S E ∧ E.g.lanesDone E.slices = true ∧ E.g.join = none
    ∧ Issues 0x07 (tState busyGroup) (tEnv busyGroup) ∧ busyGroup.lanesDone (List.range 8) = false
    ∧ (let g : Group := { tGroup with join := some { pc := ⟨16, 5⟩, count := 2 } }
       g.join = some { pc := ⟨16, 5⟩, count := 2 } ∧ (1 : Nat) < 2 ∧ 2 ≤ (2 : Nat)) :=
  ⟨issues_of (ops := [0x07]) (by decide +kernel) (by decide), by decide +kernel, rfl,
    issues_of (ops := [0x07]) (by decide +kernel) (by decide), by decide +kernel, rfl, by decide, by decide⟩

/-- In a handler, regang needs the handler's own operations done. -/
theorem witness_RegangCompletes_handler : Issues 0x07 H EH ∧ EH.single = true ∧ EH.g.lanesDone [0] = true :=
  ⟨issues_of (ops := [0x07]) (by decide +kernel) (by decide), rfl, by decide +kernel⟩

theorem allLanes_of {e : Env} {gd : Guard} {ins : List Inp}
    (h : (e.active gd == e.live && e.live != 0 && operandFault e gd (lowMask e.live) ins [] [] == none) = true) : AllLanes e gd ins := by
  simp only [Bool.and_eq_true, beq_iff_eq, bne_iff_ne] at h
  exact ⟨h.1.1, h.1.2, h.2⟩

/-- The group after a call: one call record, a frame of one block. -/
def calledGroup : Group := tGroup.callNow (List.range 8) ⟨16, 0⟩ ⟨16, 0⟩ [false] (tGroup.capture (List.range 8))

/-- Its callee, with the caller's frame spilled. -/
def spilledGroup : Group := { calledGroup with calls := calledGroup.calls.map (fun c => { c with frame := { c.frame with spilled := true } }) }

/-- call with 1 and with 24 blocks, calli through a frame-table entry of two, ret to a frame on chip and to a spilled
one, unwind to depth 0. -/
theorem witness_CallsAndReturnsComplete :
    (E.g.calls.length < 255 ∧ Issues 0x03 S E ∧ AllLanes E g7 [] ∧ (∃ s1, TargetOk (popIssue S) E 16 6 s1
      ∧ ∃ s2, callFits s1 E.g E.t.ctx = (.inl true, s2)))
    ∧ (Issues 0x04 S E ∧ AllLanes E g7 [inX 64 (.s 3)] ∧ (∃ d s1, governing (popIssue S) E.view 16 = (.ok d, s1) ∧ dKind d = 1 ∧ bitOf d 130 = true
      ∧ ∃ s2, TargetOk s1 E 16 6 s2 ∧ ∃ s3, frameDemand s2 E.view d 6 = (.inl (some 2), s3) ∧ ∃ s4, callFits s3 E.g E.t.ctx = (.inl true, s4)))
    ∧ (Issues 0x05 (tState calledGroup) (tEnv calledGroup) ∧ AllLanes (tEnv calledGroup) g7 []
      ∧ ∃ c rest, calledGroup.calls = c :: rest ∧ retAllowed (tEnv calledGroup) c = true ∧ c.frame.spilled = false)
    ∧ (Issues 0x05 (tState spilledGroup) (tEnv spilledGroup)
      ∧ ∃ c rest, spilledGroup.calls = c :: rest ∧ retAllowed (tEnv spilledGroup) c = true ∧ c.frame.spilled = true)
    ∧ (Issues 0x06 (tState calledGroup) (tEnv calledGroup) ∧ AllLanes (tEnv calledGroup) g7 [inX 32 .zero] ∧ 0 ≤ calledGroup.calls.length
      ∧ ∃ s', TargetOk (popIssue (tState calledGroup)) (tEnv calledGroup) 16 6 s') := by
  refine ⟨⟨by decide +kernel, issues_of (ops := [0x03]) (by decide +kernel) (by decide), allLanes_of (by decide +kernel),
      (checkTarget (popIssue S) E.view 16 6).2, by unfold TargetOk; exact pair_of (by decide +kernel), _, pair_of (by decide +kernel)⟩,
    ⟨issues_of (ops := [0x04]) (by decide +kernel) (by decide), allLanes_of (by decide +kernel),
      stageDesc 1 5 0x10000 256 + 4 * 2 ^ 224, (governing (popIssue S) E.view 16).2, pair_of (by decide +kernel), by decide +kernel, by decide +kernel,
      (checkTarget (governing (popIssue S) E.view 16).2 E.view 16 6).2, by unfold TargetOk; exact pair_of (by decide +kernel),
      (frameDemand (checkTarget (governing (popIssue S) E.view 16).2 E.view 16 6).2 E.view (stageDesc 1 5 0x10000 256 + 4 * 2 ^ 224) 6).2,
      pair_of (by decide +kernel), _, pair_of (by decide +kernel)⟩,
    ⟨issues_of (ops := [0x05]) (by decide +kernel) (by decide), allLanes_of (by decide +kernel), _, _, rfl, by decide +kernel, by decide +kernel⟩,
    ⟨issues_of (ops := [0x05]) (by decide +kernel) (by decide), _, _, rfl, by decide +kernel, by decide +kernel⟩,
    ⟨issues_of (ops := [0x06]) (by decide +kernel) (by decide), allLanes_of (by decide +kernel), by decide, target_of (by decide +kernel)⟩⟩

theorem witness_CallsKeepTheCaller : tGroup.onChip < 4 ∧ tGroup.handler = none ∧ tGroup.slices.length = 8 ∧ (List.range 8).Nodup
    ∧ (∀ k ∈ List.range 8, ∃ sl, tGroup.slices[k]? = some sl ∧ sl.ready = true) ∧ (∀ sl ∈ tGroup.slices, sl.held = none) := by
  refine ⟨by decide +kernel, rfl, by decide +kernel, by decide +kernel, fun k hk => ?_, by decide +kernel⟩
  exact ⟨{ pc := ⟨16, 0⟩, run := 15, stack := [], arrived := false, held := none }, by revert k; decide +kernel, by decide +kernel⟩

/-- exit of lanes 0 and 1, and of all lanes. -/
theorem witness_ExitsComplete : (Issues 0x08 S E ∧ Clear E ⟨1, false⟩ (E.active ⟨1, false⟩) [] [] []) ∧ E.single = false
    ∧ (∀ k ∈ E.slices, sliceLanes (E.live &&& ~~~(E.active ⟨1, false⟩)) k ≠ 0)
    ∧ (Issues 0x08 S E ∧ Clear E g7 (E.active g7) [] [] []) ∧ E.active g7 = E.live ∧ (∀ sl ∈ E.g.slices, sl.live = true ∧ sl.stack = []) :=
  ⟨ready_of (by decide +kernel), rfl, by decide +kernel, ready_of (by decide +kernel), by decide +kernel, by decide +kernel⟩

/-- trap and brk with active lanes and without; assert of p7, which holds, and of p1, whose lowest failing lane is 2. -/
theorem witness_TrapInstructionsComplete : (Issues 0x0A S E ∧ Clear E g7 (E.active g7) [] [] []) ∧ (Issues 0x0C S E ∧ Clear E g7 (E.active g7) [] [] [])
    ∧ E.active g7 ≠ 0 ∧ E.active ⟨0, false⟩ = 0 ∧ Clear E ⟨0, false⟩ 0 [] [] [] ∧ E.g.slices.length = 8
    ∧ (Issues 0x0B S E ∧ Clear E g7 (E.active g7) [] [] [7]) ∧ (∀ l ∈ lanesOf (E.active g7), E.g.ctx.predAt 7 l = true)
    ∧ (lanesOf (E.active g7)).find? (fun l => !E.g.ctx.predAt 1 l) = some 2 := by
  refine ⟨ready_of (by decide +kernel), ready_of (by decide +kernel), by decide +kernel, by decide +kernel, ?_, by decide +kernel,
    ready_of (by decide +kernel), by decide +kernel, by decide +kernel⟩
  unfold Clear; decide +kernel

theorem issue_of {op : Nat} {s : State} {e : Env} (h : issues [op] s e = true) : Issues op s e := issues_of h (List.mem_singleton.mpr rfl)

/-- A trap with reserve blocks free and an entry for its cause; and one in a partition where another group waits for a
handler. -/
theorem witness_TrapEntry : E.single = false ∧ groupAt S E.g.place = some tGroup ∧ handlerFree (crewsLose S 1 0 false) E.g.place = true
    ∧ (inPart (crewsLose S 1 0 false) E.g.place).any Group.waitsHandler = false
    ∧ (∃ s2, handlerPc (setGroup (crewsLose S 1 0 false) (trapped E { cause := 0x1C, lanes := 1 })) E.t (trapped E { cause := 0x1C, lanes := 1 }) 0x1C
        = (some ⟨16, 6⟩, s2))
    ∧ (let s := { S with groups := [tGroup, { tGroup with place := ⟨0, 0, 0, 1⟩, index := 1, wait := some (handlerWait S) }] }
       (inPart (crewsLose s 1 0 false) E.g.place).any Group.waitsHandler = true) :=
  ⟨rfl, by decide +kernel, by decide +kernel, by decide +kernel, fst_of (by decide +kernel), by decide +kernel⟩

theorem witness_TrapInAHandlerIsADoubleFault : EH.single = true := rfl

/-- A system opcode outside the handler, and an opcode that a handler may not use. -/
theorem witness_PrivilegeIsChecked : (encode (.sret g7)).isSome = true ∧ env? S = some E ∧ E.single = false ∧ isPrivileged 0xA0 = true
    ∧ isPrivileged 0xA9 = true ∧ (encode (.exit g7)).isSome = true ∧ env? H = some EH ∧ EH.single = true ∧ singleAccepts 0x08 = false :=
  ⟨by decide +kernel, env_user, rfl, by decide +kernel, by decide +kernel, by decide +kernel, env_handler, rfl, by decide +kernel⟩

/-- Two lanes: the guard p1. -/
def g1 : Guard := ⟨1, false⟩
def mp (addr : MAddr) (a : Option Src) (ord : Ord) (scope : Scope) : MHdr := ⟨g1, addr, a, ord, scope, 0⟩

/-- A group with 63 operations of a class. -/
def fullGroup (c : Cls) : Group :=
  { tGroup with main := { tGroup.main with ops := (List.range 63).map (fun k =>
      { id := k, cls := c, seq := k, depth := 0, body := .store, accs := [], ord := .weak, scope := .group, pc := ⟨16, 0⟩, done := false, fail := none }) } }

/-- A group that fills its partition's request queue. -/
def fullQueue : Group :=
  let a : Acc := { lane := 0, off := 0, loc := .smem 0, size := 4, val := 0, exp := 0, done := false, posted := false, ptr := 0 }
  let o : Op := { id := 0, cls := .st, seq := 0, depth := 0, body := .store, accs := [a], ord := .weak, scope := .group, pc := ⟨16, 0⟩, done := false,
                  fail := none }
  { tGroup with main := { tGroup.main with ops := List.replicate 128 o } }

/-- A weak load and store at segment 17, an ordered one aligned to 8; a full class. -/
theorem witness_LoadsAndStoresIssue :
    (Issues 0x60 S E ∧ Clear E g1 (E.active g1) (addrInp (mp (.sel 0 0) (some (.s 0)) .weak .group)) [(8, 2)] [])
    ∧ memStalls (popIssue S) E .ld = false
    ∧ (∃ s' ls, AccessPasses (popIssue S) E (mp (.sel 0 0) (some (.s 0)) .weak .group) (E.active g1) 0 .load (fun _ => 8) 1 false s' ls ∧ true = true)
    ∧ (∃ s' ls, AccessPasses (popIssue S) E (mp (.sel 0 0xFFF8) (some (.s 0)) .acqrel .device) (E.active g1) 0 .load (fun _ => 8) 8 false s' ls ∧ true = true)
    ∧ (Issues 0x61 S E ∧ Clear E g1 (E.active g1) (inX 64 (.v 4) :: addrInp (mp (.sel 1 8) (some .zero) .weak .group)) [] [])
    ∧ memStalls (popIssue S) E .st = false
    ∧ (∃ s' ls, AccessPasses (popIssue S) E (mp (.sel 1 8) (some .zero) .weak .group) (E.active g1) 1 .store (fun _ => 8) 1 false s' ls ∧ true = true)
    ∧ memStalls (tState (fullGroup .ld)) (tEnv (fullGroup .ld)) .ld = true ∧ memStalls (tState (fullGroup .st)) (tEnv (fullGroup .st)) .st = true ∧ Issues 0x60 (tState (fullGroup .ld)) (tEnv (fullGroup .ld)) := by
  refine ⟨ready_of (by decide +kernel), by decide +kernel, passes_of (p := fun _ _ => true) (by decide +kernel), passes_of (p := fun _ _ => true) (by decide +kernel),
    ready_of (by decide +kernel), by decide +kernel, passes_of (p := fun _ _ => true) (by decide +kernel), by decide +kernel, by decide +kernel, issue_of (by decide +kernel)⟩

/-- pf, touch of 4 bytes, a fence with everything performed and with a store outstanding, cctl. -/
theorem witness_HintsAndFencesComplete :
    (Issues 0x62 S E ∧ Clear E g1 (E.active g1) (addrInp (mp (.sel 1 0) none .weak .group)) [] []) ∧ E.active g1 ≠ 0
    ∧ (∃ s', rangeLanes E (mp (.sel 1 0) none .weak .group) 0 .load (fun _ => 1) 1 (lanesOf (E.active g1)) (popIssue S)
        = ([(0, 17, 0, .inr (stageDesc 0 31 0x20000 0x10000)), (1, 17, 0, .inr (stageDesc 0 31 0x20000 0x10000))], s'))
    ∧ (Issues 0x63 S E ∧ Clear E g1 (E.active g1) (inX 32 (.s 5) :: addrInp (mp (.sel 1 0) none .weak .group)) [] [])
    ∧ (∃ s' ls, AccessPasses (popIssue S) E (mp (.sel 1 0) none .weak .group) (E.active g1) 3 .load (fun l => readInp E (inX 32 (.s 5)) l) 1 true s' ls ∧ true = true)
    ∧ (Issues 0x64 S E ∧ Clear E g7 (E.active g7) [] [] []) ∧ E.active g7 ≠ 0 ∧ E.g.performed (fun _ => true) .group = true
    ∧ E.g.performed (fun o => o.cls == .ld) .group = true ∧ busyGroup.performed (fun _ => true) .group = false
    ∧ requestsFull (popIssue S) E.g.place = false ∧ memStalls (popIssue S) E .ld = false ∧ memStalls (popIssue S) E .st = false
    ∧ (Issues 0x65 S E ∧ Clear E g1 (E.active g1) (addrInp (mp (.sel 1 0) none .weak .device)) [] [])
    ∧ (∃ s' ls, AccessPasses (popIssue S) E (mp (.sel 1 0) none .weak .device) (E.active g1) 0 .load (fun _ => 1) 1 false s' ls ∧ true = true) := by
  refine ⟨ready_of (by decide +kernel), by decide +kernel, fst_of (by decide +kernel), ready_of (by decide +kernel), passes_of (p := fun _ _ => true) (by decide +kernel),
    ready_of (by decide +kernel), by decide +kernel, by decide +kernel, by decide +kernel, by decide +kernel, by decide +kernel, by decide +kernel,
    by decide +kernel, ready_of (by decide +kernel), passes_of (p := fun _ _ => true) (by decide +kernel)⟩

/-- atom, red with room for its lines, cas, cpadd with and without a result, the shutter operations; spred through the
object at s4. -/
theorem witness_AtomicsIssue :
    (Issues 0x69 S E ∧ Clear E g1 (E.active g1) (inX 32 (.v 1) :: addrInp (mp (.sel 1 8) none .rlx .device)) [(5, 1)] []) ∧ memStalls (popIssue S) E .ld = false
    ∧ captureFull (popIssue S) E.t = false
    ∧ (∃ s' ls, AccessPasses (popIssue S) E (mp (.sel 1 8) none .rlx .device) (E.active g1) 2 .atomic (fun _ => 4) 4 false s' ls
        ∧ decide (postedIn s' E.g.place + ls.length ≤ 256) = true)
    ∧ (Issues 0x6A S E ∧ Clear E g1 (E.active g1) (inX 32 (.v 1) :: addrInp (mp (.sel 1 8) none .rlx .device)) [] []) ∧ memStalls (popIssue S) E .st = false
    ∧ (Issues 0x6B S E ∧ Clear E g1 (E.active g1) (inX 128 (.v 4) :: inX 128 .zero :: addrInp (mp (.sel 1 16) none .rlx .device)) [(8, 4)] [])
    ∧ (∃ s' ls, AccessPasses (popIssue S) E (mp (.sel 1 16) none .rlx .device) (E.active g1) 2 .atomic (fun _ => 16) 16 false s' ls ∧ true = true)
    ∧ (Issues 0x6C S E ∧ Clear E g1 (E.active g1) (⟨.v 4, 64, 0⟩ :: addrInp (mp (.sel 1 16) none .rlx .device)) [(8, 4)] [])
    ∧ (Issues 0x66 S E ∧ Clear E g1 (E.active g1) (inX 64 (.v 4) :: addrInp (mp (.sel 1 8) none .weak .group)) [] [4])
    ∧ (Issues 0x67 S E ∧ Clear E g1 (E.active g1) (inX 64 .zero :: addrInp (mp (.sel 1 8) none .weak .group)) [] [4])
    ∧ (Issues 0x68 S E ∧ Clear E g1 (E.active g1) (inX 64 .zero :: addrInp (mp (.sel 1 8) none .weak .group)) [] [])
    ∧ (∃ s' ls, AccessPasses (popIssue S) E (mp (.sel 1 8) none .weak .group) (E.active g1) 1 .shutter (fun _ => 8) 8 false s' ls ∧ true = true) := by
  refine ⟨ready_of (by decide +kernel), by decide +kernel, by decide +kernel, passes_of (p := fun s' ls => decide (postedIn s' E.g.place + ls.length ≤ 256))
      (by decide +kernel), ready_of (by decide +kernel), by decide +kernel, ready_of (by decide +kernel), passes_of (p := fun _ _ => true) (by decide +kernel),
    ready_of (by decide +kernel), ready_of (by decide +kernel), ready_of (by decide +kernel), ready_of (by decide +kernel), passes_of (p := fun _ _ => true) (by decide +kernel)⟩

/-- The elements of spred: index 1 below the object's count of 16; the records of a red in the overflow area. -/
theorem witness_AtomicsIssue_spred : (Issues 0x6E S E ∧ Clear E g1 (E.active g1) (inX 32 (.s 5) :: inX 32 (.v 1) :: addrInp (mp (.sel 0 0) (some (.s 4)) .rlx .device)) [] [])
    ∧ (∃ s' ls, AccessPasses (popIssue S) E (mp (.sel 0 0) (some (.s 4)) .rlx .device) (E.active g1) 2 .load (fun _ => 32) 32 false s' ls
        ∧ (ls.all (fun x => decide (x.lane < 32)) && match spredObjects s' E ls with
          | .inr (s2, os) => (match spredAccs s2 E (mp (.sel 0 0) (some (.s 4)) .rlx .device) (.s 5) (.v 1) os with
            | .inr (_, accs) => decide (os.map (·.1) = [0, 1] ∧ accs.length = 2)
            | .inl _ => false)
          | .inl _ => false) = true)
    ∧ (areaPuts E.g.place E.t.ctx 7 32 [(0x400, 5)] (popIssue S)).1 = none := by
  refine ⟨ready_of (by decide +kernel), passes_of (p := fun s' ls => ls.all (fun x => decide (x.lane < 32)) && match spredObjects s' E ls with
    | .inr (s2, os) => (match spredAccs s2 E (mp (.sel 0 0) (some (.s 4)) .rlx .device) (.s 5) (.v 1) os with
      | .inr (_, accs) => decide (os.map (·.1) = [0, 1] ∧ accs.length = 2)
      | .inl _ => false)
    | .inl _ => false) (by decide +kernel), by decide +kernel⟩

/-- The lanes of a waitv on zero after one evaluation. -/
def waitOf (c : WaitCmp) (ls : List LaneAt) (s : State) : List WaitLane :=
  (waitvLanes E.actor (E.g.fence E.slices).ctx.ops { rel := false, sc := false, scope := .team } c 4 (ls.map (fun x =>
    { lane := x.lane, ptr := x.ptr, loc := (wholeAcc x 4 0 0).loc, val := readInp E (inX 32 .zero) x.lane, sat := false })) s).1

/-- waitv with no lane, with lanes that find 0 equal to 0, and with lanes that do not; with a full queue; a word that
fails. -/
theorem witness_WordWaitsComplete : Issues 0x6D S E ∧ E.active ⟨0, false⟩ = 0 ∧ requestsFull (popIssue S) E.g.place = false
    ∧ Clear E g1 (E.active g1) (inX 32 .zero :: addrInp (mp (.sel 1 0) none .acqrel .team)) [] [] ∧ E.active g1 ≠ 0
    ∧ (∃ s' ls, AccessPasses (popIssue S) E (mp (.sel 1 0) none .acqrel .team) (E.active g1) 0 .load (fun _ => 4) 4 false s' ls
        ∧ (dataErrors s' ls == 0 && (waitOf .eq ls s').all (fun x => x.sat) && !(waitOf .ne ls s').all (fun x => x.sat)) = true)
    ∧ requestsFull (tState fullQueue) fullQueue.place = true
    ∧ dataErrors S [{ lane := 0, ptr := 0, locs := [(.phys (2 ^ 51), 4)] }] ≠ 0 := by
  refine ⟨issue_of (by decide +kernel), by decide +kernel, by decide +kernel, by unfold Clear; decide +kernel, by decide +kernel, passes_of (p := fun s' ls =>
    dataErrors s' ls == 0 && (waitOf .eq ls s').all (fun x => x.sat) && !(waitOf .ne ls s').all (fun x => x.sat)) (by decide +kernel),
    by decide +kernel, by decide +kernel⟩

theorem S_inv : S.inv = true := by decide +kernel
theorem S_quiet : S.aliasQuiet = true := by decide +kernel

theorem witness_StoredBytesReadBack : S.inv = true ∧ S.aliasQuiet = true ∧ 2 ^ 51 - 8 + 8 ≤ 2 ^ 51 ∧ (teamOf S 1).isSome = true := ⟨S_inv, S_quiet, by decide, by decide +kernel⟩

theorem witness_LoadsAndAtomicsAccessBytes : S.inv = true ∧ S.aliasQuiet = true ∧ (0x20000 + 4 - 1) / 128 = 0x20000 / 128 ∧ 0x20000 + 4 ≤ 2 ^ 51 ∧ 2 ^ 32 - 1 < 2 ^ IntTy.width .n32
    ∧ IntTy.count .n32 = 1 ∧ IntTy.ew .n32 = IntTy.width .n32 := ⟨S_inv, S_quiet, by decide, by decide, by decide +kernel, by decide +kernel, by decide +kernel⟩

/-- A group of a crew of members 0 and 1. -/
def crewGroup : Group := { tGroup with crew := BitVec.ofNat 64 (2 + 0 * 2 ^ 3 + 1 * 2 ^ 8) }

def tMat : MatF :=
  { guard := g7, tya := .f16, tyc := .f32, ru := false, acc := false, sat := false, a := 16, b := 32, c := 0, n := 0, low := 0 }

/-- A latch entry of the crew. -/
def tCrew (st : CrewSt) (i : Instr) : Crew :=
  { id := 1, die := 0, cluster := 0, team := 1, crew := crewGroup.crew, word := latchWord i, st := st, members := [], since := 0, order := 0,
    fromKept := false, dropKept := false }

/-- A member that passes every check; no entry with room, no entry with none, a matching entry and the three that do not
match. -/
theorem witness_MatrixInstructionsArrive :
    (let s := tState crewGroup
     let e := tEnv crewGroup
     let r := e.g.main
     let rs := matRanges tMat (fld e.g.crew.toNat 0 3)
     (∀ op ∈ [0x80, 0x81, 0x82], Issues op s e)
      ∧ crewOk e.g.crew.toNat e.t.ngroups e.g.index = true ∧ r.inFrame tMat.a.val 16 = true ∧ tMat.a.val < 384
      ∧ e.g.unwaitedPred tMat.guard.pred.val = false ∧ e.g.unwaited tMat.a.val 16 = false
      ∧ rs.1.1 + rs.1.2 ≤ e.t.tileG * 4096 ∧ rs.2.1 + rs.2.2 ≤ e.t.tileG * 4096 ∧ TRange.meets rs.1 rs.2 = false
      ∧ e.g.full .mat = false
      ∧ r.inFrame 40 1 = true ∧ e.g.unwaited 40 1 = false ∧ tMat.low.toNat < 384 ∧ r.inFrame tMat.low.toNat (tMat.n.val + 1) = true
      ∧ e.g.unwaited tMat.low.toNat (tMat.n.val + 1) = false
      ∧ heldEntries s e.g.place.die e.t.cluster < 32 ∧ 2 ≤ fld e.g.crew.toNat 0 3)
    ∧ 32 ≤ heldEntries { S with crews := List.replicate 32 { tCrew .kept (.mma tMat) with team := 7 } } 0 0
    ∧ (tCrew .gathering (.mma tMat)).lists 1 0 = true
    ∧ (tCrew (.tombstone [0]) (.mma tMat)).st ≠ .gathering ∧ { tCrew .gathering (.mma tMat) with crew := 7 }.crew ≠ crewGroup.crew
    ∧ (tCrew .gathering (.mma { tMat with acc := true })).word ≠ latchWord (.mma tMat) := by
  refine ⟨⟨fun op h => issues_of (by decide +kernel) h, ?_⟩, ?_⟩ <;> decide +kernel

/-- tld and tst at the end of the frame, tzero up to the end of the team's tile store, tcvt. -/
theorem witness_TileInstructionsIssue : (∀ op ∈ [0x83, 0x84, 0x85, 0x86], Issues op S E) ∧ E.g.full .mat = false
    ∧ E.g.main.inFrame 352 32 = true ∧ Clear E g7 (E.active g7) [] [(352, 32)] [] ∧ 0 * 256 + 128 * 32 ≤ E.t.tileG * 4096
    ∧ Clear E g7 (E.active g7) [] [] [] ∧ 0 * 256 + 64 * 256 ≤ E.t.tileG * 4096 ∧ 32 * 32 * AccTy.f64.size ≤ E.t.tileG * 4096 := by
  refine ⟨fun op h => issues_of (by decide +kernel) h, by decide +kernel, by decide +kernel, ?_, by decide +kernel, ?_, by decide +kernel, by decide +kernel⟩
    <;> (unfold Clear; decide +kernel)

/-! #### Copies, counters, barriers, queues, frames -/

/-- A copy whose record and ranges pass, evaluated. -/
theorem copies_of {s : State} {e : Env} {l : Nat} {kind : CopyKind} {a b c : Nat} {p : State → Nat → Bool}
    (h : (match checkedCopy s e l kind a b c with | .inr (s', r) => p s' r | .inl _ => false) = true) :
    ∃ s' r, CopyPasses s e l kind a b c s' r ∧ p s' r = true := by
  split at h
  · rename_i s' r hx; exact ⟨s', r, hx, h⟩
  · cases h

/-- Lane 0. -/
def lane0 : Mask := maskOf (fun j => j == 0)

/-- Every kind with its record: count 0 and 1, strided rows, an index list, a combine, metadata in segment 4; engines
with room, and eight full queues; a continuation. -/
theorem witness_CopiesIssue : Issues 0x90 S E ∧ lowestLane (E.active g7) = some 0
    ∧ (∀ k ∈ [CopyKind.linear, .strided2, .strided3, .gather, .scatter, .fill, .combine, .metaq],
        Clear E g7 (lowMask (E.active g7)) [inX 64 (.s 0), inX k.widths.1 (.s 5), inX k.widths.2 (.s 5)] [] [])
    ∧ E.g.full .copy = false ∧ (fullGroup .copy).full .copy = true ∧ E.active ⟨0, false⟩ = 0
    ∧ (∃ s' r, CopyPasses (popIssue S) E 0 .linear (segPtr 17 0) (segPtr 1 0) 1 s' r ∧
        (pickEngine (s'.dies.getD 0 Die.reset) == some 0 && (checkTarget s' E.view 16 1).1 == .ok
          && (checkTarget s' E.view 16 1).2.dies == s'.dies && (checkTarget s' E.view 16 1).2.clock == s'.clock) = true)
    ∧ (∃ s' r, CopyPasses (popIssue S) E 0 .linear (segPtr 17 0) (segPtr 1 0) 0 s' r ∧ true = true)
    ∧ (∃ s' r, CopyPasses (popIssue S) E 0 .strided2 (segPtr 17 0x800) (segPtr 17 0) (segPtr 17 0x400) s' r ∧ true = true)
    ∧ (∃ s' r, CopyPasses (popIssue S) E 0 .strided3 (segPtr 17 0x800) (segPtr 17 0) (segPtr 17 0x400) s' r ∧ true = true)
    ∧ (∃ s' r, CopyPasses (popIssue S) E 0 .gather (segPtr 17 0x800) (segPtr 17 0) (segPtr 17 0x420) s' r ∧ true = true)
    ∧ (∃ s' r, CopyPasses (popIssue S) E 0 .scatter (segPtr 17 0x800) (segPtr 17 0) (segPtr 17 0x420) s' r ∧ true = true)
    ∧ (∃ s' r, CopyPasses (popIssue S) E 0 .fill (segPtr 17 0x800) 7 8 s' r ∧ true = true)
    ∧ (∃ s' r, CopyPasses (popIssue S) E 0 .combine (segPtr 2 0x400) (segPtr 17 0) (segPtr 17 0x440) s' r ∧ true = true)
    ∧ (∃ s' r, CopyPasses (popIssue S) E 0 .metaq (segPtr 4 0) (segPtr 17 0) 256 s' r ∧ true = true)
    ∧ pickEngine { Die.reset with engines := List.replicate 8 (List.replicate 64
        { place := ⟨0, 0, 0, 0⟩, team := 1, ctx := 1, op := 0, pc := ⟨16, 0⟩, kind := .fill, cseg := 16, dst := 0, src := 0, cnt := 0, rcd := 0, pos := 0,
          since := 0, prio := 0, seq := 0, fault := none, delivered := false }) } = none := by
  refine ⟨issue_of (by decide +kernel), by decide +kernel, ?_, by decide +kernel, by decide +kernel, by decide +kernel, copies_of (p := fun s' _ => _) ?_,
    copies_of (p := fun _ _ => true) (by decide +kernel), copies_of (p := fun _ _ => true) (by decide +kernel), copies_of (p := fun _ _ => true) (by decide +kernel),
    copies_of (p := fun _ _ => true) (by decide +kernel), copies_of (p := fun _ _ => true) (by decide +kernel), copies_of (p := fun _ _ => true) (by decide +kernel),
    copies_of (p := fun _ _ => true) (by decide +kernel), copies_of (p := fun _ _ => true) (by decide +kernel), by decide +kernel⟩
  · unfold Clear; decide +kernel
  · decide +kernel

/-- An incomplete operation without accesses. -/
def tOp (c : Cls) (b : OpBody) : Op :=
  { id := 1, cls := c, seq := 0, depth := 0, body := b, accs := [], ord := .weak, scope := .group, pc := ⟨16, 0⟩, done := false, fail := none }

/-- Groups with an incomplete load, an incomplete qpop, a failed load. -/
def loadGroup : Group := { tGroup with main := { tGroup.main with issued := ⟨1, 0, 0, 0, 0⟩, ops := [tOp .ld (.load .b32 8 false)] } }
def popGroup : Group := { tGroup with main := { tGroup.main with issued := ⟨0, 0, 0, 0, 1⟩, ops := [tOp .task (.qpop 8 0x100 16 2 0x200)] } }
def failedGroup : Group := { tGroup with main := { tGroup.main with issued := ⟨1, 0, 0, 0, 0⟩, failed := [(.ld, 0, { cause := 0x21, addr := 0, info := 0 })] } }

theorem witness_CounterWaitsComplete : (Issues 0x91 S E ∧ Clear E g7 (E.active g7) [] [] []) ∧ E.active g7 ≠ 0
    ∧ ((E.g.fence E.slices).ctx.met 0 = true ∧ firstFail (E.g.fence E.slices).ctx 0 = none)
    ∧ (let g := loadGroup.fence (List.range 8); Issues 0x91 (tState loadGroup) (tEnv loadGroup) ∧ g.ctx.met 0 = false ∧ coveredPop g.ctx 0 = none)
    ∧ (let g := popGroup.fence (List.range 8); Issues 0x91 (tState popGroup) (tEnv popGroup) ∧ g.ctx.met 0 = false ∧ coveredPop g.ctx 0 = some 0)
    ∧ (let g := failedGroup.fence (List.range 8); Issues 0x91 (tState failedGroup) (tEnv failedGroup) ∧ g.ctx.met 0 = true
      ∧ firstFail g.ctx 0 = some (.ld, 0, { cause := 0x21, addr := 0, info := 0 }))
    ∧ Issues 0x09 S E ∧ AllLanes E g7 [] ∧ (5 : BitVec 18) ≠ 0 ∧ (∃ s', TargetOk (popIssue S) E E.pc.seg (E.pc.at (sint 18 5)) s')
    ∧ Issues 0x09 (tState loadGroup) (tEnv loadGroup) ∧ AllLanes (tEnv loadGroup) g7 [] := by
  refine ⟨ready_of (by decide +kernel), by decide +kernel, by decide +kernel, ⟨issue_of (by decide +kernel), by decide +kernel⟩,
    ⟨issue_of (by decide +kernel), by decide +kernel⟩, ⟨issue_of (by decide +kernel), by decide +kernel⟩, issue_of (by decide +kernel),
    allLanes_of (by decide +kernel), by decide, target_of (by decide +kernel), issue_of (by decide +kernel), allLanes_of (by decide +kernel)⟩

/-- The object of a bar form, evaluated. -/
theorem object_of {s : State} {e : Env} {nd : Need} {p : Nat} {q : State → Loc → Bool}
    (h : (match checkAccess s e.view nd (fld p 44 20) (fld p 0 44 : Nat) 16 16 with | (.ok ((x, _) :: _), s') => q s' x | _ => false) = true) :
    ∃ s' x, ObjectAt s e nd p s' x ∧ q s' x = true := by
  split at h
  · rename_i x n r s' hx; exact ⟨s', x, ⟨n, r, hx⟩, h⟩
  · cases h

/-- The machine with a barrier object of team memory, or of slice memory, in a state. -/
def barState (b : Nat) : State := { S with teams := [{ tTeam with tmem := cells 0 16 b }] }
def barEnv (b : Nat) : Env := { E with t := { tTeam with tmem := cells 0 16 b } }

/-- A live object expecting 2 in team memory; the same with phase 1; a broken one; a dead one; a live one in slice memory. -/
def liveBar : Nat := 4 + 2 * 2 ^ 32

theorem witness_BarriersComplete : (Issues 0x92 S E ∧ lowestLane (E.active g7) = some 0
      ∧ Clear E g7 (E.active g7) [inX 64 (.s 2), in32 h0 (.s 5)] [] [] ∧ settledAt E.g (.tmem 1 0) 16 = true ∧ E.g.performed (fun _ => true) (barScope (.tmem 1 0)) = true
      ∧ readInp E (in32 h0 (.s 5)) 0 = 1)
    ∧ (∃ s' x, ObjectAt (popIssue S) E .barWrite (segPtr 1 0) s' x ∧ (x == .tmem 1 0 && barFault (barRead s' x) == some 0x14) = true)
    ∧ (∃ s' x, ObjectAt (popIssue (barState liveBar)) (barEnv liveBar) .barRead (segPtr 1 0) s' x
        ∧ (barFault (barRead s' x) == none && (barRead s' x).phase == 0) = true)
    ∧ (∃ s' x, ObjectAt (popIssue (barState (liveBar + 2 ^ 48))) (barEnv (liveBar + 2 ^ 48)) .barRead (segPtr 1 0) s' x
        ∧ (barFault (barRead s' x) == none && (barRead s' x).phase == 1) = true)
    ∧ (Issues 0x92 (barState liveBar) (barEnv liveBar) ∧ Clear (barEnv liveBar) g7 ((barEnv liveBar).active g7) [inX 64 (.s 2)] [(8, 1)] []
      ∧ writerOk (barEnv liveBar) (.v 8) 32 = true
      ∧ ∃ s' x, ObjectAt (popIssue (barState liveBar)) (barEnv liveBar) .barWrite (segPtr 1 0) s' x
        ∧ (x == .tmem 1 0 && (match barArriveAt s' (barEnv liveBar).actor x 0 1 with | .inr (0, _) => true | _ => false)) = true)
    ∧ (∃ s' x, ObjectAt (popIssue (barState (liveBar + 8))) (barEnv (liveBar + 8)) .barWrite (segPtr 1 0) s' x
        ∧ (barFault (barRead s' x) == some 0x15) = true)
    ∧ (∃ s' x, ObjectAt (popIssue S) E .barWrite (segPtr 2 0) s' x ∧ (x == .smem 0) = true) := by
  refine ⟨⟨issue_of (by decide +kernel), by decide +kernel, ?_, by decide +kernel, by decide +kernel, by decide +kernel⟩,
    object_of (q := fun s' x => x == .tmem 1 0 && barFault (barRead s' x) == some 0x14) (by decide +kernel),
    object_of (q := fun s' x => barFault (barRead s' x) == none && (barRead s' x).phase == 0) (by decide +kernel),
    object_of (q := fun s' x => barFault (barRead s' x) == none && (barRead s' x).phase == 1) (by decide +kernel),
    ⟨issue_of (by decide +kernel), ?_, by decide +kernel,
      object_of (q := fun s' x => x == .tmem 1 0 && (match barArriveAt s' (barEnv liveBar).actor x 0 1 with | .inr (0, _) => true | _ => false)) (by decide +kernel)⟩,
    object_of (q := fun s' x => barFault (barRead s' x) == some 0x15) (by decide +kernel),
    object_of (q := fun _ x => x == .smem 0) (by decide +kernel)⟩ <;> (unfold Clear; decide +kernel)

/-- A group whose v0 holds the queue's pointer in lanes 0 and 1. -/
def queueGroup : Group := { tGroup with main := { tGroup.main with frame := { tGroup.main.frame with
  regs := tabSet (tabSet [] 0 0x100) 32 (BitVec.ofNat 32 (2 ^ 13)) } } }

theorem queue_of {s : State} {e : Env} {lane : Mask} {p : Nat} {pops : Bool} {c : State → UserQ → Bool}
    (h : (match headerOf s e lane p pops with
      | .inr (s1, q1) => (match ringOf s1 e lane q1 with | .inr (s', q) => q1.esz == q.esz && c s' q | .inl _ => false)
      | .inl _ => false) = true) : ∃ s' q, QueueAt s e lane p pops s' q ∧ c s' q = true := by
  split at h
  · rename_i s1 q1 hq
    split at h
    · rename_i s' q hr
      simp only [Bool.and_eq_true, beq_iff_eq] at h
      exact ⟨s', q, ⟨s1, q1, hq, h.1, hr⟩, h.2⟩
    · cases h
  · cases h

/-- qpush, qpop and qpush.task of lane 0. -/
theorem witness_QueueInstructionsIssue : (let s := tState queueGroup
    let e := tEnv queueGroup
    let act := e.active ⟨1, false⟩
    Issues 0x93 s e ∧ Issues 0x94 s e ∧ lowestLane act = some 0 ∧ e.g.full .task = false ∧ readInp e (inX 64 (.v 0)) 0 = segPtr 2 0x100
    ∧ Clear e ⟨1, false⟩ act [inX 64 (.v 0)] [] [2] ∧ Clear e ⟨1, false⟩ act [inX 32 (.v 2)] [(16, 16)] [2] ∧ readInp e (inX 32 (.v 2)) 0 < 32
    ∧ Clear e ⟨1, false⟩ act [inX 64 (.v 0)] [] []
    ∧ ∀ pops, ∃ s' q, QueueAt (popIssue s) e lane0 (segPtr 2 0x100) pops s' q ∧ (spanFault e act 8 2 == none
        && spanFault e act 8 (q.esz / 4) == none && !captureFull s' e.t && decide (q.cap = 2)) = true) := by
  refine ⟨issue_of (by decide +kernel), issue_of (by decide +kernel), by decide +kernel, by decide +kernel, by decide +kernel, ?_, ?_, by decide +kernel, ?_,
    fun pops => queue_of (c := fun s' q => spanFault (tEnv queueGroup) ((tEnv queueGroup).active ⟨1, false⟩) 8 2 == none
        && spanFault (tEnv queueGroup) ((tEnv queueGroup).active ⟨1, false⟩) 8 (q.esz / 4) == none
        && !captureFull s' (tEnv queueGroup).t && decide (q.cap = 2)) (by cases pops <;> decide +kernel)⟩ <;> (unfold Clear; decide +kernel)

/-- A frame of four blocks with s0 to s4 holding 0, 3, 4, 1, 25; the same with v63 unwaited, and in a partition without
a free block. -/
def framedGroup : Group := { tGroup with main := { tGroup.main with
  frame := Frame.fresh (List.replicate 4 false), sreg := tabSet (tabSet (tabSet (tabSet [] 1 3) 2 4) 3 1) 4 25 } }

def unwaitedGroup : Group := { framedGroup with main := { framedGroup.main with unw := [{ cls := .ld, seq := 0, depth := 0, lo := 63, n := 1, pred := false }] } }

/-- Groups that hold every general block. -/
def lateGroup : Group := { framedGroup with placedAt := 9 }
def crowded : State := { tState lateGroup with
  groups := lateGroup :: (List.range 4).map (fun k => { tGroup with place := ⟨0, 0, 0, k + 1⟩, index := 1 }) }

theorem witness_FrameInstructionsComplete : (let e := tEnv framedGroup
    let s := tState framedGroup
    Issues 0x95 s e ∧ Issues 0x96 s e ∧ (∀ k ∈ [0, 1, 2, 3, 4], Clear e g7 (e.active g7) [in32 h0 (.s k)] [] []) ∧ lowestLane (e.active g7) = some 0
    ∧ readInp e (in32 h0 (.s 0)) 0 = 0 ∧ readInp e (in32 h0 (.s 1)) 0 = 3 ∧ readInp e (in32 h0 (.s 2)) 0 = 4 ∧ readInp e (in32 h0 (.s 4)) 0 = 25
    ∧ e.g.main.frame.count = 4 ∧ e.g.unwaited (16 * (4 - 3)) (16 * 3) = false
    ∧ takeBlocks (popIssue s) e.g 3 = some [false, false, false])
    ∧ Issues 0x95 (tState unwaitedGroup) (tEnv unwaitedGroup) ∧ unwaitedGroup.unwaited (16 * (4 - 3)) (16 * 3) = true
    ∧ takeBlocks (popIssue crowded) lateGroup 20 = none := by
  refine ⟨⟨issue_of (by decide +kernel), issue_of (by decide +kernel), ?_, by decide +kernel, by decide +kernel, by decide +kernel, by decide +kernel,
    by decide +kernel, by decide +kernel, by decide +kernel, by decide +kernel⟩, issue_of (by decide +kernel), by decide +kernel, by decide +kernel⟩
  unfold Clear; decide +kernel

/-! #### System instructions -/

/-- srd and swr in the handler; the frozen v0 and p0 of a team's group. -/
theorem witness_SystemRegistersAreAccessed : EH.active g7 ≠ 0 ∧ EH.g.handler.isSome = true
    ∧ (Issues 0xA1 H EH ∧ Clear EH g7 (EH.active g7) [] (dstSpan (.v 2) 64).toList [])
    ∧ (Issues 0xA2 H EH ∧ Clear EH g7 (EH.active g7) [inX 64 (.s 0)] [] [])
    ∧ (0x10 : BitVec 8).toNat = 0x10 ∧ (0x0F : BitVec 8).toNat < 0x10 ∧ 0x12 < (0x13 : BitVec 8).toNat
    ∧ frzBad hGroup 0 = false ∧ frzBad hGroup 479 = false ∧ frzBad hGroup (2 ^ 24) = false ∧ fld (2 ^ 24) 24 2 = 1 ∧ bitOf (2 ^ 24) 63 = false
    ∧ teamOf H tTeam.uid = some tTeam :=
  ⟨by decide +kernel, by decide +kernel, ready_of (by decide +kernel), ready_of (by decide +kernel), by decide, by decide, by decide, by decide +kernel,
    by decide +kernel, by decide +kernel, by decide +kernel, by decide +kernel, by decide +kernel⟩

/-- The handler with an action in RESUME, or with an operation left. -/
def actGroup (r : Nat) : Group := { hGroup with handler := hGroup.handler.map (fun h => { h with resume := BitVec.ofNat 64 r }) }
def busyHandler : Group := { hGroup with handler := hGroup.handler.map (fun h => { h with ctx := { h.ctx with ops := [tOp .st .store] } }) }

theorem witness_SretResumes : (∀ r ∈ [0, 1, 2, 3], issues [0xA0] (tState (actGroup r)) (hEnv (actGroup r)) = true
      ∧ operandFault (hEnv (actGroup r)) g7 ((hEnv (actGroup r)).active g7) [] [] [] = none
      ∧ (actGroup r).handler.any (fun h => h.ctx.ops == [] && fld h.resume.toNat 0 2 == r) = true)
    ∧ Issues 0xA0 (tState busyHandler) (hEnv busyHandler) ∧ busyHandler.handler.any (fun h => h.ctx.ops != []) = true
    ∧ hGroup.slices.length = 8 := by
  refine ⟨by decide +kernel, issue_of (by decide +kernel), by decide +kernel, by decide +kernel⟩

/-- Entries 0 (bound), 1 (free) and 2 (claimed by this group). -/
theorem witness_BindsComplete : Issues 0xA3 H EH ∧ EH.active g7 ≠ 0 ∧ EH.g.performed (fun _ => true) .device = true ∧ EH.g.claim = none
    ∧ EH.g.ctx.ops = [] ∧ Clear EH g7 (EH.active g7) [inX 64 (.s 6), inX 64 (.s 0)] [] [2] ∧ Clear EH g7 (EH.active g7) [inX 64 (.s 6)] [] []
    ∧ [readInp EH (inX 64 (.s 13)) 0, readInp EH (inX 64 (.s 6)) 0, readInp EH (inX 64 (.s 14)) 0] = [segPtr 6 0, segPtr 6 32, segPtr 6 64]
    ∧ (∀ nd ∈ [Need.atomic, Need.load], ∃ s', bindEntryAt (popIssue H) EH.view nd (segPtr 6 0) = (.inl 0x30000, s'))
    ∧ (∃ s', bindEntryAt (popIssue H) EH.view .atomic (segPtr 6 32) = (.inl 0x30020, s'))
    ∧ (∃ s', bindEntryAt (popIssue H) EH.view .atomic (segPtr 6 64) = (.inl 0x30040, s'))
    ∧ (let s' := (bindEntryAt (popIssue H) EH.view .atomic (segPtr 6 0)).2
       [0x30000, 0x30020, 0x30040].map (fun x => hostBlocks s' (.phys x) 32) = [false, false, false]
        ∧ [0x30000, 0x30020, 0x30040].map (fun x => fld (curRead s' x 32) 64 2) = [2, 0, 1]
        ∧ fld (curRead s' 0x30040 32) 96 32 = claimWord EH.t EH.g) := by
  refine ⟨issue_of (by decide +kernel), by decide +kernel, by decide +kernel, by decide +kernel, by decide +kernel, ?_, ?_, by decide +kernel,
    fun nd h => fst_of (by revert nd; decide +kernel), fst_of (by decide +kernel), fst_of (by decide +kernel), by decide +kernel⟩ <;> (unfold Clear; decide +kernel)

/-- A quiet context, and one with an operation outstanding. -/
theorem witness_InvalidationsComplete : Issues 0xA4 H EH ∧ Issues 0xA5 H EH ∧ Issues 0xA6 H EH ∧ EH.active g7 ≠ 0
    ∧ Clear EH g7 (EH.active g7) [] [] [] ∧ ctxQuiet H (some 1) = true ∧ ctxQuiet H none = true
    ∧ ctxQuiet (tState busyGroup) (some 1) = false ∧ Clear EH g7 (EH.active g7) [in64 h0 (.s 6)] [] []
    ∧ readInp EH (in64 h0 (.s 6)) 0 = segPtr 6 32 ∧ (∃ s', governing (popIssue H) EH.view 6 = (.ok (stageDesc 6 31 0x30000 0x1000), s'))
    ∧ fld (segPtr 6 32) 0 44 % 32 = 0 ∧ (dBase (stageDesc 6 31 0x30000 0x1000) + 32) % 32 = 0
    ∧ Clear EH g7 (EH.active g7) [in32 ⟨g7, false, 16⟩ .imm] [] [] ∧ readInp EH (in32 ⟨g7, false, 16⟩ .imm) 0 = 16
    ∧ (∃ s', governing (popIssue H) EH.view 16 = (.ok (stageDesc 1 5 0x10000 256 + 4 * 2 ^ 224), s')) ∧ dKind (stageDesc 1 5 0x10000 256) = 1 := by
  refine ⟨issue_of (by decide +kernel), issue_of (by decide +kernel), issue_of (by decide +kernel), by decide +kernel, ?_, by decide +kernel, by decide +kernel,
    by decide +kernel, ?_, by decide +kernel, fst_of (by decide +kernel), by decide +kernel, by decide +kernel, ?_, by decide +kernel,
    fst_of (by decide +kernel), by decide +kernel⟩ <;> (unfold Clear; decide +kernel)

/-- ldphys at an even and at an odd address of s5 = 1; the hatch commands on a waiting group in slot 1. -/
def waitGroup : Group := { tGroup with
  place := ⟨0, 0, 0, 1⟩, index := 1,
  wait := some { kind := 1, cmp := 0, object := 0, value := 0, since := 0, slices := 255, cont := .counters 0 false, signal := false, broken := none } }

theorem witness_PhysicalAccessesAndHatchCommands :
    (let m : MHdr := ⟨g7, .sel 0 7, some (.s 5), .acqrel, .device, 0⟩
     EH.active g7 ≠ 0 ∧ Issues 0xA7 H EH ∧ Issues 0xA8 H EH ∧ Clear EH g7 (EH.active g7) (addrInp m) [(2, 2)] [] ∧ EH.g.full .ld = false
      ∧ physAddr EH m = 8 ∧ ldBytes .b64 = 8 ∧ physAddr EH { m with addr := .sel 0 0 } = 1
      ∧ Clear EH g7 (EH.active g7) (inX 64 (.v 2) :: addrInp m) [] [] ∧ EH.g.full .st = false)
    ∧ (let s : State := { H with groups := [hGroup, waitGroup] }
       let h : Hdr := ⟨g7, false, 1⟩
       Issues 0xA9 s EH ∧ Clear EH g7 (EH.active g7) [in32 h .imm] [] [2] ∧ Clear EH g7 (EH.active g7) [in32 h .imm] [] []
      ∧ readInp EH (in32 h .imm) 0 = 1 ∧ wordPlace 1 = ⟨0, 0, 0, 1⟩ ∧ ∃ t, hatchSpillPlace (popIssue s) EH.t.ctx (wordPlace 1) = (.inl true, t)) := by
  refine ⟨⟨by decide +kernel, issue_of (by decide +kernel), issue_of (by decide +kernel), ?_, by decide +kernel, by decide +kernel, by decide +kernel,
    by decide +kernel, ?_, by decide +kernel⟩, issue_of (by decide +kernel), ?_, ?_, by decide +kernel, by decide +kernel, fst_of (by decide +kernel)⟩
    <;> (unfold Clear; decide +kernel)

/-! #### Events -/

/-- A record of dies 0, context 1, entry 6 of segment 16, one granule of each memory, two groups of two blocks, one team. -/
def tRec : Nat := 2 ^ 6 + 2 ^ 10 + 6 * 2 ^ 16 + 16 * 2 ^ 44 + 2 ^ 66 + 2 * 2 ^ 74 + 2 ^ 80 + 2 ^ 96 + 2 ^ 112 + 2 ^ 129 + 2 * 2 ^ 140

/-- The task of a record, validated and eligible as said. -/
def tTask (rcd : Nat) (v el : Bool) : Task := { newTask 1 0 0 rcd 0 0 with valid := v, eligible := el }

/-- A machine with tasks and no team. -/
def taskState (ks : List Task) : State := { S with tasks := ks, teams := [], groups := [], issue := [] }

/-- A port with room and one without, a good record and one with reserved bits, no dependence word and one that has
reached 0, and one below its threshold. -/
theorem witness_TasksBecomeEligible : (queuedTasks S 0 0).length < 4096 ∧ 4096 ≤ (queuedTasks { S with tasks := List.replicate 4096 (tTask tRec true true) } 0 0).length
    ∧ (let k := tTask tRec false false
       (taskState [k]).tasks.find? (fun k => k.die == 0 && k.prio == 0 && !k.valid) = some k ∧ recordOk (taskState [k]) k = true
        ∧ ∃ s', entryCheck (taskState [k]) k = (.ok, s'))
    ∧ recordOk (taskState [tTask (tRec + 1) false false]) (tTask (tRec + 1) false false) = false
    ∧ (let k := tTask tRec true false
       taskOf (taskState [k]) 1 = some k ∧ k.valid = true ∧ k.eligible = false ∧ fld (k.f 256 64) 44 20 = 0)
    ∧ (let k := tTask (tRec + segPtr 17 0x600 * 2 ^ 256 + 1 * 2 ^ 320) true false
       fld (k.f 256 64) 44 20 ≠ 0 ∧ k.f 320 64 = 1 ∧ ∃ s', hubGetPtr (taskState [k]) (k.f 10 6) (k.f 256 64) 8 = (.ok 0, s')) := by
  refine ⟨by decide +kernel, by decide +kernel, ⟨by decide +kernel, by decide +kernel, fst_of (by decide +kernel)⟩, by decide +kernel, by decide +kernel,
    by decide +kernel, by decide +kernel, fst_of (by decide +kernel)⟩

theorem witness_TeamsArePlaced : (let k := tTask tRec true true
    let s := taskState [k]
    sortBy (taskOrder s 0) (s.tasks.filter (placeable s 0)).length (s.tasks.filter (placeable s 0)) = [k]
      ∧ pickCore s 0 (k.f 66 8) (k.f 129 11) k.frames = some (0, [(0, 0), (1, 0)]) ∧ teamOf s s.nextUid = none)
    ∧ (let k := { tTask tRec true true with waitFrom := [(0, 0)] }
       let s : State := { taskState [k] with clock := 100000 }
       (s.dies.getD 0 Die.reset).reserved = [] ∧ leastBy (taskOrder s 0) (s.tasks.filter (fun k => k.valid && k.eligible && k.queued && bitOf (k.f 6 4) 0
          && k.waitFrom.any (fun x => x.1 == 0 && decide (x.2 + 100000 ≤ s.clock)))) = some k) := by decide +kernel

/-- An exited group; a finished team; a finished grid without and with a completion word; a failed grid. -/
def exitedGroup : Group := { tGroup with exited := true }

theorem witness_TeamsAndGridsLeave : (groupAt (tState exitedGroup) exitedGroup.place = some exitedGroup ∧ exitedGroup.allOps.any (fun o => o.returns) = false)
    ∧ (teamOf (tState exitedGroup) 1 = some tTeam ∧ teamDone (tState exitedGroup) 1 = true)
    ∧ (let k := { tTask tRec true true with next := 1 }
       taskOf (taskState [k]) 1 = some k ∧ k.failed = false ∧ k.isOver = true ∧ fld (k.f 384 64) 44 20 = 0)
    ∧ (let k := { tTask (tRec + segPtr 17 0x600 * 2 ^ 384) true true with next := 1 }
       k.isOver = true ∧ fld (k.f 384 64) 44 20 ≠ 0
        ∧ (∃ s', hubAccess (taskState [k]) false (k.f 10 6) .store (fld (k.f 384 64) 44 20) (fld (k.f 384 64) 0 44) 8 8 = (.ok [(.phys 0x20600, 8)], s'))
        ∧ (let s' := (hubAccess (taskState [k]) false (k.f 10 6) .store (fld (k.f 384 64) 44 20) (fld (k.f 384 64) 0 44) 8 8).2
           accessFails s' (.phys 0x20600) true = false ∧ hostBlocks s' (.phys 0x20600) 8 = false))
    ∧ (let k := { tTask tRec true true with failed := true }
       taskOf (taskState [k]) 1 = some k ∧ k.live = 0) := by
  refine ⟨by decide +kernel, by decide +kernel, by decide +kernel, ⟨by decide +kernel, by decide +kernel, fst_of (by decide +kernel), by decide +kernel⟩,
    by decide +kernel⟩

/-- A wait of the whole group. -/
def tWait (c : Cont) (kind object : Nat) : Wait :=
  { kind := kind, cmp := 0, object := BitVec.ofNat 64 object, value := 0, since := 0, slices := 255, cont := c, signal := false, broken := none }

def waiting (c : Cont) (kind object : Nat) : Group := { tGroup with wait := some (tWait c kind object) }

/-- A group that may issue; one that may enter the active set; a wait that is over and one that is not; a word in host
memory; a good line; a walk that reads a clean page. -/
theorem witness_IssueAndWaitsProceed :
    (∃ e, leastBy (issueRank 1) ((inPart { S with clock := 1 } ⟨0, 0, 0, 0⟩).filterMap (issuerOf { S with clock := 1 })) = some e)
    ∧ (let g : Group := { tGroup with active := false }
       ((inPart (tState g) ⟨0, 0, 0, 0⟩).filter (fun g => g.active && !g.exited)).length < 8
        ∧ leastBy Group.age ((inPart (tState g) ⟨0, 0, 0, 0⟩).filter (fun g => g.runnable && !g.active)) = some g)
    ∧ (let g := waiting (.counters 0 false) 1 0
       groupAt (tState g) g.place = some g ∧ teamOf (tState g) g.team = some tTeam ∧ g.exited = false ∧ g.hatched = false
        ∧ waitOver (tState g) g (tWait (.counters 0 false) 1 0) = true ∧ waitOver (tState g) g (tWait (.barrier (.smem 0) 0) 3 0) = false)
    ∧ (let ls : List WaitLane := [{ lane := 0, ptr := 0, loc := .phys (2 ^ 50), val := 0, sat := false }]
       (waiting (.word ls 4 .eq .rlx .system) 2 0).wait = some (tWait (.word ls 4 .eq .rlx .system) 2 0)
        ∧ ∃ x ∈ ls, x.loc = .phys (2 ^ 50) ∧ prange (2 ^ 50) = .host)
    ∧ (∃ e, envAt S tGroup.place (sliceBits (turnSlices tGroup)).toNat = some e
        ∧ ∃ line s', fetchLine S e.view e.pc.seg e.pc.idx = (.inl line, s') ∧ parityOk line = true ∧ formatOk line = true
          ∧ parityOk (BitVec.ofNat 512 line ^^^ 1).toNat = false)
    ∧ (∃ r, walk S 1 0x20000 false = (.inl r, S)) := by
  refine ⟨⟨E, by decide +kernel⟩, by decide +kernel, by decide +kernel, ⟨rfl, _, List.mem_singleton.mpr rfl, rfl, by decide⟩,
    ⟨E, by decide +kernel, stageLine (bw 0x01 0 511 5 6), (fetchLine S E.view E.pc.seg E.pc.idx).2, pair_of (by decide +kernel), by decide +kernel,
      by decide +kernel, by decide +kernel⟩, ⟨((walk S 1 0x20000 false).1.getLeft?).getD (0, 0), ?_⟩⟩
  exact Prod.ext (by decide +kernel) (by decide +kernel)

/-- Frame waiters that blocks suffice for and that they do not, handler waiters, a hatched group, a partition where
every group waits. -/
def refillGroup : Group := { tGroup with hatched := true, wait := some (tWait .refill 7 1), main := { tGroup.main with frame := { Frame.fresh [false] with spilled := true } } }

theorem witness_FramesAreGranted :
    (let g := waiting (.claim 3) 7 3
     frameWaiter (tState g) ⟨0, 0, 0, 0⟩ = some (g, 3) ∧ takeBlocks (tState g) g 3 = some [false, false, false]
      ∧ (∀ x ∈ inPart (tState g) ⟨0, 0, 0, 0⟩, x.exited = false → x.wait.isSome = true ∨ x.hatched = true)
      ∧ frameWaiterWhere (tState g) ⟨0, 0, 0, 0⟩ (fun _ => true) = some (g, 3)
      ∧ frameWaiterWhere { tState g with clock := 4096 } ⟨0, 0, 0, 0⟩ (fun g => match g.wait with | some w => decide (w.since + 4096 ≤ 4096) | none => false)
        = some (g, 3))
    ∧ (let g := waiting (.claim 200) 7 200
       frameWaiter (tState g) ⟨0, 0, 0, 0⟩ = some (g, 200) ∧ takeBlocks (tState g) g 200 = none)
    ∧ (let g : Group := { tGroup with wait := some (handlerWait S) }
       leastBy (fun g => (match g.wait with | some w => w.since | none => 0) :: g.age) ((inPart (tState g) ⟨0, 0, 0, 0⟩).filter Group.waitsHandler) = some g
        ∧ teamOf (tState g) g.team = some tTeam ∧ handlerFree (tState g) ⟨0, 0, 0, 0⟩ = true)
    ∧ groupAt (tState refillGroup) refillGroup.place = some refillGroup
    ∧ takeBlocks (tState refillGroup) refillGroup refillGroup.main.frame.blocks.length = some [false] := by decide +kernel

/-- A group with one operation of one access at an address. -/
def tAcc (a n : Nat) : Acc := { lane := 0, off := 0, loc := .phys a, size := n, val := 5, exp := 0, done := false, posted := false, ptr := 0 }
def opGroup (c : Cls) (b : OpBody) (a n : Nat) : Group :=
  { tGroup with main := { tGroup.main with issued := ⟨1, 1, 0, 0, 1⟩, ops := [{ tOp c b with accs := [tAcc a n] }] } }

theorem witness_OperationsComplete : (let o : Op := { tOp .ld (.load .b32 8 false) with accs := [tAcc 0x20000 4] }
     let g := opGroup .ld (.load .b32 8 false) 0x20000 4
     let s := tState g
     holderOf s g.place 1 = some g ∧ g.findOp 1 = some o ∧ teamOf s g.team = some tTeam ∧ replaying s tTeam = false ∧ mayPerform g o (tAcc 0x20000 4) = true
      ∧ accessFails s (tAcc 0x20000 4).loc false = false ∧ o.acquires = false
      ∧ holderOf (performLoad s (groupActor tTeam g) true false (.phys 0x20000) 4).2 g.place 1 = some g)
    ∧ (let o : Op := { tOp .st .store with accs := [tAcc 0x20000 4] }
       let g := opGroup .st .store 0x20000 4
       let s := tState g
       holderOf s g.place 1 = some g ∧ g.findOp 1 = some o ∧ mayPerform g o (tAcc 0x20000 4) = true ∧ accessFails s (.phys 0x20000) true = false
        ∧ hostBlocks s (.phys 0x20000) 4 = false ∧ ringsBell (tAcc 0x20000 4) = false
        ∧ (holderOf (watchAll (performStore s (groupActor tTeam g) (.phys 0x20000) 4 5)) g.place 1).isSome = true) := by decide +kernel

/-- A merge buffer entry, whose line the host holds or does not; a capturing and a replaying context; a record that
matches and none; a spred. -/
def tMerge : Merge := { loc := .phys 0x20000, op := 0, ty := 0, val := 1, since := 0 }

/-- A running crew before and at its last pass; a team that may be flushed or requeued and one that may not; a broken
crew; an underrun; a copy command that an engine may start. -/
def runCrew (d : Nat) : Crew := { tCrew (.running d []) (.mma tMat) with
  members := [{ pos := 0, place := crewGroup.place, op := 1, pc := ⟨16, 0⟩, rows := 1, a := [1], sa := [], sb := [] }], order := 1 }
def crewState (k : Crew) (clean : Bool) : State :=
  { tState crewGroup with teams := [{ tTeam with clean := clean }], tasks := [{ tTask (tRec + 2 ^ 4 + 2 ^ 3) true true with next := 1, live := 1 }], crews := [k] }
def sparseCrew : Crew := { tCrew .gathering (.mmas tMat 2) with order := 1 }
def tCopy : CopyCmd := {
  place := ⟨0, 0, 0, 0⟩, team := 1, ctx := 1, op := 0, pc := ⟨16, 0⟩, kind := .fill, cseg := 16,
  dst := BitVec.ofNat 64 (segPtr 17 0), src := 0, cnt := 8, rcd := 0, pos := 0, since := 0, prio := 0, seq := 0, fault := none, delivered := false }

theorem witness_EnginesProceed : (∀ d ∈ [0, 1], pickPass (crewState (runCrew d) true) 0 0 = some (runCrew d))
    ∧ (runCrew 0).fields = some { tMat with guard := ⟨0, false⟩ } ∧ teamOf (crewState (runCrew 0) true) 1 = some tTeam ∧ 0 + 1 < (runCrew 0).count ∧ (runCrew 1).count ≤ 1 + 1
    ∧ (taskOf (crewState (runCrew 0) true) tTeam.task).any (fun x => bitOf x.record.toNat 4) = true
    ∧ pickPass (crewState (runCrew 0) false) 0 0 = some (runCrew 0) ∧ teamOf (crewState (runCrew 0) false) 1 = some { tTeam with clean := false }
    ∧ { S with crews := [tCrew .broken (.mma tMat)] }.crews.find? (fun (k : Crew) => k.id == 1 && k.st == CrewSt.broken) = some (tCrew .broken (.mma tMat))
    ∧ (let s := crewState sparseCrew true
       s.crews.find? (fun (k : Crew) => k.id == 1 && k.st == .gathering && k.order != 0) = some sparseCrew ∧ sparseCrew.metaq = some 2
        ∧ (sparseHead s 0 0 2).map (·.id) = some 1 ∧ (metaOf s 0 0 2).length < sparseCrew.count ∧ metaCopyPending s 0 0 2 = false)
    ∧ (let s : State := { S with dies := [{ Die.reset with engines := [[tCopy]] }] }
       [tCopy].find? (fun c => c.fault.isSome && issuerGone s c) = none ∧ pickCmd s [tCopy] = some tCopy) := by decide +kernel

theorem witness_CoherenceEventsKeepBytes : S.inv = true ∧ registers S (0x20000 / 4 * 4) = true ∧ hostHolds S (0x20000 / 4 * 4 / 128) = false
    ∧ hostHolds { S with dir := [{ line := 0x400, holder := 4, excl := true, halves := 0, evicting := false }] } (0x20000 / 4 * 4 / 128) = true
    ∧ { S with dir := [{ line := 0x400, holder := 4, excl := true, halves := 0, evicting := false }] }.inv = true
    ∧ S.l1.any (fun x => x.reg && x.addr == 0x20000 / 4 * 4 && x.die == 0 && x.core == 0) = false := by decide +kernel

/-- A task that expects 10 instructions of its team; a team that has issued 9; an idempotent clean one; one to be saved;
a saved one. -/
def preState (issued : Nat) (clean : Bool) : State :=
  { S with teams := [{ tTeam with issuedN := issued, clean := clean }], tasks := [{ tTask (tRec + 2 ^ 3 + 10 * 2 ^ 160) true true with next := 1, live := 1 }], preStop := [1] }
def tSave : Save := { id := 5, team := tTeam, groups := [tGroup], areas := [], kept := [] }

theorem witness_PreemptionProceeds : (∀ n ∈ [8, 9], ∀ c ∈ [true, false], teamOf (preState n c) 1 = some { tTeam with issuedN := n, clean := c })
    ∧ nearEnd (preState 9 true) { tTeam with issuedN := 9 } = true ∧ nearEnd (preState 8 true) { tTeam with issuedN := 8 } = false
    ∧ flushable (preState 8 true) { tTeam with issuedN := 8 } = true ∧ flushable (preState 8 false) { tTeam with issuedN := 8, clean := false } = false
    ∧ saveReady S 1 = true
    ∧ (let s : State := { taskState [{ tTask tRec true true with next := 1, live := 1 }] with saved := [tSave] }
       s.saved.find? (fun v => v.id == 5) = some tSave ∧ (taskOf s tSave.team.task).any (fun k => bitOf (k.f 6 4) 0) = true
        ∧ (ctxOf s tSave.team.ctx).isSome = true ∧ (restoreCore s 0 tSave).isSome = true ∧ ∀ x ∈ s.teams, x.ctx ≠ 1)
    ∧ (teamOf S 1).isSome = true := by decide +kernel

theorem witness_RepairAndPower : { S with fenced := [(0, 3)] }.fenced.contains (0, 3) = true
    ∧ (∀ x ∈ S.teams, ¬(x.die = 0 ∧ x.core = 3)) ∧ S.fenced.contains (0, 3) = false
    ∧ 4 ≤ ({ S with spareCores := [(0, 48), (0, 49), (0, 50), (0, 51)] }.spareCores.filter (fun (x : Nat × Nat) => x.1 == 0)).length
    ∧ (S.remapped.filter (fun (r : Nat × Bool × Nat) => r.1 == 0 && r.2.1 == true)).length < 1 ∧ (S.remapped.filter (fun (r : Nat × Bool × Nat) => r.1 == 0 && r.2.1 == false)).length < 2
    ∧ clusterQuiet S 0 0 = true ∧ S.gated.contains (0, 0) = false ∧ { S with gated := [(0, 0)] }.gated.contains (0, 0) = true := by decide +kernel

/-- The bias table at 1 MiB gives page 32 host bias and the others device bias. -/
def biasState : State := { S with mem := tMem ++ [(0x100004, 1)], hub := { S.hub with biasbase := 0x100000 } }

theorem witness_OutsideAgentsAreServed : hostRefused S (2 ^ 38) 4 = true ∧ hostRefused S 0x20000 0 = true ∧ hostRefused S 0x20000 4 = false
    ∧ (∀ l ∈ linesOf 0x20000 4, hostBias S (l / 32) = false) ∧ hostRefused S 0x20000 1 = false ∧ hostRefused State.reset 0x20000 1 = true
    ∧ hostRefused S (0x800 * 64) 64 = false ∧ hostBias biasState 32 = true ∧ hostBias biasState 33 = false ∧ flipRefused biasState 32 = false
    ∧ flipRefused S (2 ^ 26) = true ∧ { S with hostOut := [.backInvalidate 4] }.hostOut.contains (.backInvalidate 4) = true
    ∧ prange (2 ^ 43 * 128) = .host ∧ portClosed S = false ∧ isHdm 0x20000 = true := by decide +kernel

/-- An enabled and a disabled window; values that enable a good one and a bad one; a device without windows. -/
def fwOn : State := { S with hub := { S.hub with fw := [(0x40000, BitVec.ofNat 64 (2 ^ 63 + 2 ^ 24 + 1))] } }

theorem witness_HubRegistersAreWritten : bitOf (fwReg fwOn 0 0 0) 63 = true ∧ bitOf (fwReg S 0 0 0) 63 = false
    ∧ fwBad S (winOf (fwFields (2 ^ 63 + 2 ^ 24 + 1)) (fwReg S 0 0 8) (fwReg S 0 0 0x10) (fwReg S 0 0 0x18)) = false
    ∧ fwBad S (winOf (fwFields (2 ^ 63 + 6)) (fwReg S 0 0 8) (fwReg S 0 0 0x10) (fwReg S 0 0 0x18)) = true
    ∧ 4 < fld (5 : BitVec 64).toNat 0 3 ∧ anyWindow S = true ∧ anyWindow State.reset = false ∧ fld (4 : BitVec 64).toNat 0 3 ≤ 4
    ∧ fld (4 : BitVec 64).toNat 0 3 ≠ State.reset.hub.smcarve.toNat := by decide +kernel

theorem witness_BootAndAttestation : State.reset.boot.ready = false ∧ State.reset.boot.meas[7]? = some 0 ∧ State.reset.boot.meas[8]? = none := by decide +kernel

/-! #### Further hypotheses and clauses -/

/-- A group for whose fragment a yield has left a failure. -/
def dueGroup : Group := { tGroup with due := [{ slices := 255, seq := 0, fail := { cause := 0x21, addr := 0, info := 0 } }] }

theorem witness_StepRunsTheDecodedInstruction_due : E.due = none ∧ (∃ e, env? (seeWrites (tState dueGroup)) = some e
    ∧ e.due = some { slices := 255, seq := 0, fail := { cause := 0x21, addr := 0, info := 0 } }) ∧ dueGroup.stalled = 0 := by
  have h : seeWrites (tState dueGroup) = tState dueGroup := by decide +kernel
  rw [h]
  exact ⟨by decide +kernel, ⟨tEnv dueGroup, by decide +kernel⟩, rfl⟩

/-- A handler that fetches a word that single-lane mode does not accept and that holds an operand fault. -/
theorem witness_RejectedWordsTrap_handler : EH.due = none ∧ EH.single = true ∧ singleAccepts 0x30 = false
    ∧ decode (vw 0x30 0 0 0 0 2 1 496 511 0 0 0) ≠ .ok (.nop false) := by
  refine ⟨by decide +kernel, rfl, by decide +kernel, ?_⟩
  intro h
  have : (decode (vw 0x30 0 0 0 0 2 1 496 511 0 0 0)).toOption = some (.nop false) := by rw [h]; rfl
  revert this; decide +kernel

/-- The destination checks of a fixed-latency instruction, passed and failed; a scalar destination in no lane. -/
theorem witness_FailedOperandsTrap_dest :
    destFault (tEnv smallGroup) g7 ((tEnv smallGroup).acts h0) (ins2 h0 .i32 (.v 16) (.v 1)) (.v 2) IntTy.i32.width [] = some { cause := 0x02, lanes := 0xFFFFFFFF }
    ∧ destFault (tEnv smallGroup) g7 ((tEnv smallGroup).acts h0) (insF2 h0 .f32 (.v 16) (.v 1)) (.v 2) FpTy.f32.width [] = some { cause := 0x02, lanes := 0xFFFFFFFF }
    ∧ (∀ op ∈ [0x10, 0x11, 0x12, 0x1A, 0x1B, 0x1C, 0x30, 0x32], Issues op (tState smallGroup) (tEnv smallGroup))
    ∧ destFault E g7 (E.active g7) [inX 32 (.v 0), inX 32 (.v 2)] (.v 4) 32 [7] = none ∧ Dst.isScalar (.s 3) = true ∧ Dst.isScalar (.v 3) = false
    ∧ destFault E g7 (E.acts h0) [inX 32 (.v 0), inX 64 (.v 2), inX 32 .lane, inX 128 (.v 4)] (.v 376) 128 [1] = none
    ∧ destFault E g7 (E.acts ⟨g7, true, 0⟩) [inX 64 (.s 0), inX 32 (.b 0)] (.b 62) 64 [] = none := by
  refine ⟨by decide +kernel, by decide +kernel, fun op h => issues_of (by decide +kernel) h, by decide +kernel, rfl, rfl, by decide +kernel, by decide +kernel⟩

/-- A group whose slice 0 has parted lanes; refilling what a pop has brought up reads nothing. -/
def partedGroup : Group := { tGroup with slices := modAt tGroup.slices 0 (fun sl =>
  { sl with run := 3, stack := [{ rcv := 0, pc := ⟨16, 7⟩, mask := 12, merged := 0, before := 15, started := false, linked := false }] }) }

theorem witness_RegangCompletes_parted : partedGroup.join = none ∧ (∀ sl ∈ partedGroup.slices, sl.stack.length ≤ 4)
    ∧ (∃ e, env? (tState partedGroup) = some e ∧ e.single = false ∧ e.g = partedGroup
      ∧ (match refillDiv e.t e.g e.g (List.range 8) (popIssue (tState partedGroup)) with | (.inl _, _) => true | _ => false) = true) := by
  refine ⟨rfl, by decide +kernel, ?_⟩
  have h : (match env? (tState partedGroup) with | some e => e.single == false && e.g == partedGroup
    && (match refillDiv e.t e.g e.g (List.range 8) (popIssue (tState partedGroup)) with | (.inl _, _) => true | _ => false) | none => false) = true := by
    decide +kernel
  split at h
  · rename_i e he
    simp only [Bool.and_eq_true, beq_iff_eq] at h
    exact ⟨e, he, h.1.1, h.1.2, h.2⟩
  · cases h

/-- A group with four call records on chip; the oldest goes to its place in the area. -/
def deepGroup : Group := (List.range 4).foldl (fun g _ => g.callNow (List.range 8) ⟨16, 0⟩ ⟨16, 0⟩ [false] (g.capture (List.range 8))) tGroup

theorem witness_CallsAndReturnsComplete_records :
    deepGroup.onChip = 4 ∧ (match recordRoom S tTeam deepGroup with | (.inl g, _) => (g.calls.map (·.spilled)) == [false, false, false, true] | _ => false) = true
    ∧ (match recordRoom S tTeam deepGroup with
       | (.inl g, s) => (match loadRecord s tTeam g 3 with | (.inl h, _) => h.calls.map (·.spilled) == [false, false, false, false] | _ => false)
       | _ => false) = true
    ∧ (match recordRoom S tTeam (tGroup.fence (List.range 8)) with | (.inl _, _) => true | _ => false) = true
    ∧ takeBlocks S tGroup 24 = some (List.replicate 24 false) ∧ takeBlocks S tGroup 200 = none
    ∧ (match refillCaller S tTeam spilledGroup [false] with | (.inl _, _) => true | _ => false) = true
    ∧ (match refillDiv tTeam calledGroup (calledGroup.unwindNow (List.range 8) 0 (some ⟨16, 6⟩)) (List.range 8) S with | (.inl _, _) => true | _ => false) = true := by
  refine ⟨by decide +kernel, by decide +kernel, by decide +kernel, by decide +kernel, by decide +kernel, by decide +kernel, by decide +kernel, by decide +kernel⟩

/-- An entry at the latch that lists the group, with another member; with this one it is complete. -/
def gatherCrew : Crew := { tCrew .gathering (.mma tMat) with members := [{ pos := 1, place := ⟨0, 0, 0, 1⟩, op := 0, pc := ⟨16, 0⟩, rows := 1, a := [], sa := [], sb := [] }] }
def latchGroup : Group := { crewGroup with wait := some { kind := 8, cmp := 0, object := 0, value := 0, since := 0, slices := 255, cont := .latch 1, signal := false, broken := none } }

theorem witness_MatrixInstructionsArrive_entry :
    (let s : State := { tState crewGroup with crews := [gatherCrew] }
     s.crews.find? (fun k => k.lists 1 0 && (match k.st with | .gathering => true | .tombstone _ => true | _ => false)) = some gatherCrew
      ∧ gatherCrew.st = .gathering ∧ gatherCrew.crew = crewGroup.crew ∧ gatherCrew.word = latchWord (.mma tMat)
      ∧ gatherCrew.members.length + 1 = gatherCrew.count ∧ (tCrew .gathering (.mma tMat)).members.length + 1 ≠ (tCrew .gathering (.mma tMat)).count
      ∧ (tCrew .gathering (.mma tMat)).st = .gathering ∧ (tCrew .gathering (.mma tMat)).word = latchWord (.mma tMat))
    ∧ (tState crewGroup).crews.find? (fun k => k.lists 1 0 && (match k.st with | .gathering => true | .tombstone _ => true | _ => false)) = none
    ∧ (tState crewGroup).crews = []
    ∧ (crewMembers crewGroup.crew.toNat).head? = some crewGroup.index
    ∧ (let k : Crew := { gatherCrew with members := { pos := 0, place := latchGroup.place, op := 0, pc := ⟨16, 0⟩, rows := 1, a := [], sa := [], sb := [] } :: gatherCrew.members }
       k ∈ ({ tState latchGroup with crews := [k] } : State).crews ∧ latchGroup ∈ (tState latchGroup).groups
        ∧ latchGroup.wait.any (fun w => w.cont == .latch k.id) = true ∧ (k.members.find? (fun m => m.place == latchGroup.place)).isSome = true) := by
  decide +kernel

/-- Objects: a live one in slice memory, and one that the group has a store outstanding to. -/
def smemBar : State := { S with smem := cells 0 16 liveBar }
def storeGroup : Group :=
  tGroup.addOp .st .store [wholeAcc { lane := 0, ptr := segPtr 1 0, locs := [(.tmem 1 0, 4)] } 4 7 0] .weak .group ⟨16, 0⟩ []

theorem witness_BarriersComplete_more :
    (∃ s' x, ObjectAt (popIssue smemBar) E .barRead (segPtr 2 0) s' x ∧ (x == .smem 0 && barFault (barRead s' x) == none && (barRead s' x).phase == 0) = true)
    ∧ (∃ s' x, ObjectAt (popIssue smemBar) E .barWrite (segPtr 2 0) s' x ∧ (x == .smem 0 && barFault (barRead s' x) == none
        && (match barArriveAt s' E.actor x 0 1 with | .inr (0, t) => (barRead t x).phase == 0 | _ => false)) = true)
    ∧ Clear E g7 (lowMask (E.active g7)) [inX 64 (.s 2), in32 h0 (.s 5)] [] [] ∧ Clear E g7 (lowMask (E.active g7)) [inX 64 (.s 2)] [] []
    ∧ destFault E g7 (lowMask (E.active g7)) [inX 64 (.s 2)] (.v 8) 32 [] = none ∧ writerOk E (.v 8) 32 = true
    ∧ Issues 0x92 (tState storeGroup) (tEnv storeGroup) ∧ settledAt storeGroup (.tmem 1 0) 16 = false
    ∧ storeGroup.performed (fun _ => true) (barScope (.tmem 1 0)) = false
    ∧ (∃ s' x, ObjectAt (popIssue (tState storeGroup)) (tEnv storeGroup) .barWrite (segPtr 1 0) s' x ∧ (x == .tmem 1 0) = true)
    ∧ (match barArriveAt (barState (liveBar + 2 ^ 16)) (barEnv liveBar).actor (.tmem 1 0) 0 1 with | .inr (0, t) => (barRead t (.tmem 1 0)).phase == 1 | _ => false) = true := by
  refine ⟨object_of (q := fun s' x => x == .smem 0 && barFault (barRead s' x) == none && (barRead s' x).phase == 0) (by decide +kernel),
    object_of (q := fun s' x => x == .smem 0 && barFault (barRead s' x) == none
        && (match barArriveAt s' E.actor x 0 1 with | .inr (0, t) => (barRead t x).phase == 0 | _ => false)) (by decide +kernel),
    ?_, ?_, by decide +kernel, by decide +kernel, issue_of (by decide +kernel), by decide +kernel, by decide +kernel,
    object_of (q := fun _ x => x == .tmem 1 0) (by decide +kernel), by decide +kernel⟩ <;> (unfold Clear; decide +kernel)

/-- qpush with a full class. -/
theorem witness_QueueInstructionsIssue_full : (fullGroup .task).full .task = true ∧ Issues 0x93 (tState (fullGroup .task)) (tEnv (fullGroup .task))
    ∧ E.active ⟨0, false⟩ = 0 ∧ Clear E ⟨0, false⟩ 0 [inX 64 (.v 0)] [] [2] ∧ Clear E ⟨0, false⟩ 0 [inX 32 (.v 2)] [(16, 16)] [2] := by
  refine ⟨by decide +kernel, issue_of (by decide +kernel), by decide +kernel, ?_, ?_⟩ <;> (unfold Clear; decide +kernel)

theorem witness_FrameInstructionsComplete_low :
    ∀ k ∈ [0, 1, 2, 3, 4], Clear (tEnv framedGroup) g7 (lowMask ((tEnv framedGroup).active g7)) [in32 h0 (.s k)] [] [] := by
  unfold Clear; decide +kernel

/-- The group of a handler, one of its frozen ages valid, another group's frame spilled where the context has no segment
table. -/
def frozenOk (sel : Nat) : Bool := !frzBad hGroup sel && !bitOf sel 63 && fld sel 24 2 == 0

theorem witness_SystemRegistersAreAccessed_codes : [0, 383, 384, 399, 400, 463, 464, 479, 480, 481, 495].all frozenOk = true
    ∧ hGroup.frameBelow 0 = some hGroup.main.frame ∧ hGroup.main.frame.spilled = false
    ∧ frzAge H hGroup tTeam 384 = (.inl (some { valid := false, data := 0 }), H) ∧ tabGet hGroup.main.greg 0 = 0
    ∧ bitOf (2 ^ 63) 63 = true ∧ (match frzWrite H hGroup tTeam 0 5 with | (.inl _, _) => true | _ => false) = true
    ∧ (∃ h, EH.g.handler = some h ∧ (match sysRead (popIssue H) EH h 0x11 with | (.inl _, _) => true | _ => false) = true)
    ∧ (let g : Group := { hGroup with main := { hGroup.main with frame := { hGroup.main.frame with spilled := true } } }
       (match frzWrite { H with mem := [], tlb := [] } g tTeam 0 5 with | (.inr _, _) => true | _ => false) = true
        ∧ (match frzRead { H with mem := [], tlb := [] } g tTeam 0 with | (.inr _, _) => true | _ => false) = true) := by
  refine ⟨by decide +kernel, by decide +kernel, by decide +kernel, by decide +kernel, by decide +kernel, by decide +kernel, by decide +kernel,
    ⟨_, rfl, by decide +kernel⟩, by decide +kernel⟩

theorem witness_SretResumes_hatched : { hGroup with hatched := true }.hatched = true ∧ hGroup.hatched = false ∧ EH.active ⟨0, false⟩ = 0
    ∧ Clear EH ⟨0, false⟩ 0 [] [] [] := by
  refine ⟨rfl, rfl, by decide +kernel, ?_⟩
  unfold Clear; decide +kernel

/-- A group that holds a claim; a pointer that is misaligned; a group with a load outstanding. -/
theorem witness_BindsComplete_stops : (let g : Group := { hGroup with claim := some 0x30040 }
      Issues 0xA3 (tState g) (hEnv g) ∧ g.claim.isSome = true)
    ∧ (∀ nd ∈ [Need.atomic, Need.load], ∃ s', bindEntryAt (popIssue H) EH.view nd (segPtr 6 33) = (.inr 0x0B, s'))
    ∧ (let g : Group := { hGroup with main := busyGroup.main, handler := hGroup.handler.map (fun h => { h with ctx := { h.ctx with ops := busyGroup.main.ops } }) }
       Issues 0xA3 (tState g) (hEnv g) ∧ g.performed (fun _ => true) .device = false)
    ∧ EH.g.ctx.ops.all (fun o => o.accs.all (fun c => c.done || !c.loc.overlaps c.size (.phys 0x30000) 32)) = true
    ∧ EH.active ⟨0, false⟩ = 0 := by
  refine ⟨⟨issue_of (by decide +kernel), rfl⟩, fun nd h => fst_of (by revert nd; decide +kernel), ⟨issue_of (by decide +kernel), by decide +kernel⟩, by decide +kernel, by decide +kernel⟩

theorem witness_InvalidationsComplete_more : 2 ^ 20 ≤ readInp EH (in32 ⟨g7, false, 2 ^ 20⟩ .imm) 0 ∧ readInp EH (in32 ⟨g7, false, 0xFFFFF⟩ .imm) 0 < 2 ^ 20
    ∧ (∀ g ∈ H.groups, g.wait = none) := by
  decide +kernel

/-- ldphys with a full class; a hatch command whose operand is too large, and one on a group that cannot be spilled. -/
theorem witness_PhysicalAccessesAndHatchCommands_more : memStalls (popIssue H) EH .ld = false ∧ memStalls (popIssue H) EH .st = false
    ∧ (let g : Group := { hGroup with main := fullQueue.main }
       Issues 0xA7 (tState g) (hEnv g) ∧ memStalls (popIssue (tState g)) (hEnv g) .ld = true ∧ memStalls (popIssue (tState g)) (hEnv g) .st = true)
    ∧ 2 ^ 16 ≤ readInp EH (in32 ⟨g7, false, 0x10000⟩ .imm) 0
    ∧ (hatchSpillPlace (popIssue H) EH.t.ctx (wordPlace 0)).1 = .inl false ∧ (hatchFillPlace (popIssue H) EH.t.ctx (wordPlace 0)).1 = .inl false
    ∧ (let s : State := { H with groups := [hGroup, waitGroup], mem := [], tlb := [] }
       (match hatchSpillPlace (popIssue s) EH.t.ctx (wordPlace 1) with | (.inr _, _) => true | _ => false) = true)
    ∧ (let g : Group := { waitGroup with hatched := true, main := { waitGroup.main with frame := { waitGroup.main.frame with spilled := true } } }
       let s : State := { H with groups := [hGroup, g], mem := [], tlb := [] }
       (match hatchFillPlace (popIssue s) EH.t.ctx (wordPlace 1) with | (.inr _, _) => true | _ => false) = true) := by
  refine ⟨by decide +kernel, by decide +kernel, ⟨issue_of (by decide +kernel), by decide +kernel, by decide +kernel⟩, by decide +kernel, by decide +kernel,
    by decide +kernel, by decide +kernel, by decide +kernel⟩

/-- A port that has been told to go. -/
def goState : State := { S with hub := { S.hub with ports := tabSet [] 0x70048 (BitVec.ofNat 64 (2 ^ 63)) } }

/-- A record whose entry is no legal target, and one whose segment table cannot be read; dependence and argument words
that can be read and that cannot. -/
theorem witness_TasksBecomeEligible_more : bitOf (portReg goState 0 0x48) 63 = true
    ∧ (let k := tTask (tRec + 5 * 2 ^ 16) false false
       recordOk (taskState [k]) k = true ∧ (entryCheck (taskState [k]) k).1 = .illegal)
    ∧ (let k := tTask tRec false false
       (entryCheck { taskState [k] with mem := [], tlb := [] } k).1 = .dbl)
    ∧ (let k := tTask (tRec + segPtr 17 0x600 * 2 ^ 256) true false
       (hubGetPtr (taskState [k]) (k.f 10 6) (k.f 256 64) 8).1 = .ok 0 ∧ k.f 320 64 ≤ 0
        ∧ (hubGetPtr { taskState [k] with mem := [], tlb := [] } (k.f 10 6) (k.f 256 64) 8).1 = .dbl 0x0C)
    ∧ (let k := tTask (tRec + segPtr 17 0x600 * 2 ^ 448) true false
       fld (k.f 448 64) 44 20 ≠ 0 ∧ (hubGetPtr (taskState [k]) (k.f 10 6) (k.f 448 64) 64).1 = .ok 0) := by decide +kernel

theorem witness_TeamsAndGridsLeave_settled : (let k := { tTask tRec true true with next := 1 }; gridSettled (taskState [k]) 1 = true)
    ∧ (let k := { tTask (tRec + segPtr 17 0x600 * 2 ^ 384) true true with next := 1 }; gridSettled (taskState [k]) 1 = true ∧ taskOf (taskState [k]) 1 = some k)
    ∧ (dropSettled { S with departed := [busyGroup, tGroup] }).departed = [busyGroup] := by decide +kernel

/-- A miss that a walk is for, and a page that has no translation. -/
def missState (failed : Bool) : State := { S with misses := [{ die := 0, ctx := 1, vpn := 0x20, write := false, failed := failed }] }

theorem witness_IssueAndWaitsProceed_more :
    ((missState false).misses.filter (fun m => m.die == 0 && !m.failed)).take 16 = (missState false).misses
    ∧ (walk (missState false) 1 0x20000 false).1.isLeft = true ∧ (walk { missState false with mem := [] } 1 0x20000 false).1 = .inr 0x0C
    ∧ (let flip (i : Nat) (line : Line) : Nat := (BitVec.ofNat 512 line ^^^ BitVec.ofNat 512 (2 ^ i)).toNat
       let good := stageLine (bw 0x01 0 511 5 6)
       parityOk (flip 0 good) = false ∧ parityOk good = true ∧ formatOk good = true
        ∧ parityOk (flip 30 good) = true ∧ formatOk (flip 30 good) = false)
    ∧ (let g := waiting (.counters 0 false) 1 0
       let h : Group := { g with hatched := true }
       waitOver (tState h) h (tWait (.counters 0 false) 1 0) = true ∧ h.handler = none ∧ (tWait (.counters 0 false) 1 0).cont ≠ .refill
        ∧ (tWait .refill 7 1).cont = .refill ∧ teamOf (tState h) h.team = some tTeam)
    ∧ (tWait (.counters 0 false) 1 0).broken = none ∧ { tWait (.barrier (.smem 0) 0) 3 0 with broken := some 0x15 }.broken ≠ none
    ∧ (∃ e, leastBy (issueRank 0) ((inPart S ⟨0, 0, 0, 0⟩).filterMap (issuerOf S)) = some e ∧ pairedNext S e = false) := by
  refine ⟨by decide +kernel, by decide +kernel, by decide +kernel, by decide +kernel, by decide +kernel, by decide +kernel, by decide +kernel, E, by decide +kernel, by decide +kernel⟩

/-- Waiters in the middle of a partition; a hatch that cannot serve. -/
theorem witness_FramesAreGranted_more :
    (let g := waiting (.claim 3) 7 3
     let rich : Group := { tGroup with place := ⟨0, 0, 0, 1⟩, index := 1 }
     let s : State := { tState g with groups := [g, rich] }
     frameWaiterWhere s ⟨0, 0, 0, 0⟩ (fun g => match oldestIn s ⟨0, 0, 0, 0⟩ with | some o => o.place == g.place | none => false) = some (g, 3)
      ∧ ((inPart s ⟨0, 0, 0, 0⟩).filter (fun g => !g.exited)).all (fun g => g.wait.isSome) = false
      ∧ ((inPart (tState g) ⟨0, 0, 0, 0⟩).filter (fun g => !g.exited)).all (fun g => g.wait.isSome) = true
      ∧ (match hatchSpillFor g.place 3 6500 none [] (tState g) with | .covered _ => true | _ => false) = true)
    ∧ (let g : Group := { tGroup with wait := some (handlerWait S) }
       let s : State := { tState g with groups := g :: (List.range 12).map (fun k => { hGroup with place := ⟨0, 0, 0, k + 1⟩ }) }
       handlerFree s ⟨0, 0, 0, 0⟩ = false)
    ∧ refillGroup.waitsRefill = true
    ∧ (match recordRoom S tTeam (waiting (.call 1 ⟨16, 6⟩ []) 7 1) with | (.inl _, _) => true | _ => false) = true
    ∧ (match refillCaller S tTeam { spilledGroup with wait := some (tWait (.ret 0) 7 1) } [false] with | (.inl _, _) => true | _ => false) = true
    ∧ (match refillCurrent (tState refillGroup) tTeam refillGroup [false] with | (.inl _, _) => true | _ => false) = true
    ∧ (match refillCurrent { tState refillGroup with mem := [], tlb := [] } tTeam refillGroup [false] with | (.inr _, _) => true | _ => false) = true := by
  refine ⟨by decide +kernel, by decide +kernel, by decide +kernel, by decide +kernel, by decide +kernel, by decide +kernel, by decide +kernel⟩

/-- A machine whose task captures, and one that replays a record. -/
def atomGroup : Group := opGroup .st (.atom .add (.i .n32) none) 0x20000 4
def captureState : State := { tState atomGroup with tasks := [tTask (tRec + 2 ^ 5) true true] }
def replayState (r : CapRec) : State := { tState atomGroup with replays := [1], replay := [r], tasks := [tTask (tRec + 2 ^ 5) true true] }
def postedGroup : Group := { atomGroup with main := { atomGroup.main with ops := atomGroup.main.ops.map (fun o =>
  { o with accs := [{ tAcc 0x20000 4 with posted := true }] }) } }

theorem witness_OrderedOperationsProceed : { S with merge := [tMerge] }.merge[0]? = some tMerge ∧ hostBlocks S (.phys 0x20000) (spredSize tMerge.ty) = false
    ∧ hostBlocks { S with dir := [{ line := 0x400, holder := 4, excl := true, halves := 0, evicting := false }] } (.phys 0x20000) (spredSize tMerge.ty) = true
    ∧ (∀ g ∈ S.groups ++ S.departed, g.place = tGroup.place → ∀ o ∈ g.allOps, ∀ a ∈ o.accs, a.posted = false)
    ∧ (let s := tState postedGroup
       ((s.groups ++ s.departed).filter (fun g => g.place == tGroup.place)).find? (fun g => (firstPosted g).isSome) = some postedGroup
        ∧ (firstPosted postedGroup).map (·.2) = some 0 ∧ ownerOf s 1 = some tTeam)
    ∧ (let k := tTask (tRec + 2 ^ 5) true true
       taskOf captureState 1 = some k ∧ bitOf k.record.toNat 5 = true ∧ k.next = 0 ∧ k.requeued = [] ∧ k.die = tGroup.place.die
        ∧ (hubRead captureState false (k.f 10 6) 17 0x600 4).1 = .ok 0)
    ∧ holderOf captureState tGroup.place 1 = some atomGroup ∧ (atomGroup.findOp 1).any (fun o => o.ordered && !o.done) = true
    ∧ ownerOf captureState 1 = some tTeam ∧ recordsTask captureState tTeam = true
    ∧ (let h : CapRec := ⟨1, 1, 0, 0, 1, 0⟩
       let s := replayState h
       replaying s tTeam = true ∧ s.replay.find? (fun r => r.task == tTeam.task) = some h
        ∧ (atomGroup.findOp 1).any (recNames h tTeam atomGroup) = true
        ∧ laneOver (performOp s tGroup.place 1 [0] false) tGroup.place 1 0 = true)
    ∧ (let r : CapRec := ⟨1, 1, 0, 0, 7, 0⟩
       (atomGroup.findOp 1).all (recNames r tTeam atomGroup) = false ∧ laneOver (replayState r) tGroup.place 1 0 = false)
    ∧ (let g := opGroup .st (.spred 0 0) 0x20000 4
       (g.findOp 1).any (fun o => match o.body with | .spred _ _ => !o.done | _ => false) = true ∧ replaying (tState g) tTeam = false) := by decide +kernel

/-- A copy that may fail, one with nothing to do, and one whose fault nobody waits for. -/
theorem witness_EnginesProceed_copies :
    (let s : State := { S with dies := [{ Die.reset with engines := [[tCopy]] }] }
     pickCmd s [tCopy] = some tCopy ∧ tCopy.pos < tCopy.total)
    ∧ (let c := { tCopy with cnt := 0 }
       let s : State := { S with dies := [{ Die.reset with engines := [[c]] }] }
       pickCmd s [c] = some c ∧ c.total ≤ c.pos)
    ∧ (let c : CopyCmd := { tCopy with team := 9, fault := some { cause := 0x22, addr := 0, info := 0 } }
       [c].find? (fun c => c.fault.isSome && issuerGone S c) = some c) := by decide +kernel

/-- Registered words, a gated cluster, an exclusive line, an alias line under an enabled window. -/
def heldState (evicting : Bool) : State :=
  { S with l1 := [{ die := 1, core := 2, addr := 0x20000, val := 7, mask := 15, reg := true, pair := false }],
           dir := [{ line := 0x400, holder := 1, excl := true, halves := 0, evicting := evicting }] }

def fwAlias : State := { S with hub := { S.hub with fw := [(0x40000, BitVec.ofNat 64 (2 ^ 63 + 2 ^ 24 + 1)), (0x40008, BitVec.ofNat 64 (2 ^ 51))] } }

theorem witness_CoherenceEventsKeepBytes_more : S.aliasQuiet = true ∧ (heldState false).inv = true ∧ (heldState false).aliasQuiet = true
    ∧ (regOf (heldState false) 0x20000).any (fun x => x.die == 1 && x.core == 2) = true ∧ (heldState false).hub.flip = none
    ∧ S.gated.contains (0, clusterOf S 0 0) = false ∧ { S with gated := [(0, clusterOf S 0 0)] }.gated.contains (0, clusterOf S 0 0) = true
    ∧ (∀ b, (heldState b).dir.find? (fun d => d.line == 0x400 && d.holder == 1 && d.excl) = some { line := 0x400, holder := 1, excl := true, halves := 0, evicting := b })
    ∧ S.held.contains 5 = false ∧ aliasLine? fwAlias (2 ^ 44) = none ∧ (winFor fwAlias (2 ^ 44 * 128)).isSome = true
    ∧ fwAlias.inv = true ∧ fwAlias.aliasQuiet = true := by decide +kernel

theorem witness_PreemptionProceeds_more :
    (let s : State := { S with groups := [{ tGroup with exited := true }] }
     (s.groups.filter (fun g => g.team == 1)).all (fun g => g.exited) = true)
    ∧ (S.groups.filter (fun g => g.team == 1)).all (fun g => g.exited) = false ∧ tTeam.saving = false ∧ tTeam.drain = none
    ∧ (areaImages tTeam ((dropIssue S 1).groups.filter (fun g => g.team == 1)) (dropIssue S 1)).1.isSome = true
    ∧ (let t : Team := { tTeam with drain := some 0 }; teamOf { S with teams := [t] } 1 = some t)
    ∧ (let t : Team := { tTeam with saving := true }; teamOf { S with teams := [t] } 1 = some t) := by decide +kernel

/-- A core that has reported 64 corrected errors, and one that has reported 63. -/
theorem witness_RepairAndPower_worn :
    (let s (n : Nat) : State := { S with coreErrs := List.replicate n (0, 3, 0) }
     (0, 3) ∈ wornCores (s 64) ∧ (0, 3) ∉ wornCores (s 63)) ∧ clusterQuiet { S with fenced := [] } 0 0 = true
    ∧ clusterQuiet (tState { tGroup with place := ⟨0, 1, 0, 0⟩ }) 0 5 = true := by decide +kernel

/-- A flip to the host that holds a request, one to the device that the last answer ends. -/
def flipState (host : Bool) (left : List Nat) : State := { biasState with hub := { biasState.hub with flip := some { page := 33, host := host, left := left } } }

theorem witness_OutsideAgentsAreServed_flips :
    flipHolds (flipState true (pageLines 33)) (.read (33 * 4096) 4) = true ∧ flipHolds (flipState true (pageLines 33)) (.read 0x20000 4) = false
    ∧ biasState.boot.recovery = false ∧ hostLines biasState 32 = [] ∧ flipRefused biasState 33 = false
    ∧ (let s : State := { biasState with dir := [{ line := 1024, holder := 4, excl := true, halves := 1, evicting := false }] }
       hostLines s 32 = [1024])
    ∧ (flipState true [1056]).hub.flip = some { page := 33, host := true, left := [1056] }
    ∧ ([1056, 1057].filter (fun l => l != 1056 && !(decide (l < 1056) && lineClean (flipState true [1056, 1057]) l))) = [1057]
    ∧ biasIndex 33 = some 33 ∧ biasByte biasState 33 < 2 ^ 51 ∧ biasState.inv = true ∧ biasState.aliasQuiet = true
    ∧ outsideFails S 0x20000 4 false = false ∧ outsideFails S 0x20000 4 true = false ∧ hostBlocks S (.phys 0x20000) 4 = false
    ∧ (mgmtReg S 0x60040).isSome = true ∧ S.hub.cxl = true ∧ State.reset.hub.cxl = false
    ∧ (let s : State := { flipState false [1056] with hostOut := [.backInvalidate 1056] }
       s.hostOut.contains (.backInvalidate 1056) = true
        ∧ (watchAll (hostDrop (hostBack s []) 1056)).hub = s.hub ∧ hostLines (watchAll (hostDrop (hostBack s []) 1056)) 33 = []) := by decide +kernel

theorem witness_HubRegistersAreWritten_more : S.boot.recovery = false ∧ hubTakes S (.general 0) 0x50008 = true ∧ hubTakes S .host 0x50000 = true
    ∧ bitOf (2 ^ 63 : BitVec 64).toNat 63 = true ∧ bitOf (0 : BitVec 64).toNat 63 = false ∧ (Agent.host) ≠ .general 3
    ∧ S.hub.watchdog + S.hub.mhz * 100000 ≤ { S with clock := 125000000 }.clock ∧ S.clock < S.hub.watchdog + S.hub.mhz * 100000 := by decide +kernel

theorem witness_BootAndAttestation_ready : (let b : Boot := { Boot.reset with ready := true }; b.ready = true ∧ b.meas[7]? = some 0)
    ∧ (stepState (bootSteps [] none 12 0 (startAttempt Boot.reset)) 6 == 2
        && bitOf ((bootSteps [] none 12 0 (startAttempt Boot.reset)).steps.getD 6 0).toNat 4) = false := by decide +kernel

/-- A group with a join record at its regang; the slices that issue come to it with no entry left. -/
def joinGroup (idx n : Nat) (busy : Bool) : Group :=
  { tGroup with
    join := some { pc := ⟨16, idx⟩, count := n }
    main := { tGroup.main with ops := if busy then busyGroup.main.ops else [] } }
def joinState (idx n k : Nat) (busy : Bool) : State :=
  { tState (joinGroup idx n busy) with issue := [{ place := tGroup.place, slices := BitVec.ofNat 8 (2 ^ k - 1) }] }
def joinEnv (idx n k : Nat) (busy : Bool) : Env := { tEnv (joinGroup idx n busy) with slices := List.range k, live := BitVec.ofNat 32 (2 ^ (4 * k) - 1) }
/-- How many slices arrive. -/
def joinN (idx k : Nat) : Nat :=
  let g := (joinGroup idx 8 false).mapSlices (fun j sl => if j ∉ List.range k then sl else if idx = 0 then { sl with arrived := true } else sl)
  ((List.range 8).filter (fun j => (tGroup.slices[j]?).any (fun sl => !sl.arrived) && (g.slices[j]?).any (fun sl => sl.arrived))).length

theorem witness_RegangCompletes_join :
    (∀ x ∈ [(0, 8, 8), (0, 8, 4), (5, 8, 4)], issues [0x07] (joinState x.1 x.2.1 x.2.2 false) (joinEnv x.1 x.2.1 x.2.2 false) = true
      ∧ (joinEnv x.1 x.2.1 x.2.2 false).g.lanesDone (List.range x.2.2) = true ∧ (joinEnv x.1 x.2.1 x.2.2 false).g.performed (fun _ => true) .system = true
      ∧ (match refillDiv tTeam (joinGroup x.1 x.2.1 false) (joinGroup x.1 x.2.1 false) (List.range 8) (popIssue (joinState x.1 x.2.1 x.2.2 false)) with
          | (.inl _, _) => true | _ => false) = true)
    ∧ joinN 0 8 = 8 ∧ joinN 0 4 = 4 ∧ joinN 5 4 = 0 ∧ (∀ sl ∈ tGroup.slices, sl.stack = [] ∧ sl.arrived = false)
    ∧ (∀ k ∈ [4, 8], issues [0x07] (joinState 0 8 k true) (joinEnv 0 8 k true) = true ∧ (joinEnv 0 8 k true).g.lanesDone (List.range k) = false
      ∧ (joinEnv 0 8 k true).g.performed (fun _ => true) .system = false) := by
  refine ⟨by decide +kernel, by decide +kernel, by decide +kernel, by decide +kernel, by decide +kernel, by decide +kernel⟩

/-- The binding segment at 1 GiB, whose pages are in no TLB. -/
def farState : State := { S with mem := memWrite tMem (0x4000 + 32 * 6) 8 0x40030000 }

/-- pf through a slot whose entry is bound, misses, or is claimed, with room and with a full request queue; with no active
lane; an acquire fence with a load outstanding. -/
theorem witness_HintsAndFencesComplete_more :
    (∃ s1, linkSlot (popIssue S) E.view 0 = (.bound (segPtr 17 64) (0, 0), s1))
    ∧ (∃ s1, linkSlot (popIssue farState) E.view 0 = (.miss [0x40030], s1))
    ∧ (∃ s1, linkSlot (popIssue S) E.view 2 = (.wait 0x30040 (segPtr 6 64), s1))
    ∧ Clear E g1 (E.active g1) (addrInp (mp (.link 0 8) none .weak .group)) [] []
    ∧ (∃ s', rangeLanes E (mp (.link 0 8) none .weak .group) (segPtr 17 64) .load (fun _ => 1) 1 (lanesOf (E.active g1)) (linkSlot (popIssue S) E.view 0).2
        = ([(0, 17, 72, .inr (stageDesc 0 31 0x20000 0x10000)), (1, 17, 72, .inr (stageDesc 0 31 0x20000 0x10000))], s'))
    ∧ Issues 0x62 (tState fullQueue) (tEnv fullQueue) ∧ requestsFull (popIssue (tState fullQueue)) fullQueue.place = true
    ∧ Clear E ⟨0, false⟩ (E.active ⟨0, false⟩) (addrInp (mp (.sel 1 0) none .weak .group)) [] [] ∧ E.active ⟨0, false⟩ = 0
    ∧ (let g : Group := { loadGroup with main := { loadGroup.main with ops := loadGroup.main.ops.map (fun o => { o with accs := [tAcc 0x20000 4] }) } }
       Issues 0x64 (tState g) (tEnv g) ∧ g.performed (fun o => o.cls == .ld) .group = false) := by
  refine ⟨fst_of (by decide +kernel), fst_of (by decide +kernel), fst_of (by decide +kernel), ?_, fst_of (by decide +kernel), issue_of (by decide +kernel),
    by decide +kernel, ?_, by decide +kernel, issue_of (by decide +kernel), by decide +kernel⟩ <;> (unfold Clear; decide +kernel)

/-- A capture area that is full: as many records of the context as it takes. -/
def fullCapture : State :=
  { captureState with capture := List.replicate (Config.captureCapacity 0) ⟨1, 1, 0, 0, 0, 0⟩ }

theorem captureFull_of : captureFull fullCapture tTeam = true := by
  have h : recordsTask fullCapture tTeam = true := by decide +kernel
  have c : ctxOf fullCapture tTeam.ctx = some { stageCtx with handlers := BitVec.ofNat 64 (segPtr 17 0x300) } := by decide +kernel
  simp only [captureFull, h, c, Bool.true_and, decide_eq_true_eq]
  simp [fullCapture, stageCtx, tTeam, stageTeam]

/-- An ordered operation and a pop of a capturing task, whose area has and has not room. -/
theorem witness_AtomicsIssue_capture : captureFull fullCapture tTeam = true ∧ captureFull S tTeam = false
    ∧ memStalls (popIssue (tState (fullGroup .ld))) (tEnv (fullGroup .ld)) .ld = true
    ∧ (∀ op ∈ [0x69, 0x6A, 0x6B, 0x6C, 0x6E], issues [op] (tState (fullGroup .st)) (tEnv (fullGroup .st)) = true) := by
  refine ⟨captureFull_of, by decide +kernel, by decide +kernel, by decide +kernel⟩

/-- A handler's waitv on a service word of segment 9. -/
theorem witness_WordWaitsComplete_service : EH.single = true ∧ (let p := segPtr 9 0x8020
      fld p 44 20 = 9 ∧ 0x8000 ≤ fld p 0 44 ∧ p / 32 * 32 = p) ∧ groupAt S E.g.place ≠ none := by decide +kernel

/-- A location with the expected value and one with another; a place of a NaN, of infinities and of numbers. -/
theorem witness_LoadsAndAtomicsAccessBytes_cas : curRead S 0x20100 4 = 512 ∧ curRead S 0x20000 4 ≠ 512 ∧ 0x20100 + 4 ≤ 2 ^ 51
    ∧ (0 : Nat) < (fpFmt .f32 0).2 ∧ 1 < (fpFmt .bf16x2 0).2 ∧ Fmt.f32.decode 0x7FC00000 = .nan ∧ Fmt.f32.decode 0x7F800000 = .inf false
    ∧ Fmt.f32.decode 0xFF800000 = .inf true ∧ Fmt.f32.decode 0x3F800000 ≠ .nan := by decide +kernel

/-- A member that waits for an entry which the next arrival does not match; a broken record of it at the retest. -/
theorem witness_MatrixInstructionsArrive_mismatch :
    (let k : Crew := { tCrew .gathering (.mma { tMat with acc := true }) with
       members := [{ pos := 1, place := ⟨0, 0, 0, 1⟩, op := 0, pc := ⟨16, 0⟩, rows := 1, a := [], sa := [], sb := [] }] }
     let other : Group := { latchGroup with place := ⟨0, 0, 0, 1⟩, index := 1 }
     let s : State := { tState crewGroup with crews := [k], groups := [crewGroup, other] }
     s.crews.find? (fun k => k.lists 1 0 && (match k.st with | .gathering => true | .tombstone _ => true | _ => false)) = some k
      ∧ k.word ≠ latchWord (.mma tMat) ∧ (k.members.all (fun m => (groupAt s m.place).any (fun h => h.wait.isSome))) = true)
    ∧ (let w : Wait := { kind := 8, cmp := 0, object := 0, value := 0, since := 0, slices := 255, cont := .latch 1, signal := false, broken := some 0x16 }
       let h : Group := { crewGroup with wait := some w, active := false }
       groupAt (tState h) h.place = some h ∧ teamOf (tState h) h.team = some tTeam ∧ h.exited = false ∧ h.hatched = false ∧ h.handler = none) := by
  decide +kernel

/-- A tst whose segment 3 may be written, may not, and has no good descriptor. -/
theorem witness_TileInstructionsIssue_writes : E.active g7 ≠ 0
    ∧ (∃ d s', governing (popIssue S) E.view 3 = (.ok d, s') ∧ bitOf d 129 = true)
    ∧ (∃ d s', governing (popIssue { S with mem := memWrite tMem (0x4000 + 32 * 3 + 16) 1 1 }) E.view 3 = (.ok d, s') ∧ bitOf d 129 = false)
    ∧ (∃ s', governing (popIssue { S with mem := memWrite tMem (0x4000 + 32 * 3) 32 0 }) E.view 3 = (.bad 0x08, s')) := by
  refine ⟨by decide +kernel, ⟨stageDesc 4 31 0 0, _, pair_of (by decide +kernel), by decide +kernel⟩,
    ⟨stageDesc 4 1 0 0, _, pair_of (by decide +kernel), by decide +kernel⟩, fst_of (by decide +kernel)⟩

/-- An object that settled operations allow an arrival at, and one that an older pop without its entry does not. -/
theorem witness_BarriersComplete_arrivals : mayArrive tGroup (.tmem 1 0) = true ∧ mayArrive storeGroup (.tmem 1 0) = false
    ∧ (let o : Op := { tOp .task (.qpop 8 0x100 16 2 0x200) with accs := [{ tAcc 0x200 16 with loc := .smem 0x200, exp := 1 }], scope := .device }
       let g : Group := { tGroup with main := { tGroup.main with issued := ⟨0, 0, 0, 0, 1⟩, ops := [o] } }
       o.acquires = true ∧ o.scope.orders (.tmem 1 0) = true ∧ mayArrive g (.tmem 1 0) = false) := by
  refine ⟨by decide +kernel, by decide +kernel, by decide +kernel⟩

/-- Registers that end beyond the frame, and an unwaited one; a pop at a full class and at a full capture area. -/
theorem witness_QueueInstructionsIssue_spans : (E.g.ctx.inFrame 382 4 = false ∧ E.g.ctx.inFrame 380 4 = true ∧ E.g.unwaited 380 4 = false)
    ∧ spanFault E (E.active g1) 383 2 = some { cause := 0x02, lanes := E.active g1 }
    ∧ unwaitedGroup.unwaited 62 2 = true ∧ unwaitedGroup.ctx.inFrame 62 2 = true
    ∧ (spanFault (tEnv unwaitedGroup) ((tEnv unwaitedGroup).active g1) 62 2).isSome = true
    ∧ (let g : Group := { queueGroup with main := { queueGroup.main with ops := (fullGroup .task).main.ops } }
       issues [0x94] (tState g) (tEnv g) = true ∧ g.full .task = true)
    ∧ captureFull fullCapture tTeam = true := by
  refine ⟨by decide +kernel, by decide +kernel, by decide +kernel, by decide +kernel, by decide +kernel, by decide +kernel, captureFull_of⟩

/-- Claimed, bound and free entries whose page misses; one whose range fails; a bind without an active lane. -/
theorem witness_BindsComplete_misses :
    (let s : State := { H with mem := farState.mem }
     issues [0xA3] s EH = true ∧ (∀ nd ∈ [Need.atomic, Need.load], bindMisses (popIssue s) EH.view nd (segPtr 6 32) = [0x40030]))
    ∧ (∀ nd ∈ [Need.atomic, Need.load], bindMisses (popIssue H) EH.view nd (segPtr 6 32) = []) ∧ EH.g.claim = none
    ∧ Clear EH ⟨0, false⟩ (EH.active ⟨0, false⟩) [inX 64 (.s 6)] [] [2] ∧ EH.active ⟨0, false⟩ = 0 := by
  refine ⟨by decide +kernel, by decide +kernel, rfl, ?_, by decide +kernel⟩
  unfold Clear; decide +kernel

/-- A partition that has issued in this clock, one that has not; a group whose next instruction would stall and that is
passed over; a word pair. -/
def fullNext : Group := { fullGroup .ld with slices := tGroup.slices }
def loadLine : Memory := memWrite tMem 0x10000 64 (stageLine ((encode (.ld (mp (.sel 1 8) none .weak .group) .b32 20)).getD 0))

theorem witness_IssueAndWaitsProceed_select :
    (let g : Group := { tGroup with lastIssue := 1 }
     issuedNow (tState g) ⟨0, 0, 0, 0⟩ = true ∧ issuedNow { tState g with clock := 1 } ⟨0, 0, 0, 0⟩ = false)
    ∧ (let s : State := { tState fullNext with mem := loadLine }
       (issuers s ⟨0, 0, 0, 0⟩).any (fun e => e.wouldStall s) = true ∧ issuers (passOver ⟨0, 0, 0, 0⟩ 8 s) ⟨0, 0, 0, 0⟩ = [])
    ∧ (∃ e, leastBy (issueRank 0) (issuers (passOver ⟨0, 0, 0, 0⟩ 8 S) ⟨0, 0, 0, 0⟩) = some e)
    ∧ (issuers S ⟨0, 0, 0, 0⟩).all (fun e => !e.wouldStall S) = true
    ∧ (let s : State := { S with mem := memWrite tMem 0x10000 1 ((memRead tMem 0x10000 1) ||| 32) }
       (issuers s ⟨0, 0, 0, 0⟩).any (fun e => pairedNext s e) = true) := by
  refine ⟨by decide +kernel, by decide +kernel, ⟨E, by decide +kernel⟩, by decide +kernel, by decide +kernel⟩

/-- A load that fails; a store that fails, and one that meets a line of the host; an atomic, a cas and a cpadd. -/
def oneOp (c : Cls) (b : OpBody) (x : Loc) (n : Nat) : Op := { tOp c b with accs := [{ tAcc 0 n with loc := x }] }
def oneGroup (o : Op) : Group := { tGroup with main := { tGroup.main with issued := ⟨1, 1, 0, 0, 1⟩, ops := [o] } }
/-- The operation may be performed by its group in a state. -/
def mayGo (s : State) (o : Op) : Bool :=
  let g := oneGroup o
  holderOf s g.place 1 == some g && g.findOp 1 == some o && ownerOf s 1 == some tTeam && o.accs.all (fun a => mayPerform g o a && !a.posted && decide (0 < a.size))

theorem witness_OperationsComplete_more :
    (let o := oneOp .ld (.load .b32 8 false) (.phys (2 ^ 51)) 4
     mayGo (tState (oneGroup o)) o = true ∧ accessFails (tState (oneGroup o)) (.phys (2 ^ 51)) false = true)
    ∧ (let o := oneOp .st .store (.phys (2 ^ 51)) 4
       mayGo (tState (oneGroup o)) o = true ∧ accessFails (tState (oneGroup o)) (.phys (2 ^ 51)) true = true
        ∧ o.fail = none ∧ (holderOf (postError (tState (oneGroup o)) 1 { code := 0x03, cause := 0x20 }) tGroup.place 1).isSome = true)
    ∧ (let o := oneOp .st .store (.phys 0x20000) 4
       let s : State := { tState (oneGroup o) with dir := [{ line := 0x400, holder := 4, excl := true, halves := 0, evicting := false }] }
       mayGo s o = true ∧ accessFails s (.phys 0x20000) true = false ∧ hostBlocks s (.phys 0x20000) 4 = true
        ∧ (holderOf (askHost s (.phys 0x20000) 4) tGroup.place 1).isSome = true)
    ∧ (∀ b ∈ [OpBody.atom .add (.i .n32) none, .atom .xchg (.i .n32) (some 8), .cas 8 1, .cpadd false none, .cpadd true (some 8)],
        let o := oneOp .st b (.phys 0x20000) 4
        let s := tState (oneGroup o)
        mayGo s o = true ∧ replaying s tTeam = false ∧ accessFails s (.phys 0x20000) true = false ∧ hostBlocks s (.phys 0x20000) 4 = false
          ∧ (holderOf (performRmw s (groupActor tTeam (oneGroup o)) true false 1 (.phys 0x20000) 4 (fun y => y + 1)).2 tGroup.place 1).isSome = true) := by
  refine ⟨by decide +kernel, by decide +kernel, by decide +kernel, by decide +kernel⟩

/-- The group's own cell, seen or not, and another storer's. -/
def meStorer : Storer := storerOf tTeam tGroup
def cellOf (own seen : Bool) : Shutter :=
  { loc := .smem 0x300, size := 8, former := 7, owner := if own then meStorer else { meStorer with group := 5 }, seen := seen }
def cellState (l : List Shutter) (o : Op) : State := { tState (oneGroup o) with shutters := l }
def manyCells : State := { S with shutters := List.replicate 4096 { cellOf false false with loc := .smem 0x320 } }

theorem witness_OrderedOperationsProceed_shutters : (groupActor tTeam tGroup).storer = some meStorer
    ∧ (let own (c : Shutter) : Bool := c.loc == .smem 0x300 && c.size == 8 && c.owner == meStorer
       [cellOf true false].any own = true ∧ [cellOf false false].any own = false ∧ [cellOf true true].find? own = some (cellOf true true)
        ∧ [cellOf true false].find? own = some (cellOf true false))
    ∧ 4096 ≤ (manyCells.shutters.filter (fun c => homeOf c.loc == homeOf (.smem 0x320))).length
    ∧ homeOf (.smem 0x300) = homeOf (.smem 0x320)
    ∧ S.shutters.all (fun c => !c.loc.overlaps c.size (.smem 0x300) 8) = true
    ∧ (S.shutters.filter (fun c => homeOf c.loc == homeOf (.smem 0x300))).length < 4096 ∧ outsider.storer ≠ some meStorer
    ∧ (∀ b ∈ [OpBody.sts 3, .retract 3, .settle],
        let o := oneOp .st b (.smem 0x300) 8
        let s := cellState [cellOf true false] o
        mayGo s o = true ∧ (teamOf s 1).isSome = true ∧ accessFails s (.smem 0x300) true = false ∧ accessFails s (.smem 0x300) false = false
          ∧ hostBlocks s (.smem 0x300) 8 = false ∧ (holderOf (performSts s (groupActor tTeam (oneGroup o)) meStorer (.smem 0x300) 8 5).2 tGroup.place 1).isSome = true
          ∧ (holderOf (performRetract s meStorer (.smem 0x300) 8).2 tGroup.place 1).isSome = true
          ∧ (oneGroup o).handler = none ∧ (oneGroup o).main.ops.any (fun x => x.id == o.id) = true) := by
  refine ⟨by decide +kernel, by decide +kernel, by decide +kernel, by decide +kernel, by decide +kernel, by decide +kernel, by decide +kernel, by decide +kernel⟩

/-- A push and a pop of two lanes at an empty queue of four entries, and a push of two at one that has three; a recorded
index. -/
def queueOp (b : OpBody) : Op :=
  { tOp .task b with accs := [0, 1].map (fun l => { tAcc 0 16 with lane := l, loc := .smem 0x100 }), ord := .acqrel, scope := .device }
def threeState : State := { S with smem := memWrite tSmem 0x100 8 3 }

theorem witness_OrderedOperationsProceed_queues :
    diff64 (memRead tSmem 0x100 8 + 2) (memRead tSmem 0x108 8) ≤ 2 ^ 2 ∧ diff64 (memRead threeState.smem 0x100 8 + 2) (memRead threeState.smem 0x108 8) > 2 ^ 2
    ∧ threeState.inv = true ∧ S.qres = [] ∧ 0x100 + 64 ≤ 0x200
    ∧ (∀ b ∈ [OpBody.qpush 2 0x100 16 2 0x200, .qpop 8 0x100 16 2 0x200],
        let o := queueOp b
        let g := oneGroup o
        let s := tState g
        mayGo s o = true ∧ replaying s tTeam = false ∧ (o.accs.all (fun a => a.exp == 0 && !a.done && !blockedBy (g.olderOps 1) a.lane a.loc a.size o.rank) = true)
          ∧ (holderOf (performPush s (groupActor tTeam g) o 0x100 16 2 0x200).2 tGroup.place 1).isSome = true
          ∧ (holderOf (popGrant s (groupActor tTeam g) tGroup.place true o).2 tGroup.place 1).isSome = true)
    ∧ (let o := queueOp (.qpop 8 0x100 16 2 0x200)
       let x : QRes := { head := 0x100, index := 0, waiter := some (tGroup.place, 1, 0) }
       let s : State := { tState (oneGroup o) with qres := [x] }
       (actWrite s outsider (slotLoc 0x200 2 16 0) 16 5).qres.find? (fun q => q.head == 0x100 && q.index == 0) = some x
        ∧ holderOf s tGroup.place 1 = some (oneGroup o) ∧ ownerOf s 1 = some tTeam) := by
  refine ⟨by decide +kernel, by decide +kernel, by decide +kernel, rfl, by decide, by decide +kernel, by decide +kernel⟩

/-- A replaying launch and one that does not replay: the conditions of the ordered operation's event. -/
theorem witness_OrderedOperationsProceed_replay : replaying captureState tTeam = false ∧ replaying (replayState ⟨1, 1, 0, 0, 1, 0⟩) tTeam = true
    ∧ (atomGroup.findOp 1).any (fun o => o.ordered && !o.done) = true := by decide +kernel

/-- The rows of a member of a crew of two; a copy and a fill of eight bytes that an engine performs. -/
def copyCmd (k : CopyKind) : CopyCmd := { tCopy with kind := k, src := BitVec.ofNat 64 (segPtr 17 0x100), dst := BitVec.ofNat 64 (segPtr 2 0x800) }
def copyState (k : CopyKind) : State := { S with dies := [{ Die.reset with engines := [[copyCmd k]] }] }
def written (s : State) (c : CopyCmd) : Bool :=
  match engineWrite s (engineView s c) .copyDst 2 0x800 8 false (fun _ => 5) with | .done _ => true | _ => false
def copied (s : State) (c : CopyCmd) : Bool :=
  match engineRead s s (engineView s c) 17 0x100 8 false with
  | (.inl x, s2) => (match engineWrite s2 (engineView s c) .copyDst 2 0x800 8 false (fun _ => x) with | .done _ => true | _ => false)
  | _ => false
theorem inl_of {α β σ : Type} {x : (α ⊕ β) × σ} (h : (match x with | (.inl _, _) => true | _ => false) = true) : ∃ a s, x = (.inl a, s) := by
  split at h
  · exact ⟨_, _, rfl⟩
  · cases h

theorem witness_EnginesProceed_effects : Memory.wf [] = true
    ∧ (runCrew 0).members.find? (fun x => x.pos == 0) = some { pos := 0, place := crewGroup.place, op := 1, pc := ⟨16, 0⟩, rows := 1, a := [1], sa := [], sb := [] }
    ∧ tMat.c.toNat * 256 + 32 * (tMat.cols * tMat.tyc.size) ≤ tMat.c.toNat * 256 + 32 * (runCrew 0).count * tMat.cols * tMat.tyc.size
    ∧ (runCrew 0).isSparse = false ∧ (runCrew 0).isScaled = false ∧ (tMat.tyc = .i32 ↔ tMat.tya = .i8 ∨ tMat.tya = .n8)
    ∧ (∀ k ∈ [CopyKind.linear, .fill], pickCmd (copyState k) [copyCmd k] = some (copyCmd k) ∧ (copyCmd k).pos < (copyCmd k).total
        ∧ (copyCmd k).selfMeets = false ∧ ((copyCmd k).piece 0).2.1 = 0x800 ∧ ((copyCmd k).piece 0).2.2.2 = 8
        ∧ written (copyState k) (copyCmd k) = true)
    ∧ (∃ ls s1, enginePlaces (copyState .linear) (engineView (copyState .linear) (copyCmd .linear)) .copySrc 17 0x100 8 false = (.inl ls, s1))
    ∧ copied (copyState .linear) (copyCmd .linear) = true
    ∧ (copyCmd .linear).readOf S .source = some (17, 0x100, 8) ∧ (copyCmd .fill).readOf S .source = none := by
  refine ⟨rfl, by decide +kernel, by decide +kernel, by decide +kernel, by decide +kernel, by decide +kernel, by decide +kernel, inl_of (by decide +kernel), by decide +kernel, by decide +kernel, by decide +kernel⟩

/-- Reservations of another and of the same task. -/
theorem witness_PreemptionProceeds_reserved :
    (let k := { tTask tRec true true with next := 1, live := 1 }
     let j := { tTask tRec true true with id := 7, prio := 5 }
     let s (h : Nat) : State := setDie (taskState [k, j]) 0 (fun d => { d with reserved := [(h, true)] })
     reservationAllows (s 1) 0 k = true ∧ reservationAllows (s 7) 0 k = false) := by decide +kernel

/-- A page of a capturing context that the host writes; a line that a flip has flushed and one that it has not. -/
theorem witness_OutsideAgentsAreServed_capture : captures captureState 1 = true ∧ mappers captureState (0x20000 / 4096) = [1]
    ∧ (0x20000 + 4 - 1) / 4096 = 0x20000 / 4096
    ∧ servedHost (flipState true [1057]) 1056 = true ∧ servedHost (flipState true [1056]) 1056 = false ∧ servedHost biasState 1024 = true
    ∧ (let b : Boot := { Boot.reset with recovery := true }; b.recovery = true)
    ∧ (flipState true [1056, 1057]).hub.flip = some { page := 33, host := true, left := [1056, 1057] } := by decide +kernel

/-- A window that is enabled, one that an enable finds bad in each way, and one that it enables. -/
theorem witness_HubRegistersAreWritten_smwin :
    (let was := (tabGet S.hub.smwin 1).toNat; bitOf was 63 = true ∧ bitOf (tabGet S.hub.smwin 2).toNat 63 = false)
    ∧ (let bad (v : Nat) : Prop := fld v 24 24 % 256 ≠ 0 ∨ fld v 0 24 % 256 ≠ 0 ∨ fld v 24 24 = 0
          ∨ S.hub.smcarve.toNat * 65536 < fld v 0 24 + fld v 24 24
          ∨ ∃ x ∈ S.hub.smwin, x.1 ≠ 2 ∧ bitOf x.2.toNat 63 = true ∧ fld x.2.toNat 0 24 < fld v 0 24 + fld v 24 24
            ∧ fld v 0 24 < fld x.2.toNat 0 24 + fld x.2.toNat 24 24
       (∀ v ∈ [2 ^ 24, 1 + 256 * 2 ^ 24, 0, 65536 + 256 * 2 ^ 24, 256 * 2 ^ 24], bad (2 ^ 63 + v)) ∧ ¬bad (2 ^ 63 + 256 + 256 * 2 ^ 24)
        ∧ bitOf (2 ^ 63 : BitVec 64).toNat 63 = true)
    ∧ 0x40000 ≤ 0x403F8 ∧ 0x403F8 < 0x40400 ∧ (1 : BitVec 64) ≠ 0 := by
  refine ⟨by decide +kernel, by decide +kernel, by decide, by decide, by decide⟩

/-- A boot whose replaced channel takes the spare one, and one with two bad channels of one stack. -/
theorem witness_BootAndAttestation_channels :
    (let b := bootSteps [] none 12 0 (startAttempt { Boot.reset with steps := modAt Boot.reset.steps 6 (fun _ => 0x12) })
     (stepState b 6 == 2 && bitOf (b.steps.getD 6 0).toNat 4) = true)
    ∧ (([(0, 3), (0, 4)].map (·.1)).eraseDups).length < [(0, 3), (0, 4)].length ∧ ¬(([(0, 3), (1, 4)].map (·.1)).eraseDups).length < [(0, 3), (1, 4)].length := by
  decide +kernel

/-- The last bits and bytes, at the edges of the fields. -/
theorem witness_BitInstructions_bits : (31 : Nat) < 32 ∧ 63 < 64 ∧ (3 : Nat) < 4 ∧ bitOf (fshBits true 0x80000000 1 1) 31 = true
    ∧ bitOf (fshBits false 1 32 0x80000000) 0 = true ∧ prmtBits 0x80 0 0x10000 = 0x808080FF ∧ bfeBits true 32 0xF0 4 4 = 2 ^ 32 - 1 := by decide +kernel

/-! #### Boundaries and the other clauses -/

/-- A number just below and one at the middle past the largest of F16, and a member of P3109 without a sign. -/
theorem witness_RoundsRightly : Fmt.f16.sgn = true ∧ Fmt.f16.round .rn false (.fin false 65519 0) = 0x7BFF
    ∧ Fmt.f16.round .rn false (.fin false 65520 0) = 0x7C00 ∧ Fmt.f16.round .rn true (.fin true 65520 0) = 0xFBFF
    ∧ Fmt.f16.round .rn false (.fin true 2049 0) = 0xE800 ∧ Fmt.f16.round .rna false (.fin true 2049 0) = 0xE801
    ∧ p3109Ok 0x0C = true ∧ bitOf 0x0C 3 = true := by decide +kernel

/-- Every instruction of O15 at a v source beyond the frame; and a write of b3, which another group has written. -/
theorem witness_FailedOperandsTrap_all :
    (∀ op ∈ [0x10, 0x11, 0x12, 0x13, 0x15, 0x16, 0x17, 0x1A, 0x1B, 0x1C, 0x1F, 0x20, 0x28, 0x29, 0x2A, 0x30, 0x31, 0x32, 0x34, 0x35, 0x3A, 0x3F],
      Issues op (tState smallGroup) (tEnv smallGroup))
    ∧ destFault (tEnv smallGroup) g7 ((tEnv smallGroup).acts h0) (ins2 h0 .i32 (.v 16) (.v 1)) (.v 2) 32 [7] = some { cause := 0x02, lanes := 0xFFFFFFFF }
    ∧ (let e : Env := { E with t := takenTeam }
       destFault e g7 (e.acts h0) [in32 h0 .zero] (.b 3) 32 [] = none ∧ e.acts h0 ≠ 0 ∧ writerOk e (.b 3) 32 = false ∧ writerOk e (.b 4) 32 = true) := by
  exact ⟨fun op h => issues_of (by decide +kernel) h, by decide +kernel, by decide +kernel⟩

/-- A group of which the lanes of slice 0 exit, with a join record or none; one whose slice 0 has a deferred path. -/
def leavingGroup (n : Nat) (busy : Bool) : Group :=
  let g := joinGroup 5 n busy
  { g with join := if n = 0 then none else g.join, main := { g.main with pred := [(1, 15)] } }
def deferredGroup (started busy : Bool) : Group :=
  { tGroup with
    slices := modAt tGroup.slices 0 (fun sl => { sl with
      run := 3
      stack := [{ rcv := 9, pc := ⟨16, 7⟩, mask := 12, merged := 12, before := 15, started := started, linked := false }] })
    main := { tGroup.main with ops := if busy then busyGroup.main.ops else [] } }
def deferredState (g : Group) : State := { tState g with issue := [{ place := g.place, slices := 1 }] }
def deferredEnv (g : Group) : Env := { tEnv g with slices := [0], live := 3 }

theorem witness_ExitsComplete_slices :
    (∀ n ∈ [0, 1, 2], ∀ busy ∈ [false, true],
      let e := tEnv (leavingGroup n busy)
      issues [0x08] (tState (leavingGroup n busy)) e = true ∧ operandFault e g1 (e.active g1) [] [] [] = none ∧ e.single = false
      ∧ (e.slices.filter (fun k => sliceLanes (e.live &&& ~~~(e.active g1)) k == 0)) = [0] ∧ (e.g.slices[0]?).map (·.stack) = some []
      ∧ ((e.g.dropLanes (e.active g1)).slices[1]?).any (fun sl => sl.live) = true ∧ e.g.performed (fun _ => true) .system = !busy)
    ∧ (∀ started ∈ [false, true], ∀ busy ∈ [false, true],
      let g := deferredGroup started busy
      let e := deferredEnv g
      issues [0x08] (deferredState g) e = true ∧ operandFault e g7 (e.active g7) [] [] [] = none ∧ e.active g7 = e.live ∧ g.join = none
      ∧ (e.g.dropLanes (e.active g7)).slices[0]?.map (fun sl => sl.stack.map (fun x => (x.mask, x.started, x.merged))) = some [(12, started, 12)]
      ∧ e.g.lanesDone [0] = !busy) := by
  exact ⟨by decide +kernel, by decide +kernel⟩

/-- sts, retract, settle and cpadd at full classes. -/
theorem witness_AtomicsIssue_full : (let s := tState fullQueue
    let e := tEnv fullQueue
    (∀ op ∈ [0x66, 0x67, 0x68, 0x6C], Issues op s e) ∧ memStalls (popIssue s) e .st = true ∧ memStalls (popIssue s) e .ld = true
    ∧ Clear e g1 (e.active g1) (inX 64 .zero :: addrInp (mp (.sel 1 8) none .weak .group)) [] [4]
    ∧ Clear e g1 (e.active g1) (inX 64 (.v 2) :: addrInp (mp (.sel 1 8) none .weak .group)) [(20, 4)] []) := by
  refine ⟨fun op h => issues_of (by decide +kernel) h, by decide +kernel, by decide +kernel, ?_, ?_⟩ <;> (unfold Clear; decide +kernel)

/-- The counts of bar.init out of range, beside an unwaited pointer. -/
theorem witness_BarriersComplete_count : (let s := tState unwaitedGroup
    let e := tEnv unwaitedGroup
    Issues 0x92 s e ∧ lowestLane (e.active g7) = some 0
    ∧ (∀ n ∈ [0, 65536], Clear e g7 (lowMask (e.active g7)) [in32 (hi n) .imm] [] [] ∧ readInp e (in32 (hi n) .imm) 0 = n
      ∧ (operandFault e g7 (lowMask (e.active g7)) [inX 64 (.v 62), in32 (hi n) .imm] [] []).map (·.cause) = some 0x06)) := by
  refine ⟨issue_of (by decide +kernel), by decide +kernel, ?_⟩
  unfold Clear; decide +kernel

/-- Registers of qpush and qpop beyond the frame, and a die word of 0x100. -/
theorem witness_QueueInstructionsIssue_operands : (let s := tState queueGroup
    let e := tEnv queueGroup
    let act := e.active ⟨1, false⟩
    Issues 0x93 s e ∧ Issues 0x94 s e ∧ e.g.ctx.inFrame 383 2 = false
    ∧ (operandFault e ⟨1, false⟩ act [inX 64 (.v 0), inX 64 (.v 383)] [] [2]).map (·.cause) = some 0x02
    ∧ (operandFault e ⟨1, false⟩ act [inX 64 (.v 0)] [(383, 2)] []).map (·.cause) = some 0x02
    ∧ lowestLane act = some 0 ∧ readInp e (inX 32 (.v 0)) 0 = 0x100 ∧ Clear e ⟨1, false⟩ (lowMask act) [inX 32 (.v 0)] [] []
    ∧ operandFault e ⟨1, false⟩ act [inX 32 (.v 0)] [(16, 16)] [2] = none) := by
  refine ⟨issue_of (by decide +kernel), issue_of (by decide +kernel), by decide +kernel, by decide +kernel, by decide +kernel, by decide +kernel,
    by decide +kernel, ?_, by decide +kernel⟩
  unfold Clear; decide +kernel

/-- A second claim. -/
theorem witness_BindsComplete_second : (let g : Group := { hGroup with claim := some 0x30040 }
    Issues 0xA3 (tState g) (hEnv g) ∧ (hEnv g).active g7 ≠ 0 ∧ Clear (hEnv g) g7 ((hEnv g).active g7) [] [] []
    ∧ operandFault (hEnv g) g7 ((hEnv g).active g7) [inX 64 (.s 6)] [] [2] = none) := by
  refine ⟨issue_of (by decide +kernel), by decide +kernel, ?_, by decide +kernel⟩
  unfold Clear; decide +kernel

/-- A group that watches a word through binding entry 0, as its generation now is or as it was; one whose descriptor has
gone. -/
def linkedLane (gen : Nat) : WaitLane := { lane := 0, ptr := segPtr 17 64, loc := .phys 0x20040, val := 0, sat := false, link := some (0, gen) }
def linkedGroup (gen : Nat) : Group :=
  { waiting (.word [linkedLane gen] 4 .eq .rlx .system) 2 0 with place := ⟨0, 0, 0, 1⟩, index := 1 }
def linkedState (gen : Nat) : State := { H with groups := [hGroup, linkedGroup gen] }

theorem witness_InvalidationsComplete_links : linksQuiet (linkedState 0) EH (fun _ => true) = true
    ∧ linksQuiet (linkedState 5) EH (fun _ => true) = false ∧ linksQuiet (linkedState 5) EH (fun i => i == 3) = true
    ∧ (linkedLane 0).sat = false ∧ teamOf (linkedState 0) (linkedGroup 0).team = some tTeam
    ∧ (let v : View := { die := 0, core := 0, ctx := 1, team := 1, tmemG := tTeam.tmemG, tileG := tTeam.tileG, single := false, codeSeg := 16 }
       let c (s : State) : Chk := (checkAccess s v .load 17 64 4 1).1
       c (linkedState 0) = .ok [(.phys 0x20040, 4)]
        ∧ (match c { linkedState 0 with mem := memWrite tMem (0x4000 + 32 * 17) 32 0 } with | .fail _ 0x08 _ => true | _ => false) = true) := by
  decide +kernel

/-- A record whose entry's line is not mapped; a dependence pointer of a segment without a descriptor. -/
theorem witness_TasksBecomeEligible_fails :
    (let k := tTask tRec false false
     (match (entryCheck { taskState [k] with mem := memWrite tMem (0x4000 + 32 * 16) 32 (stageDesc 1 5 (2 ^ 40) 256) } k).1 with
      | .trap 0x0C _ => true | _ => false) = true)
    ∧ (let k := tTask (tRec + segPtr 20 0x600 * 2 ^ 256) true false
       (hubGetPtr (taskState [k]) (k.f 10 6) (k.f 256 64) 8).1 = .fail 0x08) := by decide +kernel

/-- A task whose tile store no core has, before one that fits; a reservation that is held. -/
def bigTask : Task := { tTask (tRec + 2046 * 2 ^ 129) true true with id := 7, prio := 1 }
def bigState : State := taskState [bigTask, tTask tRec true true]

theorem witness_TeamsArePlaced_passing :
    (let k : Task := tTask tRec true true
     sortBy (taskOrder bigState 0) (bigState.tasks.filter (placeable bigState 0)).length (bigState.tasks.filter (placeable bigState 0)) = [bigTask, k]
      ∧ pickCore bigState 0 (bigTask.f 66 8) (bigTask.f 129 11) bigTask.frames = none ∧ (pickCore bigState 0 (k.f 66 8) (k.f 129 11) k.frames).isSome = true)
    ∧ (let t : Task := { tTask tRec true true with prio := 3 }
       let u : Task := { bigTask with prio := 5, waitFrom := [(0, 0)] }
       let s (urgent : Bool) : State := { setDie (taskState [t, u]) 0 (fun d => { d with reserved := [(1, urgent)] }) with clock := 100000 }
       ∀ urgent ∈ [false, true], leastBy (taskOrder (s urgent) 0) ((s urgent).tasks.filter (fun k => k.valid && k.eligible && k.queued && bitOf (k.f 6 4) 0
          && k.waitFrom.any (fun x => x.1 == 0 && decide (x.2 + 100000 ≤ (s urgent).clock)))) = some u
        ∧ taskOf (s urgent) 1 = some t) := by decide +kernel

/-- An entry with one pair, of a team that captures or replays; one that cannot reach its bank; an entry pushed for a
team that is saved. -/
def pairOp : Op := { oneOp .st (.spred 0 0) (.phys 0x20000) 4 with accs := [{ tAcc 0x20000 4 with val := 1, posted := true }] }
def pairState (h : Option CapRec) : State :=
  { tState (oneGroup pairOp) with
    merge := [tMerge]
    tasks := [tTask (tRec + 2 ^ 5) true true]
    replays := if h.isSome then [1] else []
    replay := h.toList }

theorem witness_OrderedOperationsProceed_pairs :
    (∀ h ∈ [none, some (⟨1, 1, 0, 0, 1, 32⟩ : CapRec), some ⟨1, 1, 0, 0, 7, 0⟩],
      tMerge.parts (pairState h) = [(tTeam, oneGroup pairOp, [pairOp])] ∧ accessFails (pairState h) tMerge.loc true = false)
    ∧ recordsTask (pairState none) tTeam = true ∧ replaying (pairState none) tTeam = false
    ∧ (let h : CapRec := ⟨1, 1, 0, 0, 1, 32⟩
       replaying (pairState (some h)) tTeam = true ∧ arrivalOf h (tMerge.parts (pairState (some h))) tMerge = true
        ∧ arrivalHeld (pairState (some h)) (tMerge.parts (pairState (some h))) tMerge = false)
    ∧ (let first : CapRec := ⟨1, 1, 0, 0, 7, 0⟩
       let s : State := { pairState (some first) with replay := [first, ⟨1, 1, 0, 0, 1, 32⟩] }
       arrivalOf first (tMerge.parts s) tMerge = false ∧ arrivalHeld s (tMerge.parts s) tMerge = true)
    ∧ accessFails S (.phys (2 ^ 51)) true = true
    ∧ (let s : State := { S with saved := [tSave] }
       s.saved.any (fun v => v.team.uid == 2 ^ 32 / 2 ^ 32) = true) := by decide +kernel

/-- A reservation for a requeued team, and one of the die, before a saved team of the same task and of another one. -/
theorem witness_PreemptionProceeds_restores :
    (let k := { tTask tRec true true with next := 1, live := 1 }
     let j := { tTask tRec true true with id := 7, prio := 5 }
     let s (h : Nat) (urgent : Bool) : State := setDie (taskState [k, j]) 0 (fun d => { d with reserved := [(h, urgent)] })
     reservationRestores (s 1 true) 0 k = false ∧ reservationRestores (s 1 false) 0 k = true ∧ reservationRestores (s 7 true) 0 k = false
      ∧ reservationRestores (s 7 false) 0 k = false ∧ reservationRestores (s 1 false) 0 j = true ∧ reservationRestores (s 1 true) 0 j = true ∧ reservationRestores (taskState [k]) 0 k = true)
    ∧ [3, 5].Pairwise (· < ·) ∧ 4 ∉ [3, 5] ∧ insertUp 4 [3, 5] = [3, 4, 5] := by decide +kernel

/-- A state that meets the invariant and steps. -/
theorem witness_StepsKeepTheInvariant : S.inv = true ∧ ∃ t, step S = .next t :=
  ⟨S_inv, match h : step S with
    | .next t => ⟨t, rfl⟩
    | .fault f => absurd h (by have : (match step S with | .next _ => true | _ => false) = true := by decide +kernel
                               intro hh; rw [hh] at this; cases this)
    | .refused r => absurd h (by have : (match step S with | .next _ => true | _ => false) = true := by decide +kernel
                                 intro hh; rw [hh] at this; cases this)⟩

/-! ### Single steps

The operands and results are those of the spec's worked examples, named by file and rule. -/

/-- The group with lane 0 of v0, v1, … holding words, and of lanes 1 to 3 of v0 holding others. -/
def words (vals lanes : List Nat) : Tab 32 :=
  ((vals.zipIdx.map (fun (x : Nat × Nat) => (32 * x.2, x.1))) ++ lanes.zipIdx.map (fun (x : Nat × Nat) => (x.2 + 1, x.1))).foldl
    (fun t x => tabSet t x.1 (BitVec.ofNat 32 x.2)) []

def loaded (vals lanes : List Nat) : Group :=
  { tGroup with main := { tGroup.main with frame := { tGroup.main.frame with regs := words vals lanes } } }

/-- What an instruction leaves in a register of a lane. -/
def leaves (vals lanes : List Nat) (i : Instr) (r l : Nat) : Option Nat :=
  match exec i (tState (loaded vals lanes)) with
  | .next s => (groupAt s tGroup.place).map (fun g => g.main.frame.v r l)
  | _ => none

def hl (n : Nat) : Hdr := ⟨g1, false, BitVec.ofNat 32 n⟩

/-- R134: the wrapped and the clamped sums, packed and not. -/
theorem test_add : leaves [0x7FFFFFFF, 1] [] (.add (hl 0) .i32 false (.v 20) (.v 0) (.v 1)) 20 0 = some 0x80000000
    ∧ leaves [0xF001807F, 0x20018001] [] (.add (hl 0) .n8x4 true (.v 20) (.v 0) (.v 1)) 20 0 = some 0xFF02FF80 := by decide +kernel
theorem test_add_sat : leaves [0xF001807F, 0x20018001] [] (.add (hl 0) .i8x4 true (.v 20) (.v 0) (.v 1)) 20 0 = some 0x1002807F := by decide +kernel

/-- R274, R338, 23_ref_mad_ret.md (max). -/
theorem test_abs : leaves [0x80FF057F] [] (.abs (hl 0) .i8x4 false (.v 20) (.v 0)) 20 0 = some 0x8001057F
    ∧ leaves [0x80FF057F] [] (.abs (hl 0) .i8x4 true (.v 20) (.v 0)) 20 0 = some 0x7F01057F := by decide +kernel
theorem test_neg : leaves [0x80000000] [] (.neg (hl 0) .i32 false (.v 20) (.v 0)) 20 0 = some 0x80000000
    ∧ leaves [0x80000000] [] (.neg (hl 0) .i32 true (.v 20) (.v 0)) 20 0 = some 0x7FFFFFFF := by decide +kernel
theorem test_max : leaves [0x807F01FF, 0x200] [] (.max (hl 0) .i8x4 (.v 20) (.v 0) (.v 1)) 20 0 = some 0x007F0200
    ∧ leaves [0x807F01FF, 0x200] [] (.max (hl 0) .n8x4 (.v 20) (.v 0) (.v 1)) 20 0 = some 0x807F02FF := by decide +kernel

/-- bfe, bfi, fsh, prmt, popc, shr: the examples of their pages. -/
theorem test_bfe : leaves [0xF00, 8, 4] [] (.bfe (hl 0) .i32 (.v 20) (.v 0) (.v 1) (.v 2)) 20 0 = some 0xFFFFFFFF
    ∧ leaves [0xF00, 8, 4] [] (.bfe (hl 0) .n32 (.v 20) (.v 0) (.v 1) (.v 2)) 20 0 = some 0xF := by decide +kernel
theorem test_bfi : leaves [0xAB, 0xFFFFFFFF] [] (.bfi (hl 0x0804) .b32 (.v 20) (.v 0) (.v 1) .imm) 20 0 = some 0xFFFFFABF := by decide +kernel
theorem test_fsh : leaves [0x12345678, 8, 0x9ABCDEF0] [] (.fsh (hl 0) false (.v 20) (.v 0) (.v 1) (.v 2)) 20 0 = some 0x3456789A
    ∧ leaves [0x80000001, 1] [] (.fsh (hl 0) false (.v 20) (.v 0) (.v 1) (.v 0)) 20 0 = some 3 := by decide +kernel
theorem test_prmt : leaves [0x11223380, 0] [] (.prmt (hl 0x10000) (.v 20) (.v 0) (.v 1) .imm) 20 0 = some 0x808080FF
    ∧ leaves [0x11223380, 0] [] (.prmt (hl 0x053) (.v 20) (.v 0) (.v 1) .imm) 20 0 = some 0x80332211 := by decide +kernel
theorem test_prmt_sign : leaves [0x11223380, 0] [] (.prmt (hl 0xE0000) (.v 20) (.v 0) (.v 1) .imm) 20 0 = some 0xFFFFFF80
    ∧ leaves [0x11223380, 0] [] (.prmt (hl 0xE688) (.v 20) (.v 0) (.v 1) .imm) 20 0 = some 0x80 := by decide +kernel
theorem test_popc : leaves [0xF0F00001] [] (.popc (hl 0) .b32 (.v 20) (.v 0)) 20 0 = some 9 := by decide +kernel
theorem test_shr : leaves [0x80000010] [] (.shr (hl 4) true .b32 (.v 20) (.v 0) .imm) 20 0 = some 0xF8000001 := by decide +kernel

/-- fclass (R309), fdiv, fdot2, fma, frnd (R317), fscale (R318), cvt. -/
theorem test_fclass : leaves [1] [] (.fclass (hl 0) .f32 (.v 20) (.v 0)) 20 0 = some 0x80
    ∧ leaves [0xFF80] [] (.fclass (hl 0) .bf16 (.v 20) (.v 0)) 20 0 = some 4 := by decide +kernel
theorem test_fdiv : leaves [0x3F800000, 0x40400000] [] (.fdiv (hl 0) .f32 .rn false (.v 20) (.v 0) (.v 1)) 20 0 = some 0x3EAAAAAB
    ∧ leaves [0x3F800000, 0x40400000] [] (.fdiv (hl 0) .f32 .rz false (.v 20) (.v 0) (.v 1)) 20 0 = some 0x3EAAAAAA := by decide +kernel
theorem test_fdot2 : leaves [0x40003F80, 0x40804040, 0x3F000000] [] (.fdot2 (hl 0) .bf16x2 .rn false (.v 20) (.v 0) (.v 1) (.v 2)) 20 0
    = some 0x41380000 := by decide +kernel
theorem test_fma : leaves [0x3F800800, 0xBF801000] [] (.fma (hl 0) .f32 .rn false (.v 20) (.v 0) (.v 0) (.v 1)) 20 0 = some 0x33800000 := by
  decide +kernel
theorem test_frnd : leaves [0x40200000] [] (.frnd (hl 0) .f32 .rn (.v 20) (.v 0)) 20 0 = some 0x40000000
    ∧ leaves [0xBF000000] [] (.frnd (hl 0) .f32 .rn (.v 20) (.v 0)) 20 0 = some 0x80000000 := by decide +kernel
theorem test_frnd_modes : leaves [0x40200000] [] (.frnd (hl 0) .f32 .rna (.v 20) (.v 0)) 20 0 = some 0x40400000
    ∧ leaves [0xBF000000] [] (.frnd (hl 0) .f32 .rd (.v 20) (.v 0)) 20 0 = some 0xBF800000 := by decide +kernel
theorem test_fscale : leaves [0x3FC00000] [] (.fscale (hl (2 ^ 32 - 150)) .f32 .rn false (.v 20) (.v 0) .imm) 20 0 = some 1
    ∧ leaves [0x3FC00000] [] (.fscale (hl 130) .f32 .rn true (.v 20) (.v 0) .imm) 20 0 = some 0x7F7FFFFF := by decide +kernel
theorem test_cvt : leaves [0x43960000, 0x43E60000, 0x43FA0000, 0xC0200000] [] (.cvt (hl 0) (.f .f32) (.f .e4m3x4) .rn false (.v 20) (.v 0)) 20 0
    = some 0xC27F7E79 := by decide +kernel

/-- R348 to R357: the prefix sum over lanes 0 and 1 (of 3, −1), and the exclusive one. -/
theorem test_scan : leaves [3] [2 ^ 32 - 1] (.scan (hl 0) false .i32 false (.v 20) (.v 0)) 20 1 = some 2
    ∧ leaves [3] [2 ^ 32 - 1] (.scan (hl 0) true .i32 false (.v 20) (.v 0)) 20 1 = some 3 := by decide +kernel

/-- 24_ref_retract_yield.md (sub): a literal first operand. -/
theorem test_sub : leaves [0, 0, 5] [] (.sub (hl 12289) .i32 false (.v 4) .imm (.v 2)) 4 0 = some 12284 := by decide +kernel

/-- R106 and R104: an issued load's destination is unwaited, and reading it is 0x06; another group's register is free. -/
theorem test_unwaited : (match exec (.ld (mp (.sel 1 8) none .weak .group) .b32 20) S with
    | .next s => (groupAt s tGroup.place).map (fun g => (g.unwaited 20 1, g.unwaited 21 1, g.main.count .ld))
    | _ => none) = some (true, false, 1) := by decide +kernel

/-- R184: the cause and the code of trap in the trap registers, and the handler at its table entry. -/
theorem test_trap : (match exec (.trap g7 0x77) S with
    | .next s => (groupAt s tGroup.place).map (fun g => (g.trap.cause.toNat, g.trap.info.toNat, g.handler.map (fun h => h.pc)))
    | _ => none) = some (0x1C, 0x77, some ⟨16, 6⟩) := by decide +kernel

/-- R24: lanes 0 and 1 branch, the other two of slice 0 go on; on a tie the path not taken runs first. -/
theorem test_bra : (match exec (.bra g1 5 6) S with
    | .next s => (groupAt s tGroup.place).bind (fun g => g.slices[0]?.map (fun sl => (sl.pc.idx, sl.run.toNat, sl.stack.map (fun x => (x.pc.idx, x.mask.toNat)))))
    | _ => none) = some (1, 12, [(6, 3)]) := by decide +kernel

end Sys2Proof.Tests
end

section
/-! SUPPORT. The statements on printed words and on what issuing leaves unchanged (Table 19-5 to Table 19-7; R5, R44, R92). -/

namespace Sys2Proof.Machine

open Sys2Proof

/-- Settles O3: each word is closed, so the decoder is evaluated on it. They are the all-zero nop (R246), a format M load at
a link slot, a format M compare-and-swap at a selected segment, and a format X matrix instruction. -/
theorem printedWordsDecode : Obligations.PrintedWordsDecode := by
  unfold Obligations.PrintedWordsDecode
  refine ⟨?nop, ?ld, ?cas, ?mma⟩
  case nop => decide +kernel
  case ld => decide +kernel
  case cas => decide +kernel
  case mma => decide +kernel

/-! ### What issuing leaves unchanged -/

/-- Between `s` and `t` only the group in `p` and the teams' instruction counts and clean marks may differ. -/
def IssueKeeps (s : State) (p : Place) (t : State) : Prop :=
  t = { s with groups := t.groups, teams := t.teams }
    ∧ (∀ q, q ≠ p → groupAt t q = groupAt s q)
    ∧ (∀ u x, teamOf s u = some x → ∃ y, teamOf t u = some y ∧ y = { x with issuedN := y.issuedN, clean := y.clean })
    ∧ ∀ u b, teamMem t u b = teamMem s u b

/-- A change of teams that touches the instruction count and the clean mark at most. -/
def CountsOnly (f : Team → Team) : Prop := ∀ x, f x = { x with issuedN := (f x).issuedN, clean := (f x).clean }

theorem CountsOnly.uid {f : Team → Team} (hf : CountsOnly f) (x : Team) : (f x).uid = x.uid := by rw [hf x]
theorem CountsOnly.tmem {f : Team → Team} (hf : CountsOnly f) (x : Team) : (f x).tmem = x.tmem := by rw [hf x]
theorem CountsOnly.tile {f : Team → Team} (hf : CountsOnly f) (x : Team) : (f x).tile = x.tile := by rw [hf x]

/-- A team's memory or tile store is that of the placed team of its name, and empty where there is none. -/
theorem teamMem_eq_teamOf (s : State) (u : Nat) (tile : Bool) :
    teamMem s u tile = ((teamOf s u).map (fun t => if tile then t.tile else t.tmem)).getD [] := by
  unfold teamMem teamOf
  cases s.teams.find? (fun t => t.uid == u) <;> rfl

theorem groupAt_congr {s t : State} (h : t.groups = s.groups) (p : Place) : groupAt t p = groupAt s p := by
  unfold groupAt
  rw [h]

/-- Where the groups are as after replacing one, every other place holds what it held. -/
theorem groupAt_of_setGroup {s t : State} {g : Group} (h : t.groups = (setGroup s g).groups) {q : Place}
    (hq : q ≠ g.place) : groupAt t q = groupAt s q :=
  (groupAt_congr h q).trans (groupAt_setGroup_ne s hq)

/-- A state keeps what issuing keeps where the other groups are as before and the teams of one name have changed their
counts only. -/
theorem issueKeeps_of_teams_map {s t : State} {p : Place} {u : Nat} {f : Team → Team}
    (hrest : t = { s with groups := t.groups, teams := t.teams })
    (hgroups : ∀ q, q ≠ p → groupAt t q = groupAt s q)
    (hteams : t.teams = s.teams.map (fun x => if x.uid == u then f x else x)) (hf : CountsOnly f) :
    IssueKeeps s p t := by
  have found (v : Nat) : teamOf t v = (teamOf s v).map (fun x => if x.uid = u then f x else x) :=
    teamOf_map s u f hf.uid t.teams hteams v
  refine ⟨hrest, hgroups, fun v x hx => ?_, fun v tile => ?_⟩
  · rw [found, hx]
    refine ⟨_, rfl, ?_⟩
    by_cases h : x.uid = u
    · simpa [h] using hf x
    · simp [h]
  · rw [teamMem_eq_teamOf, teamMem_eq_teamOf, found]
    cases teamOf s v with
    | none => rfl
    | some x => by_cases h : x.uid = u <;> simp [h, hf.tmem, hf.tile]

/-- Putting the issuer's group back replaces it and counts the instruction. -/
theorem issueKeeps_commit (s : State) (e : Env) {g : Group} (hg : g.place = e.g.place) :
    IssueKeeps s e.g.place (commit s e g) :=
  issueKeeps_of_teams_map rfl
    (fun _ hq => groupAt_of_setGroup (commit_groups s e g) (by simpa [hg] using hq))
    (commit_teams s e g) (fun _ => rfl)

theorem issueKeeps_advance (s : State) (e : Env) {g : Group} (hg : g.place = e.g.place) :
    IssueKeeps s e.g.place (advance s e g) :=
  issueKeeps_commit s e ((Group.setPc_place g e.slices e.pc.next).trans hg)

theorem issueKeeps_beginWait (s : State) (e : Env) {g : Group} (hg : g.place = e.g.place)
    (kind cmp object value : Nat) (cont : Cont) :
    IssueKeeps s e.g.place (beginWait s e g kind cmp object value cont) :=
  issueKeeps_commit s e hg

theorem issueKeeps_soil (s : State) (p : Place) (u : Nat) : IssueKeeps s p (soil s u) :=
  issueKeeps_of_teams_map rfl (fun q _ => groupAt_congr (soil_groups s u) q) (soil_teams s u) (fun _ => rfl)

theorem issueKeeps_stall (s : State) (e : Env) : IssueKeeps s e.g.place (stall s e) :=
  issueKeeps_of_teams_map (u := 0) (f := id) rfl
    (fun _ hq => groupAt_of_setGroup (stall_groups s e) hq) (by simp) (fun _ => rfl)

/-- A stalled issuer stands in its place with its fragment marked (R180). -/
theorem groupAt_stall_self {s : State} {e : Env} {g0 : Group} (h : groupAt s e.g.place = some g0) :
    groupAt (stall s e) e.g.place = some { e.g with stalled := e.g.stalled ||| sliceBits e.slices } :=
  groupAt_setGroup_self (g := { e.g with stalled := e.g.stalled ||| sliceBits e.slices }) h

/-- Settles O7: every operation replaces the group of the issuer's place at most and changes of teams only their counts. -/
theorem issueFrame : Obligations.IssueFrame := by
  unfold Obligations.IssueFrame
  intro s e g kind cmp object value cont hg kept
  exact ⟨issueKeeps_advance s e hg, issueKeeps_commit s e hg, issueKeeps_beginWait s e hg kind cmp object value cont,
    issueKeeps_soil s e.g.place e.t.uid, issueKeeps_stall s e, stall_teams s e, fun _ h => groupAt_stall_self h, rfl⟩

end Sys2Proof.Machine
end

section
/-! SUPPORT. Repair, power gating and the clock limit (R14, R15, R212, R231, R232): what giving up registrations leaves of the
first-level caches, and what a fenced core, a worn core and a gated cluster are left with. -/

namespace Sys2Proof.Machine

open Sys2Proof

/-! ### Writes at the home change memory and aliased lines only -/

/-- From `s` to `t` nothing changes but memory and the aliased lines: the two places where a home keeps bytes (R149, R207). -/
def OnlyHome (s t : State) : Prop := ∃ mem aliases, t = { s with mem := mem, aliases := aliases }

theorem OnlyHome.refl (s : State) : OnlyHome s s := ⟨s.mem, s.aliases, rfl⟩

theorem OnlyHome.trans {s t u : State} (hst : OnlyHome s t) (htu : OnlyHome t u) : OnlyHome s u := by
  obtain ⟨_, _, rfl⟩ := hst
  obtain ⟨m, a, rfl⟩ := htu
  exact ⟨m, a, rfl⟩

theorem OnlyHome.l1 {s t : State} (h : OnlyHome s t) : t.l1 = s.l1 := by
  obtain ⟨_, _, rfl⟩ := h
  rfl

theorem OnlyHome.gated {s t : State} (h : OnlyHome s t) : t.gated = s.gated := by
  obtain ⟨_, _, rfl⟩ := h
  rfl

/-- What else a state holds is put beside a write at the home without a difference. -/
theorem OnlyHome.withL1 {s t : State} (h : OnlyHome s t) (l : List L1Word) :
    OnlyHome { s with l1 := l } { t with l1 := l } := by
  obtain ⟨m, a, rfl⟩ := h
  exact ⟨m, a, rfl⟩

theorem onlyHome_aliasWb (s : State) (line : Nat) : OnlyHome s (aliasWb s line) := by
  unfold aliasWb
  split
  · split
    · exact ⟨_, _, rfl⟩
    · exact .refl s
  · exact .refl s

theorem onlyHome_aliasEvict (s : State) (line : Nat) : OnlyHome s (aliasEvict s line) :=
  (onlyHome_aliasWb s line).trans ⟨_, _, rfl⟩

theorem onlyHome_aliasFit (slice cap n : Nat) (s : State) : OnlyHome s (aliasFit slice cap n s) := by
  induction n generalizing s with
  | zero => exact .refl s
  | succ n ih =>
    unfold aliasFit
    split
    · exact .refl s
    · split
      · exact (onlyHome_aliasEvict s _).trans (ih _)
      · exact .refl s

theorem onlyHome_aliasTidy (s : State) (line : Nat) : OnlyHome s (aliasTidy s line) := onlyHome_aliasFit _ _ _ s

theorem onlyHome_aliasFill (s : State) (line : Nat) : OnlyHome s (aliasFill s line) := by
  unfold aliasFill
  split
  · exact (onlyHome_aliasFit _ _ _ s).trans ⟨_, _, rfl⟩
  · exact .refl s

theorem onlyHome_homeSet (s : State) (a b : Nat) : OnlyHome s (homeSet s a b) := by
  unfold homeSet
  split
  · exact ⟨_, _, rfl⟩
  · exact ((onlyHome_aliasFill s _).trans ⟨_, _, rfl⟩).trans (onlyHome_aliasTidy _ _)

theorem onlyHome_wbWord (s : State) (w : L1Word) : OnlyHome s (wbWord s w) := by
  unfold wbWord
  refine List.foldlRecOn _ _ (OnlyHome.refl s) fun t ht k _ => ?_
  split
  · exact ht.trans (onlyHome_homeSet t _ _)
  · exact ht

/-! ### Giving up registrations (R207) -/

/-- A revoked word is written back at its home and leaves the first-level caches, and that is all. -/
theorem onlyHome_revoke (s : State) (w : Nat) :
    OnlyHome { s with l1 := s.l1.filter (fun y => !(y.reg && y.addr == w)) } (revoke s w) := by
  unfold revoke
  split
  next x _ =>
    have back := onlyHome_wbWord s x
    simpa only [back.l1] using back.withL1 _
  next free =>
    have unregistered : ∀ y ∈ s.l1, (!(y.reg && y.addr == w)) = true := fun y hy =>
      (Bool.not_eq_true' _).mpr (Bool.eq_false_iff.2 (List.find?_eq_none.1 free y hy))
    rw [List.filter_eq_self.2 unregistered]
    exact .refl s

/-- Revoking the words of a list, one after another, takes every registration of one of them out of the first-level caches. -/
theorem onlyHome_foldl_revoke (ws : List L1Word) (s : State) :
    OnlyHome { s with l1 := s.l1.filter (fun y => !(y.reg && ws.any (fun x => y.addr == x.addr))) }
      (ws.foldl (fun s x => revoke s x.addr) s) := by
  induction ws generalizing s with
  | nil =>
    have every : ∀ y ∈ s.l1, (!(y.reg && ([] : List L1Word).any (fun x => y.addr == x.addr))) = true := fun y _ => by
      rw [List.any_nil, Bool.and_false, Bool.not_false]
    rw [List.filter_eq_self.2 every]
    exact .refl s
  | cons x ws ih =>
    have first := onlyHome_revoke s x.addr
    have both := (first.withL1 _).trans (ih (revoke s x.addr))
    have joined : (revoke s x.addr).l1.filter (fun y => !(y.reg && ws.any (fun x => y.addr == x.addr)))
        = s.l1.filter (fun y => !(y.reg && (x :: ws).any (fun x => y.addr == x.addr))) := by
      rw [first.l1, List.filter_filter]
      refine List.filter_congr fun y _ => ?_
      rw [List.any_cons, Bool.and_or_distrib_left, Bool.not_or, Bool.and_comm]
    rwa [joined] at both

/-- No registration that the test selects is left. -/
theorem reg_of_mem_revokeWhere {s : State} {p : L1Word → Bool} {x : L1Word} (hx : x ∈ (revokeWhere s p).l1)
    (hreg : x.reg = true) : p x = false := by
  rw [revokeWhere, (onlyHome_foldl_revoke _ s).l1] at hx
  obtain ⟨held, kept⟩ := List.mem_filter.1 hx
  simp only [hreg, Bool.true_and, Bool.not_eq_true', List.any_eq_false, beq_iff_eq] at kept
  cases selected : p x with
  | false => rfl
  | true => exact absurd rfl (kept x (List.mem_filter.2 ⟨held, by rw [hreg, selected, Bool.true_and]⟩))

@[simp] theorem revokeWhere_gated (s : State) (p : L1Word → Bool) : (revokeWhere s p).gated = s.gated :=
  (onlyHome_foldl_revoke _ s).gated

/-! ### Gating a cluster and waking it (R212) -/

/-- Gating gives up the cluster's registrations whether or not it can be gated at once. -/
theorem execClusterGate_spec (die cluster : Nat) (s : State) : ∃ t, execClusterGate die cluster s = .next t
    ∧ (∀ x ∈ t.l1, x.reg = true → inCluster s die cluster x.die x.core = false)
    ∧ t.gated = if clusterQuiet s die cluster && !s.gated.contains (die, cluster) then (die, cluster) :: s.gated else s.gated := by
  unfold execClusterGate
  by_cases now : (clusterQuiet s die cluster && !s.gated.contains (die, cluster)) = true
  · simp only [if_pos now]
    exact ⟨_, rfl, fun _ => reg_of_mem_revokeWhere, congrArg _ (revokeWhere_gated s _)⟩
  · simp only [if_neg now]
    exact ⟨_, rfl, fun _ => reg_of_mem_revokeWhere, revokeWhere_gated s _⟩

/-- What is dropped of the first-level caches is what the test selects. -/
theorem of_mem_dropCaches_l1 {s : State} {p : Nat → Nat → Bool} {x : L1Word} (hx : x ∈ (dropCaches s p).l1) :
    p x.die x.core = false :=
  (Bool.not_eq_true' _).mp (List.mem_filter.1 hx).2

theorem execClusterWake_spec {die cluster : Nat} {s : State} (h : s.gated.contains (die, cluster) = true) :
    ∃ t, execClusterWake die cluster s = .next t ∧ (die, cluster) ∉ t.gated
      ∧ ∀ x ∈ t.l1, inCluster s die cluster x.die x.core = false := by
  unfold execClusterWake
  rw [if_pos h]
  refine ⟨_, rfl, fun still => ?_, fun _ => of_mem_dropCaches_l1⟩
  exact bne_iff_ne.1 (List.mem_filter.1 still).2 rfl

/-! ### Fencing a core and taking a spare (R15, R232) -/

/-- A core that is fenced: its teams have left it, and its caches are empty. -/
def emptiedCore (s : State) (die core : Nat) (lost : List Nat) : State :=
  let here (d c : Nat) : Bool := d == die && c == core
  let left := (s.teams.filter (fun t => t.die == die && t.core == core)).foldl (fun s t => fenceTeam s lost t)
    { s with
      fenced := (die, core) :: s.fenced
      coreErrs := s.coreErrs.filter (fun x => !(x.1 == die && x.2.1 == core)) }
  dropCaches (revokeWhere left (fun x => here x.die x.core)) here

/-- A spare core of the die takes the number of a core that is fenced. -/
def takenOver (s : State) (die core : Nat) : State :=
  countSpare { s with
    spareCores := s.spareCores ++ [(die, core)]
    fenced := s.fenced.filter (fun x => x != (die, core)) } 0

theorem execCoreFence_of_fenced {s : State} {die core : Nat} (lost : List Nat) (h : s.fenced.contains (die, core) = true) :
    execCoreFence die core lost s = .next s := if_pos h

/-- A core is fenced once, and a spare one takes its number while one of the die's four is not in use. -/
theorem execCoreFence_of_not_fenced {s : State} {die core : Nat} (lost : List Nat)
    (h : s.fenced.contains (die, core) = false) :
    execCoreFence die core lost s
      = if ((emptiedCore s die core lost).spareCores.filter (fun x => x.1 == die)).length < 4
        then .next (takenOver (emptiedCore s die core lost) die core) else .next (emptiedCore s die core lost) :=
  if_neg (Bool.eq_false_iff.1 h)

/-! ### Spare units and corrected errors (R231, R232) -/

theorem execSpareRemap_of_left {s : State} {die : Nat} {channel : Bool} (unit : Nat)
    (h : (s.remapped.filter (fun r => r.1 == die && r.2.1 == channel)).length < if channel then 1 else 2) :
    execSpareRemap die channel unit s
      = .next (countSpare { s with remapped := s.remapped ++ [(die, channel, unit)] } (if channel then 2 else 1)) :=
  if_neg (Nat.not_le.2 h)

theorem execSpareRemap_of_used {s : State} {die : Nat} {channel : Bool} (unit : Nat)
    (h : (if channel then 1 else 2) ≤ (s.remapped.filter (fun r => r.1 == die && r.2.1 == channel)).length) :
    execSpareRemap die channel unit s = .next s := if_pos h

/-- The list of worn cores is drawn from the cores that have reported an error, which one with 64 reports has. -/
theorem mem_wornCores {s : State} {die core : Nat} : (die, core) ∈ wornCores s ↔
    64 ≤ (s.coreErrs.filter (fun x => x.1 == die && x.2.1 == core && decide (s.clock < x.2.2 + 2 ^ 30))).length := by
  unfold wornCores
  rw [List.mem_filter, List.mem_eraseDups, decide_eq_true_iff]
  refine and_iff_right_of_imp fun many => ?_
  obtain ⟨x, hx⟩ := List.exists_mem_of_length_pos (Nat.lt_of_lt_of_le (by decide) many)
  obtain ⟨reported, here⟩ := List.mem_filter.1 hx
  obtain ⟨⟨hdie, hcore⟩, -⟩ : (x.1 = die ∧ x.2.1 = core) ∧ s.clock < x.2.2 + 2 ^ 30 := by
    simpa only [Bool.and_eq_true, beq_iff_eq, decide_eq_true_eq] using here
  exact List.mem_map.2 ⟨x, reported, by rw [hdie, hcore]⟩

/-- Settles O55: the events on spares, corrected errors and the clock have one branch per clause; a worn core has reported an
error; and a gated cluster is left without registrations because each word of its own is revoked by address. -/
theorem repairAndPower : Obligations.RepairAndPower := by
  unfold Obligations.RepairAndPower
  intro s die core cluster unit line mhz channel lost here left empty used ecc
  refine ⟨?fenced, ?fence, ?remap, ?used, ?scrub, mem_wornCores, ?gate, ?wake, ?limit⟩
  case fenced => exact execCoreFence_of_fenced lost
  case fence =>
    intro h
    have fence := execCoreFence_of_not_fenced lost h
    exact ⟨fun four => fence.trans (if_neg (Nat.not_lt.2 four)), fun spare => fence.trans (if_pos spare)⟩
  case remap => exact execSpareRemap_of_left unit
  case used => exact execSpareRemap_of_used unit
  case scrub => exact ⟨rfl, rfl, rfl, rfl⟩
  case gate =>
    obtain ⟨t, gates, gone, mark⟩ := execClusterGate_spec die cluster s
    refine ⟨t, gates, gone, fun quiet fresh => ?_, fun busy => ?_⟩
    · rw [mark, quiet, fresh]
      rfl
    · rw [mark, busy]
      rfl
  case wake => exact execClusterWake_spec
  case limit => rfl

end Sys2Proof.Machine
end

section
/-! SUPPORT. Calls and returns as changes of a group (R30, R49 to R51): what a callee finds, and that a return gives the caller
back what its call took. -/

namespace Sys2Proof.Machine

open Sys2Proof

/-! ### A callee's registers (R50, step 5) -/

/-- Where all entries of a list with one key agree, that key reads as their value once the list is written. -/
theorem tabGet_foldl_tabSet (ps : List (Nat × Nat)) (t : Tab 32) {a x : Nat} (agree : ∀ p ∈ ps, p.1 = a → p.2 = x) :
    tabGet (ps.foldl (fun t p => tabSet t p.1 (BitVec.ofNat 32 p.2)) t) a
      = if a ∈ ps.map (·.1) then BitVec.ofNat 32 x else tabGet t a := by
  induction ps generalizing t with
  | nil => rfl
  | cons p ps ih =>
    rw [List.foldl_cons, ih _ fun q hq => agree q (List.mem_cons_of_mem p hq), tabGet_tabSet, List.map_cons]
    by_cases later : a ∈ ps.map (·.1)
    · rw [if_pos later, if_pos (List.mem_cons_of_mem p.1 later)]
    · rw [if_neg later]
      by_cases here : a = p.1
      · rw [if_pos here, if_pos (here ▸ List.mem_cons_self), agree p List.mem_cons_self here.symm]
      · rw [if_neg here, if_neg (by simp only [List.mem_cons, here, later, or_self, not_false_eq_true])]

/-- The word of lane `l` in argument age `k` (from 0), zero where the age is invalid. -/
def argWord (args : List (List Age)) (k l : Nat) : Nat :=
  match (args.getD (l / 4) [])[k]? with
  | some a => if a.valid then fld a.data.toNat (32 * (l % 4)) 32 else 0
  | none => 0

theorem argWord_lt (args : List (List Age)) (k l : Nat) : argWord args k l < 2 ^ 32 := by
  unfold argWord
  split
  · split
    · exact Nat.mod_lt _ (Nat.two_pow_pos 32)
    · exact Nat.two_pow_pos 32
  · exact Nat.two_pow_pos 32

/-- The entries that a call writes into the callee's registers: 16 registers of 32 lanes. -/
def argEntries (args : List (List Age)) : List (Nat × Nat) :=
  ((List.range 16).map (fun k => (List.range 32).map (fun l => (32 * k + l, argWord args k l)))).flatten

theorem argRegs_eq (args : List (List Age)) :
    argRegs args = (argEntries args).foldl (fun t p => tabSet t p.1 (BitVec.ofNat 32 p.2)) [] := by
  unfold argRegs argEntries
  congr 3
  funext k
  congr 1
  funext l
  unfold argWord
  cases (args.getD (l / 4) [])[k]? <;> rfl

theorem mem_argEntries {args : List (List Age)} {p : Nat × Nat} :
    p ∈ argEntries args ↔ ∃ k < 16, ∃ l < 32, p = (32 * k + l, argWord args k l) := by
  simp only [argEntries, List.mem_flatten, List.mem_map, List.mem_range]
  constructor
  · rintro ⟨_, ⟨k, hk, rfl⟩, hp⟩
    obtain ⟨l, hl, rfl⟩ := List.mem_map.1 hp
    exact ⟨k, hk, l, List.mem_range.1 hl, rfl⟩
  · rintro ⟨k, hk, l, hl, rfl⟩
    exact ⟨_, ⟨k, hk, rfl⟩, List.mem_map.2 ⟨l, List.mem_range.2 hl, rfl⟩⟩

/-- A callee's frame: argument age K in v(K - 1), and every register from v16 on zero (R49, R50). -/
theorem Frame.v_argRegs (bs : List Bool) (args : List (List Age)) (n : Nat) {l : Nat} (hl : l < 32) :
    Frame.v { blocks := bs, regs := argRegs args, spilled := false } n l = if n < 16 then argWord args n l else 0 := by
  have agree : ∀ p ∈ argEntries args, p.1 = 32 * n + l → p.2 = argWord args n l := by
    intro p hp hkey
    obtain ⟨k, -, j, hj, rfl⟩ := mem_argEntries.1 hp
    obtain ⟨rfl, rfl⟩ : k = n ∧ j = l := by dsimp only at hkey; omega
    rfl
  have key : 32 * n + l ∈ (argEntries args).map (·.1) ↔ n < 16 := by
    constructor
    · intro h
      obtain ⟨p, hp, hkey⟩ := List.mem_map.1 h
      obtain ⟨k, hk, j, hj, rfl⟩ := mem_argEntries.1 hp
      dsimp only at hkey
      omega
    · exact fun h => List.mem_map.2 ⟨_, mem_argEntries.2 ⟨n, h, l, hl, rfl⟩, rfl⟩
  unfold Frame.v
  rw [argRegs_eq, tabGet_foldl_tabSet _ _ agree]
  by_cases h : n < 16
  · rw [if_pos (key.2 h), if_pos h, BitVec.toNat_ofNat, Nat.mod_eq_of_lt (argWord_lt args n l)]
  · rw [if_neg (mt key.1 h), if_neg h]
    rfl

/-! ### Lanes of one slice in a mask -/

/-- The field of a slice in a mask of lanes is the lane mask of that slice. -/
theorem fld_maskOf_slice (p : Nat → Bool) {k : Nat} (hk : k < 8) {x : BitVec 4}
    (h : ∀ j < 4, p (4 * k + j) = bitOf x.toNat j) : BitVec.ofNat 4 (fld (maskOf p).toNat (4 * k) 4) = x := by
  refine BitVec.eq_of_getLsbD_eq fun j hj => ?_
  have lane := hasLane_maskOf p (4 * k + j)
  rw [hasLane, bitOf_eq_testBit, h j hj, bitOf_eq_testBit, decide_eq_true (show 4 * k + j < 32 by omega), Bool.true_and] at lane
  rw [BitVec.getLsbD_ofNat, fld, Nat.testBit_mod_two_pow, Nat.testBit_div_two_pow, Nat.add_comm j, lane, decide_eq_true hj,
    Bool.true_and, Bool.true_and]
  rfl

/-- The running lanes of an executing slice, taken from the mask that its call record keeps (R50). -/
theorem fld_lanesRun {g : Group} {ks : List Nat} {k : Nat} {sl : Slice} (hsl : g.slices[k]? = some sl) (hk : k ∈ ks)
    (h8 : k < 8) : BitVec.ofNat 4 (fld (lanesRun g ks).toNat (4 * k) 4) = sl.run := by
  refine fld_maskOf_slice _ h8 fun j hj => ?_
  rw [show (4 * k + j) / 4 = k by omega, show (4 * k + j) % 4 = j by omega, hsl, List.contains_iff_mem.2 hk, Bool.true_and]

/-- The slices that a mask of eight bits names are those of its bits. -/
theorem contains_filter_bitOf (x : BitVec 8) (k : Nat) :
    ((List.range 8).filter (fun j => bitOf x.toNat j)).contains k = bitOf x.toNat k := by
  rw [Bool.eq_iff_iff, List.contains_iff_mem, List.mem_filter, List.mem_range, and_iff_right_iff_imp]
  refine fun h => Nat.lt_of_not_le fun far => ?_
  rw [bitOf_eq_testBit, BitVec.testBit_toNat, BitVec.getLsbD_of_ge x k far] at h
  cases h

/-! ### Calls -/

/-- A slice outside the fragment that calls, when the call makes a record of depth `d` (R30). -/
def Slice.suspended (d : Nat) (sl : Slice) : Slice :=
  if sl.live && sl.held.isNone then { sl with held := some d } else sl

theorem Group.callNow_slices_of_mem {g : Group} {ks : List Nat} {k : Nat} {sl : Slice} (hsl : g.slices[k]? = some sl)
    (hk : k ∈ ks) (pc target : Pc) (bs : List Bool) (args : List (List Age)) :
    (g.callNow ks pc target bs args).slices[k]? = some { sl with pc := target } := by
  unfold Group.callNow
  rw [Group.mapSlices_get, hsl, Option.map_some, if_pos (List.contains_iff_mem.2 hk)]

theorem Group.callNow_slices_of_not_mem {g : Group} {ks : List Nat} {k : Nat} {sl : Slice} (hsl : g.slices[k]? = some sl)
    (hk : k ∉ ks) (pc target : Pc) (bs : List Bool) (args : List (List Age)) :
    (g.callNow ks pc target bs args).slices[k]? = some (sl.suspended (g.calls.length + 1)) := by
  unfold Group.callNow
  rw [Group.mapSlices_get, hsl, Option.map_some, if_neg (mt List.contains_iff_mem.1 hk)]
  rfl

@[simp] theorem Group.callNow_slices_length (g : Group) (ks : List Nat) (pc target : Pc) (bs : List Bool)
    (args : List (List Age)) : (g.callNow ks pc target bs args).slices.length = g.slices.length :=
  Group.mapSlices_length g _

/-- The executing slices of a callee have an empty casement, and the others keep theirs (R30, R50). -/
theorem Group.callNow_cas (g : Group) (ks : List Nat) (pc target : Pc) (bs : List Bool) (args : List (List Age)) (k : Nat) :
    (g.callNow ks pc target bs args).main.cas[k]? = (g.main.cas[k]?).map (fun a => if ks.contains k then emptyCas else a) :=
  RegCtx.mapCas_get g.main ks (fun _ _ => emptyCas) k

/-- The record of a call (R50, step 4). -/
def Group.callRecord (g : Group) (ks : List Nat) (pc : Pc) : CallRec :=
  { ret := pc.next, frame := g.main.frame, ages := g.main.cas.map (fun a => a.drop 8), exec := sliceBits ks,
    depths := g.slices.map (fun sl => sl.stack.length), mask := lanesRun g ks, spilled := false }

theorem Group.callNow_calls (g : Group) (ks : List Nat) (pc target : Pc) (bs : List Bool) (args : List (List Age)) :
    (g.callNow ks pc target bs args).calls = g.callRecord ks pc :: g.calls := rfl

/-! ### Returns -/

/-- A slice that a record of depth `n` or more suspends goes on (R30). -/
def Slice.resumed (n : Nat) (sl : Slice) : Slice :=
  match sl.held with
  | some d => if n ≤ d then { sl with held := none } else sl
  | none => sl

/-- An executing slice of a record at the return point, with its lanes (R51, steps 5 and 6). -/
def Slice.returned (c : CallRec) (k : Nat) (sl : Slice) : Slice :=
  if bitOf c.exec.toNat k && sl.live then { sl with pc := c.ret, run := BitVec.ofNat 4 (fld c.mask.toNat (4 * k) 4) } else sl

section
variable {g : Group} {c : CallRec} {rest : List CallRec} (top : g.calls = c :: rest) (n : Nat)
include top

theorem Group.retNow_frame : (g.retNow n).main.frame = c.frame := by
  unfold Group.retNow
  rw [top]
  rfl

theorem Group.retNow_calls : (g.retNow n).calls = rest := by
  unfold Group.retNow
  rw [top]
  rfl

theorem Group.retNow_slices (k : Nat) : (g.retNow n).slices[k]?
    = (g.slices[k]?).map (fun sl => (sl.returned c k).resumed (rest.length + 1)) := by
  unfold Group.retNow
  rw [top]
  unfold Group.trimUnw Group.resume
  simp only [Group.mapSlices_get, Option.map_map]
  congr 1
  funext sl
  simp only [Function.comp_apply, contains_filter_bitOf]
  rfl

/-- The casement of an executing slice holds the results, eight invalid ages and the caller's older ages (R51, step 4). -/
theorem Group.retNow_cas {k : Nat} {a : List Age} (hk : bitOf c.exec.toNat k = true) (ha : g.main.cas[k]? = some a) :
    (g.retNow n).main.cas[k]?
      = some ((a.take n ++ List.replicate 8 ({ valid := false, data := 0 } : Age) ++ c.ages.getD k []).take 16) := by
  unfold Group.retNow
  rw [top]
  refine (RegCtx.mapCas_get g.main _ _ k).trans ?_
  rw [contains_filter_bitOf, ha, hk]
  rfl

end

/-! ### A return straight after a call -/

/-- The return takes an executing slice to the instruction after the call, with the lanes that called. -/
theorem Slice.resumed_returned_of_call {g : Group} {ks : List Nat} {k : Nat} {sl : Slice} (hsl : g.slices[k]? = some sl)
    (hk : k ∈ ks) (h8 : k < 8) (nodup : ks.Nodup) (all8 : ∀ k ∈ ks, k < 8) (ready : sl.ready = true) (pc target : Pc) (d : Nat) :
    (Slice.returned (g.callRecord ks pc) k { sl with pc := target }).resumed d = { sl with pc := pc.next } := by
  obtain ⟨⟨run, -⟩, held⟩ : (sl.run ≠ 0 ∧ sl.arrived = false) ∧ sl.held = none := by
    simpa only [Slice.ready, Bool.and_eq_true, bne_iff_ne, Bool.not_eq_true', Option.isNone_iff_eq_none] using ready
  have names : bitOf (g.callRecord ks pc).exec.toNat k = true :=
    (bitOf_sliceBits nodup all8 k).trans (List.contains_iff_mem.2 hk)
  have live : Slice.live { sl with pc := target } = true := by
    unfold Slice.live
    rw [bne_iff_ne.2 run, Bool.true_or]
  unfold Slice.returned
  rw [names, live, Bool.true_and, if_pos rfl]
  unfold Slice.resumed
  simp only [held]
  exact congrArg (fun r => ({ sl with pc := pc.next, run := r, held := none } : Slice)) (fld_lanesRun hsl hk h8)

/-- The return leaves a slice outside the fragment as it stood before the call: it resumes what the call has suspended, and
nothing that an older record holds. -/
theorem Slice.resumed_returned_of_suspended {g : Group} {ks : List Nat} {k : Nat} {sl : Slice} (hk : k ∉ ks) (nodup : ks.Nodup)
    (all8 : ∀ k ∈ ks, k < 8) (d : Nat) (shallow : ∀ h, sl.held = some h → h < d) (pc : Pc) :
    (Slice.returned (g.callRecord ks pc) k (sl.suspended d)).resumed d = sl := by
  have other : bitOf (g.callRecord ks pc).exec.toNat k = false :=
    (bitOf_sliceBits nodup all8 k).trans (Bool.eq_false_iff.2 (mt List.contains_iff_mem.1 hk))
  unfold Slice.returned
  rw [other, Bool.false_and, if_neg Bool.false_ne_true]
  unfold Slice.suspended Slice.resumed
  cases held : sl.held with
  | none =>
    by_cases live : sl.live = true
    · simp [live, ← held]
    · simp [live, held]
  | some h =>
    simp [held, Nat.not_le.2 (shallow h held)]

/-- Settles O21: a callee's registers and casement are those that the call writes, and its record is what the return reads;
a return undoes the call slice by slice, on the slices that called and on those that the call suspended. -/
theorem callsKeepTheCaller : Obligations.CallsKeepTheCaller := by
  unfold Obligations.CallsKeepTheCaller
  refine ⟨fun g ks pc target bs args => ?entry, fun g ks pc target bs args n _ noHandler eight nodup ready shallow => ?back⟩
  case entry =>
    refine ⟨fun n l hl => Frame.v_argRegs bs args n hl, rfl, rfl, fun k hk here => ?inside, fun k hk => ?outside,
      ⟨g.callRecord ks pc, g.calls, rfl, rfl, rfl, rfl, rfl⟩,
      fun k sl hsl hk => Group.callNow_slices_of_mem hsl hk pc target bs args⟩
    case inside =>
      rw [Group.callNow_cas, List.getElem?_eq_getElem here, Option.map_some, if_pos (List.contains_iff_mem.2 hk)]
    case outside =>
      rw [Group.callNow_cas]
      simp [hk]
  case back =>
    have top := g.callNow_calls ks pc target bs args
    have all8 : ∀ k ∈ ks, k < 8 := by
      intro k hk
      obtain ⟨sl, hsl, -⟩ := ready k hk
      exact eight ▸ (List.getElem?_eq_some_iff.1 hsl).1
    refine ⟨Group.retNow_frame top n, Group.retNow_calls top n, ?slices, fun k a ha hk => ?ages⟩
    case slices =>
      refine List.ext_getElem? fun k => ?_
      rw [Group.retNow_slices top, Group.setPc_mapSlices noHandler, Group.mapSlices_get]
      cases hsl : g.slices[k]? with
      | none =>
        rw [List.getElem?_eq_none (by rw [Group.callNow_slices_length]; exact List.getElem?_eq_none_iff.1 hsl)]
        rfl
      | some sl =>
        by_cases hk : k ∈ ks
        · obtain ⟨sl', hsl', isReady⟩ := ready k hk
          obtain rfl : sl' = sl := Option.some.inj (hsl'.symm.trans hsl)
          rw [Group.callNow_slices_of_mem hsl hk, Option.map_some, Option.map_some, if_pos (List.contains_iff_mem.2 hk),
            Slice.resumed_returned_of_call hsl hk (all8 k hk) nodup all8 isReady]
        · have held : ∀ d, sl.held = some d → d < g.calls.length + 1 := fun d hd =>
            Nat.lt_succ_of_le (shallow sl (List.mem_of_getElem? hsl) d hd)
          rw [Group.callNow_slices_of_not_mem hsl hk, Option.map_some, Option.map_some,
            if_neg (mt List.contains_iff_mem.1 hk), Slice.resumed_returned_of_suspended hk nodup all8 _ held]
    case ages =>
      have names : bitOf (g.callRecord ks pc).exec.toNat k = true :=
        (bitOf_sliceBits nodup all8 k).trans (List.contains_iff_mem.2 hk)
      have fresh : (g.callNow ks pc target bs args).main.cas[k]? = some emptyCas := by
        rw [Group.callNow_cas, ha, Option.map_some, if_pos (List.contains_iff_mem.2 hk)]
      have older : (g.callRecord ks pc).ages.getD k [] = a.drop 8 := by
        rw [List.getD_eq_getElem?_getD, Group.callRecord, List.getElem?_map, ha]
        rfl
      rw [Group.retNow_cas top n.val names fresh, older]

end Sys2Proof.Machine
end

section
/-! SUPPORT. The instructions that call, return and unwind, where their checks pass (R50 to R52, R291, R292, R350, R372). -/

namespace Sys2Proof.Machine

open Sys2Proof

/-! ### Checks that pass -/

/-- Without operands only the guard can fail, whatever lanes are active. -/
theorem operandFault_no_operands (e : Env) (gd : Guard) (act : Mask) : operandFault e gd act [] [] []
    = if e.g.unwaitedPred gd.pred.val then some { cause := 0x06, lanes := e.live } else none := by
  unfold operandFault
  simp

theorem Clear.no_operands_congr {e : Env} {gd : Guard} {act act' : Mask} (h : Clear e gd act [] [] []) :
    Clear e gd act' [] [] [] := by
  unfold Clear at h ⊢
  rwa [operandFault_no_operands] at h ⊢

/-- Where every running lane holds the guard and the operands pass, the instruction goes on (R291, R350, R372, R376). -/
theorem allOrNone_of {e : Env} {gd : Guard} {ins : List Inp} (h : AllLanes e gd ins) (s : State) (k : State → State) :
    allOrNone s e gd ins k = k s := by
  obtain ⟨every, running, pass⟩ := h
  unfold allOrNone
  dsimp only
  rw [every, show operandFault e gd (lowMask e.live) ins [] [] = none from pass]
  dsimp only
  rw [if_neg running, if_neg (not_not_intro rfl)]

/-- Where the target passes its check, the transfer goes on (R238, R241). -/
theorem withTarget_of {s : State} {e : Env} {seg : Nat} {idx : Int} {s' : State} (h : TargetOk s e seg idx s') (act : Mask)
    (k : State → State) : withTarget s e act seg idx k = k s' := by
  unfold withTarget
  rw [show checkTarget s e.view seg idx = (.ok, s') from h]

/-- Where the divergence entries come back from the hatch area, the group is put back with them (R25). -/
theorem withRefill_of {s : State} {e : Env} {g : Group} {g' : Group} {s' : State}
    (h : refillDiv e.t e.g g (List.range 8) s = (.inl g', s')) (k : State → Group → State) : withRefill s e g k = k s' g' := by
  simp only [withRefill, h]

/-! ### Call records on chip and in the hatch area (R50, R51, R60) -/

theorem modAt_eq_modify {α : Type} (l : List α) (i : Nat) (f : α → α) : modAt l i f = l.modify i f := by
  induction l generalizing i with
  | nil => cases i <;> rfl
  | cons a l ih =>
    cases i with
    | zero => rfl
    | succ i => rw [modAt, ih, List.modify_succ_cons]

@[simp] theorem length_modAt {α : Type} (l : List α) (i : Nat) (f : α → α) : (modAt l i f).length = l.length := by
  rw [modAt_eq_modify, List.length_modify]

@[simp] theorem getElem?_modAt_self {α : Type} (l : List α) (i : Nat) (f : α → α) : (modAt l i f)[i]? = l[i]?.map f := by
  rw [modAt_eq_modify, List.getElem?_modify_eq, Option.map_eq_map]

theorem recordRoom_of_room {g : Group} (h : g.onChip < 4) (s : State) (t : Team) : recordRoom s t g = (.inl g, s) := if_pos h

/-- Making room for a record changes the call records only: with four on chip the oldest of them becomes a stub. -/
theorem recordRoom_spec {s : State} {t : Team} {g g' : Group} {s' : State} (h : recordRoom s t g = (.inl g', s')) :
    g' = { g with calls := g'.calls } ∧ g'.calls.length = g.calls.length
      ∧ (4 ≤ g.onChip → g'.calls[g.onChip - 1]? = (g.calls[g.onChip - 1]?).map CallRec.stub) := by
  unfold recordRoom at h
  split at h
  next room =>
    cases h
    exact ⟨rfl, rfl, fun full => absurd room (Nat.not_lt.2 full)⟩
  next =>
    dsimp only at h
    split at h
    next absent =>
      cases h
      refine ⟨rfl, rfl, fun _ => ?_⟩
      rw [absent]
      rfl
    next =>
      split at h
      · cases h
      · cases h
        exact ⟨rfl, length_modAt _ _ _, fun _ => getElem?_modAt_self _ _ _⟩

theorem loadRecord_of_resident {g : Group} {i : Nat} {c : CallRec} (hc : g.calls[i]? = some c) (h : c.spilled = false)
    (s : State) (t : Team) : loadRecord s t g i = (.inl g, s) := by
  unfold loadRecord
  rw [hc]
  dsimp only
  rw [h]
  rfl

/-- Bringing a record back changes the call records only, and leaves it on chip. -/
theorem loadRecord_spec {s : State} {t : Team} {g g' : Group} {i : Nat} {s' : State}
    (h : loadRecord s t g i = (.inl g', s')) : g' = { g with calls := g'.calls } ∧ g'.calls.length = g.calls.length
      ∧ ∀ c, g'.calls[i]? = some c → c.spilled = false := by
  unfold loadRecord at h
  split at h
  next absent =>
    cases h
    refine ⟨rfl, rfl, fun c hc => ?_⟩
    rw [absent] at hc
    cases hc
  next c hc =>
    split at h
    next resident =>
      cases h
      refine ⟨rfl, rfl, fun c' hc' => ?_⟩
      obtain rfl : c = c' := Option.some.inj (hc.symm.trans hc')
      exact (Bool.not_eq_true' _).mp resident
    next =>
      split at h
      · cases h
      · cases h
        refine ⟨rfl, length_modAt _ _ _, fun c' hc' => ?_⟩
        rw [getElem?_modAt_self, hc] at hc'
        cases hc'
        rfl

/-! ### call and calli -/

section
variable {s s' : State} {e : Env} {n : Nat}

theorem callRoom_of_fits (h : callFits s e.g e.t.ctx = (.inl true, s')) (target : Pc) :
    callRoom s e n target = doCall s' e n target := by
  simp only [callRoom, h]

/-- With its blocks free and room for its record a call happens at once (R50, steps 4 to 7). -/
theorem doCall_of_blocks {bs : List Bool} {g : Group} (blocks : takeBlocks s e.g n = some bs)
    (room : recordRoom s e.t (e.g.fence e.slices) = (.inl g, s')) (target : Pc) :
    doCall s e n target = commit s' e (g.callNow e.slices e.pc target bs (e.g.capture e.slices)) := by
  simp only [doCall, blocks, room]

/-- Without them it waits for a frame (R50, step 3). -/
theorem doCall_of_no_blocks (blocks : takeBlocks s e.g n = none) (target : Pc) :
    doCall s e n target = beginWait s e (e.g.fence e.slices) 7 0 n 0 (.call n target (e.g.capture e.slices)) := by
  simp only [doCall, blocks]

end

/-- call goes on to the frame once every check of R291 and step 1 of R50 has passed. -/
theorem exec_call_of_checks {s s1 s2 : State} {e : Env} {gd : Guard} {fb : BitVec 6} {off : BitVec 32} (issues : Issues 0x03 s e)
    (lanes : AllLanes e gd []) (low : 1 ≤ fb.toNat) (high : fb.toNat ≤ 24) (depth : e.g.calls.length < 255)
    (target : TargetOk (popIssue s) e e.pc.seg (e.pc.at (sint 32 off.toNat)) s1)
    (fits : callFits s1 e.g e.t.ctx = (.inl true, s2)) :
    exec (.call gd fb off) s = .next (doCall s2 e fb.toNat ⟨e.pc.seg, (e.pc.at (sint 32 off.toNat)).toNat⟩) := by
  have demand : ¬(fb.toNat < 1 ∨ 24 < fb.toNat) := by omega
  simp only [exec_call, execCall, onIssue_issues issues, allOrNone_of lanes, if_neg demand, if_neg (Nat.not_le.2 depth),
    withTarget_of target, callRoom_of_fits fits]

/-- The code segment in which calli goes on: through segment 5 the caller's own (log 21). -/
def calliSeg (e : Env) (p : Nat) : Nat := if fld p 44 20 = 5 then e.pc.seg else fld p 44 20

/-- calli goes on to the frame of the demand that the frame table names, once every check of R292 has passed. -/
theorem exec_calli_of_checks {s s1 s2 s3 s4 : State} {e : Env} {gd : Guard} {fb : BitVec 6} {a : Src} {p d n : Nat}
    (pointer : readInp e (inX 64 a) ((lowestLane e.live).getD 0) = p) (issues : Issues 0x04 s e)
    (lanes : AllLanes e gd [inX 64 a]) (governs : governing (popIssue s) e.view (fld p 44 20) = (.ok d, s1))
    (code : dKind d = 1) (entry : bitOf d 130 = true) (target : TargetOk s1 e (calliSeg e p) (fld p 0 44 : Nat) s2)
    (demand : frameDemand s2 e.view d (fld p 0 44) = (.inl (some n), s3)) (low : 1 ≤ n) (high : n ≤ 24) (named : n ≤ fb.toNat)
    (depth : e.g.calls.length < 255) (fits : callFits s3 e.g e.t.ctx = (.inl true, s4)) :
    exec (.calli gd fb a) s = .next (doCall s4 e n ⟨calliSeg e p, fld p 0 44⟩) := by
  rw [exec_calli, execCalli, onIssue_issues issues, allOrNone_of lanes]
  dsimp only
  rw [pointer, governs]
  dsimp only
  rw [if_neg (by simp [code, entry]), ← calliSeg, withTarget_of target, demand]
  dsimp only
  rw [if_neg (by omega), if_neg (Nat.not_le.2 depth), callRoom_of_fits fits]

/-! ### ret and unwind -/

/-- ret goes on with its record on chip (R51, step 1). -/
theorem exec_ret_of_checks {s s' : State} {e : Env} {gd : Guard} {g : Group} {c : CallRec} {rest : List CallRec}
    (issues : Issues 0x05 s e) (lanes : AllLanes e gd []) (loaded : loadRecord (popIssue s) e.t e.g 0 = (.inl g, s'))
    (top : g.calls = c :: rest) (n : Fin 9) : exec (.ret gd n) s = .next (retFrom s' { e with g := g } n.val) := by
  have nested : e.g.calls ≠ [] := by
    intro empty
    obtain ⟨-, same, -⟩ := loadRecord_spec loaded
    rw [top, empty] at same
    cases same
  have guard : operandFault e gd (e.active gd) [] [] [] = none := Clear.no_operands_congr lanes.2.2
  rw [exec_ret, execRet, onIssue_issues issues]
  rw [guard]
  dsimp only
  rw [if_neg nested, allOrNone_of lanes, loaded]

section
variable {s s' : State} {e : Env} {g : Group} {c : CallRec} {rest : List CallRec} (top : g.calls = c :: rest)
  (allowed : retAllowed { e with g := g } c = true)
include top allowed

/-- A return to a frame in the register file restores it at once (R51). -/
theorem retFrom_of_resident (here : c.frame.spilled = false) (n : Nat) :
    retFrom s { e with g := g } n = commit s e (g.retNow n) := by
  simp only [retFrom, top, allowed, here, Bool.not_true, Bool.false_eq_true, if_false]
  rfl

/-- A return to a spilled frame takes blocks, and the frame comes back in them (R51, R58). -/
theorem retFrom_of_blocks {bs : List Bool} {g' : Group} (away : c.frame.spilled = true)
    (blocks : takeBlocks s g c.frame.count = some bs) (back : refillCaller s e.t g bs = (.inl g', s')) (n : Nat) :
    retFrom s { e with g := g } n = commit s' e (g'.retNow n) := by
  simp only [retFrom, top, allowed, away, blocks, back, Bool.not_true, Bool.false_eq_true, if_false, if_true]
  rfl

/-- Without them it waits for a frame (log 25). -/
theorem retFrom_of_no_blocks (away : c.frame.spilled = true) (blocks : takeBlocks s g c.frame.count = none) (n : Nat) :
    retFrom s { e with g := g } n = beginWait s e g 7 0 c.frame.count 0 (.ret n) := by
  simp only [retFrom, top, allowed, away, blocks, Bool.not_true, Bool.false_eq_true, if_false, if_true]
  rfl

end

/-- Does an unwind to depth `d` leave out a live slice of the record that it goes to (R372)? -/
def unwindRefused (e : Env) (g : Group) (d : Nat) : Bool :=
  match g.calls[g.calls.length - d - 1]? with
  | some c => decide (d < g.calls.length) && unwindLacks e c
  | none => false

theorem unwindTo_eq (s : State) (e : Env) (g : Group) (d : Nat) (land : Int) : unwindTo s e g d land
    = if unwindRefused e g d then takeTrap s e { cause := 0x03, lanes := e.live }
      else withTarget s e e.live e.pc.seg land (fun s =>
        withRefill s { e with g := g } (g.unwindNow e.slices d (some ⟨e.pc.seg, land.toNat⟩)) (fun s g =>
          commit s e (g.settleFrame s.clock))) := rfl

theorem unwindLacks_eq_false {e : Env} {c : CallRec} (h : ∀ k sl, k < 8 → bitOf c.exec.toNat k = true → e.g.slices[k]? = some sl →
    sl.live = true → k ∈ e.slices) : unwindLacks e c = false := by
  unfold unwindLacks
  refine List.any_eq_false.2 fun k hk lacks => ?_
  obtain ⟨⟨named, outside⟩, live⟩ := by simpa only [Bool.and_eq_true] using lacks
  cases hsl : e.g.slices[k]? with
  | none =>
    rw [hsl] at live
    cases live
  | some sl =>
    rw [hsl] at live
    rw [List.contains_iff_mem.2 (h k sl (List.mem_range.1 hk) named hsl live)] at outside
    cases outside

/-- Where every live slice of the record executes, the unwind may go to it. -/
theorem unwindRefused_eq_false {e : Env} {g : Group} {d : Nat} (h : ∀ c, d < g.calls.length →
    g.calls[g.calls.length - d - 1]? = some c → unwindLacks e c = false) : unwindRefused e g d = false := by
  unfold unwindRefused
  split
  next c hc =>
    by_cases deep : d < g.calls.length
    · rw [h c deep hc, Bool.and_false]
    · rw [decide_eq_false deep, Bool.false_and]
  next => rfl

/-- An unwind whose record and landing pass discards the records and goes on at its landing (R52). -/
theorem unwindTo_of_checks {s s' s'' : State} {e : Env} {g g' : Group} {d : Nat} {land : Int}
    (whole : unwindRefused e g d = false) (target : TargetOk s e e.pc.seg land s')
    (back : refillDiv e.t g (g.unwindNow e.slices d (some ⟨e.pc.seg, land.toNat⟩)) (List.range 8) s' = (.inl g', s'')) :
    unwindTo s e g d land = commit s'' e (g'.settleFrame s''.clock) := by
  rw [unwindTo_eq, whole, if_neg Bool.false_ne_true, withTarget_of target]
  exact withRefill_of (e := { e with g := g }) back _

/-- unwind to the present depth reads no record, and to a smaller one has the record it needs on chip (R372, R52). -/
theorem exec_unwind_of_checks {s s' : State} {e : Env} {gd : Guard} {a : Src} {off : BitVec 32} {g : Group} {d : Nat}
    (operand : readInp e (inX 32 a) ((lowestLane e.live).getD 0) = d) (issues : Issues 0x06 s e) (lanes : AllLanes e gd [inX 32 a])
    (loaded : (d = e.g.calls.length ∧ g = e.g ∧ s' = popIssue s)
      ∨ (d < e.g.calls.length ∧ loadRecord (popIssue s) e.t e.g (e.g.calls.length - d - 1) = (.inl g, s'))) :
    exec (.unwind gd a off) s = .next (unwindTo s' e g d (e.pc.at (sint 32 off.toNat))) := by
  rw [exec_unwind, execUnwind, onIssue_issues issues, allOrNone_of lanes]
  dsimp only
  rw [operand]
  rcases loaded with ⟨rfl, rfl, rfl⟩ | ⟨deep, loaded⟩
  · rw [if_neg (Nat.lt_irrefl _), if_pos rfl]
  · rw [if_neg (Nat.lt_asymm deep), if_neg (Nat.ne_of_lt deep), loaded]

/-- Settles O20: each instruction, its checks passed, is one of the ends of `doCall`, `retFrom` and `unwindTo`. -/
theorem callsAndReturnsComplete : Obligations.CallsAndReturnsComplete := by
  unfold Obligations.CallsAndReturnsComplete
  refine ⟨?calls, ?returns, ?records⟩
  case calls =>
    intro s s1 s2 s3 s4 s5 e gd fb off a d n bs g tgt p seg args fenced depth
    refine ⟨fun issues lanes low high target fits => ?call,
      fun issues lanes governs code entry target demand low high named fits => ?calli⟩
    case call =>
      rw [exec_call_of_checks issues lanes low high depth target fits]
      exact ⟨fun blocks room => congrArg _ (doCall_of_blocks blocks room _),
        fun blocks => congrArg _ (doCall_of_no_blocks blocks _)⟩
    case calli =>
      rw [exec_calli_of_checks rfl issues lanes governs code entry target demand low high named depth fits]
      exact ⟨fun blocks room => congrArg _ (doCall_of_blocks blocks room _),
        fun blocks => congrArg _ (doCall_of_no_blocks blocks _)⟩
  case returns =>
    intro s s1 s2 s3 e gd n c rest a off g g2 bs d depth land
    refine ⟨fun issues lanes loaded top allowed => ?ret, fun issues lanes loaded whole target back => ?unwind⟩
    case ret =>
      rw [exec_ret_of_checks issues lanes loaded top n]
      exact ⟨fun here => congrArg _ (retFrom_of_resident top allowed here n.val),
        fun away blocks back => congrArg _ (retFrom_of_blocks top allowed away blocks back n.val),
        fun away blocks => congrArg _ (retFrom_of_no_blocks top allowed away blocks n.val)⟩
    case unwind =>
      obtain ⟨same, slices⟩ : g.calls.length = depth ∧ g.slices = e.g.slices := by
        rcases loaded with ⟨-, rfl, -⟩ | ⟨-, loaded⟩
        · exact ⟨rfl, rfl⟩
        · obtain ⟨rest, same, -⟩ := loadRecord_spec loaded
          exact ⟨same, by rw [rest]⟩
      rw [exec_unwind_of_checks rfl issues lanes loaded]
      refine congrArg _ (unwindTo_of_checks (unwindRefused_eq_false fun c deep hc => ?_) target back)
      rw [same] at deep hc
      exact unwindLacks_eq_false (slices ▸ whole c deep hc)
  case records =>
    exact fun s s' t g g' i => ⟨fun room => recordRoom_of_room room s t, recordRoom_spec,
      fun c hc resident => loadRecord_of_resident hc resident s t, loadRecord_spec⟩

end Sys2Proof.Machine
end

section
/-! SUPPORT. The frame instructions, and what grants blocks: freed ones, reserve ones and those that the hatch spills
(R53 to R58). -/

namespace Sys2Proof.Machine

open Sys2Proof

/-! ### Blocks -/

/-- A request that is granted takes as many blocks as it names (R55). -/
theorem length_of_takeBlocks {s : State} {g : Group} {n : Nat} {bs : List Bool} (h : takeBlocks s g n = some bs) :
    bs.length = n := by
  unfold takeBlocks at h
  dsimp only at h
  split at h
  next general =>
    cases h
    exact List.length_replicate
  next short =>
    rw [Option.ite_none_right_eq_some, Option.some.injEq] at h
    obtain ⟨-, rfl⟩ := h
    rw [List.length_append, List.length_replicate, List.length_replicate]
    omega

/-- A register of a frame whose registers are cut at a block: the blocks below stand, and the others read zero. -/
theorem toNat_tabGet_takeWhile_block (t : Tab 32) (k r : Nat) {l : Nat} (hl : l < 32) :
    (tabGet (t.takeWhile (fun p => decide (p.1 < 512 * k))) (32 * r + l)).toNat
      = if r < 16 * k then (tabGet t (32 * r + l)).toNat else 0 := by
  rw [tabGet_takeWhile]
  by_cases below : r < 16 * k
  · rw [if_pos (by omega), if_pos below]
  · rw [if_neg (by omega), if_neg below]
    rfl

theorem Group.giveNow_count (g : Group) (n : Nat) : (g.giveNow n).main.frame.count = g.main.frame.count - n := by
  rw [Frame.count, Group.giveNow, List.length_take]
  exact Nat.min_eq_left (Nat.sub_le _ _)

theorem Group.giveNow_v (g : Group) (n r : Nat) {l : Nat} (hl : l < 32) : (g.giveNow n).main.frame.v r l
    = if r < 16 * (g.main.frame.count - n) then g.main.frame.v r l else 0 :=
  toNat_tabGet_takeWhile_block g.main.frame.regs (g.main.frame.count - n) r hl

theorem Group.claimNow_count (g : Group) (bs : List Bool) :
    (g.claimNow bs).main.frame.count = g.main.frame.count + bs.length :=
  List.length_append

theorem Group.claimNow_v (g : Group) (bs : List Bool) (r : Nat) {l : Nat} (hl : l < 32) : (g.claimNow bs).main.frame.v r l
    = if r < 16 * g.main.frame.count then g.main.frame.v r l else 0 :=
  toNat_tabGet_takeWhile_block g.main.frame.regs g.main.frame.count r hl

/-- A register from the frame's last block on lies outside it. -/
theorem RegCtx.inFrame_eq_false {c : RegCtx} {r : Nat} (h : 16 * c.frame.count ≤ r) : c.inFrame r 1 = false := by
  unfold RegCtx.inFrame
  rw [decide_eq_false (by omega), Bool.false_and]

/-! ### fgive and fclaim -/

/-- What fgive does with its operand `n`, which its lowest active lane reads, once that operand has passed (R315). -/
def fgiveEnd (s : State) (e : Env) (act : Mask) (n : Nat) : State :=
  let k := e.g.main.frame.count
  if n = 0 then advance s e e.g
  else if k ≤ n then takeTrap s e { cause := 0x10, lanes := act }
  else if e.g.unwaited (16 * (k - n)) (16 * n) then takeTrap s e { cause := 0x06, lanes := act }
  else advance s e (e.g.giveNow n)

/-- What fclaim does with it (R308). -/
def fclaimEnd (s : State) (e : Env) (act : Mask) (n : Nat) : State :=
  if n < 1 ∨ 24 < n + e.g.main.frame.count then takeTrap s e { cause := 0x10, lanes := act }
  else
    match takeBlocks s e.g n with
    | some bs => advance s e ((e.g.fence e.slices).claimNow bs)
    | none => beginWait s e (e.g.fence e.slices) 7 0 n 0 (.claim n)

section
variable {s : State} {e : Env} {h : Hdr} {a : Src} {l : Nat}
  (clear : Clear e h.guard (lowMask (e.active h.guard)) [in32 h a] [] []) (lowest : lowestLane (e.active h.guard) = some l)
include clear lowest

theorem exec_fgive_of_checks (issues : Issues 0x95 s e) :
    exec (.fgive h a) s = .next (fgiveEnd (popIssue s) e (e.active h.guard) (readInp e (in32 h a) l)) := by
  rw [exec_fgive, execFgive, onIssue_issues issues]
  dsimp only
  rw [show operandFault e h.guard (lowMask (e.active h.guard)) [in32 h a] [] [] = none from clear, lowest]
  rfl

theorem exec_fclaim_of_checks (issues : Issues 0x96 s e) :
    exec (.fclaim h a) s = .next (fclaimEnd (popIssue s) e (e.active h.guard) (readInp e (in32 h a) l)) := by
  rw [exec_fclaim, execFclaim, onIssue_issues issues]
  dsimp only
  rw [show operandFault e h.guard (lowMask (e.active h.guard)) [in32 h a] [] [] = none from clear, lowest]
  rfl

end

/-- Settles O39: the operand's value decides between the branches of fgive and fclaim, and the blocks that go or come cut the
frame's registers at the block where it ends. -/
theorem frameInstructionsComplete : Obligations.FrameInstructionsComplete := by
  unfold Obligations.FrameInstructionsComplete
  refine ⟨?instructions, ?frames, fun s g n bs taken => length_of_takeBlocks taken⟩
  case instructions =>
    intro s e h a l act n k clear lowest
    refine ⟨fun issues => ?give, fun issues => ?claim⟩
    case give =>
      rw [exec_fgive_of_checks clear lowest issues]
      unfold fgiveEnd
      dsimp only
      refine ⟨fun zero => ?_, fun pos below waited => ?_, fun pos below unwaited => ?_, fun pos above => ?_⟩
      · rw [if_pos zero]
      · rw [if_neg (Nat.ne_of_gt pos), if_neg (Nat.not_le.2 below), if_neg (Bool.eq_false_iff.1 waited)]
      · rw [if_neg (Nat.ne_of_gt pos), if_neg (Nat.not_le.2 below), if_pos unwaited]
      · rw [if_neg (Nat.ne_of_gt pos), if_pos above]
    case claim =>
      rw [exec_fclaim_of_checks clear lowest issues]
      unfold fclaimEnd
      refine ⟨fun low high => ?_, fun outside => ?_⟩
      · rw [if_neg (by omega)]
        refine ⟨fun bs taken => ?_, fun blocks => ?_⟩
        · rw [show takeBlocks (popIssue s) e.g (readInp e (in32 h a) l) = some bs from taken]
        · rw [show takeBlocks (popIssue s) e.g (readInp e (in32 h a) l) = none from blocks]
      · rw [if_pos (by omega)]
  case frames =>
    intro g n bs k gave got
    refine ⟨fun _ => ⟨Group.giveNow_count g n, rfl, fun r above => ?_, fun r l below hl => ?_⟩,
      Group.claimNow_count g bs, fun r l hl => Group.claimNow_v g bs r hl⟩
    · exact RegCtx.inFrame_eq_false ((Group.giveNow_count g n).symm ▸ above)
    · exact (Group.giveNow_v g n r hl).trans (if_pos below)

/-! ### Grants and the hatch -/

section
variable {s s' : State} {g h : Group} {w : Wait} {t : Team} (waits : g.wait = some w) (team : teamOf s g.team = some t)
  (bs : List Bool)
include waits team

theorem grantFrame_claim {n : Nat} (cont : w.cont = .claim n) : grantFrame s g bs
    = setGroup s (((g.claimNow bs).setPc (g.waiting w).1 (g.waiting w).2.next).released s.clock) := by
  simp only [grantFrame, waits, team, cont]

theorem grantFrame_call {n : Nat} {target : Pc} {args : List (List Age)} (cont : w.cont = .call n target args)
    (room : recordRoom s t g = (.inl h, s')) : grantFrame s g bs
      = setGroup s' ((h.callNow (g.waiting w).1 (g.waiting w).2 target bs args).released s.clock) := by
  simp only [grantFrame, waits, team, cont, room]

theorem grantFrame_ret {n : Nat} (cont : w.cont = .ret n) (back : refillCaller s t g bs = (.inl h, s')) :
    grantFrame s g bs = setGroup s' ((h.retNow n).released s.clock) := by
  simp only [grantFrame, waits, team, cont, back]

theorem grantFrame_refill (cont : w.cont = .refill) (back : refillCurrent s t g bs = (.inl h, s')) :
    grantFrame s g bs = setGroup s' h := by
  simp only [grantFrame, waits, team, cont, back, id_eq]

/-- A refill whose area fails is a double fault at the counter where the group waits (R59). -/
theorem grantFrame_refill_fails {k : Nat} (cont : w.cont = .refill) (fails : refillCurrent s t g bs = (.inr k, s')) :
    grantFrame s g bs = areaFault s' t g (pcWord (g.waiting w).2) 7 k := by
  simp only [grantFrame, waits, team, cont, fails]

end

section
variable {s : State} {die core part : Nat} {g : Group}

theorem exec_frameGrant_of_blocks {n : Nat} {bs : List Bool} (oldest : frameWaiter s ⟨die, core, part, 0⟩ = some (g, n))
    (blocks : takeBlocks s g n = some bs) : exec (.frameGrant die core part) s = .next (grantFrame s g bs) := by
  simp only [exec_frameGrant, execFrameGrant, oldest, blocks]

theorem exec_frameGrant_of_no_blocks {n : Nat} (oldest : frameWaiter s ⟨die, core, part, 0⟩ = some (g, n))
    (blocks : takeBlocks s g n = none) : exec (.frameGrant die core part) s = .next s := by
  simp only [exec_frameGrant, execFrameGrant, oldest, blocks]

/-- The handler's frame is granted to the group that has waited longest, as soon as one is free (R55, R184). -/
theorem exec_handlerFrameGrant_of_waiter {t : Team}
    (longest : leastBy (fun g => (match g.wait with | some w => w.since | none => 0) :: g.age)
      ((inPart s ⟨die, core, part, 0⟩).filter Group.waitsHandler) = some g)
    (team : teamOf s g.team = some t) : exec (.handlerFrameGrant die core part) s
      = if handlerFree s ⟨die, core, part, 0⟩ then .next (enterHandler s t g) else .next s := by
  rw [exec_handlerFrameGrant, execHandlerFrameGrant]
  dsimp only
  split
  next absent => cases absent.symm.trans longest
  next g' found =>
    obtain rfl : g' = g := Option.some.inj (found.symm.trans longest)
    rw [team]

theorem exec_hatchRefill_of_blocks {p : Place} {bs : List Bool} (here : groupAt s p = some g) (hatched : g.hatched = true)
    (waits : g.waitsRefill = true) (blocks : takeBlocks s g g.main.frame.blocks.length = some bs) :
    exec (.hatchRefill p) s = .next (grantFrame s g bs) := by
  simp only [exec_hatchRefill, execHatchRefill, here, hatched, waits, blocks, Bool.and_self, if_true]

theorem exec_hatchAct_of_waiter {everyone : Bool} {n : Nat}
    (all : ((inPart s ⟨die, core, part, 0⟩).filter (fun g => !g.exited)).all (fun g => g.wait.isSome) = everyone)
    (waiter : frameWaiterWhere s ⟨die, core, part, 0⟩ (fun g => everyone
      || match oldestIn s ⟨die, core, part, 0⟩ with | some o => o.place == g.place | none => false) = some (g, n)) :
    exec (.hatchAct die core part) s = .next (hatchServe s g n) := by
  rw [exec_hatchAct, execHatchAct]
  dsimp only
  rw [all]
  split
  next g' n' found => cases found.symm.trans waiter; rfl
  next absent => cases absent.symm.trans waiter

theorem exec_hatchWaitTimeout_of_waiter {n : Nat} (waiter : frameWaiterWhere s ⟨die, core, part, 0⟩
      (fun g => match g.wait with | some w => decide (w.since + 4096 ≤ s.clock) | none => false) = some (g, n)) :
    exec (.hatchWaitTimeout die core part) s = .next (hatchServe s g n) := by
  rw [exec_hatchWaitTimeout, execHatchWaitTimeout]
  split
  next g' n' found => cases found.symm.trans waiter; rfl
  next absent => cases absent.symm.trans waiter

theorem hatchServe_of_covered {n : Nat} {s' : State} (h : hatchSpillFor g.place n 6500 none [] s = .covered s') :
    hatchServe s g n = s' := by
  simp only [hatchServe, h]

/-- Where no victim has room, the request's own wait is broken with frame fault (R57). -/
theorem hatchServe_of_noRoom {n : Nat} {s' : State} (h : hatchSpillFor g.place n 6500 none [] s = .noRoom s') :
    hatchServe s g n = breakWait s' g.place 0x10 := by
  simp only [hatchServe, h]

end

/-- Settles O49: each event finds the waiter that its hypothesis names, and a grant carries out what the wait record says. -/
theorem framesAreGranted : Obligations.FramesAreGranted := by
  unfold Obligations.FramesAreGranted
  refine ⟨?events, ?grants, fun s s' g n => ⟨hatchServe_of_covered, hatchServe_of_noRoom⟩⟩
  case events =>
    intro s die core part n p g t bs q everyone
    refine ⟨exec_frameGrant_of_blocks, exec_frameGrant_of_no_blocks, fun longest team => ?handler, exec_hatchRefill_of_blocks,
      fun all waiter => ?anyone, fun notAll waiter => ?oldest, exec_hatchWaitTimeout_of_waiter⟩
    case handler =>
      rw [exec_handlerFrameGrant_of_waiter longest team]
      exact ⟨fun free => if_pos free, fun taken => if_neg (Bool.eq_false_iff.1 taken)⟩
    case anyone => exact exec_hatchAct_of_waiter all waiter
    case oldest => exact exec_hatchAct_of_waiter notAll waiter
  case grants =>
    intro s s' g h w t bs n k target args ks pc waits team
    exact ⟨grantFrame_claim waits team bs, grantFrame_call waits team bs, grantFrame_ret waits team bs,
      grantFrame_refill waits team bs, grantFrame_refill_fails waits team bs⟩

end Sys2Proof.Machine
end

section
/-! SUPPORT. The bind forms, from the checks of their operands to the entry that they find (R77 to R82, R284, R285). -/

namespace Sys2Proof.Machine

open Sys2Proof

/-! ### An issuer in single-lane mode -/

/-- A group in single-lane mode executes in lane 0 alone (R185). -/
theorem env?_live_of_single {s : State} {e : Env} (h : env? s = some e) (single : e.single = true) : e.live = 1 := by
  unfold env? at h
  split at h
  next => cases h
  next =>
    obtain ⟨found, -⟩ := Option.filter_eq_some_iff.1 h
    unfold envAt at found
    split at found
    next => cases found
    next =>
      split at found
      next => cases found
      next =>
        rw [Option.ite_none_left_eq_some] at found
        obtain ⟨-, found⟩ := found
        split at found
        next =>
          cases found
          rfl
        next =>
          split at found
          next => cases found
          next =>
            cases found
            cases single

/-- Outside single-lane mode a system opcode does not issue (R251). -/
theorem Issues.live_of_privileged {op : Nat} {s : State} {e : Env} (h : Issues op s e) (privileged : isPrivileged op = true) :
    e.live = 1 := by
  obtain ⟨selected, -, outside⟩ := h
  cases single : e.single with
  | true => exact env?_live_of_single selected single
  | false => cases privileged.symm.trans (outside single)

/-- Where lane 0 alone runs, it is the one active lane that there can be. -/
theorem active_of_live_one {e : Env} (live : e.live = 1) (gd : Guard) (lanes : e.active gd ≠ 0) : e.active gd = 1 := by
  have lane (l : Nat) : (hasLane e.live l && e.g.ctx.holds gd l) = ((l == 0) && e.g.ctx.holds gd 0) := by
    rw [live, hasLane, bitOf_eq_testBit]
    cases l with
    | zero => rfl
    | succ l => rw [show (1 : Mask).toNat = 1 from rfl, Nat.testBit_succ, Nat.zero_testBit]; rfl
  rw [Env.active, funext lane] at lanes ⊢
  cases holds : e.g.ctx.holds gd 0 with
  | true => simp only [Bool.and_true]; decide
  | false => simp only [holds, Bool.and_false] at lanes; exact absurd (by decide) lanes

/-! ### The checks of operands and of their values -/

/-- Where no value is illegal, the operands decide alone (R183). -/
theorem valueFault_of_legal {bad : Nat → Bool} (legal : ∀ l, bad l = false) (e : Env) (gd : Guard) (act : Mask)
    (ins : List Inp) (t : Option Trap) : valueFault e gd act ins bad t = t := by
  unfold valueFault
  split
  next => rfl
  next l _ => rw [legal l, Bool.false_and, Bool.false_and, if_neg Bool.false_ne_true]

/-- Without an active lane no value is read. -/
theorem valueFault_no_lane {e : Env} {gd : Guard} {act : Mask} (noLane : act = 0) (ins : List Inp) (bad : Nat → Bool)
    (t : Option Trap) : valueFault e gd act ins bad t = t := by
  subst noLane
  unfold valueFault
  rw [lowestLane_zero]

/-- In lane 0 an illegal value comes before an operand that is unwaited (R183). -/
theorem valueFault_of_illegal {e : Env} {gd : Guard} {bad : Nat → Bool} {t : Option Trap} (illegal : bad 0 = true)
    (readable : Clear e gd 1 [] [] []) (late : ∀ x, t = some x → x.cause ≠ 0x02) :
    valueFault e gd 1 [] bad t = some { cause := 0x02, lanes := 1 } := by
  have low : lowMask 1 = 1 := by decide
  have lane : maskOf (fun j => j == 0) = 1 := by decide
  unfold valueFault
  rw [show lowestLane 1 = some 0 by decide]
  dsimp only
  rw [low, illegal, show operandFault e gd 1 [] [] [] = none from readable, lane]
  cases t with
  | none => rfl
  | some x => exact if_pos (bne_iff_ne.2 (late x rfl))

/-! ### A bind form -/

/-- What a bind form does with its pointer once its operands have passed. -/
def bindEnd (s : State) (e : Env) (act : Mask) (nd : Need) (rel : Bool) (p : Nat)
    (k : Env → Mask → Nat → Nat → State → State) : State :=
  if act = 0 then advance s e e.g
  else if bindMisses s e.view nd p ≠ [] then missStall s e nd (bindMisses s e.view nd p)
  else
    match bindEntryAt s e.view nd p with
    | (.inr c, s) => takeTrap s e { cause := c, lanes := act, addr := p, info := dataInfo e.pc 0 c }
    | (.inl x, s) => bindAct s e act nd rel x k

section
variable {s s' : State} {e : Env} {act : Mask} {nd : Need} {rel : Bool} {p : Nat}
  {k : Env → Mask → Nat → Nat → State → State}

theorem bindEnd_no_lane (noLane : act = 0) : bindEnd s e act nd rel p k = advance s e e.g := if_pos noLane

theorem bindEnd_misses (lanes : act ≠ 0) (miss : bindMisses s e.view nd p ≠ []) :
    bindEnd s e act nd rel p k = missStall s e nd (bindMisses s e.view nd p) :=
  (if_neg lanes).trans (if_pos miss)

theorem bindEnd_fails {c : Nat} (lanes : act ≠ 0) (hits : bindMisses s e.view nd p = [])
    (fails : bindEntryAt s e.view nd p = (.inr c, s')) : bindEnd s e act nd rel p k
      = takeTrap s' e { cause := c, lanes := act, addr := p, info := dataInfo e.pc 0 c } := by
  rw [bindEnd, if_neg lanes, if_neg (not_not_intro hits), fails]

theorem bindEnd_entry {x : Nat} (lanes : act ≠ 0) (hits : bindMisses s e.view nd p = [])
    (entry : bindEntryAt s e.view nd p = (.inl x, s')) : bindEnd s e act nd rel p k = bindAct s' e act nd rel x k := by
  rw [bindEnd, if_neg lanes, if_neg (not_not_intro hits), entry]

end

section
variable {s : State} {e : Env} {x : Nat} (act : Mask) (nd : Need) (k : Env → Mask → Nat → Nat → State → State)

/-- A release waits for everything that the group has issued (R80, R81). -/
theorem bindAct_release_waits (before : e.g.performed (fun _ => true) .device = false) :
    bindAct s e act nd true x k = stall s e := by
  rw [bindAct, if_pos rfl, before]
  rfl

/-- Once what it is ordered after is performed, and the host does not hold a line that it writes, a form acts on the entry. -/
theorem bindAct_acts {rel : Bool} (before : (if rel then e.g.performed (fun _ => true) .device
      else e.g.ctx.ops.all (fun o => o.accs.all (fun c => c.done || !c.loc.overlaps c.size (.phys x) 32))) = true)
    (host : nd.writes = true → hostBlocks s (.phys x) 32 = false) :
    bindAct s e act nd rel x k = k e act x (curRead s x 32) (observe s e.actor (.phys x) 32) := by
  have free : (nd.writes && hostBlocks s (.phys x) 32) = false :=
    Bool.eq_false_iff.2 fun h => by
      rw [Bool.and_eq_true] at h
      exact Bool.eq_false_iff.1 (host h.1) h.2
  rw [bindAct, before, free]
  rfl

end

section
variable {s : State} {e : Env} {gd : Guard} {a : Src} {ins : List Inp} {preds : List Nat} {early : Env → Bool}
  (issues : Issues 0xA3 s e) (nd : Need) (rel : Bool) (k : Env → Mask → Nat → Nat → State → State)
include issues

theorem bindOp_of_pass (pass : valueFault e gd (e.active gd) [] (fun _ => early e)
      (operandFault e gd (e.active gd) (inX 64 a :: ins) [] preds) = none) : bindOp gd a ins preds nd rel early k s
    = .next (bindEnd (popIssue s) e (e.active gd) nd rel (readInp e (inX 64 a) 0) k) := by
  rw [bindOp, onIssue_issues issues]
  dsimp only
  rw [pass]
  rfl

theorem bindOp_of_clear (clear : Clear e gd (e.active gd) (inX 64 a :: ins) [] preds) (legal : early e = false) :
    bindOp gd a ins preds nd rel early k s
      = .next (bindEnd (popIssue s) e (e.active gd) nd rel (readInp e (inX 64 a) 0) k) :=
  bindOp_of_pass issues nd rel k ((valueFault_of_legal (fun _ => legal) e gd _ [] _).trans clear)

/-- Without an active lane the form does nothing, whatever its early check says. -/
theorem bindOp_no_lane (clear : Clear e gd (e.active gd) (inX 64 a :: ins) [] preds) (noLane : e.active gd = 0) :
    bindOp gd a ins preds nd rel early k s = .next (advance (popIssue s) e e.g) := by
  rw [bindOp_of_pass issues nd rel k ((valueFault_no_lane noLane [] _ _).trans clear), bindEnd_no_lane noLane]

/-- An operand that is illegal from the start comes before one that is unwaited and before the pointer (R183). -/
theorem bindOp_illegal (illegal : early e = true) (lanes : e.active gd ≠ 0) (readable : Clear e gd (e.active gd) [] [] [])
    (late : ∀ x, operandFault e gd (e.active gd) (inX 64 a :: ins) [] preds = some x → x.cause ≠ 0x02) :
    bindOp gd a ins preds nd rel early k s = .next (takeTrap (popIssue s) e { cause := 0x02, lanes := e.active gd }) := by
  have one := active_of_live_one (issues.live_of_privileged rfl) gd lanes
  rw [one] at readable late
  rw [bindOp, onIssue_issues issues]
  dsimp only
  rw [one, valueFault_of_illegal illegal readable late]

section
variable {s' : State} {x : Nat} (clear : Clear e gd (e.active gd) (inX 64 a :: ins) [] preds) (legal : early e = false)
  (lanes : e.active gd ≠ 0)
include clear legal lanes

theorem bindOp_misses (miss : bindMisses (popIssue s) e.view nd (readInp e (inX 64 a) 0) ≠ []) :
    bindOp gd a ins preds nd rel early k s = .next (missStall (popIssue s) e nd
      (bindMisses (popIssue s) e.view nd (readInp e (inX 64 a) 0))) := by
  rw [bindOp_of_clear issues nd rel k clear legal, bindEnd_misses lanes miss]

section
variable (hits : bindMisses (popIssue s) e.view nd (readInp e (inX 64 a) 0) = [])
include hits

theorem bindOp_fails {c : Nat} (fails : bindEntryAt (popIssue s) e.view nd (readInp e (inX 64 a) 0) = (.inr c, s')) :
    bindOp gd a ins preds nd rel early k s = .next (takeTrap s' e
      { cause := c, lanes := e.active gd, addr := readInp e (inX 64 a) 0, info := dataInfo e.pc 0 c }) := by
  rw [bindOp_of_clear issues nd rel k clear legal, bindEnd_fails lanes hits fails]

variable (entry : bindEntryAt (popIssue s) e.view nd (readInp e (inX 64 a) 0) = (.inl x, s'))
include entry

theorem bindOp_release_waits (before : e.g.performed (fun _ => true) .device = false) :
    bindOp gd a ins preds nd true early k s = .next (stall s' e) := by
  rw [bindOp_of_clear issues nd true k clear legal, bindEnd_entry lanes hits entry, bindAct_release_waits _ _ _ before]

theorem bindOp_acts (before : (if rel then e.g.performed (fun _ => true) .device
      else e.g.ctx.ops.all (fun o => o.accs.all (fun c => c.done || !c.loc.overlaps c.size (.phys x) 32))) = true)
    (host : nd.writes = true → hostBlocks s' (.phys x) 32 = false) : bindOp gd a ins preds nd rel early k s
      = .next (k e (e.active gd) x (curRead s' x 32) (observe s' e.actor (.phys x) 32)) := by
  rw [bindOp_of_clear issues nd rel k clear legal, bindEnd_entry lanes hits entry, bindAct_acts _ _ _ before host]

end

end

end

/-- The test of bind.set and bind.fail: the entry is claimed, by the group that asks (R80). -/
theorem isOwnClaim_iff (v : Nat) (e : Env) : (decide (fld v 64 2 = 1) && fld v 96 32 == claimWord e.t e.g) = true
    ↔ fld v 64 2 = 1 ∧ fld v 96 32 = claimWord e.t e.g := by
  rw [Bool.and_eq_true, decide_eq_true_iff, beq_iff_eq]

/-- Settles O42: each form is `bindOp` with an action of its own, whose branches are those of the statement; a claim held
already is found in lane 0, the one lane of single-lane mode. -/
theorem bindsComplete : Obligations.BindsComplete := by
  unfold Obligations.BindsComplete
  refine ⟨?completes, ?stops, fun s v => ⟨rfl, rfl⟩⟩
  case completes =>
    intro s s' e gd p d a b x nd act v ptr mine said s1 seen put free issues lanes hits entry host
    refine ⟨?claim, ?release, ?set, ?read⟩
    case claim =>
      rintro rfl clear unclaimed before
      have legal : e.g.claim.isSome = false := congrArg Option.isSome unclaimed
      rw [exec_bindClaim, execBindClaim, bindOp_acts issues .atomic false _ clear legal lanes hits entry before fun _ => host rfl]
      exact ⟨fun isFree => congrArg _ (if_pos isFree), fun taken => congrArg _ (if_neg taken)⟩
    case release =>
      rintro rfl clear before
      rw [exec_bindFail, execBindFail, exec_bindUnbind, execBindUnbind,
        bindOp_acts issues .atomic true _ clear rfl lanes hits entry before fun _ => host rfl,
        bindOp_acts issues .atomic true _ clear rfl lanes hits entry before fun _ => host rfl]
      exact ⟨fun own => congrArg _ (if_pos ((isOwnClaim_iff v e).2 own)),
        fun other => congrArg _ (if_neg (mt (isOwnClaim_iff v e).1 other)),
        fun bound => congrArg _ (if_pos bound), fun unbound => congrArg _ (if_neg unbound)⟩
    case set =>
      rintro rfl clear before
      rw [exec_bindSet, execBindSet, bindOp_acts issues .atomic true _ clear rfl lanes hits entry before fun _ => host rfl]
      exact ⟨fun own => congrArg _ (if_pos ((isOwnClaim_iff v e).2 own)),
        fun other => congrArg _ (if_neg (mt (isOwnClaim_iff v e).1 other))⟩
    case read =>
      rintro rfl clear before
      exact bindOp_acts issues .load false _ clear rfl lanes hits entry before Bool.noConfusion
  case stops =>
    intro s s' e gd p d a b x act ptr miss issues
    rw [exec_bindClaim, exec_bindFail, exec_bindUnbind, exec_bindSet, exec_bindRead]
    refine ⟨fun lanes claimed readable late => bindOp_illegal issues _ _ _ claimed lanes readable late,
      fun clear => ⟨fun noLane => ?idle, fun lanes missing => ?misses, fun lanes hits entry before => ?waits,
        fun c lanes unclaimed hits fails => ?fails⟩,
      fun clear lanes missing => bindOp_misses issues _ _ _ clear rfl lanes missing⟩
    case idle =>
      exact ⟨bindOp_no_lane issues _ _ _ clear noLane, bindOp_no_lane issues _ _ _ clear noLane,
        bindOp_no_lane issues _ _ _ clear noLane⟩
    case misses =>
      exact ⟨fun unclaimed => bindOp_misses issues _ _ _ clear (congrArg Option.isSome unclaimed) lanes missing,
        bindOp_misses issues _ _ _ clear rfl lanes missing, bindOp_misses issues _ _ _ clear rfl lanes missing⟩
    case waits =>
      exact ⟨bindOp_release_waits issues _ _ clear rfl lanes hits entry before,
        bindOp_release_waits issues _ _ clear rfl lanes hits entry before,
        fun both => bindOp_release_waits issues _ _ both rfl lanes hits entry before⟩
    case fails => exact bindOp_fails issues _ _ _ clear (congrArg Option.isSome unclaimed) lanes hits fails

end Sys2Proof.Machine
end

section
/-! SUPPORT. The invalidations of lookaside copies, translations and descriptors, and what becomes of a group that watches a
word through one of them (R68, R70, R71, R81, R286, R355, R369). -/

namespace Sys2Proof.Machine

open Sys2Proof

/-! ### A system instruction that acts -/

/-- Where the operands of a system instruction pass and lane 0 is active, it has its effect. -/
theorem privOp_of_clear {op : Nat} {s : State} {e : Env} {gd : Guard} {ins : List Inp} {spans : List (Nat × Nat)}
    {preds : List Nat} (issues : Issues op s e) (clear : Clear e gd (e.active gd) ins spans preds) (lanes : e.active gd ≠ 0)
    (k : Env → Mask → State → State) : privOp op gd ins spans preds k s = .next (k e (e.active gd) (popIssue s)) := by
  rw [privOp, onIssue_issues issues]
  dsimp only
  rw [show operandFault e gd (e.active gd) ins spans preds = none from clear]
  exact congrArg _ (if_neg lanes)

/-! ### What drops copies -/

/-- The instruction drops its copies, and completes or stalls by the accesses of a context, or of all (R68, R71). -/
def Drops (s : State) (e : Env) (i : Instr) (ctx : Option Nat) (u t : State) : Prop :=
  (ctxQuiet u ctx = true → exec i s = .next (advance t e e.g)) ∧ (ctxQuiet u ctx = false → exec i s = .next (stall t e))

/-- The lookaside buffers of a state without the copies of a context's entries that a test selects. -/
def DropsLinks (s : State) (e : Env) (i : Instr) (u : State) (p : Nat → Bool) : Prop :=
  (linksQuiet u e p = true → Drops s e i (some e.t.ctx) u (dropBlb u e.t.ctx p))
    ∧ (linksQuiet u e p = false → exec i s = .next (stall (dropBlb u e.t.ctx p) e))

section
variable {s : State} {e : Env} {i : Instr} {u : State}

theorem drops_of_invalidateOp {ctx : Option Nat} {drop : State → State}
    (h : exec i s = .next (invalidateOp e ctx drop u)) : Drops s e i ctx u (drop u) := by
  rw [Drops, h, invalidateOp]
  exact ⟨fun quiet => congrArg _ (if_pos quiet), fun busy => congrArg _ (if_neg (Bool.eq_false_iff.1 busy))⟩

theorem dropsLinks_of_blbiOp {p : Nat → Bool} (h : exec i s = .next (blbiOp e p u)) : DropsLinks s e i u p := by
  rw [blbiOp] at h
  refine ⟨fun quiet => drops_of_invalidateOp (drop := fun s => dropBlb s e.t.ctx p) ?_, fun busy => ?_⟩
  · rw [h, if_pos quiet]
  · rw [h, if_neg (Bool.eq_false_iff.1 busy)]

end

/-! ### The invalidations, their operands passed -/

/-- Dropping every descriptor of a context drops those that are the context's. -/
theorem dropDescs_all (s : State) (ctx : Nat) : dropDescs s ctx (fun _ => true)
    = rewatchAll { s with descs := s.descs.filter (fun t => t.ctx != ctx) } := by
  simp only [dropDescs, Bool.and_true]
  rfl

section
variable {s : State} {e : Env} {gd : Guard} (clear : Clear e gd (e.active gd) [] [] []) (lanes : e.active gd ≠ 0)
include clear lanes

theorem exec_blbiContext_of_clear (issues : Issues 0xA4 s e) :
    exec (.blbiContext gd) s = .next (blbiOp e (fun _ => true) (popIssue s)) := by
  rw [exec_blbiContext, execBlbiContext, privOp_of_clear issues clear lanes]

theorem exec_tlbiContext_of_clear (issues : Issues 0xA5 s e) : exec (.tlbiContext gd) s = .next (invalidateOp e (some e.t.ctx)
    (fun s => dropTlb s (fun t => t.ctx == e.t.ctx) (fun m => m.ctx == e.t.ctx)) (popIssue s)) := by
  rw [exec_tlbiContext, execTlbiContext, privOp_of_clear issues clear lanes]

theorem exec_tlbiAll_of_clear (issues : Issues 0xA5 s e) : exec (.tlbiAll gd) s
    = .next (invalidateOp e none (fun s => dropTlb s (fun _ => true) (fun _ => true)) (popIssue s)) := by
  rw [exec_tlbiAll, execTlbiAll, privOp_of_clear issues clear lanes]

theorem exec_sdciContext_of_clear (issues : Issues 0xA6 s e) : exec (.sdciContext gd) s = .next (invalidateOp e (some e.t.ctx)
    (fun s => rewatchAll { s with descs := s.descs.filter (fun t => t.ctx != e.t.ctx) }) (popIssue s)) := by
  rw [exec_sdciContext, execSdciContext, privOp_of_clear issues clear lanes]
  simp only [dropDescs_all]

end

section
variable {s s' : State} {e : Env} {h : Hdr} {a : Src} {d : Nat} (lanes : e.active h.guard ≠ 0)
include lanes

section
variable (clear : Clear e h.guard (e.active h.guard) [in64 h a] [] [])
include clear

theorem exec_blbiEntry_of_checks (issues : Issues 0xA4 s e)
    (desc : governing (popIssue s) e.view (fld (readInp e (in64 h a) 0) 44 20) = (.ok d, s'))
    (six : fld (readInp e (in64 h a) 0) 44 20 = 6) (aligned : fld (readInp e (in64 h a) 0) 0 44 % 32 = 0) :
    exec (.blbiEntry h a) s = .next (blbiOp e (fun i => i == fld (readInp e (in64 h a) 0) 0 44 / 32) s') := by
  rw [exec_blbiEntry, execBlbiEntry, privOp_of_clear issues clear lanes]
  dsimp only
  rw [desc]
  dsimp only
  rw [if_neg (not_not_intro aligned), if_neg (not_not_intro six)]

theorem exec_tlbiPage_of_clear (issues : Issues 0xA5 s e) : exec (.tlbiPage h a) s = .next (invalidateOp e (some e.t.ctx)
    (fun s => dropTlb s
      (fun t => t.ctx == e.t.ctx && t.vpn * 4096 / 2 ^ t.shift == readInp e (in64 h a) 0 % 2 ^ 57 / 2 ^ t.shift)
      (fun m => m.ctx == e.t.ctx && m.vpn == readInp e (in64 h a) 0 % 2 ^ 57 / 4096)) (popIssue s)) := by
  rw [exec_tlbiPage, execTlbiPage, privOp_of_clear issues clear lanes]

end

section
variable (clear : Clear e h.guard (e.active h.guard) [in32 h a] [] [])
include clear

theorem exec_blbiModule_of_checks (issues : Issues 0xA4 s e)
    (desc : governing (popIssue s) e.view (readInp e (in32 h a) 0) = (.ok d, s')) (code : dKind d = 1) :
    exec (.blbiModule h a) s
      = .next (blbiOp e (fun i => decide (dLkBase d ≤ i) && decide (i < dLkBase d + dLkLen d)) s') := by
  rw [exec_blbiModule, execBlbiModule, privOp_of_clear issues clear lanes]
  dsimp only
  rw [desc]
  exact congrArg _ (if_neg (not_not_intro code))

theorem exec_sdciEntry_of_below (issues : Issues 0xA6 s e) (below : readInp e (in32 h a) 0 < 2 ^ 20) :
    exec (.sdciEntry h a) s = .next (invalidateOp e (some e.t.ctx)
      (fun s => dropDescs s e.t.ctx (fun i => i == readInp e (in32 h a) 0)) (popIssue s)) := by
  rw [exec_sdciEntry, execSdciEntry, privOp_of_clear issues clear lanes]
  exact congrArg _ (if_neg (Nat.not_le.2 below))

/-- A number that no segment has is an illegal operand (R355). -/
theorem exec_sdciEntry_of_above (issues : Issues 0xA6 s e) (above : 2 ^ 20 ≤ readInp e (in32 h a) 0) :
    exec (.sdciEntry h a) s = .next (takeTrap (popIssue s) e { cause := 0x02, lanes := e.active h.guard }) := by
  rw [exec_sdciEntry, execSdciEntry, privOp_of_clear issues clear lanes]
  exact congrArg _ (if_pos above)

end

end

/-! ### Groups that watch a word -/

theorem mem_of_groupAt {s : State} {p : Place} {g : Group} (h : groupAt s p = some g) : g ∈ s.groups :=
  List.mem_of_find?_eq_some h

/-- A group that waits for no word is left as it is. -/
theorem rewatch_of_no_word {s : State} {g : Group}
    (noWord : ∀ w, g.wait = some w → ∀ ls n cmp o sc, w.cont ≠ .word ls n cmp o sc) : rewatch s g = s := by
  unfold rewatch
  split
  next w t wait _ =>
    split
    next ls n cmp o sc word => exact absurd word (noWord w wait ls n cmp o sc)
    next => rfl
  next => rfl

theorem rewatchAll_of_no_words {s : State}
    (noWord : ∀ g ∈ s.groups, ∀ w, g.wait = some w → ∀ ls n cmp o sc, w.cont ≠ .word ls n cmp o sc) :
    rewatchAll s = s := by
  unfold rewatchAll
  refine List.foldlRecOn (motive := (· = s)) _ _ rfl fun t same g _ => ?_
  subst same
  split
  next g found => exact rewatch_of_no_word (noWord g (mem_of_groupAt found))
  next => rfl

/-- What the accesses of a group that waits for a word are judged by, in the code segment where it waits. -/
def Group.watchView (g : Group) (t : Team) (w : Wait) : View :=
  { die := g.place.die, core := g.place.core, ctx := t.ctx, team := t.uid, tmemG := t.tmemG, tileG := t.tileG,
    single := g.handler.isSome, codeSeg := (g.waiting w).2.seg }

section
variable {s s' : State} {g : Group} {t : Team} {w : Wait} {size : Nat} {cmp : WaitCmp} {o : Ord} {sc : Scope} {x : WaitLane}
  (wait : g.wait = some w) (team : teamOf s g.team = some t) (cont : w.cont = .word [x] size cmp o sc)
include wait team cont

/-- A lane whose word has moved watches it where it is now (R68, R71, R115). -/
theorem rewatch_of_lane {y : WaitLane} (lane : rewatchLane s (g.watchView t w) size x = (.inl y, s')) :
    rewatch s g = setGroup s' { g with wait := some { w with cont := .word [y] size cmp o sc } } := by
  rw [Group.watchView] at lane
  simp only [rewatch, wait, team, cont, rewatchLanes, lane]

/-- A lane whose pointer fails ends the wait with its cause. -/
theorem rewatch_of_failed_lane {i k b : Nat}
    (lane : rewatchLane s (g.watchView t w) size x = (.inr (.fail i k b), s')) : rewatch s g = breakWait s' g.place k := by
  rw [Group.watchView] at lane
  simp only [rewatch, wait, team, cont, rewatchLanes, lane]

end

section
variable {s s' : State} {v : View} {size : Nat} {x : WaitLane} (unseen : x.sat = false)
include unseen

theorem rewatchLane_of_ok {y : Loc} {n : Nat} {r : List (Loc × Nat)}
    (ok : checkAccess s v .load (fld x.ptr 44 20) (fld x.ptr 0 44 : Nat) size 1 = (.ok ((y, n) :: r), s')) :
    rewatchLane s v size x = (.inl { x with loc := y }, s') := by
  rw [rewatchLane, if_neg (Bool.eq_false_iff.1 unseen), ok]

theorem rewatchLane_of_fail {i k b : Nat}
    (fails : checkAccess s v .load (fld x.ptr 44 20) (fld x.ptr 0 44 : Nat) size 1 = (.fail i k b, s')) :
    rewatchLane s v size x = (.inr (.fail i k b), s') := by
  rw [rewatchLane, if_neg (Bool.eq_false_iff.1 unseen), fails]

end

/-- Settles O43: with their operands passed the instructions are `blbiOp` or `invalidateOp`, whose branches are those of the
statement, and a group that watches a word is changed by the check of its lane alone. -/
theorem invalidationsComplete : Obligations.InvalidationsComplete := by
  unfold Obligations.InvalidationsComplete
  refine ⟨?instructions, ?translations, ?watches⟩
  case instructions =>
    intro s s' e gd h a d c p n s1 drops links
    refine ⟨fun lanes clear => ⟨fun issues => ?linksOfContext, fun issues => ?pagesOfContext, fun issues => ?pagesOfAll,
      fun issues => ?descsOfContext⟩, fun lanes clear => ⟨fun issues desc six aligned => ?linksOfEntry, fun issues => ?pages⟩,
      fun lanes clear => ⟨fun issues desc code => ?linksOfModule, fun issues below => ?descs,
        exec_sdciEntry_of_above lanes clear⟩⟩
    case linksOfContext => exact dropsLinks_of_blbiOp (exec_blbiContext_of_clear clear lanes issues)
    case pagesOfContext => exact drops_of_invalidateOp (exec_tlbiContext_of_clear clear lanes issues)
    case pagesOfAll => exact drops_of_invalidateOp (exec_tlbiAll_of_clear clear lanes issues)
    case descsOfContext => exact drops_of_invalidateOp (exec_sdciContext_of_clear clear lanes issues)
    case linksOfEntry => exact dropsLinks_of_blbiOp (exec_blbiEntry_of_checks lanes clear issues desc six aligned)
    case pages => exact drops_of_invalidateOp (exec_tlbiPage_of_clear lanes clear issues)
    case linksOfModule => exact dropsLinks_of_blbiOp (exec_blbiModule_of_checks lanes clear issues desc code)
    case descs => exact drops_of_invalidateOp (exec_sdciEntry_of_below lanes clear issues below)
  case translations =>
    intro s p m t
    exact ⟨rfl, fun noWords => ⟨rewatchAll_of_no_words noWords, rewatchAll_of_no_words noWords⟩⟩
  case watches =>
    intro s s' g t w size cmp o sc x y n r k v c wait team cont unseen
    exact ⟨fun ok => rewatch_of_lane wait team cont (rewatchLane_of_ok unseen ok),
      fun i b fails => rewatch_of_failed_lane wait team cont (rewatchLane_of_fail unseen fails)⟩

end Sys2Proof.Machine
end

section
/-! SUPPORT. Writes of the hub's registers: which fields a write leaves, and what the capacity of the slices and the windows of
slice memory are after it (R4, R64, R69, R146, R147, R174, R218, R223, R225, R230, R233 to R235). -/

namespace Sys2Proof.Machine

open Sys2Proof

/-! ### Format windows (R146, R147) -/

section
variable {s : State} {die win : Nat} {val : BitVec 64} (hdie : die < 4) (hwin : win < 8) (running : s.boot.recovery = false)
include hdie hwin running

theorem execFormatWindowDisable_of_enabled (enabled : bitOf (fwReg s die win 0) 63 = true) :
    execFormatWindowDisable die win val s
      = .next (setFwCtl (flushWindow s (winAt s die win)) die win (fwReg s die win 0 - 2 ^ 63)) := by
  unfold execFormatWindowDisable
  dsimp only
  rw [if_neg (by simp only [running, Bool.false_eq_true, or_false]; omega), if_pos enabled]

theorem execFormatWindowDisable_of_disabled (disabled : bitOf (fwReg s die win 0) 63 = false) :
    execFormatWindowDisable die win val s
      = .next (setFwCtl s die win (fwFields val.toNat + fwErr (fwReg s die win 0) val.toNat)) := by
  unfold execFormatWindowDisable
  dsimp only
  rw [if_neg (by simp only [running, Bool.false_eq_true, or_false]; omega), if_neg (Bool.eq_false_iff.1 disabled)]

/-- The check of an enable decides between EN and CFGERR (R147). -/
theorem execFormatWindowEnable_of_disabled (disabled : bitOf (fwReg s die win 0) 63 = false) :
    execFormatWindowEnable die win val s
      = if fwBad s (winOf (fwFields val.toNat) (fwReg s die win 8) (fwReg s die win 0x10) (fwReg s die win 0x18))
        then .next (setFwCtl s die win (fwFields val.toNat + 2 ^ 61))
        else .next (setFwCtl s die win (fwFields val.toNat + 2 ^ 63 + fwErr (fwReg s die win 0) val.toNat)) := by
  unfold execFormatWindowEnable
  dsimp only
  rw [if_neg (by simp only [running, disabled, Bool.false_eq_true, or_false]; omega)]

end

theorem execFormatWindowEnable_of_enabled {s : State} {die win : Nat} (val : BitVec 64)
    (enabled : bitOf (fwReg s die win 0) 63 = true) : execFormatWindowEnable die win val s = .next s :=
  if_pos (.inr (.inr (.inl enabled)))

/-! ### The capacity of the slices (R11, R64) -/

@[simp] theorem aliasEvict_hub (s : State) (line : Nat) : (aliasEvict s line).hub = s.hub := by rw [aliasEvict_eq]

theorem OnlyHome.hub {s t : State} (h : OnlyHome s t) : t.hub = s.hub := by
  obtain ⟨_, _, rfl⟩ := h
  rfl

@[simp] theorem dirRecall_hub (s : State) (gone : DirEntry → Bool) : (dirRecall s gone).hub = s.hub := by
  unfold dirRecall revokeWhere
  dsimp only
  split
  · rfl
  · exact (onlyHome_foldl_revoke _ s).hub

/-- Lines that leave a slice change no register of the hub. -/
@[simp] theorem sliceFit_hub (slice cap n : Nat) (s : State) : (sliceFit slice cap n s).hub = s.hub := by
  induction n generalizing s with
  | zero => rfl
  | succ n ih =>
    unfold sliceFit
    split
    · rfl
    · dsimp only
      split
      · rw [ih, aliasEvict_hub]
      · rw [ih, dirRecall_hub]
      · rfl

theorem foldl_hub {α : Type} {f : State → α → State} (keeps : ∀ s x, (f s x).hub = s.hub) (xs : List α) (s : State) :
    (xs.foldl f s).hub = s.hub := by
  induction xs generalizing s with
  | nil => rfl
  | cons x xs ih => exact (ih (f s x)).trans (keeps s x)

@[simp] theorem fitSlices_hub (s : State) : (fitSlices s).hub = s.hub := by
  unfold fitSlices
  dsimp only
  split
  · rfl
  · rw [foldl_hub fun t k => sliceFit_hub k _ _ t]

theorem execSmcarveWrite_of_refused {s : State} {val : BitVec 64} (refused : 4 < fld val.toNat 0 3 ∨ anyWindow s = true) :
    execSmcarveWrite val s = .next s :=
  if_pos (refused.imp_right fun window => .inr (.inl window))

/-- A new size is taken while no window is enabled (R64). -/
theorem execSmcarveWrite_of_taken {s : State} {val : BitVec 64} (running : s.boot.recovery = false)
    (size : fld val.toNat 0 3 ≤ 4) (new : fld val.toNat 0 3 ≠ s.hub.smcarve.toNat) (closed : anyWindow s = false) :
    ∃ t, execSmcarveWrite val s = .next t ∧ t.hub.smcarve.toNat = fld val.toNat 0 3 := by
  refine ⟨_, if_neg (by simp only [running, closed, Bool.false_eq_true, or_false]; omega), ?_⟩
  rw [fitSlices_hub]
  exact Nat.mod_eq_of_lt (by omega)

/-! ### Windows of slice memory (R64) -/

/-- A window register of slice memory: its range below, ERR and EN above. -/
def smwinWord (fields : Nat) (err en : Bool) : Nat := fields + (if err then 2 ^ 62 else 0) + if en then 2 ^ 63 else 0

theorem toNat_smwinWord {fields : Nat} (small : fields < 2 ^ 48) (err en : Bool) :
    (BitVec.ofNat 64 (smwinWord fields err en)).toNat = fields + 2 ^ 62 * err.toNat + 2 ^ 63 * en.toNat := by
  have bits (b : Bool) (x : Nat) : (if b then x else 0) = x * b.toNat := by cases b <;> simp
  rw [BitVec.toNat_ofNat, smwinWord, bits, bits]
  have := err.toNat_lt
  have := en.toNat_lt
  omega

theorem beq_one_toNat (b : Bool) : (b.toNat == 1) = b := by cases b <;> rfl

section
variable {fields : Nat} (small : fields < 2 ^ 48) (err en : Bool)
include small

theorem bitOf_smwinWord_en : bitOf (BitVec.ofNat 64 (smwinWord fields err en)).toNat 63 = en := by
  have field : (fields + 2 ^ 62 * err.toNat + 2 ^ 63 * en.toNat) / 2 ^ 63 % 2 = en.toNat := by
    have := err.toNat_lt
    have := en.toNat_lt
    omega
  rw [toNat_smwinWord small, bitOf, field, beq_one_toNat]

theorem bitOf_smwinWord_err : bitOf (BitVec.ofNat 64 (smwinWord fields err en)).toNat 62 = err := by
  have field : (fields + 2 ^ 62 * err.toNat + 2 ^ 63 * en.toNat) / 2 ^ 62 % 2 = err.toNat := by
    have := err.toNat_lt
    omega
  rw [toNat_smwinWord small, bitOf, field, beq_one_toNat]

theorem fld_smwinWord : fld (BitVec.ofNat 64 (smwinWord fields err en)).toNat 0 48 = fields := by
  rw [toNat_smwinWord small, fld]
  omega

end

theorem smOverlaps_iff (s : State) (ctx base len : Nat) : smOverlaps s ctx base len = true
    ↔ ∃ x ∈ s.hub.smwin, x.1 ≠ ctx ∧ bitOf x.2.toNat 63 = true ∧ fld x.2.toNat 0 24 < base + len
      ∧ base < fld x.2.toNat 0 24 + fld x.2.toNat 24 24 := by
  simp only [smOverlaps, List.any_eq_true, Bool.and_eq_true, bne_iff_ne, decide_eq_true_eq, and_assoc]

/-- The enable of a window that is refused: its range is not whole, is empty, does not fit, or overlaps another (R64). -/
def SmwinBad (s : State) (ctx base len : Nat) : Prop :=
  len % 256 ≠ 0 ∨ base % 256 ≠ 0 ∨ len = 0 ∨ s.hub.smcarve.toNat * 65536 < base + len ∨ smOverlaps s ctx base len = true

section
variable {s : State} {ctx cur v : Nat}

theorem smwinNext_of_enabled (enabled : bitOf cur 63 = true) :
    smwinNext s ctx cur v = smwinWord (fld cur 0 48) (bitOf cur 62 && !bitOf v 62) (bitOf v 63) := if_pos enabled

section
variable (disabled : bitOf cur 63 = false)
include disabled

theorem smwinNext_of_disabled (off : bitOf v 63 = false) :
    smwinNext s ctx cur v = smwinWord (fld v 0 48) (bitOf cur 62 && !bitOf v 62) false := by
  unfold smwinNext
  dsimp only
  rw [if_neg (Bool.eq_false_iff.1 disabled), off]
  rfl

theorem smwinNext_of_refused (on : bitOf v 63 = true) (bad : SmwinBad s ctx (fld v 0 24) (fld v 24 24)) :
    smwinNext s ctx cur v = smwinWord (fld v 0 48) true false := by
  unfold smwinNext
  dsimp only
  rw [if_neg (Bool.eq_false_iff.1 disabled), on]
  exact if_pos bad

theorem smwinNext_of_accepted (on : bitOf v 63 = true) (good : ¬SmwinBad s ctx (fld v 0 24) (fld v 24 24)) :
    smwinNext s ctx cur v = smwinWord (fld v 0 48) (bitOf cur 62 && !bitOf v 62) true := by
  unfold smwinNext
  dsimp only
  rw [if_neg (Bool.eq_false_iff.1 disabled), on]
  exact if_neg good

end

end

/-- A window's register after a write holds what its next word says. -/
theorem execSmwinWrite_holds {s : State} {ctx x : Nat} {val : BitVec 64} {err en : Bool} (hctx : ctx < 64)
    (running : s.boot.recovery = false)
    (next : smwinNext s ctx (tabGet s.hub.smwin ctx).toNat val.toNat = smwinWord (fld x 0 48) err en) :
    ∃ new : BitVec 64, execSmwinWrite ctx val s
        = .next { s with hub := { s.hub with smwin := tabSet s.hub.smwin ctx new } }
      ∧ bitOf new.toNat 63 = en ∧ bitOf new.toNat 62 = err ∧ fld new.toNat 0 48 = fld x 0 48 := by
  have small : fld x 0 48 < 2 ^ 48 := Nat.mod_lt _ (Nat.two_pow_pos 48)
  refine ⟨BitVec.ofNat 64 (smwinWord (fld x 0 48) err en), ?_, bitOf_smwinWord_en small err en,
    bitOf_smwinWord_err small err en, fld_smwinWord small err en⟩
  rw [execSmwinWrite, if_neg (by simp only [running, Bool.false_eq_true, or_false]; omega), next]

/-! ### Captured records (R233) -/

/-- Freeing the first records of a context leaves the others' records. -/
theorem filter_ne_freeFirst (ctx : Nat) : ∀ (n : Nat) (l : List CapRec),
    (execHubRegisterWrite.freeFirst ctx n l).filter (fun r => r.ctx != ctx) = l.filter (fun r => r.ctx != ctx)
  | n, [] => by cases n <;> rfl
  | 0, r :: l => rfl
  | n + 1, r :: l => by
    rw [execHubRegisterWrite.freeFirst]
    split
    next own => rw [filter_ne_freeFirst ctx n l, List.filter_cons_of_neg (by simpa using own)]
    next => rw [List.filter_cons, List.filter_cons, filter_ne_freeFirst ctx (n + 1) l]

/-- It takes as many of the context's own as it names. -/
theorem filter_eq_freeFirst (ctx : Nat) : ∀ (n : Nat) (l : List CapRec),
    (execHubRegisterWrite.freeFirst ctx n l).filter (fun r => r.ctx == ctx) = (l.filter (fun r => r.ctx == ctx)).drop n
  | n, [] => by cases n <;> rfl
  | 0, r :: l => rfl
  | n + 1, r :: l => by
    rw [execHubRegisterWrite.freeFirst]
    split
    next own => rw [filter_eq_freeFirst ctx n l, List.filter_cons, if_pos own, List.drop_succ_cons]
    next other => rw [List.filter_cons, List.filter_cons, if_neg other, if_neg other, filter_eq_freeFirst ctx (n + 1) l]

/-! ### Registers by offset (R4, R174, R218) -/

section
variable {s : State} {who : Agent} {o v : Nat}

theorem setHub_of_not_taken (refused : hubTakes s who o = false) : setHub s who o v = s := by
  unfold setHub
  rw [refused]
  rfl

/-- A register outside the push ports is written the same by every agent that reaches it. -/
theorem setHub_of_taken (takes : hubTakes s who o = true) (below : o < 0x70000) : setHub s who o v = setHubOff s o v := by
  unfold setHub
  rw [takes, if_neg (by decide), if_neg (by omega)]

/-- A general core's write to another's push port is ignored (R174). -/
theorem setPort_of_other {k : Nat} (other : o / 0x100 ≠ 0x700 + k) : setPort s k o v = s := if_pos other

/-- GO of a core's own push port, written 1 (R174). -/
theorem setPort_go {h : Nat} (go : o = 0x70000 + 0x100 * h + 0x48) (one : bitOf v 63 = true) : setPort s h o v
    = { s with hub := { s.hub with
        ports := tabSet s.hub.ports o (BitVec.ofNat 64 (setFld (tabGet s.hub.ports o).toNat 63 1 1)) } } := by
  unfold setPort
  dsimp only
  rw [if_neg (by omega), if_neg (by omega), if_neg (by omega), if_pos ⟨by omega, one⟩]

/-- A general core's write in the range of the push ports reaches its own port alone (R174). -/
theorem setHub_port {h : Nat} (core : h < 16) (running : s.boot.recovery = false) (low : 0x70000 ≤ o) (high : o < 0x71000) :
    setHub s (.general h) o v = setPort s h o v := by
  have takes : hubTakes s (.general h) o = true := by
    rw [hubTakes, running, decide_eq_true core]
    rfl
  unfold setHub
  rw [takes, if_neg (by decide), if_pos ⟨low, high⟩]

/-- The host's writes reach the bias registers alone (R146, R218). -/
theorem hubTakes_host_of_not_bias (flip : o ≠ 0x50000) (base : o ≠ 0x50008) : hubTakes s .host o = false := by
  rw [hubTakes, beq_eq_false_iff_ne.2 flip, beq_eq_false_iff_ne.2 base]
  exact Bool.and_false _

/-- The push port of one general core is out of the reach of every other agent (R174). -/
theorem setHub_port_of_other {h : Nat} (core : h < 16) (go : o = 0x70000 + 0x100 * h + 0x48) (other : who ≠ .general h) :
    setHub s who o v = s := by
  cases who with
  | manager => rfl
  | host => exact setHub_of_not_taken (hubTakes_host_of_not_bias (by omega) (by omega))
  | general k =>
    have differs : k ≠ h := fun same => other (congrArg Agent.general same)
    by_cases takes : hubTakes s (.general k) o = true
    · unfold setHub
      rw [takes, if_neg (by decide), if_pos (by omega)]
      exact setPort_of_other (by omega)
    · exact setHub_of_not_taken (Bool.eq_false_iff.2 takes)

theorem setHub_biasbase (takes : hubTakes s who 0x50008 = true) : setHub s who 0x50008 v
    = { s with hub := { s.hub with biasbase := BitVec.ofNat 64 (fld v 12 40 * 2 ^ 12) } } := by
  rw [setHub_of_taken takes (by decide), setHubOff, if_neg (by decide), if_neg (by decide), if_pos rfl]

/-- A write without GO leaves what BIASFLIP holds of GO, and clears ERR where it writes 1 (R218). -/
theorem setHub_biasflip (takes : hubTakes s who 0x50000 = true) (still : bitOf v 63 = false) : setHub s who 0x50000 v
    = { s with hub := { s.hub with biasflip := BitVec.ofNat 64 (fld s.hub.biasflip.toNat 63 1 * 2 ^ 63
        + (if bitOf s.hub.biasflip.toNat 62 && !bitOf v 62 then 2 ^ 62 else 0) + fld v 12 40 * 2 ^ 12 + fld v 0 1) } } := by
  rw [setHub_of_taken takes (by decide), setHubOff, if_neg (by decide), if_pos rfl]
  exact if_neg (Bool.eq_false_iff.1 still)

end

/-- Settles O57: each register has a lemma above that names the branch its write takes; the rest of Mihus's writes differ from
their definitions by the test for recovery alone. -/
theorem hubRegistersAreWritten : Obligations.HubRegistersAreWritten := by
  unfold Obligations.HubRegistersAreWritten
  intro s die win ctx b n h val who d recs running cur new w err flip go
  have answers : ¬s.boot.recovery = true := Bool.eq_false_iff.1 running
  refine ⟨fun hdie hwin => ?windows, fun refused => ?refused, fun size other closed => ?taken, fun hctx => ?smwin, ?capture,
    fun o low high => ?host, ?watchdog, fun due => ?expired, fun early => ?early, rfl, fun takes => ?base,
    fun takes kept => ?bias, fun core one => ?port, fun hctx => ?contexts, fun low high => ?step, fun low high => ?measure,
    ?rollback, ?replay⟩
  case windows =>
    refine ⟨fun enabled => ⟨?_, ?_⟩, fun disabled => ⟨fun bad => ?_, fun good => ?_, ?_⟩⟩
    · exact execFormatWindowEnable_of_enabled val enabled
    · exact execFormatWindowDisable_of_enabled hdie hwin running enabled
    · exact (execFormatWindowEnable_of_disabled hdie hwin running disabled).trans (if_pos bad)
    · exact (execFormatWindowEnable_of_disabled hdie hwin running disabled).trans (if_neg (Bool.eq_false_iff.1 good))
    · exact execFormatWindowDisable_of_disabled hdie hwin running disabled
  case refused => exact execSmcarveWrite_of_refused refused
  case taken => exact execSmcarveWrite_of_taken running size other closed
  case smwin =>
    intro was base len bad holds err
    have checked : SmwinBad s ctx base len ↔ bad := by
      simp only [SmwinBad, smOverlaps_iff, bad]
    refine ⟨fun enabled => ?_, fun disabled off => ?_, fun disabled on => ⟨fun refused => ?_, fun accepted => ?_⟩⟩
    · exact execSmwinWrite_holds hctx running (smwinNext_of_enabled enabled)
    · exact execSmwinWrite_holds hctx running (smwinNext_of_disabled disabled off)
    · exact execSmwinWrite_holds hctx running (smwinNext_of_refused disabled on (checked.2 refused))
    · exact execSmwinWrite_holds hctx running (smwinNext_of_accepted disabled on (mt checked.1 accepted))
  case capture => exact ⟨_, if_neg answers, filter_ne_freeFirst ctx n s.capture, filter_eq_freeFirst ctx n s.capture⟩
  case host => exact congrArg _ (setHub_of_not_taken (hubTakes_host_of_not_bias (by omega) (by omega)))
  case watchdog => exact if_neg answers
  case expired => exact if_pos due
  case early => exact if_neg (Nat.not_le.2 early)
  case base => exact congrArg _ (setHub_biasbase takes)
  case bias => exact congrArg _ (setHub_biasflip takes kept)
  case port =>
    refine ⟨?_, fun other => congrArg _ (setHub_port_of_other core rfl other)⟩
    exact congrArg _ ((setHub_port core running (by omega) (by omega)).trans (setPort_go rfl one))
  case contexts => exact ⟨if_neg answers, if_neg answers⟩
  case step =>
    have written : setStep s.boot n val.toNat = writeStep s.boot n (BitVec.ofNat 8 (fld val.toNat 0 5)) := if_pos ⟨low, high⟩
    rw [← written]
    exact if_neg answers
  case measure => exact (if_neg answers).trans (congrArg _ (if_pos ⟨low, high⟩))
  case rollback => exact if_neg answers
  case replay =>
    intro loaded others
    refine ⟨fun launches => ?_, fun ends => ?_⟩
    · have listed : (if val = 0 then others else n :: others) = n :: others := if_neg launches
      rw [← listed]
      exact if_neg answers
    · have unlisted : (if val = 0 then others else n :: others) = others := if_pos ends
      rw [← unlisted]
      exact if_neg answers

end Sys2Proof.Machine
end

section
/-! SUPPORT. The queue instructions, from the checks of their operands to the operation that they post (R171 to R175, R343 to
R345). -/

namespace Sys2Proof.Machine

open Sys2Proof

/-! ### The checks of registers and of their values -/

section
variable (e : Env) (act : Mask) {n k : Nat}

/-- A span beyond the frame is an illegal operand (R172). -/
theorem spanFault_outside (outside : e.g.ctx.inFrame n k = false) :
    spanFault e act n k = some { cause := 0x02, lanes := act } := by
  rw [spanFault, outside]
  rfl

/-- A span in the frame with an unwaited register is an unwaited operand (R106). -/
theorem spanFault_unwaited (inside : e.g.ctx.inFrame n k = true) (unwaited : e.g.unwaited n k = true) :
    spanFault e act n k = some { cause := 0x06, lanes := act } := by
  rw [spanFault, inside, unwaited]
  rfl

theorem spanFault_none (inside : e.g.ctx.inFrame n k = true) (waited : e.g.unwaited n k = false) :
    spanFault e act n k = none := by
  rw [spanFault, inside, waited]
  rfl

end

section
variable {e : Env} {gd : Guard} {act : Mask} {ins : List Inp}

/-- A source or a destination beyond the frame is the first cause of all (R183). -/
theorem operandFault_outside {spans : List (Nat × Nat)} {preds : List Nat}
    (outside : (∃ i ∈ ins, i.outside e.g.ctx = true) ∨ ∃ p ∈ spans, e.g.ctx.inFrame p.1 p.2 = false) :
    operandFault e gd act ins spans preds = some { cause := 0x02, lanes := if act = 0 then e.live else act } := by
  have found : (ins.any (fun i => i.outside e.g.ctx) || spans.any (fun p => !e.g.ctx.inFrame p.1 p.2)) = true := by
    simpa only [Bool.or_eq_true, List.any_eq_true, Bool.not_eq_true'] using outside
  exact if_pos found

variable {l : Nat} {bad : Nat → Bool} {t : Option Trap} (lowest : lowestLane act = some l)
include lowest

/-- Where the value in the lowest active lane is legal, the operands decide alone (R183). -/
theorem valueFault_of_legal_lane (legal : bad l = false) : valueFault e gd act ins bad t = t := by
  unfold valueFault
  rw [lowest]
  dsimp only
  rw [legal, Bool.false_and, Bool.false_and, if_neg Bool.false_ne_true]

/-- An illegal value that can be read comes before every operand trap but an illegal operand's (R183). -/
theorem valueFault_of_illegal_lane (illegal : bad l = true) (readable : Clear e gd (lowMask act) ins [] [])
    (late : ∀ x, t = some x → x.cause ≠ 0x02) :
    valueFault e gd act ins bad t = some { cause := 0x02, lanes := maskOf (fun j => j == l) } := by
  unfold valueFault
  rw [lowest]
  dsimp only
  rw [illegal, show operandFault e gd (lowMask act) ins [] [] = none from readable]
  cases t with
  | none => rfl
  | some x => exact if_pos (bne_iff_ne.2 (late x rfl))

end

/-! ### What a queue instruction does -/

/-- A trap of the operands, nothing without an active lane, else what follows for the lowest one. -/
def afterOperands (s : State) (e : Env) (fault : Option Trap) (lane : Option Nat) (k : Nat → State) : State :=
  match fault with
  | some t => takeTrap s e t
  | none =>
    match lane with
    | none => advance s e e.g
    | some l => k l

section
variable (s : State) (e : Env) (k : Nat → State)

@[simp] theorem afterOperands_fault (t : Trap) (lane : Option Nat) : afterOperands s e (some t) lane k = takeTrap s e t := rfl
@[simp] theorem afterOperands_no_lane : afterOperands s e none none k = advance s e e.g := rfl
@[simp] theorem afterOperands_lane (l : Nat) : afterOperands s e none (some l) k = k l := rfl

end

/-- What qpush does with a queue that passes (R345). -/
def pushTo (e : Env) (act : Mask) (p : Fin 8) (b : Fin 384) (s : State) (q : UserQ) : State :=
  if e.g.full .task then stall s e
  else
    advance (soil s e.t.uid) e (e.g.addOp .task (.qpush p.val q.head q.esz q.cap q.ring)
      ((lanesOf act).map (fun l => queueAcc l q.head q.ptr (e.g.main.frame.vs b.val l (q.esz / 4)))) .acqrel .device e.pc
      (predUnw p))

/-- What qpush.task does with a die word that passes (R345). -/
def pushTask (e : Env) (act : Mask) (p : Fin 8) (b : Fin 384) (s : State) (w : Nat) : State :=
  if e.g.full .task then stall s e
  else
    advance (soil s e.t.uid) e (e.g.addOp .task (.qpushTask p.val (w % 4) (w / 4))
      ((lanesOf act).map (fun l =>
        { queueAcc l 0 0 (e.g.main.frame.vs b.val l 16) with loc := .tmem e.t.uid 0, size := 0 })) .acqrel .device e.pc
      (predUnw p))

/-- What qpop does with a queue that passes (R343). -/
def popFrom (e : Env) (act : Mask) (d : Fin 384) (s : State) (q : UserQ) : State :=
  if e.g.full .task || captureFull s e.t then stall s e
  else
    advance s e (e.g.addOp .task (.qpop d.val q.head q.esz q.cap q.ring)
      ((lanesOf act).map (fun l => queueAcc l q.head q.ptr 0)) .weak .device e.pc [(d.val, q.esz / 4, false)])

section
variable {s : State} {e : Env} (gd : Guard)

theorem exec_qpush_of_issues (issues : Issues 0x93 s e) (p : Fin 8) (a b : Fin 384) : exec (.qpush gd p a b) s
    = .next (afterOperands (popIssue s) e
      (operandFault e gd (e.active gd) [inX 64 (.v a), inX 64 (.v b)] [] [p.val]) (lowestLane (e.active gd))
      (fun l => withQueue (popIssue s) e (e.active gd) b.val l (readInp e (inX 64 (.v a)) l) false
        (pushTo e (e.active gd) p b))) := by
  rw [exec_qpush, execQpush, onIssue_issues issues]
  rfl

theorem exec_qpushTask_of_issues (issues : Issues 0x93 s e) (p : Fin 8) (a b : Fin 384) : exec (.qpushTask gd p a b) s
    = .next (afterOperands (popIssue s) e
      (valueFault e gd (e.active gd) [inX 32 (.v a)] (fun l => decide (32 ≤ readInp e (inX 32 (.v a)) l))
        (operandFault e gd (e.active gd) [inX 32 (.v a)] [(b.val, 16)] [p.val])) (lowestLane (e.active gd))
      (fun l => pushTask e (e.active gd) p b (popIssue s) (readInp e (inX 32 (.v a)) l))) := by
  rw [exec_qpushTask, execQpushTask, onIssue_issues issues]
  rfl

theorem exec_qpop_of_issues (issues : Issues 0x94 s e) (d a : Fin 384) : exec (.qpop gd d a) s
    = .next (afterOperands (popIssue s) e (operandFault e gd (e.active gd) [inX 64 (.v a)] [(d.val, 2)] [])
      (lowestLane (e.active gd))
      (fun l => withQueue (popIssue s) e (e.active gd) d.val l (readInp e (inX 64 (.v a)) l) true
        (popFrom e (e.active gd) d))) := by
  rw [exec_qpop, execQpop, onIssue_issues issues]
  rfl

end

/-- Settles O38: each instruction is its operand checks, then the queue's, then an operation of the task class or a stall, and
every clause names the branch that its hypotheses take. -/
theorem queueInstructionsIssue : Obligations.QueueInstructionsIssue := by
  unfold Obligations.QueueInstructionsIssue
  intro s s' e gd p d a b l q act lane ptr w record
  have idle (noLane : act = 0) : lowestLane (e.active gd) = none := by
    rw [show e.active gd = 0 from noLane, lowestLane_zero]
  refine ⟨fun issues clear => ?push, fun issues clear => ?task, fun issues clear => ?pop, fun n k => ?span,
    fun x => ?operands, fun outside => ?beyondEntry, fun outside => ?beyondDst, fun lowest bad readable late issues => ?dieWord⟩
  case push =>
    rw [exec_qpush_of_issues gd issues, show operandFault e gd (e.active gd) _ _ _ = none from clear]
    refine ⟨fun noLane => by rw [idle noLane, afterOperands_no_lane], fun lowest queue span => ?_⟩
    rw [show lowestLane (e.active gd) = some l from lowest, afterOperands_lane, withQueue_of queue span]
    exact ⟨fun room => congrArg _ (if_neg (Bool.eq_false_iff.1 room)), fun full => congrArg _ (if_pos full)⟩
  case task =>
    rw [exec_qpushTask_of_issues gd issues, show operandFault e gd (e.active gd) _ _ _ = none from clear]
    have legal (lowest : lowestLane act = some l) (small : w < 32) :
        valueFault e gd (e.active gd) [inX 32 (.v a)] (fun l => decide (32 ≤ readInp e (inX 32 (.v a)) l)) none = none :=
      valueFault_of_legal_lane lowest (decide_eq_false (Nat.not_le.2 small))
    refine ⟨fun noLane => ?_, fun lowest small room => ?_, fun lowest small full => ?_⟩
    · rw [valueFault_no_lane noLane, idle noLane, afterOperands_no_lane]
    · rw [legal lowest small, show lowestLane (e.active gd) = some l from lowest, afterOperands_lane]
      exact congrArg _ (if_neg (Bool.eq_false_iff.1 room))
    · rw [legal lowest small, show lowestLane (e.active gd) = some l from lowest, afterOperands_lane]
      exact congrArg _ (if_pos full)
  case pop =>
    rw [exec_qpop_of_issues gd issues, show operandFault e gd (e.active gd) _ _ _ = none from clear]
    refine ⟨fun noLane => by rw [idle noLane, afterOperands_no_lane], fun lowest queue span => ?_⟩
    rw [show lowestLane (e.active gd) = some l from lowest, afterOperands_lane, withQueue_of queue span]
    refine ⟨fun room kept => congrArg _ (if_neg ?_), fun full => congrArg _ (if_pos (Bool.or_eq_true_iff.2 full))⟩
    rw [room, kept]
    exact Bool.false_ne_true
  case span => exact ⟨spanFault_outside e act, spanFault_unwaited e act, spanFault_none e act⟩
  case operands =>
    refine ⟨fun fault issues => ?_, fun fault issues => ?_⟩
    · rw [exec_qpush_of_issues gd issues, show operandFault e gd (e.active gd) _ _ _ = some x from fault, afterOperands_fault]
    · rw [exec_qpop_of_issues gd issues, show operandFault e gd (e.active gd) _ _ _ = some x from fault, afterOperands_fault]
  case beyondEntry =>
    have beyond : (inX 64 (.v b)).outside e.g.ctx = true := by simp [Inp.outside, inX, outside]
    exact operandFault_outside (.inl ⟨inX 64 (.v b), by simp, beyond⟩)
  case beyondDst => exact operandFault_outside (.inr ⟨(d.val, 2), by simp, outside⟩)
  case dieWord =>
    rw [exec_qpushTask_of_issues gd issues, valueFault_of_illegal_lane lowest (decide_eq_true bad) readable late, afterOperands_fault]

end Sys2Proof.Machine
end
